-- ==== Sys2Proof/Word.lean ====
section
/-! DEFINITION. The word types of the Huffman codec core (HCC): a register is 32 bits wide, a symbol and
a stream byte are 8 bits wide (00_scope.md R7, R9; 10_state.md R32). -/

namespace Sys2Proof

/-- A register of the window, and a command word (R9, R32, R110). -/
abbrev Word := BitVec 32

/-- A symbol, a stream byte, a container byte (R7 SYM_W = 8). -/
abbrev Byte := BitVec 8

/-- A byte offset into the register window, 0x00 to 0xFF (R81). -/
abbrev Offset := BitVec 8

/-- A bit string in emission order, `true` for 1 (R10). -/
abbrev BitString := List Bool

end Sys2Proof
end

