-- ==== Sys2Proof/Syntax.lean ====
section
/-! DEFINITION. The command words of the HCC as syntax: one constructor per row of
spec/opcode_table.json (30_encoding.md R111, R112). -/

namespace Sys2Proof

/-- The instruction set: the eleven commands (R111) and the three rows of the illegal space (R112).
No command has an operand (R110, R120); an illegal word keeps the bits that make it illegal. -/
inductive Instr where
  /-- 0x0 NOP (R312). -/
  | nop
  /-- 0x1 CLEAR (R313). -/
  | clear
  /-- 0x2 SCAN (R150). -/
  | scan
  /-- 0x3 BUILD (R175). -/
  | build
  /-- 0x4 GENCODE (R200). -/
  | gencode
  /-- 0x5 EMIT_HEADER (R220). -/
  | emitHeader
  /-- 0x6 PACK (R252). -/
  | pack
  /-- 0x7 PARSE_HEADER (R222). -/
  | parseHeader
  /-- 0x8 UNPACK (R282). -/
  | unpack
  /-- 0x9 COMPRESS (R254). -/
  | compress
  /-- 0xA DECOMPRESS (R286). -/
  | decompress
  /-- OP = 0xB, bits 31..4 any (R112). -/
  | illegalOpB (rsv : BitVec 28)
  /-- OP = 0xC + lo, bits 31..4 any (R112). -/
  | illegalOpCtoF (lo : BitVec 2) (rsv : BitVec 28)
  /-- OP = op in 0x0..0xA with bits 31..4 not all 0 (R112). -/
  | illegalReserved (op : BitVec 4) (rsv : BitVec 28)
deriving DecidableEq, Repr

end Sys2Proof
end

