-- ==== Sys2Proof/WellFormed.lean ====
section
/-! DEFINITION. When a term of `Instr` stands for a command word of its own row. The three illegal rows
of the table overlap; `illegalReserved` takes only the words that the other rows leave (R112, log entry 4). -/

namespace Sys2Proof

/-- A reserved-bits word has an opcode of the legal range and a nonzero reserved field (R112). -/
def Instr.wellFormed : Instr → Bool
  | .nop => true
  | .clear => true
  | .scan => true
  | .build => true
  | .gencode => true
  | .emitHeader => true
  | .pack => true
  | .parseHeader => true
  | .unpack => true
  | .compress => true
  | .decompress => true
  | .illegalOpB _ => true
  | .illegalOpCtoF _ _ => true
  | .illegalReserved op rsv => op.toNat ≤ 10 && rsv != 0

end Sys2Proof
end

