-- ==== Sys2Proof/Decode.lean ====
section
/-! DEFINITION. Decoding and encoding of command words (30_encoding.md R110 to R112), from the opcode
table's rows. A command word is one 32-bit register value, so it has no byte order (R86). Decoding is
total: every word that is no command is one of the illegal rows, which are instructions too. -/

namespace Sys2Proof

/-- One row of the opcode table: its mnemonic as the table spells it, its match and its mask. -/
structure OpcodeRow where
  mnemonic : String
  pattern : Word
  mask : Word
deriving DecidableEq, Repr

/-- The row of spec/opcode_table.json that an instruction stands for. -/
def Instr.row : Instr → OpcodeRow
  | .nop => ⟨"NOP", 0x00000000#32, 0xFFFFFFFF#32⟩
  | .clear => ⟨"CLEAR", 0x00000001#32, 0xFFFFFFFF#32⟩
  | .scan => ⟨"SCAN", 0x00000002#32, 0xFFFFFFFF#32⟩
  | .build => ⟨"BUILD", 0x00000003#32, 0xFFFFFFFF#32⟩
  | .gencode => ⟨"GENCODE", 0x00000004#32, 0xFFFFFFFF#32⟩
  | .emitHeader => ⟨"EMIT_HEADER", 0x00000005#32, 0xFFFFFFFF#32⟩
  | .pack => ⟨"PACK", 0x00000006#32, 0xFFFFFFFF#32⟩
  | .parseHeader => ⟨"PARSE_HEADER", 0x00000007#32, 0xFFFFFFFF#32⟩
  | .unpack => ⟨"UNPACK", 0x00000008#32, 0xFFFFFFFF#32⟩
  | .compress => ⟨"COMPRESS", 0x00000009#32, 0xFFFFFFFF#32⟩
  | .decompress => ⟨"DECOMPRESS", 0x0000000A#32, 0xFFFFFFFF#32⟩
  | .illegalOpB _ => ⟨"ILLEGAL__OP_0xB", 0x0000000B#32, 0x0000000F#32⟩
  | .illegalOpCtoF _ _ => ⟨"ILLEGAL__OP_0xC-0xF", 0x0000000C#32, 0x0000000C#32⟩
  | .illegalReserved _ _ => ⟨"ILLEGAL__reserved_bits_set", 0x00000000#32, 0x00000000#32⟩

/-- The OP field, bits 3..0 of a command word (R110). -/
def opField (w : Word) : BitVec 4 := w.extractLsb' 0 4

/-- The reserved field, bits 31..4 of a command word (R110). -/
def rsvField (w : Word) : BitVec 28 := w.extractLsb' 4 28

/-- A command word from its two fields (R110). -/
def joinFields (rsv : BitVec 28) (op : BitVec 4) : Word := rsv ++ op

/-- The eleven commands, in the order of R111. -/
def commands : List Instr :=
  [.nop, .clear, .scan, .build, .gencode, .emitHeader, .pack, .parseHeader, .unpack, .compress,
   .decompress]

/-- A word that is no command, split over the table's illegal rows: OP = 0xB, OP = 0xC to 0xF, else
the reserved bits are what makes it illegal (R112; log entry 4). -/
def illegalWord (w : Word) : Instr :=
  if opField w = 0xB#4 then .illegalOpB (rsvField w)
  else if (opField w).extractLsb' 2 2 = 3#2 then
    .illegalOpCtoF ((opField w).extractLsb' 0 2) (rsvField w)
  else .illegalReserved (opField w) (rsvField w)

/-- "A word is legal only if it equals the match of one of the eleven command rows exactly; every
other word is illegal" (opcode table; R111, R112). -/
def decode (w : Word) : Instr :=
  (commands.find? fun i => i.row.pattern == w).getD (illegalWord w)

/-- The command word of an instruction, put together from the fields of R110 and the opcode map of
R111. -/
def encode : Instr → Word
  | .illegalOpB rsv => joinFields rsv 0xB#4
  | .illegalOpCtoF lo rsv => joinFields rsv (3#2 ++ lo)
  | .illegalReserved op rsv => joinFields rsv op
  | .nop => joinFields 0#28 0x0#4
  | .clear => joinFields 0#28 0x1#4
  | .scan => joinFields 0#28 0x2#4
  | .build => joinFields 0#28 0x3#4
  | .gencode => joinFields 0#28 0x4#4
  | .emitHeader => joinFields 0#28 0x5#4
  | .pack => joinFields 0#28 0x6#4
  | .parseHeader => joinFields 0#28 0x7#4
  | .unpack => joinFields 0#28 0x8#4
  | .compress => joinFields 0#28 0x9#4
  | .decompress => joinFields 0#28 0xA#4

/-- What the decoder reads from an instruction whose bits are `w`: a command word is exactly 32 bits
(R110), and bits above `nbits` are 0. -/
def decodeTableWord (nbits w : Nat) : Option Instr :=
  if nbits ≤ 32 ∧ w < 2 ^ nbits then some (decode (BitVec.ofNat 32 w)) else none

end Sys2Proof
end

