-- ==== Sys2Proof/Config.lean ====
section
/-! DEFINITION. What one build of the HCC fixes (00_scope.md R7; 92_eei_decisions.md D9, D40) and the
values the spec leaves free (70_reset_and_hazards.md R387). -/

namespace Sys2Proof

/-- The implementation parameters a model takes as arguments (R7): CNT_W, 1 to 32, and OUT_BUF, at
least 1. Both bounds hold by type. PQ_IMPL is not observable (R174) and has no parameter here.
Log entries 1 and 2. -/
structure Params where
  /-- CNT_W − 1. -/
  cntWPred : Fin 32
  /-- OUT_BUF − 1. -/
  outBufExtra : Nat
deriving DecidableEq, Repr

/-- CNT_W: width of a frequency count, a node weight and a pass length (R7, D9). -/
def Params.cntW (p : Params) : Nat := p.cntWPred.val + 1

/-- The largest number of bytes in a pass, 2^CNT_W − 1 (R8, R150). -/
def Params.passLimit (p : Params) : Nat := 2 ^ p.cntW - 1

/-- OUT_BUF: how many offered, untaken output bytes the core may hold (R83, D40). -/
def Params.outBuf (p : Params) : Nat := p.outBufExtra + 1

/-- Free: OUT_BUF − 1 of the machine after `State.reset` (D40 leaves OUT_BUF open). No body: no proof
can use a particular value. Log entry 2. -/
opaque Config.outBufExtra : Nat

/-- Free: what a read of a window register returns while BUSY = 1 (R387). The first argument is
`State.ticks`, the second the register's offset. No body. Log entry 3. -/
opaque Config.freeRead : Nat → Offset → Word

/-- HCC-1: CNT_W = 32 (R7); OUT_BUF free. -/
def Config.hcc1 : Params := { cntWPred := 31, outBufExtra := Config.outBufExtra }

end Sys2Proof
end

