-- ==== Sys2Proof/Machine/State.lean ====
section
/-! DEFINITION. The state of one HCC and of the host that drives it, as plain data (10_state.md), the
reasons a step can stop, and the state after reset (70_reset_and_hazards.md R380). -/

namespace Sys2Proof.Machine

/-! ## The pieces -/

/-- STATUS.TREE_KIND (R35, R64). -/
inductive TreeKind where
  | noTree
  | emptyTree
  | leaf
  | multi
deriving DecidableEq, Repr

/-- WSTATE, the decode walk state (R60). -/
inductive WState where
  | atRoot
  | descending
deriving DecidableEq, Repr

/-- An item of the input stream (R82). -/
inductive Item where
  | byte (b : Byte)
  | eos
deriving DecidableEq, Repr

/-- The primitive commands that run (R111). CLEAR is no phase of OPSTATE: it takes effect at its write. -/
inductive Prim where
  | nop
  | scan
  | build
  | gencode
  | emitHeader
  | pack
  | parseHeader
  | unpack
deriving DecidableEq, Repr

/-- A command that OPSTATE can hold: a primitive or one of the two composites (R31). -/
inductive Op where
  | prim (p : Prim)
  | compress
  | decompress
deriving DecidableEq, Repr

/-- OPSTATE (R31). -/
inductive OpState where
  | idle
  | run (op : Op) (phase : Nat)
deriving DecidableEq, Repr

/-- The error causes of R341. -/
inductive Cause where
  | noCause
  | illegalCmd
  | sequence
  | lengthOverflow
  | noCode
  | passMismatch
  | mhBadMarker
  | mhTruncated
  | mhNoSentinel
  | mhBadPad
  | mhDupSymbol
  | mhNodeLimit
  | truncatedStream
  | badCode
  | padNonzero
  | emptyPayload
deriving DecidableEq, Repr

/-- An entry of the node arena (R56). A Leaf has no children and an Internal node has no symbol; where
R56 gives the absent field the value 0, the register reads give it. -/
inductive Node where
  | leaf (sym : Byte) (weight : Nat)
  | internal (weight left right : Nat)
deriving DecidableEq, Repr

/-- An entry of the work-list STACK (R61): what one pending call of a recursive rule still has to do. -/
inductive StackEntry where
  /-- `Assign(i, p)` of GENCODE (R201). -/
  | assign (i : Nat) (p : BitString)
  /-- `Ser(i)` of EMIT_HEADER (R220). -/
  | ser (i : Nat)
  /-- `Parse` of the Internal node k waits for its left subtree (R223). -/
  | parseLeft (k : Nat)
  /-- `Parse` of the Internal node k, whose left subtree is l, waits for its right subtree (R223). -/
  | parseRight (k l : Nat)
deriving DecidableEq, Repr

/-- Where the running primitive stands in its rule, with the locals of the rule that are still needed
(R6, R94: the core performs the steps of a rule in the rule's order, and holds in a step that waits). -/
inductive Point where
  /-- The first line of the primitive's rule; also the value while no command runs. -/
  | atStart
  /-- SCAN's loop, at `it <- InRead()`; the local n equals SCAN_TOTAL (R150). -/
  | scanRead
  /-- BUILD's test of k and its merge loop; the local k equals NNODES (R175). -/
  | buildMerge
  /-- GENCODE's traversal, on STACK (R201). -/
  | genWalk
  /-- EMIT_HEADER's traversal, on STACK (R220). -/
  | emitNode
  /-- EMIT_HEADER has offered a LEAF_MARKER; the symbol follows. -/
  | emitSymbol (sym : Byte)
  /-- EMIT_HEADER offers the sentinel next. -/
  | emitSentinel
  /-- EMIT_HEADER offers PADBYTE next. -/
  | emitPad
  /-- PARSE_HEADER reads its first item (R222). -/
  | parseFirst
  /-- PARSE_HEADER reads a marker; nint as in R222. -/
  | parseMarker (nint : Nat)
  /-- PARSE_HEADER reads the symbol of a leaf. -/
  | parseSymbol (nint : Nat)
  /-- PARSE_HEADER reads the sentinel; root is the result of `Parse`. -/
  | parseSentinel (root : Nat)
  /-- PARSE_HEADER reads the PAD byte. -/
  | parsePad (root : Nat)
  /-- PARSE_HEADER sets HDR_PARSED next and finishes. -/
  | parseDone
  /-- PACK's loop, at `it <- InRead()`; n and nb as in R252. -/
  | packRead (n nb : Nat)
  /-- PACK puts bit j of the code of byte b next. -/
  | packBits (b : Byte) (j n nb : Nat)
  /-- PACK runs `Flush` next (R251). -/
  | packFlush
  /-- UNPACK reads the first payload item (R282). -/
  | unpackFirst
  /-- UNPACK reads the item after LOOK; lpos as in R282. -/
  | unpackNext (lpos : Nat)
  /-- UNPACK feeds bit j of byte c; cpos, last and lpos as in R282. -/
  | unpackBits (c : Byte) (cpos : Nat) (last : Bool) (lpos j : Nat)
  /-- `finish` waits until every offered byte was taken (R311). -/
  | finishing
  /-- `raise` waits until every offered byte was taken (R342). -/
  | raising (c : Cause) (p : Nat)
deriving DecidableEq, Repr

/-- What a host's poll waits for: `WAIT` and `WAITIRQ` of R122. -/
inductive PollFor where
  | idle
  | irq
deriving DecidableEq, Repr

/-- One transaction of R6, or the turn of one agent to make its next one. -/
inductive Event where
  /-- The host writes a register: access width in bits, byte offset, data (R81). -/
  | write (width : Nat) (off : Offset) (v : Word)
  /-- The host reads a register: access width in bits, byte offset (R81). -/
  | read (width : Nat) (off : Offset)
  /-- The host's source begins to offer one more item (R82, R121). It stays offered until the core consumes
  it or the host withdraws it (log entry 22). -/
  | send (it : Item)
  /-- The host removes the oldest item of its queue that the core has not consumed (R391). The spec leaves
  the way to the host (I22): one item at a time, from the front, is the model's choice (log entry 22). -/
  | withdraw
  /-- The host's sink takes one offered byte, if there is one (R83). -/
  | take
  /-- The core makes its next step, if it can (R6). -/
  | core
  /-- The `rst` input (R380). -/
  | reset
  /-- The host polls until the condition holds (R122). -/
  | poll (c : PollFor)
deriving DecidableEq, Repr

/-! ## The state -/

/-- The HCC and its host. INVENTORY.md lists each field with the rule that names it and its reset value. -/
structure State where
  /-- The build's parameters (R7). No step changes them. -/
  params : Params
  /-- OPSTATE (R31); STATUS.BUSY is `opstate ≠ idle` (R35). -/
  opstate : OpState
  /-- The place in the running rule. -/
  point : Point
  /-- `pos`, the command-local position: the number of items the running primitive has consumed, exact (R31, R12,
  R13). `State.posReg` is its CNT_W + 1 bits (R31; log entry 14). -/
  pos : Nat
  /-- The item `InRead()` has returned and its `ipos`, until the rule has acted on it (R13). -/
  item : Option (Item × Nat)
  /-- CMD.OP (R34). -/
  cmdOp : BitVec 4
  /-- STATUS.DONE (R35). -/
  done : Bool
  /-- STATUS.ERR (R35). -/
  err : Bool
  /-- STATUS.REJECT (R35). -/
  reject : Bool
  /-- STATUS.TREE_KIND (R35, R64). -/
  treeKind : TreeKind
  /-- STATUS.CODES_VALID (R35). -/
  codesValid : Bool
  /-- STATUS.HDR_PARSED (R35). -/
  hdrParsed : Bool
  /-- ERR.CAUSE (R36, R341). -/
  cause : Cause
  /-- ERR.ERR_OP (R36). -/
  errOp : BitVec 4
  /-- ERR_POS (R37). -/
  errPos : Word
  /-- IRQ_EN.DONE_IE (R38). -/
  doneIe : Bool
  /-- IRQ_EN.ERR_IE (R38). -/
  errIe : Bool
  /-- NSYM (R39). -/
  nsym : Nat
  /-- NNODES (R40). -/
  nnodes : Nat
  /-- ROOT.ROOT_IDX (R41). -/
  rootIdx : Nat
  /-- ROOT.ROOT_VALID (R41). -/
  rootValid : Bool
  /-- IN_COUNT (R42). -/
  inCount : Word
  /-- OUT_COUNT (R43). -/
  outCount : Word
  /-- SCAN_TOTAL (R44). -/
  scanTotal : Nat
  /-- PBITS (R45). -/
  pbits : Nat
  /-- PAD.ENC_PAD (R46). -/
  encPad : BitVec 3
  /-- PAD.HDR_PAD (R46). -/
  hdrPad : BitVec 3
  /-- SEL (R47). -/
  sel : BitVec 9
  /-- CODE_WSEL (R50). -/
  codeWsel : BitVec 3
  /-- FREQ[0..255] (R55). -/
  freq : Vector Nat 256
  /-- NODE[0..510] (R56). What an entry at NNODES or above holds is the model's choice (log entry 24). -/
  node : Vector Node 511
  /-- PQ, a set of arena indices, listed in ascending order (R57). -/
  pq : List Nat
  /-- LEN[0..255] (R58). -/
  len : Vector Nat 256
  /-- BITS[0..255] (R58). What an entry with LEN = 0 holds is the model's choice (log entry 24). -/
  bits : Vector BitString 256
  /-- ACC (R59). -/
  acc : Byte
  /-- NACC, 0 to 7 (R59). -/
  nacc : BitVec 3
  /-- CUR (R60). -/
  cur : Nat
  /-- WSTATE (R60). -/
  wstate : WState
  /-- STACK, the top first (R61). -/
  stack : List StackEntry
  /-- SEEN[0..255] (R62). -/
  seen : Vector Bool 256
  /-- LOOK (R63). -/
  look : Option Byte
  /-- The offered, untaken output bytes, oldest first (R83). -/
  out : List Byte
  /-- The items the host's source offers and the core has not consumed, oldest first (R82, R121). -/
  inQ : List Item
  /-- The host's output record: the bytes its sink has taken, oldest first (R121). -/
  outRec : List Byte
  /-- What happens next, in order: the host's accesses and the turns of the agents (R6, R95). -/
  script : List Event
  /-- What the host's register reads returned, oldest first. -/
  readLog : List (Offset × Word)
  /-- The model's counter of steps that are no register read; it keys the free reads (log entry 3). -/
  ticks : Nat
deriving DecidableEq, Repr

/-! ## Why a step can stop -/

/-- The stuck states of the spec. Nothing else stops the machine: an error of the HCC is a state (R342). -/
inductive Fault where
  /-- Raised by `accessFault`: a register access whose offset is no multiple of 4. "The model gives it no
  step, and the host that issues one is stuck" (R87). Safe. -/
  | misalignedAccess
  /-- Raised by `accessFault`: a register access of another width than 32 bits (R87). Safe. -/
  | accessWidth
deriving DecidableEq, Repr

/-- Why an instruction is refused. -/
inductive Refusal where
  /-- Raised by an arm of `exec` whose instruction has no meaning yet; no arm does now. Safe. -/
  | notModelled (mnemonic : String)
deriving DecidableEq, Repr

/-! ## Reset -/

/-- The machine right after reset, as the table of R380 gives it, with an idle host (log entry 5). NODE and
BITS are unspecified there and hidden (I12); they hold zeros here (log entry 6). -/
def State.reset : State where
  params := Config.hcc1
  opstate := .idle
  point := .atStart
  pos := 0
  item := none
  cmdOp := 0
  done := false
  err := false
  reject := false
  treeKind := .noTree
  codesValid := false
  hdrParsed := false
  cause := .noCause
  errOp := 0
  errPos := 0
  doneIe := false
  errIe := false
  nsym := 0
  nnodes := 0
  rootIdx := 0
  rootValid := false
  inCount := 0
  outCount := 0
  scanTotal := 0
  pbits := 0
  encPad := 0
  hdrPad := 0
  sel := 0
  codeWsel := 0
  freq := Vector.replicate 256 0
  node := Vector.replicate 511 (.leaf 0 0)
  pq := []
  len := Vector.replicate 256 0
  bits := Vector.replicate 256 []
  acc := 0
  nacc := 0
  cur := 0
  wstate := .atRoot
  stack := []
  seen := Vector.replicate 256 false
  look := none
  out := []
  inQ := []
  outRec := []
  script := []
  readLog := []
  ticks := 0

end Sys2Proof.Machine
end

