-- ==== Sys2Proof/Machine/Ops.lean ====
section
/-! DEFINITION. The operations that the rules share: the internal memories (10_state.md R55 to R58), the
streams (20_memory.md R82, R83), the helpers of 46_control.md R320, and how a command starts, ends,
raises an error and is cleared (R310, R311, R313; 60_exceptions.md R342). -/

namespace Sys2Proof.Machine

/-! ## Codes -/

/-- The opcode of a primitive (R111). -/
def Prim.code : Prim → BitVec 4
  | .nop => 0x0
  | .scan => 0x2
  | .build => 0x3
  | .gencode => 0x4
  | .emitHeader => 0x5
  | .pack => 0x6
  | .parseHeader => 0x7
  | .unpack => 0x8

/-- The opcode of a command (R111). -/
def Op.code : Op → BitVec 4
  | .prim p => p.code
  | .compress => 0x9
  | .decompress => 0xA

/-- ERR.CAUSE of a cause (R341). -/
def Cause.code : Cause → Byte
  | .noCause => 0x00
  | .illegalCmd => 0x01
  | .sequence => 0x02
  | .lengthOverflow => 0x03
  | .noCode => 0x04
  | .passMismatch => 0x05
  | .mhBadMarker => 0x10
  | .mhTruncated => 0x11
  | .mhNoSentinel => 0x12
  | .mhBadPad => 0x13
  | .mhDupSymbol => 0x14
  | .mhNodeLimit => 0x15
  | .truncatedStream => 0x20
  | .badCode => 0x21
  | .padNonzero => 0x22
  | .emptyPayload => 0x23

/-- The primitive that runs in a phase of a command (R31, R254, R286). -/
def currentPrim : Op → Nat → Prim
  | .prim p, _ => p
  | .compress, 0 => .scan
  | .compress, 1 => .build
  | .compress, 2 => .gencode
  | .compress, 3 => .emitHeader
  | .compress, _ => .pack
  | .decompress, 0 => .parseHeader
  | .decompress, _ => .unpack

/-- The last phase of a command (R311). -/
def lastPhase : Op → Nat
  | .prim _ => 0
  | .compress => 4
  | .decompress => 1

/-! ## The internal memories -/

/-- Entry b of a memory indexed by symbol (R13 `X[i]`). -/
def symGet {α : Type} (v : Vector α 256) (b : Byte) : α := v[b.toNat]'b.isLt

/-- Write entry b of a memory indexed by symbol. -/
def symSet {α : Type} (v : Vector α 256) (b : Byte) (x : α) : Vector α 256 := v.set b.toNat x b.isLt

/-- The content of an arena entry nothing has written (R56; log entry 6). -/
def Node.blank : Node := .leaf 0 0

/-- NODE[i] (R56). An index past 510 names no entry and reads as a blank one; no rule uses one. -/
def nodeGet (v : Vector Node 511) (i : Nat) : Node := (v.toList[i]?).getD Node.blank

/-- Write NODE[i]. -/
def nodeSet (v : Vector Node 511) (i : Nat) (n : Node) : Vector Node 511 := v.setIfInBounds i n

/-- NODE[i].weight (R56). -/
def Node.weight : Node → Nat
  | .leaf _ w => w
  | .internal w _ _ => w

/-- NODE[i].sym, 0 in an Internal node (R56). -/
def Node.sym : Node → Byte
  | .leaf s _ => s
  | .internal _ _ _ => 0

/-- NODE[i].left, 0 in a Leaf (R56). -/
def Node.left : Node → Nat
  | .leaf _ _ => 0
  | .internal _ l _ => l

/-- NODE[i].right, 0 in a Leaf (R56). -/
def Node.right : Node → Nat
  | .leaf _ _ => 0
  | .internal _ _ r => r

/-- NODE[i].kind = Leaf (R56). -/
def Node.isLeaf : Node → Bool
  | .leaf _ _ => true
  | .internal _ _ _ => false

/-- NODE[k] with its children set (R223). -/
def Node.withChildren (n : Node) (l r : Nat) : Node := .internal n.weight l r

/-! ## Busy and accepting -/

/-- STATUS.BUSY: 1 while OPSTATE is not IDLE (R35). -/
def State.busy (s : State) : Bool :=
  match s.opstate with
  | .idle => false
  | .run _ _ => true

/-- A command word other than CLEAR is accepted: no command runs and no error is pending (R310). -/
def State.accepting (s : State) : Bool := !s.busy && !s.err

/-! ## Helper procedures (R320) -/

/-- `InvalidateCodes()`. -/
def invalidateCodes (s : State) : State := { s with codesValid := false, pbits := 0, encPad := 0 }

/-- `InvalidateHeader()`. -/
def invalidateHeader (s : State) : State := { s with hdrParsed := false, hdrPad := 0 }

/-- `InvalidateTree()`. -/
def invalidateTree (s : State) : State :=
  invalidateHeader (invalidateCodes
    { s with treeKind := .noTree, rootValid := false, rootIdx := 0, nsym := 0, nnodes := 0 })

/-! ## Starting, finishing and failing -/

/-- What the acceptance of any command word writes (R310). -/
def acceptWord (op : BitVec 4) (s : State) : State :=
  { s with cmdOp := op, done := false, inCount := 0, outCount := 0, pos := 0 }

/-- The acceptance of a legal command other than CLEAR: BUSY <- 1, OPSTATE <- RUN(op, 0) (R310). -/
def accept (op : Op) (s : State) : State :=
  { acceptWord op.code s with opstate := .run op 0, point := .atStart }

/-- A refused CMD write: the flag REJECT and nothing else (R310, R356). -/
def refuseCommand (s : State) : State := { s with reject := true }

/-- What `finish` and `raise` both clear when the command ends (R311, R342). -/
def settle (s : State) : State :=
  { s with opstate := .idle, point := .atStart, item := none, look := none, cur := 0,
           wstate := .atRoot, acc := 0, nacc := 0, stack := [] }

/-- The end of a successful command (R311). -/
def complete (s : State) : State := { settle s with done := true }

/-- `finish` in phase ph of command op: the next phase starts, or the command waits for its output to be
taken (R311). -/
def finish (s : State) : State :=
  match s.opstate with
  | .idle => s
  | .run op ph =>
    if ph < lastPhase op then { s with opstate := .run op (ph + 1), pos := 0, point := .atStart }
    else { s with point := .finishing }

/-- `finish` past its wait. -/
def finishTurn (s : State) : State := if s.out.isEmpty then complete s else s

/-- The error state's entry: TAKING AN ERROR, with the cause, the raising opcode and the position (R342). -/
def enterError (c : Cause) (op : BitVec 4) (p : Nat) (s : State) : State :=
  { settle s with pq := [], cause := c, errOp := op, errPos := BitVec.ofNat 32 p, err := true }

/-- `raise E(p)`: the rule ends; the entry waits for the offered bytes to be taken (R342). The raising
rule's own clean-up is the caller's. -/
def raise (c : Cause) (p : Nat) (s : State) : State := { s with point := .raising c p }

/-- `raise` past its wait; ERR_OP is the running phase's primitive (R342). -/
def raiseTurn (prim : Prim) (c : Cause) (p : Nat) (s : State) : State :=
  if s.out.isEmpty then enterError c prim.code p s else s

/-- `Clear()`: the abort, and the only way out of the error state (R313, R346). -/
def clearCore (s : State) : State :=
  { invalidateTree s with
    opstate := .idle, point := .atStart, item := none, done := false, err := false, reject := false,
    cause := .noCause, errOp := 0, errPos := 0, freq := Vector.replicate 256 0, scanTotal := 0,
    len := Vector.replicate 256 0, pq := [], stack := [], look := none, acc := 0, nacc := 0, cur := 0,
    wstate := .atRoot, inCount := 0, outCount := 0, pos := 0, out := [] }

/-- The `rst` input: every piece of the HCC's state at its reset value; the host's side and the build's
parameters are no part of the HCC's state (R380). -/
def resetCore (s : State) : State :=
  { State.reset with
    params := s.params, inQ := s.inQ, outRec := s.outRec, script := s.script, readLog := s.readLog,
    ticks := s.ticks }

/-! ## The streams -/

/-- IN_COUNT counts a Byte item and no EOS (R42). -/
def countIn (it : Item) (n : Word) : Word :=
  match it with
  | .byte _ => n + 1
  | .eos => n

/-- The CNT_W + 1 bits that R31 gives `pos`. ERR_POS records the position mod 2^32 (R37), which these bits hold
wherever CNT_W is at least 31, as in HCC-1 (log entry 14). -/
def State.posReg (s : State) : BitVec (s.params.cntW + 1) := BitVec.ofNat _ s.pos

/-- The transfer of one input item: the step of `InRead()` that consumes it. With no item offered the core
holds and consumes nothing (R13, R82). -/
def receive (s : State) : State :=
  match s.inQ with
  | [] => s
  | it :: q =>
    { s with inQ := q, item := some (it, s.pos), pos := s.pos + 1,
             inCount := countIn it s.inCount }

/-- `it <- InRead()`, then `k it ipos`: one step transfers the item and the next acts on it, so that a host
access can come between them (R6, R13). -/
def awaitItem (k : Item → Nat → State → State) (s : State) : State :=
  match s.item with
  | none => receive s
  | some (it, ipos) => k it ipos { s with item := none }

/-- `OutWrite(b)`, then k: the core holds while OUT_BUF bytes are untaken (R13, R83). -/
def offer (b : Byte) (k : State → State) (s : State) : State :=
  if s.out.length < s.params.outBuf then k { s with out := s.out ++ [b] } else s

/-- The sink takes the oldest offered byte: it is transferred and OUT_COUNT increments (R43, R83). -/
def sinkTurn (s : State) : State :=
  match s.out with
  | [] => s
  | b :: rest => { s with out := rest, outRec := s.outRec ++ [b], outCount := s.outCount + 1 }

/-- The source begins to offer one more item, after those it offers already (R82, R93). -/
def sendItem (it : Item) (s : State) : State := { s with inQ := s.inQ ++ [it] }

/-- The host removes from its own queue the oldest item that the core has not consumed (R391; log entry 22). -/
def withdrawItem (s : State) : State := { s with inQ := s.inQ.tail }

end Sys2Proof.Machine
end

