-- ==== Sys2Proof/Machine/Operands.lean ====
section
/-! DEFINITION. The operand forms of the register windows (30_encoding.md R120). No command takes an
operand (R110). -/

namespace Sys2Proof.Machine

/-- The symbol that FREQ_DATA, CODE_LEN and CODE_WORD show: SEL[7:0] (R47, R120). -/
def selSymbol (s : State) : Byte := s.sel.extractLsb' 0 8

/-- The arena index that the NODE_* registers show: SEL[8:0] (R47, R120). -/
def selNode (s : State) : Nat := s.sel.toNat

/-- The first code bit that CODE_WORD shows: 32 times the word number CODE_WSEL[2:0] (R51, R120). -/
def codeWordBase (s : State) : Nat := 32 * s.codeWsel.toNat

/-- Bit j of a bit string; a bit past its end is 0 (R10). -/
def bitAt (p : BitString) (j : Nat) : Bool := p[j]?.getD false

/-- Bit k of a byte read MSB-first: byte bit 7 − k (R11, R280). -/
def msbBit (b : Byte) (k : Nat) : Bool := b.getLsbD (7 - k)

/-- A byte with bit 7 − k set to x (R11, R250). -/
def setMsbBit (b : Byte) (k : Nat) (x : Bool) : Byte :=
  if x then b ||| (0x80#8 >>> k) else b &&& ~~~(0x80#8 >>> k)

/-- The padding bits of the last payload byte, its low n bits (R280). -/
def padBits (b : Byte) (n : BitVec 3) : Nat := b.toNat % 2 ^ n.toNat

end Sys2Proof.Machine
end

