-- ==== Sys2Proof/Machine/Flags.lean ====
section
/-! DEFINITION. The flags: STATUS is the only condition register of the HCC (10_state.md R35, R64, R65),
and the interrupt output follows it (60_exceptions.md R348). -/

namespace Sys2Proof.Machine

/-- The code of TREE_KIND (R35). -/
def TreeKind.code : TreeKind → BitVec 2
  | .noTree => 0
  | .emptyTree => 1
  | .leaf => 2
  | .multi => 3

/-- TREE_KIND of a tree with NSYM leaves, NSYM ≥ 1 (R175, R222). -/
def kindOfTree (nsym : Nat) : TreeKind := if nsym = 1 then .leaf else .multi

/-- The interrupt output: (DONE and DONE_IE) or (ERR and ERR_IE) (R348). -/
def State.irq (s : State) : Bool := (s.done && s.doneIe) || (s.err && s.errIe)

/-- One bit as a number of the register at position k. -/
def flagAt (k : Nat) (x : Bool) : Word := BitVec.ofNat 32 (x.toNat * 2 ^ k)

/-- STATUS (R35). -/
def statusWord (s : State) : Word :=
  flagAt 0 s.busy ||| flagAt 1 s.done ||| flagAt 2 s.err ||| flagAt 3 s.reject |||
  (s.treeKind.code.setWidth 32 <<< 4) ||| flagAt 6 s.codesValid ||| flagAt 7 s.hdrParsed |||
  flagAt 8 s.irq

/-- ENC_PAD = (8 − PBITS mod 8) mod 8 (R203). -/
def padOfBits (pbits : Nat) : BitVec 3 := BitVec.ofNat 3 ((8 - pbits % 8) % 8)

end Sys2Proof.Machine
end

