-- ==== Sys2Proof/Machine/BitPacker.lean ====
section
/-! DEFINITION. The bit-stream packer: the bit channel (44_bit_packer.md R250, R251) and the steps of PACK
(R252). -/

namespace Sys2Proof.Machine

/-- `PutBit(x)`, then k. The byte is offered in the step that would make NACC 8, so NACC never holds 8
(R250). -/
def putBit (x : Bool) (k : State → State) (s : State) : State :=
  if s.nacc = 7 then
    offer (setMsbBit s.acc 7 x) (fun t => k { t with acc := 0, nacc := 0 }) s
  else k { s with acc := setMsbBit s.acc s.nacc.toNat x, nacc := s.nacc + 1 }

/-- The end of `Flush()`: the channel is empty and PACK is done (R251, R252). -/
def flushed (s : State) : State := finish { s with acc := 0, nacc := 0 }

/-- `Flush()` and `finish`: a partial byte goes out with zero padding bits (R251, R252). -/
def packFlush (s : State) : State := if s.nacc = 0 then flushed s else offer s.acc flushed s

/-- PACK up to its loop (R252). -/
def packStart (s : State) : State :=
  if !s.codesValid then raise .sequence 0 s
  else { s with acc := 0, nacc := 0, point := .packRead 0 0 }

/-- A raise inside PACK: the partial byte is dropped (R342, R343). -/
def packRaise (c : Cause) (ipos : Nat) (s : State) : State := raise c ipos { s with acc := 0, nacc := 0 }

/-- One pass of PACK's loop up to the bits of the byte it read (R252). -/
def packItem (n nb : Nat) (it : Item) (ipos : Nat) (s : State) : State :=
  match it with
  | .eos => if nb = s.pbits then { s with point := .packFlush } else packRaise .passMismatch ipos s
  | .byte b =>
    if n = s.params.passLimit then packRaise .lengthOverflow ipos s
    else if symGet s.len b = 0 then packRaise .noCode ipos s
    else { s with point := .packBits b 0 n nb }

/-- Bit j of the code of b, or, after its last bit, the end of the pass of the loop (R252). -/
def packBits (b : Byte) (j n nb : Nat) (s : State) : State :=
  if j < symGet s.len b then
    putBit (bitAt (symGet s.bits b) j) (fun t => { t with point := .packBits b (j + 1) n nb }) s
  else { s with point := .packRead (n + 1) (nb + symGet s.len b) }

end Sys2Proof.Machine
end

