-- ==== Sys2Proof/Machine/BitUnpacker.lean ====
section
/-! DEFINITION. The bit-stream unpacker: the decode walk (45_bit_unpacker.md R281, R283) and the steps of
UNPACK (R282, R284, R285). -/

namespace Sys2Proof.Machine

/-- UNPACK up to its first item (R282). -/
def unpackStart (s : State) : State :=
  if !s.hdrParsed then raise .sequence 0 s
  else if s.treeKind = .emptyTree then finish s
  else { s with cur := s.rootIdx, wstate := .atRoot, point := .unpackFirst }

/-- The first payload item (R282). -/
def unpackFirst (it : Item) (ipos : Nat) (s : State) : State :=
  match it with
  | .eos => raise .emptyPayload ipos s
  | .byte b => { s with look := some b, point := .unpackNext ipos }

/-- One item of lookahead: the byte in LOOK is decoded next, and the item tells whether it is the last one
(R282, R285). -/
def unpackNext (lpos : Nat) (it : Item) (ipos : Nat) (s : State) : State :=
  match it with
  | .eos => { s with point := .unpackBits (s.look.getD 0) lpos true lpos 0 }
  | .byte b => { s with look := some b, point := .unpackBits (s.look.getD 0) lpos false ipos 0 }

/-- The child that a bit selects: 0 the left one, 1 the right one (R281). -/
def childOf (node : Vector Node 511) (i : Nat) (x : Bool) : Nat :=
  if x then (nodeGet node i).right else (nodeGet node i).left

/-- `Step(x, p)`, then k. A one-leaf tree is told by TREE_KIND before any child is read (R281, R283). -/
def walkBit (x : Bool) (p : Nat) (k : State → State) (s : State) : State :=
  if s.treeKind = .leaf then
    if x then raise .badCode p s else offer (nodeGet s.node s.rootIdx).sym k s
  else
    match nodeGet s.node (childOf s.node s.cur x) with
    | .leaf b _ => offer b (fun t => k { t with cur := t.rootIdx, wstate := .atRoot }) s
    | .internal _ _ _ => k { s with cur := childOf s.node s.cur x, wstate := .descending }

/-- The end checks: TRUNCATED_STREAM before PAD_NONZERO, both at the last payload byte (R282, R284). -/
def unpackEnd (c : Byte) (cpos : Nat) (s : State) : State :=
  if s.wstate = .descending then raise .truncatedStream cpos s
  else if padBits c s.hdrPad ≠ 0 then raise .padNonzero cpos s
  else finish { s with cur := 0 }

/-- How many bits of the present byte are valid (R280, R282). -/
def validBits (last : Bool) (hdrPad : BitVec 3) : Nat := if last then 8 - hdrPad.toNat else 8

/-- Bit j of byte c, or, after its last valid bit, the next byte or the end checks (R282). -/
def unpackBits (c : Byte) (cpos : Nat) (last : Bool) (lpos j : Nat) (s : State) : State :=
  if j < validBits last s.hdrPad then
    walkBit (msbBit c j) cpos (fun t => { t with point := .unpackBits c cpos last lpos (j + 1) }) s
  else if last then unpackEnd c cpos { s with look := none }
  else { s with point := .unpackNext lpos }

end Sys2Proof.Machine
end

