-- ==== Sys2Proof/Machine/TreeBuilder.lean ====
section
/-! DEFINITION. The priority structure and the tree builder: the steps of BUILD (41_tree_builder.md R170 to
R177). -/

namespace Sys2Proof.Machine

/-- key(i) < key(j): the lighter node, and of two equally heavy ones the one created first (R170). -/
def keyLt (node : Vector Node 511) (i j : Nat) : Bool :=
  (nodeGet node i).weight < (nodeGet node j).weight ||
    ((nodeGet node i).weight == (nodeGet node j).weight && decide (i < j))

/-- The member of `m :: rest` with the least key (R172). -/
def leastKey (node : Vector Node 511) (m : Nat) (rest : List Nat) : Nat :=
  rest.foldl (fun best i => if keyLt node i best then i else best) m

/-- `PQ_extract_min()`: the least member and what is left, or none when PQ is empty (R172). -/
def extractMin (node : Vector Node 511) : List Nat → Option (Nat × List Nat)
  | [] => none
  | m :: rest => some (leastKey node m rest, (m :: rest).erase (leastKey node m rest))

/-- `PQ_insert(i)`, with i greater than every member: PQ stays in ascending order (R171). -/
def pqInsert (pq : List Nat) (i : Nat) : List Nat := pq ++ [i]

/-- The symbols in ascending order (R13 `for s in 0..255`). -/
def allSymbols : List Byte := (List.range 256).map (BitVec.ofNat 8)

/-- The leaves of BUILD, in ascending order of their symbols (R175, R176). -/
def leavesOf (freq : Vector Nat 256) : List Node :=
  (allSymbols.filter fun b => decide (0 < symGet freq b)).map fun b => .leaf b (symGet freq b)

/-- NODE with the given entries written from index k on. -/
def writeNodes (node : Vector Node 511) (k : Nat) : List Node → Vector Node 511
  | [] => node
  | n :: rest => writeNodes (nodeSet node k n) (k + 1) rest

/-- BUILD up to its test of k: the leaves get the indices 0 to NSYM − 1, and TREE_KIND is NONE (R175). The entries
that BUILD does not write keep what they held, where I13 allows any value: the model's choice (log entry 24). -/
def buildStart (s : State) : State :=
  { invalidateTree s with
    node := writeNodes s.node 0 (leavesOf s.freq), pq := List.range (leavesOf s.freq).length,
    nsym := (leavesOf s.freq).length, nnodes := (leavesOf s.freq).length, point := .buildMerge }

/-- BUILD's last step: the one node left is the root (R175). -/
def buildRoot (root : Nat) (s : State) : State :=
  finish { s with pq := [], rootIdx := root, rootValid := true, treeKind := kindOfTree s.nsym }

/-- One merge: l is extracted first and r second, and node k = NNODES is their parent (R175). -/
def mergeNodes (l r : Nat) (rest : List Nat) (s : State) : State :=
  { s with
    node := nodeSet s.node s.nnodes
      (.internal ((nodeGet s.node l).weight + (nodeGet s.node r).weight) l r),
    pq := pqInsert rest s.nnodes, nnodes := s.nnodes + 1 }

/-- BUILD after its leaves: with none the tree is EMPTY, in a turn of its own; else one pass of the merge loop
(R175). The loop keeps PQ nonempty, so PQ is empty here only when k = 0. -/
def buildMerge (s : State) : State :=
  match extractMin s.node s.pq with
  | none => finish { s with treeKind := .emptyTree }
  | some (l, pq1) =>
    match extractMin s.node pq1 with
    | none => buildRoot l s
    | some (r, pq2) => mergeNodes l r pq2 s

end Sys2Proof.Machine
end

