-- ==== Sys2Proof/Machine/CodeGenerator.lean ====
section
/-! DEFINITION. The code generator: the steps of GENCODE (42_code_generator.md R200 to R203). -/

namespace Sys2Proof.Machine

/-- The code table entry of symbol b gets the code p (R201). -/
def assignCode (b : Byte) (p : BitString) (s : State) : State :=
  { s with len := symSet s.len b p.length, bits := symSet s.bits b p }

/-- GENCODE up to the traversal: the precondition, LEN all 0, and the one-leaf case (R200, R202). BITS of a symbol
that gets no code keeps what it held, where I13 allows any value: the model's choice (log entry 24). -/
def genStart (s : State) : State :=
  match s.treeKind with
  | .noTree => raise .sequence 0 s
  | .emptyTree => { s with len := Vector.replicate 256 0, point := .genWalk }
  | .leaf =>
    assignCode (nodeGet s.node s.rootIdx).sym [false]
      { s with len := Vector.replicate 256 0, point := .genWalk }
  | .multi =>
    { s with len := Vector.replicate 256 0, stack := [.assign s.rootIdx []], point := .genWalk }

/-- PBITS: the sum over the symbols of FREQ times LEN (R203). -/
def payloadBits (freq len : Vector Nat 256) : Nat :=
  (allSymbols.map fun b => symGet freq b * symGet len b).sum

/-- GENCODE after the traversal (R200). -/
def genDone (s : State) : State :=
  finish { s with
    pbits := payloadBits s.freq s.len, encPad := padOfBits (payloadBits s.freq s.len),
    codesValid := true }

/-- One call of `Assign(i, p)`: a leaf gets the code p; an Internal node's children get p with 0 on the left
and with 1 on the right (R201). -/
def assignNode (i : Nat) (p : BitString) (rest : List StackEntry) (s : State) : State :=
  match nodeGet s.node i with
  | .leaf b _ => assignCode b p { s with stack := rest }
  | .internal _ l r =>
    { s with stack := .assign l (p ++ [false]) :: .assign r (p ++ [true]) :: rest }

/-- One step of GENCODE's traversal. STACK holds `Assign` entries only while GENCODE runs; another entry has
nothing to do here. -/
def genWalk (s : State) : State :=
  match s.stack with
  | [] => genDone s
  | .assign i p :: rest => assignNode i p rest s
  | .ser _ :: rest => { s with stack := rest }
  | .parseLeft _ :: rest => { s with stack := rest }
  | .parseRight _ _ :: rest => { s with stack := rest }

end Sys2Proof.Machine
end

