-- ==== Sys2Proof/Machine/Scanner.lean ====
section
/-! DEFINITION. The frequency table scanner: the steps of SCAN (40_frequency_scanner.md R150). -/

namespace Sys2Proof.Machine

/-- SCAN up to its loop: an all-zero table and no tree (R150). -/
def scanStart (s : State) : State :=
  { invalidateTree { s with freq := Vector.replicate 256 0, scanTotal := 0 } with point := .scanRead }

/-- FREQ with one more occurrence of b (R150). -/
def bump (freq : Vector Nat 256) (b : Byte) : Vector Nat 256 := symSet freq b (symGet freq b + 1)

/-- One pass of SCAN's loop over the item it read. The local n is SCAN_TOTAL (R150). -/
def scanItem (it : Item) (ipos : Nat) (s : State) : State :=
  match it with
  | .eos => finish s
  | .byte b =>
    if s.scanTotal = s.params.passLimit then raise .lengthOverflow ipos s
    else { s with freq := bump s.freq b, scanTotal := s.scanTotal + 1 }

end Sys2Proof.Machine
end

