-- ==== Sys2Proof/Machine/TreeCodec.lean ====
section
/-! DEFINITION. The tree serializer and deserializer: the steps of EMIT_HEADER and PARSE_HEADER
(43_tree_codec.md R220 to R225; container bytes of 30_encoding.md R113 to R115). -/

namespace Sys2Proof.Machine

/-- INTERNAL_MARKER (R114). -/
def internalMarker : Byte := 0x00

/-- LEAF_MARKER (R114). -/
def leafMarker : Byte := 0x01

/-- SENTINEL (R113, R115). -/
def sentinel : Byte := 0xFF

/-! ## EMIT_HEADER -/

/-- EMIT_HEADER up to the traversal: the precondition and the empty header of an empty tree (R220, R221). -/
def emitStart (s : State) : State :=
  if !s.codesValid then raise .sequence 0 s
  else if s.treeKind = .emptyTree then finish s
  else { s with stack := [.ser s.rootIdx], point := .emitNode }

/-- One call of `Ser(i)` up to its marker byte (R220). -/
def serNode (i : Nat) (rest : List StackEntry) (s : State) : State :=
  match nodeGet s.node i with
  | .leaf b _ => offer leafMarker (fun t => { t with stack := rest, point := .emitSymbol b }) s
  | .internal _ l r =>
    offer internalMarker (fun t => { t with stack := .ser l :: .ser r :: rest }) s

/-- One step of EMIT_HEADER's traversal. STACK holds `Ser` entries only while EMIT_HEADER runs; another entry
has nothing to do here. -/
def emitNode (s : State) : State :=
  match s.stack with
  | [] => { s with point := .emitSentinel }
  | .ser i :: rest => serNode i rest s
  | .assign _ _ :: rest => { s with stack := rest }
  | .parseLeft _ :: rest => { s with stack := rest }
  | .parseRight _ _ :: rest => { s with stack := rest }

/-- `OutWrite(NODE[i].sym)` (R220). -/
def emitSymbol (b : Byte) (s : State) : State := offer b (fun t => { t with point := .emitNode }) s

/-- `OutWrite(0xFF)` (R220). -/
def emitSentinel (s : State) : State := offer sentinel (fun t => { t with point := .emitPad }) s

/-- `OutWrite(ENC_PAD)`, and EMIT_HEADER is done (R220). -/
def emitPad (s : State) : State := offer (s.encPad.setWidth 8) finish s

/-! ## PARSE_HEADER -/

/-- PARSE_HEADER up to its first item (R222). -/
def parseStart (s : State) : State :=
  { invalidateTree s with seen := Vector.replicate 256 false, point := .parseFirst }

/-- A raise inside PARSE_HEADER: NNODES <- 0 and NSYM <- 0 first (R222, D49). -/
def parseRaise (c : Cause) (ipos : Nat) (s : State) : State :=
  raise c ipos { s with nnodes := 0, nsym := 0 }

/-- `Parse` of an INTERNAL_MARKER: node k is allocated and its left subtree is read next (R223). -/
def parseInternal (nint ipos : Nat) (s : State) : State :=
  if nint = 255 then parseRaise .mhNodeLimit ipos s
  else
    { s with
      node := nodeSet s.node s.nnodes (.internal 0 0 0), nnodes := s.nnodes + 1,
      stack := .parseLeft s.nnodes :: s.stack, point := .parseMarker (nint + 1) }

/-- `Parse(m)` up to the next item it needs (R223). -/
def parseMarker (nint : Nat) (it : Item) (ipos : Nat) (s : State) : State :=
  match it with
  | .eos => parseRaise .mhTruncated ipos s
  | .byte m =>
    if m = leafMarker then { s with point := .parseSymbol nint }
    else if m = internalMarker then parseInternal nint ipos s
    else parseRaise .mhBadMarker ipos s

/-- The first item of a container: EOS is the empty container, anything else is a marker (R222). -/
def parseFirst (it : Item) (ipos : Nat) (s : State) : State :=
  match it with
  | .eos => { s with treeKind := .emptyTree, point := .parseDone }
  | .byte m => parseMarker 0 (.byte m) ipos s

/-- The subtree k is complete and `Parse` returns it to the entry that waits for it. A node whose right
subtree this is gets both children and is complete itself. The result is the root or none, with what
STACK and NODE become (R223). -/
def returnSubtree (k : Nat) (node : Vector Node 511) :
    List StackEntry → Option Nat × List StackEntry × Vector Node 511
  | [] => (some k, [], node)
  | .parseLeft p :: rest => (none, .parseRight p k :: rest, node)
  | .parseRight p l :: rest =>
    returnSubtree p (nodeSet node p ((nodeGet node p).withChildren l k)) rest
  | .assign _ _ :: rest => returnSubtree k node rest
  | .ser _ :: rest => returnSubtree k node rest

/-- A leaf with symbol b is allocated, and its subtree is complete (R223). -/
def parseLeaf (nint : Nat) (b : Byte) (s : State) : State :=
  let t := { s with seen := symSet s.seen b true, nnodes := s.nnodes + 1, nsym := s.nsym + 1 }
  match returnSubtree s.nnodes (nodeSet s.node s.nnodes (.leaf b 0)) s.stack with
  | (some root, stack, node) =>
    { t with stack := stack, node := node, point := .parseSentinel root }
  | (none, stack, node) => { t with stack := stack, node := node, point := .parseMarker nint }

/-- The symbol of a leaf (R223). -/
def parseSymbol (nint : Nat) (it : Item) (ipos : Nat) (s : State) : State :=
  match it with
  | .eos => parseRaise .mhTruncated ipos s
  | .byte b =>
    if symGet s.seen b then parseRaise .mhDupSymbol ipos s else parseLeaf nint b s

/-- The byte after the tree (R222, R115). -/
def parseSentinel (root : Nat) (it : Item) (ipos : Nat) (s : State) : State :=
  match it with
  | .eos => parseRaise .mhTruncated ipos s
  | .byte b =>
    if b = sentinel then { s with point := .parsePad root } else parseRaise .mhNoSentinel ipos s

/-- The PAD byte, and the tree becomes the current one (R222, R115). -/
def parsePad (root : Nat) (it : Item) (ipos : Nat) (s : State) : State :=
  match it with
  | .eos => parseRaise .mhTruncated ipos s
  | .byte b =>
    if 7 < b.toNat then parseRaise .mhBadPad ipos s
    else
      { s with
        hdrPad := b.setWidth 3, rootIdx := root, rootValid := true, treeKind := kindOfTree s.nsym,
        point := .parseDone }

/-- HDR_PARSED <- 1, and PARSE_HEADER is done (R222). -/
def parseDone (s : State) : State := finish { s with hdrParsed := true }

end Sys2Proof.Machine
end

