-- ==== Sys2Proof/Machine/Engine.lean ====
section
/-! DEFINITION. The core as one sequential engine (00_scope.md R5, R6): its next step, the steps of the
streams' other ends, and a command word's acceptance with the transactions that follow it. -/

namespace Sys2Proof.Machine

/-- The first step of a primitive's rule. -/
def startTurn (p : Prim) (s : State) : State :=
  match p with
  | .nop => finish s
  | .scan => scanStart s
  | .build => buildStart s
  | .gencode => genStart s
  | .emitHeader => emitStart s
  | .pack => packStart s
  | .parseHeader => parseStart s
  | .unpack => unpackStart s

/-- The step of a running primitive at its place in its rule. -/
def pointTurn (p : Prim) (pt : Point) (s : State) : State :=
  match pt with
  | .atStart => startTurn p s
  | .scanRead => awaitItem scanItem s
  | .buildMerge => buildMerge s
  | .genWalk => genWalk s
  | .emitNode => emitNode s
  | .emitSymbol b => emitSymbol b s
  | .emitSentinel => emitSentinel s
  | .emitPad => emitPad s
  | .parseFirst => awaitItem parseFirst s
  | .parseMarker nint => awaitItem (parseMarker nint) s
  | .parseSymbol nint => awaitItem (parseSymbol nint) s
  | .parseSentinel root => awaitItem (parseSentinel root) s
  | .parsePad root => awaitItem (parsePad root) s
  | .parseDone => parseDone s
  | .packRead n nb => awaitItem (packItem n nb) s
  | .packBits b j n nb => packBits b j n nb s
  | .packFlush => packFlush s
  | .unpackFirst => awaitItem unpackFirst s
  | .unpackNext lpos => awaitItem (unpackNext lpos) s
  | .unpackBits c cpos last lpos j => unpackBits c cpos last lpos j s
  | .finishing => finishTurn s
  | .raising c pos => raiseTurn p c pos s

/-- The core's next step. With OPSTATE = IDLE it takes no step on its own; a running command holds in
`InRead`, in `OutWrite` and in the two output waits (R355). -/
def coreTurn (s : State) : State :=
  match s.opstate with
  | .idle => s
  | .run op ph => pointTurn (currentPrim op ph) s.point s

/-- The transactions of the script's events that are no host access, up to the host's next access. They are
the steps that R6 lets come between the acceptance of a command word and that access; `step` takes them one at a
time, and `exec` all of them (log entry 7). -/
def drive : List Event → State → State
  | [], s => { s with script := [] }
  | .core :: es, s => drive es (coreTurn s)
  | .take :: es, s => drive es (sinkTurn s)
  | .send it :: es, s => drive es (sendItem it s)
  | .write w off v :: es, s => { s with script := .write w off v :: es }
  | .read w off :: es, s => { s with script := .read w off :: es }
  | .withdraw :: es, s => { s with script := .withdraw :: es }
  | .reset :: es, s => { s with script := .reset :: es }
  | .poll c :: es, s => { s with script := .poll c :: es }

/-- The host writes the word of a legal command: refused, or accepted and run as far as the transactions up to
the host's next access carry it (R310). -/
def runCommand (op : Op) (s : State) : State :=
  if s.accepting then drive s.script (accept op s) else refuseCommand s

/-- The host writes an illegal word: refused, or accepted, and then "straight to the error state with no BUSY
phase" (R310, R112). -/
def illegalCommand (op : BitVec 4) (s : State) : State :=
  if s.accepting then enterError .illegalCmd op 0 (acceptWord op s) else refuseCommand s

end Sys2Proof.Machine
end

