-- ==== Sys2Proof/Machine/ControlCommands.lean ====
section
/-! DEFINITION. The meanings of NOP and CLEAR (46_control.md R312, R313) and of the illegal words
(30_encoding.md R112; 46_control.md R310). -/

namespace Sys2Proof.Machine

/-- NOP "completes at once" (R111, R312): its only step is `finish`, taken with the acceptance, so that STATUS
reads 2 right after the write (R312; V-CTL-2 and V-CTL-19 of 95_test_vectors.md; log entry 8). -/
def execNop (s : State) : Host.Outcome State Fault Refusal :=
  .next (if s.accepting then coreTurn (coreTurn (accept (.prim .nop) s)) else refuseCommand s)

/-- CLEAR: accepted in every state; CMD.OP <- 1 and `Clear()` (R310, R313). -/
def execClear (s : State) : Host.Outcome State Fault Refusal :=
  .next (clearCore { s with cmdOp := 1 })

/-- A word with OP = 0xB (R112). -/
def execIllegalOpB (s : State) : Host.Outcome State Fault Refusal := .next (illegalCommand 0xB#4 s)

/-- A word with OP = 0xC to 0xF (R112). -/
def execIllegalOpCtoF (lo : BitVec 2) (s : State) : Host.Outcome State Fault Refusal :=
  .next (illegalCommand (3#2 ++ lo) s)

/-- A word with reserved bits set (R112). -/
def execIllegalReserved (op : BitVec 4) (s : State) : Host.Outcome State Fault Refusal :=
  .next (illegalCommand op s)

end Sys2Proof.Machine
end

