-- ==== Sys2Proof/Machine/DecodeCommands.lean ====
section
/-! DEFINITION. The meanings of the decode commands: PARSE_HEADER, UNPACK and DECOMPRESS. The rules' steps are in
TreeCodec and BitUnpacker. -/

namespace Sys2Proof.Machine

/-- PARSE_HEADER (R222). -/
def execParseHeader (s : State) : Host.Outcome State Fault Refusal :=
  .next (runCommand (.prim .parseHeader) s)

/-- UNPACK (R282). -/
def execUnpack (s : State) : Host.Outcome State Fault Refusal := .next (runCommand (.prim .unpack) s)

/-- DECOMPRESS (R286). -/
def execDecompress (s : State) : Host.Outcome State Fault Refusal := .next (runCommand .decompress s)

end Sys2Proof.Machine
end

