-- ==== Sys2Proof/Machine/EncodeCommands.lean ====
section
/-! DEFINITION. The meanings of the encode commands: SCAN, BUILD, GENCODE, EMIT_HEADER, PACK and COMPRESS. The
rules' steps are in Scanner, TreeBuilder, CodeGenerator, TreeCodec and BitPacker. -/

namespace Sys2Proof.Machine

/-- SCAN (R150). -/
def execScan (s : State) : Host.Outcome State Fault Refusal := .next (runCommand (.prim .scan) s)

/-- BUILD (R175). -/
def execBuild (s : State) : Host.Outcome State Fault Refusal := .next (runCommand (.prim .build) s)

/-- GENCODE (R200). -/
def execGencode (s : State) : Host.Outcome State Fault Refusal := .next (runCommand (.prim .gencode) s)

/-- EMIT_HEADER (R220). -/
def execEmitHeader (s : State) : Host.Outcome State Fault Refusal :=
  .next (runCommand (.prim .emitHeader) s)

/-- PACK (R252). -/
def execPack (s : State) : Host.Outcome State Fault Refusal := .next (runCommand (.prim .pack) s)

/-- COMPRESS (R254). -/
def execCompress (s : State) : Host.Outcome State Fault Refusal := .next (runCommand .compress s)

end Sys2Proof.Machine
end

