-- ==== Sys2Proof/Machine/Dispatch.lean ====
section
/-! DEFINITION. The meaning of each instruction: what the write of its command word to CMD does (R310). -/

namespace Sys2Proof.Machine

def exec (i : Instr) (s : State) : Host.Outcome State Fault Refusal :=
  match i with
  | .nop => Sys2Proof.Machine.execNop s
  | .clear => Sys2Proof.Machine.execClear s
  | .scan => Sys2Proof.Machine.execScan s
  | .build => Sys2Proof.Machine.execBuild s
  | .gencode => Sys2Proof.Machine.execGencode s
  | .emitHeader => Sys2Proof.Machine.execEmitHeader s
  | .pack => Sys2Proof.Machine.execPack s
  | .parseHeader => Sys2Proof.Machine.execParseHeader s
  | .unpack => Sys2Proof.Machine.execUnpack s
  | .compress => Sys2Proof.Machine.execCompress s
  | .decompress => Sys2Proof.Machine.execDecompress s
  | .illegalOpB _ => Sys2Proof.Machine.execIllegalOpB s
  | .illegalOpCtoF lo _ => Sys2Proof.Machine.execIllegalOpCtoF lo s
  | .illegalReserved op _ => Sys2Proof.Machine.execIllegalReserved op s

end Sys2Proof.Machine
end

