-- ==== Sys2Proof/Machine/RegisterWindow.lean ====
section
/-! DEFINITION. The register window: the address map (20_memory.md R89, R90), every register's read
(10_state.md R33 to R54; 46_control.md R319) and every register's write but CMD's (R314 to R318). -/

namespace Sys2Proof.Machine

/-- The registers of R89. -/
inductive Reg where
  | id | cmd | status | err | errPos | irqEn | nsym | nnodes | root | inCount | outCount | scanTotal
  | pbitsLo | pbitsHi | pad | sel | freqData | codeLen | codeWsel | codeWord | nodeInfo | nodeWeight
  | nodeChild
deriving DecidableEq, Repr

/-- The byte offset of a register (R89). -/
def Reg.offset : Reg → Offset
  | .id => 0x00
  | .cmd => 0x04
  | .status => 0x08
  | .err => 0x0C
  | .errPos => 0x10
  | .irqEn => 0x14
  | .nsym => 0x18
  | .nnodes => 0x1C
  | .root => 0x20
  | .inCount => 0x24
  | .outCount => 0x28
  | .scanTotal => 0x2C
  | .pbitsLo => 0x30
  | .pbitsHi => 0x34
  | .pad => 0x38
  | .sel => 0x3C
  | .freqData => 0x40
  | .codeLen => 0x44
  | .codeWsel => 0x48
  | .codeWord => 0x4C
  | .nodeInfo => 0x50
  | .nodeWeight => 0x54
  | .nodeChild => 0x58

/-- The registers in the order of their offsets. -/
def allRegs : List Reg :=
  [.id, .cmd, .status, .err, .errPos, .irqEn, .nsym, .nnodes, .root, .inCount, .outCount, .scanTotal,
   .pbitsLo, .pbitsHi, .pad, .sel, .freqData, .codeLen, .codeWsel, .codeWord, .nodeInfo, .nodeWeight,
   .nodeChild]

/-- The register at an offset; none at a reserved one (R89, R90). -/
def regAt (off : Offset) : Option Reg := allRegs.find? fun r => r.offset == off

/-- A register that reads any value while BUSY = 1 (R319, R387). -/
def Reg.hiddenWhileBusy : Reg → Bool
  | .nsym | .nnodes | .root | .scanTotal | .pbitsLo | .pbitsHi | .pad | .freqData | .codeLen
  | .codeWord | .nodeInfo | .nodeWeight | .nodeChild => true
  | .id | .cmd | .status | .err | .errPos | .irqEn | .inCount | .outCount | .sel | .codeWsel => false

/-- CODE_WORD: bit 31 − j is code bit k = 32·w + j of the selected symbol, 0 past the code's length or with
CODES_VALID = 0 (R51). -/
def codeWordValue (s : State) : Word :=
  BitVec.ofNat 32 ((List.range 32).foldl (fun acc j =>
    2 * acc + (s.codesValid && decide (codeWordBase s + j < symGet s.len (selSymbol s)) &&
      bitAt (symGet s.bits (selSymbol s)) (codeWordBase s + j)).toNat) 0)

/-- NODE_INFO: KIND, SYM and VALID of the selected node (R52). -/
def nodeInfoValue (s : State) : Word :=
  if selNode s < s.nnodes then
    flagAt 0 (nodeGet s.node (selNode s)).isLeaf |||
      ((nodeGet s.node (selNode s)).sym.setWidth 32 <<< 8) ||| 0x80000000#32
  else 0

/-- NODE_CHILD: LEFT in bits 8..0 and RIGHT in bits 24..16 of an Internal node (R54). -/
def nodeChildValue (s : State) : Word :=
  match nodeGet s.node (selNode s) with
  | .leaf _ _ => 0
  | .internal _ l r =>
    if selNode s < s.nnodes then
      (BitVec.ofNat 9 l).setWidth 32 ||| ((BitVec.ofNat 9 r).setWidth 32 <<< 16)
    else 0

/-- What each register's rule gives in the present state (R33 to R54). -/
def exactRead (r : Reg) (s : State) : Word :=
  match r with
  | .id => 0x48554646
  | .cmd => s.cmdOp.setWidth 32
  | .status => statusWord s
  | .err => s.cause.code.setWidth 32 ||| (s.errOp.setWidth 32 <<< 8)
  | .errPos => s.errPos
  | .irqEn => flagAt 0 s.doneIe ||| flagAt 1 s.errIe
  | .nsym => (BitVec.ofNat 9 s.nsym).setWidth 32
  | .nnodes => (BitVec.ofNat 10 s.nnodes).setWidth 32
  | .root => (BitVec.ofNat 9 s.rootIdx).setWidth 32 ||| flagAt 31 s.rootValid
  | .inCount => s.inCount
  | .outCount => s.outCount
  | .scanTotal => BitVec.ofNat 32 s.scanTotal
  | .pbitsLo => BitVec.ofNat 32 s.pbits
  | .pbitsHi => (BitVec.ofNat 8 (s.pbits / 2 ^ 32)).setWidth 32
  | .pad => s.encPad.setWidth 32 ||| (s.hdrPad.setWidth 32 <<< 8)
  | .sel => s.sel.setWidth 32
  | .freqData => BitVec.ofNat 32 (symGet s.freq (selSymbol s))
  | .codeLen => if s.codesValid then BitVec.ofNat 32 (symGet s.len (selSymbol s)) else 0
  | .codeWsel => s.codeWsel.setWidth 32
  | .codeWord => codeWordValue s
  | .nodeInfo => nodeInfoValue s
  | .nodeWeight =>
    if selNode s < s.nnodes then BitVec.ofNat 32 (nodeGet s.node (selNode s)).weight else 0
  | .nodeChild => nodeChildValue s

/-- `RegRead(off)`: exact, but any value for a hidden register while BUSY = 1; 0 at a reserved offset. It
changes nothing (R319, R387, R90; log entry 3). -/
def regRead (off : Offset) (s : State) : Word :=
  match regAt off with
  | none => 0
  | some r => if s.busy && r.hiddenWhileBusy then Config.freeRead s.ticks off else exactRead r s

/-- `RegWrite(STATUS, v)`: v[1] = 1 clears DONE (R314). -/
def writeStatus (v : Word) (s : State) : State := { s with done := s.done && !v.getLsbD 1 }

/-- `RegWrite(IRQ_EN, v)` (R315). -/
def writeIrqEn (v : Word) (s : State) : State :=
  { s with doneIe := v.getLsbD 0, errIe := v.getLsbD 1 }

/-- `RegWrite(SEL, v)` (R316). -/
def writeSel (v : Word) (s : State) : State := { s with sel := v.extractLsb' 0 9 }

/-- `RegWrite(CODE_WSEL, v)` (R317). -/
def writeCodeWsel (v : Word) (s : State) : State := { s with codeWsel := v.extractLsb' 0 3 }

/-- `RegWrite(off, v)` at every offset but CMD's: the read-only registers and the reserved offsets ignore it
(R314 to R318, R90). -/
def regWrite (off : Offset) (v : Word) (s : State) : State :=
  match regAt off with
  | some .status => writeStatus v s
  | some .irqEn => writeIrqEn v s
  | some .sel => writeSel v s
  | some .codeWsel => writeCodeWsel v s
  | some .id | some .cmd | some .err | some .errPos | some .nsym | some .nnodes | some .root
  | some .inCount | some .outCount | some .scanTotal | some .pbitsLo | some .pbitsHi | some .pad
  | some .freqData | some .codeLen | some .codeWord | some .nodeInfo | some .nodeWeight
  | some .nodeChild => s
  | none => s

/-- A read as the host sees it: the value goes to the host's record (R319). -/
def readTurn (off : Offset) (s : State) : State :=
  { s with readLog := s.readLog ++ [(off, regRead off s)] }

/-- A register access that is none: a misaligned offset or another width than 32 bits (R81, R87). -/
def accessFault (width : Nat) (off : Offset) : Option Fault :=
  if off.toNat % 4 ≠ 0 then some .misalignedAccess
  else if width ≠ 32 then some .accessWidth
  else none

end Sys2Proof.Machine
end

