-- ==== Sys2Proof/Machine/Bus.lean ====
section
/-! DEFINITION. One transaction of the host and the core (00_scope.md R6; 20_memory.md R81, R87, R88), and the
host scripts of 30_encoding.md R121 and R122. -/

namespace Sys2Proof.Machine

/-- CMD's offset (R89). -/
def cmdOffset : Offset := 0x04

/-- A step that is no register read advances the model's counter (log entry 3). -/
def tick (s : State) : State := { s with ticks := s.ticks + 1 }

/-- The write of a command word is one register access: its acceptance, refusal or CLEAR, and no turn of another
agent (R6, R310). `exec` of the instruction does just that when its script gives no turns; the host's script is
put back after it (log entry 7). -/
def commandTurn (v : Word) (s : State) : Host.Outcome State Fault Refusal :=
  match exec (decode v) { s with script := [] } with
  | .next t => .next { t with script := s.script }
  | .fault f => .fault f
  | .refused r => .refused r

/-- A host register write: no step for an access that is none (R87), else the command word is read once (R98,
R310), or the register's own write behaviour applies. -/
def writeTurn (width : Nat) (off : Offset) (v : Word) (s : State) : Host.Outcome State Fault Refusal :=
  match accessFault width off with
  | some f => .fault f
  | none => if off = cmdOffset then commandTurn v s else .next (regWrite off v s)

/-- A host register read (R81, R87). -/
def readStep (width : Nat) (off : Offset) (s : State) : Host.Outcome State Fault Refusal :=
  match accessFault width off with
  | some f => .fault f
  | none => .next (readTurn off s)

/-- The host's poll failed: the core and the sink take their turns, and the host polls again (R122; log
entry 9). -/
def pollAgain (c : PollFor) (s : State) : State := { s with script := .core :: .take :: .poll c :: s.script }

/-- `WAIT` reads STATUS until BUSY is 0; `WAITIRQ` waits until irq is 1 (R122). -/
def pollTurn (c : PollFor) (s : State) : State :=
  match c with
  | .idle =>
    if s.busy then pollAgain .idle (readTurn Reg.status.offset s) else readTurn Reg.status.offset s
  | .irq => if s.irq then s else pollAgain .irq s

/-- One event of the script. -/
def eventTurn (e : Event) (s : State) : Host.Outcome State Fault Refusal :=
  match e with
  | .write width off v => writeTurn width off v (tick s)
  | .read width off => readStep width off s
  | .send it => .next (sendItem it (tick s))
  | .withdraw => .next (withdrawItem (tick s))
  | .take => .next (sinkTurn (tick s))
  | .core => .next (coreTurn (tick s))
  | .reset => .next (resetCore (tick s))
  | .poll c => .next (pollTurn c s)

/-- One step: the script's next event. With an empty script the host does nothing and the core takes its
next step (R355). -/
def stepScript (s : State) : Host.Outcome State Fault Refusal :=
  match s.script with
  | [] => .next (coreTurn (tick s))
  | e :: rest => eventTurn e { s with script := rest }

/-! ## Host scripts (R121, R122) -/

/-- `WR <reg>, <v>`. -/
def wr (r : Reg) (v : Word) : List Event := [.write 32 r.offset v]

/-- `RD <reg>`. -/
def rd (r : Reg) : List Event := [.read 32 r.offset]

/-- `SEND <items>`. -/
def send (items : List Item) : List Event := items.map .send

/-- `CMD <m>`: one register write of the command's word. -/
def cmd (i : Instr) : List Event := wr .cmd (encode i)

/-- `WAIT`. -/
def wait : List Event := [.poll .idle]

/-- `WAITIRQ`. -/
def waitIrq : List Event := [.poll .irq]

/-- `ACK`. -/
def ackDone : List Event := wr .status 0x00000002

/-- `DUMPCODE <s>` with the CODE_WORD reads for words 0 to n − 1. -/
def dumpCode (b : Byte) (n : Nat) : List Event :=
  wr .sel (b.setWidth 32) ++ rd .codeLen ++
    (List.range n).flatMap fun w => wr .codeWsel (BitVec.ofNat 32 w) ++ rd .codeWord

/-- `DUMPNODE <i>`. -/
def dumpNode (i : Nat) : List Event :=
  wr .sel (BitVec.ofNat 32 i) ++ rd .nodeInfo ++ rd .nodeWeight ++ rd .nodeChild

end Sys2Proof.Machine
end

