-- ==== Sys2Proof/Machine/Step.lean ====
section
/-! DEFINITION. One step of the machine. -/

namespace Sys2Proof.Machine

/-- One step of the system: the next transaction of R6. -/
def step : State → Host.Outcome State Fault Refusal := stepScript

/-- The HCC fetches no instruction (R31): a command word comes to it as a 32-bit write to CMD. This makes that
write the host's next transaction (log entry 10). -/
def State.withFetchWord (s : State) (_nbits w : Nat) : State :=
  { s with script := .write 32 cmdOffset (BitVec.ofNat 32 w) :: s.script }

end Sys2Proof.Machine
end

