-- ==== Sys2Proof/Safety/Container.lean ====
section
/-! DEFINITION. What a Huffman tree, its codes and its container bytes are, apart from any machine
(00_scope.md §6; 30_encoding.md R113 to R117; 42_code_generator.md R201, R202): the terms in which the
statements say what the commands compute. -/

namespace Sys2Proof.Machine

/-- A Huffman tree by its shape and its leaves' symbols. -/
inductive HuffTree where
  | leaf (sym : Byte)
  | node (l r : HuffTree)
deriving DecidableEq, Repr

/-- The symbols at the leaves, left to right. -/
def HuffTree.symbols : HuffTree → List Byte
  | .leaf b => [b]
  | .node l r => l.symbols ++ r.symbols

/-- The number of leaves, N. -/
def HuffTree.leaves : HuffTree → Nat
  | .leaf _ => 1
  | .node l r => l.leaves + r.leaves

/-- The greatest number of branches from the root to a leaf. -/
def HuffTree.depth : HuffTree → Nat
  | .leaf _ => 0
  | .node l r => max l.depth r.depth + 1

/-- TreeNode of R113: pre-order, markers and symbols. -/
def HuffTree.bytes : HuffTree → List Byte
  | .leaf b => [0x01, b]
  | .node l r => 0x00 :: (l.bytes ++ r.bytes)

/-- HEADER of R113: TreeNode SENTINEL PADBYTE. -/
def headerBytes (t : HuffTree) (pad : BitVec 3) : List Byte := t.bytes ++ [0xFF, pad.setWidth 8]

/-- The paths from the root to the leaves, 0 for left and 1 for right, behind a given path (R201). -/
def HuffTree.paths (p : BitString) : HuffTree → List (Byte × BitString)
  | .leaf b => [(b, p)]
  | .node l r => l.paths (p ++ [false]) ++ r.paths (p ++ [true])

/-- The code table of a tree: its paths, but "0" for the symbol of a one-leaf tree (R201, R202). -/
def HuffTree.codes : HuffTree → List (Byte × BitString)
  | .leaf b => [(b, [false])]
  | .node l r => l.paths [false] ++ r.paths [true]

/-- The code of a symbol; a symbol that is not in the tree has the empty one, which is no code (R58). -/
def HuffTree.code (t : HuffTree) (b : Byte) : BitString := ((t.codes.find? fun c => c.1 == b).map (·.2)).getD []

/-- No symbol stands at two leaves (R113, R223). -/
def HuffTree.distinct (t : HuffTree) : Prop := t.symbols.Nodup

/-- The arena entry i is the root of the tree t (R56). -/
def Represents (node : Vector Node 511) : Nat → HuffTree → Prop
  | i, .leaf b => ∃ w, nodeGet node i = .leaf b w
  | i, .node l r =>
    ∃ w a b, nodeGet node i = .internal w a b ∧ Represents node a l ∧ Represents node b r

/-- The arena entry i is the root of the tree t, and all of its nodes are entries below n (R56). -/
def RepresentsBelow (n : Nat) (node : Vector Node 511) : Nat → HuffTree → Prop
  | i, .leaf b => i < n ∧ ∃ w, nodeGet node i = .leaf b w
  | i, .node l r =>
    i < n ∧ ∃ w a b, nodeGet node i = .internal w a b ∧ RepresentsBelow n node a l ∧
      RepresentsBelow n node b r

/-- The current tree of the machine is t: the arena holds it at ROOT_IDX and TREE_KIND is its kind (R64). -/
def holdsTree (s : State) (t : HuffTree) : Prop :=
  Represents s.node s.rootIdx t ∧
    match t with
    | .leaf _ => s.treeKind = .leaf
    | .node _ _ => s.treeKind = .multi

/-- The arena holds t in pre-order from index i on, every weight 0: an Internal node's left child is the next
index and its right child follows the whole left subtree (R225). -/
def PreorderAt (node : Vector Node 511) : Nat → HuffTree → Prop
  | i, .leaf b => nodeGet node i = .leaf b 0
  | i, .node l r =>
    nodeGet node i = .internal 0 (i + 1) (i + 2 * l.leaves) ∧
      PreorderAt node (i + 1) l ∧ PreorderAt node (i + 2 * l.leaves) r

/-- The first LEN[b] bits of BITS[b], which are the bits that PACK puts for b (R58, R252). -/
def tableCode (s : State) (b : Byte) : BitString :=
  (List.range (symGet s.len b)).map (bitAt (symGet s.bits b))

/-- The symbols with a nonzero count, ascending (R175, R176). -/
def countedSymbols (freq : Vector Nat 256) : List Byte :=
  allSymbols.filter fun b => decide (0 < symGet freq b)

/-- The code bits of a pass: `code(x_0) ++ ... ++ code(x_(L-1))` (R116). -/
def codeBits (code : Byte → BitString) (pass : List Byte) : BitString := pass.flatMap code

/-- The bytes hold the bit string MSB-first with zero bits after its end: bit k in byte k div 8 at bit position
7 − (k mod 8), in ceil(|P| / 8) bytes (R116). -/
def PacksTo (p : BitString) (bs : List Byte) : Prop :=
  bs.length = (p.length + 7) / 8 ∧
    ∀ k < 8 * bs.length, (bs[k / 8]?.getD 0).getLsbD (7 - k % 8) = bitAt p k

end Sys2Proof.Machine
end

