-- ==== Sys2Proof/Safety/Invariants.lean ====
section
/-! DEFINITION. What holds of the machine between steps: the state that is empty while no command runs
(10_state.md R57 to R63), the agreement of the tree state with TREE_KIND (R64), and the bounds that keep the
counters from wrapping (00_scope.md R8; 40_frequency_scanner.md R150). -/

namespace Sys2Proof.Machine

/-- A place in a rule at which STACK may hold entries (R61). -/
def Point.usesStack : Point → Bool
  | .genWalk | .emitNode | .emitSymbol _ | .parseMarker _ | .parseSymbol _ | .raising _ _ => true
  | .atStart | .scanRead | .buildMerge | .emitSentinel | .emitPad | .parseFirst | .parseSentinel _
  | .parsePad _ | .parseDone | .packRead _ _ | .packBits _ _ _ _ | .packFlush | .unpackFirst
  | .unpackNext _ | .unpackBits _ _ _ _ _ | .finishing => false

/-- The working state is empty where no rule uses it: PQ outside BUILD's merge loop, STACK outside the
traversals, and all of it, with the output, while OPSTATE = IDLE (R57, R59 to R61, R63, R96). -/
structure WorkClean (s : State) : Prop where
  pq : s.point ≠ .buildMerge → s.pq = []
  stack : s.point.usesStack = false → s.stack = []
  idle : s.opstate = .idle →
    s.point = .atStart ∧ s.item = none ∧ s.look = none ∧ s.cur = 0 ∧ s.wstate = .atRoot ∧
      s.acc = 0 ∧ s.nacc = 0 ∧ s.out = []

/-- ERR = 1 and BUSY = 1 never hold together (R347), and a cause stands in ERR exactly while ERR = 1 (R36). -/
structure ErrorState (s : State) : Prop where
  idle : s.err = true → s.opstate = .idle
  cause : s.err = false ↔ s.cause = .noCause
  raising : ∀ p, s.point ≠ .raising .noCause p

/-- The rows of R64. -/
def treeRow (s : State) : Prop :=
  match s.treeKind with
  | .noTree => s.rootValid = false ∧ s.rootIdx = 0 ∧ s.nsym = 0 ∧ s.nnodes = 0
  | .emptyTree => s.rootValid = false ∧ s.rootIdx = 0 ∧ s.nsym = 0 ∧ s.nnodes = 0
  | .leaf =>
    s.rootValid = true ∧ s.rootIdx = 0 ∧ s.nsym = 1 ∧ s.nnodes = 1 ∧
      (nodeGet s.node 0).isLeaf = true
  | .multi =>
    s.rootValid = true ∧ 2 ≤ s.nsym ∧ s.nsym ≤ 256 ∧ s.nnodes = 2 * s.nsym - 1 ∧
      s.rootIdx < s.nnodes ∧ (nodeGet s.node s.rootIdx).isLeaf = false

/-- A current tree is one tree, of nodes below NNODES, with distinct symbols at its NSYM leaves (R56, R177, R225). -/
def treeHeld (s : State) : Prop :=
  s.treeKind = .leaf ∨ s.treeKind = .multi →
    ∃ tr, holdsTree s tr ∧ RepresentsBelow s.nnodes s.node s.rootIdx tr ∧ tr.distinct ∧
      s.nsym = tr.leaves

/-- R64: the row of TREE_KIND, with the tree it speaks of, CODES_VALID only with a tree, and HDR_PARSED only with
a tree. -/
def treeAgrees (s : State) : Prop :=
  treeRow s ∧ treeHeld s ∧ (s.codesValid = true → s.treeKind ≠ .noTree) ∧
    (s.hdrParsed = true → s.treeKind ≠ .noTree)

/-- TREE_KIND, ROOT and the validity flags as `InvalidateTree` leaves them (R320). -/
def noTreeYet (s : State) : Prop :=
  s.treeKind = .noTree ∧ s.rootValid = false ∧ s.rootIdx = 0 ∧ s.codesValid = false ∧
    s.hdrParsed = false

/-- The nodes of PQ are the roots of trees f of nodes below NNODES, whose leaves are NSYM in all, each with a
symbol of its own (R175, R176). -/
structure Forest (f : Nat → HuffTree) (s : State) : Prop where
  roots : ∀ i ∈ s.pq, RepresentsBelow s.nnodes s.node i (f i)
  symbols : (s.pq.flatMap fun i => (f i).symbols).Nodup
  leaves : (s.pq.map fun i => (f i).leaves).sum = s.nsym

/-- BUILD from its test of k on: 2·NSYM = NNODES + |PQ|, and PQ is a forest of the leaves (R175, R176). -/
def mergeProgress (s : State) : Prop :=
  noTreeYet s ∧ s.nsym ≤ 256 ∧ 2 * s.nsym = s.nnodes + s.pq.length ∧ s.pq.Nodup ∧ ∃ f, Forest f s

/-- How many left subtrees STACK waits for. -/
def awaitedLefts : List StackEntry → Nat
  | [] => 0
  | .parseLeft _ :: rest => awaitedLefts rest + 1
  | .parseRight _ _ :: rest => awaitedLefts rest
  | .assign _ _ :: rest => awaitedLefts rest
  | .ser _ :: rest => awaitedLefts rest

/-- STACK of `Parse` entries while the subtree at index c is read: below it stand the Internal nodes that wait, each
the parent of the subtree above it, and the complete left subtrees, whose symbols are syms (R223, R225). -/
def StackHolds (node : Vector Node 511) : Nat → List StackEntry → List Byte → Prop
  | c, [], syms => c = 0 ∧ syms = []
  | c, .parseLeft k :: rest, syms =>
    c = k + 1 ∧ nodeGet node k = .internal 0 0 0 ∧ StackHolds node k rest syms
  | c, .parseRight k l :: rest, syms =>
    ∃ t below, syms = t.symbols ++ below ∧ l = k + 1 ∧ c = k + 2 * t.leaves ∧ PreorderAt node l t ∧
      nodeGet node k = .internal 0 0 0 ∧ StackHolds node k rest below
  | _, .assign _ _ :: _, _ => False
  | _, .ser _ :: _, _ => False

/-- PARSE_HEADER between two items of a tree: nint Internal nodes and NSYM leaves so far, of which STACK still
waits for nint + 1 − NSYM subtrees, the one read now included; the leaves' symbols are distinct and in SEEN (R223). -/
def parseProgress (nint : Nat) (s : State) : Prop :=
  noTreeYet s ∧ nint ≤ 255 ∧ s.nnodes = s.nsym + nint ∧ s.nsym + awaitedLefts s.stack = nint ∧
    ∃ syms, StackHolds s.node s.nnodes s.stack syms ∧ syms.Nodup ∧ syms.length = s.nsym ∧
      ∀ b ∈ syms, symGet s.seen b = true

/-- PARSE_HEADER after the tree: it stands in pre-order from node 0 on, with distinct symbols (R225). -/
def parsedTree (root : Nat) (s : State) : Prop :=
  noTreeYet s ∧ root = 0 ∧ s.nnodes = 2 * s.nsym - 1 ∧
    ∃ tr, PreorderAt s.node 0 tr ∧ tr.distinct ∧ s.nsym = tr.leaves

/-- The tree state at a place in a running rule: the rows of R64 where no tree is being made. -/
def treeAt (pt : Point) (s : State) : Prop :=
  match pt with
  | .buildMerge => mergeProgress s
  | .parseFirst => noTreeYet s ∧ s.nsym = 0 ∧ s.nnodes = 0
  | .parseMarker nint => parseProgress nint s ∧ s.stack ≠ []
  | .parseSymbol nint => parseProgress nint s
  | .parseSentinel root => parsedTree root s
  | .parsePad root => parsedTree root s
  | .parseDone => treeAgrees s ∧ s.treeKind ≠ .noTree
  | .genWalk => treeAgrees s ∧ s.treeKind ≠ .noTree
  | .atStart | .scanRead | .emitNode | .emitSymbol _ | .emitSentinel | .emitPad | .packRead _ _
  | .packBits _ _ _ _ | .packFlush | .unpackFirst | .unpackNext _ | .unpackBits _ _ _ _ _
  | .finishing | .raising _ _ => treeAgrees s

/-- R64 "in every IDLE state", with what a running command keeps at each place in its rule. -/
structure TreeState (s : State) : Prop where
  idle : s.opstate = .idle → treeAgrees s
  running : s.opstate ≠ .idle → treeAt s.point s

/-- The counts never wrap: FREQ adds up to SCAN_TOTAL, which is at most 2^CNT_W − 1 (R44, R150, R151). -/
structure CountsBounded (s : State) : Prop where
  total : s.freq.toList.sum = s.scanTotal
  limit : s.scanTotal ≤ s.params.passLimit

/-- GENCODE's traversal: an awaited call `Assign(i, p)` is one of a tree at i that does not reach past depth 255
(R201, R205). -/
def assignFits (node : Vector Node 511) (e : StackEntry) : Prop :=
  match e with
  | .assign i p => ∃ tr, Represents node i tr ∧ p.length + tr.depth ≤ 255
  | .ser _ => True
  | .parseLeft _ => True
  | .parseRight _ _ => True

/-- The values that are computed from the counts stay within the widths that show them: code lengths (R205), PBITS
(R203, R8) and the weights of the nodes (R55, R56), with what BUILD and GENCODE keep on the way. -/
structure ValuesBounded (s : State) : Prop where
  codes : ∀ b, symGet s.len b ≤ 255 ∧ (symGet s.bits b).length ≤ 255
  pbits : s.pbits ≤ s.params.passLimit * 255
  weights : ∀ k < s.nnodes, (nodeGet s.node k).weight ≤ s.params.passLimit
  merging : s.point = .buildMerge →
    (s.pq.map fun i => (nodeGet s.node i).weight).sum ≤ s.params.passLimit
  walking : s.point = .genWalk → ∀ e ∈ s.stack, assignFits s.node e

/-- The core never holds more than OUT_BUF untaken bytes (R83). -/
def outputBounded (s : State) : Prop := s.out.length ≤ s.params.outBuf

end Sys2Proof.Machine
end

