-- ==== Sys2Proof/Safety/Schedule.lean ====
section
/-! DEFINITION. The schedules that statements speak of: what the host and the agents do after a command word
(00_scope.md R6; 20_memory.md R95; 30_encoding.md R121). -/

namespace Sys2Proof.Machine

/-- The event is one of the host's own transactions, at which the run that follows a command word ends. -/
def Event.isAccess : Event → Bool
  | .write _ _ _ => true
  | .read _ _ => true
  | .reset => true
  | .poll _ => true
  | .withdraw => true
  | .send _ => false
  | .take => false
  | .core => false

/-- A script that is empty or begins with a host access: nothing of it is run with a command word. -/
def hostNext : List Event → Bool
  | [] => true
  | e :: _ => e.isAccess

/-- n turns of the core, each followed by a turn of the sink: the host of R121, whose sink takes every offered
byte at once. -/
def beats : Nat → List Event
  | 0 => []
  | n + 1 => .core :: .take :: beats n

/-- Turns of the core and the sink in any order (R95). -/
def onlyTurns (es : List Event) : Bool := es.all fun e => e == .core || e == .take

/-- How many turns the core gets. -/
def coreTurns (es : List Event) : Nat := es.count .core

/-- Items that carry bytes, one each. -/
def bytesIn (bs : List Byte) : List Item := bs.map .byte

/-- One pass or container on the input stream: its bytes, then EOS (R82). -/
def streamOf (bs : List Byte) : List Item := bytesIn bs ++ [.eos]

/-- The item that an event adds to the host's queue. -/
def Event.sent : Event → Option Item
  | .send it => some it
  | .write _ _ _ => none
  | .read _ _ => none
  | .withdraw => none
  | .take => none
  | .core => none
  | .reset => none
  | .poll _ => none

/-- The items that a schedule adds to the host's queue, in order (R121). -/
def sentItems (es : List Event) : List Item := es.filterMap Event.sent

/-- How many of the items are bytes: IN_COUNT counts these and no EOS (R42). -/
def byteCount (its : List Item) : Nat := its.countP fun it => it != .eos

/-- The instruction completes with success in state t when it is run from s with n beats after it. -/
def completes (i : Instr) (n : Nat) (s t : State) : Prop :=
  exec i { s with script := beats n } = .next t ∧ t.done = true ∧ t.err = false

/-- The state after n steps, each of which answers a next state. -/
def runSteps : Nat → State → Option State
  | 0, s => some s
  | n + 1, s =>
    match step s with
    | .next t => runSteps n t
    | .fault _ => none
    | .refused _ => none

/-- Every register access that stands in a script is an aligned 32-bit one (R81). -/
def accessLegal : Event → Bool
  | .write w off _ => (accessFault w off).isNone
  | .read w off => (accessFault w off).isNone
  | .send _ => true
  | .withdraw => true
  | .take => true
  | .core => true
  | .reset => true
  | .poll _ => true

/-- A script with no access that R87 refuses. -/
def scriptLegal (es : List Event) : Bool := es.all accessLegal

/-- The state with every offered byte taken by the host's sink (R83). -/
def allTaken (s : State) : State :=
  { s with
    out := [], outRec := s.outRec ++ s.out,
    outCount := s.outCount + BitVec.ofNat 32 s.out.length }

end Sys2Proof.Machine
end

