-- ==== Sys2Proof/Safety.lean ====
section
/-! DEFINITION. What a safe run is: no host access that R87 leaves stuck, and the invariants of the machine. -/

namespace Sys2Proof.Machine

/-- The invariants together. -/
structure Sound (s : State) : Prop where
  work : WorkClean s
  error : ErrorState s
  tree : TreeState s
  counts : CountsBounded s
  values : ValuesBounded s
  output : outputBounded s

/-- A state from which the next step is no stuck access. -/
def State.safe (s : State) : Prop := ∃ t, step s = .next t

end Sys2Proof.Machine
end

