-- ==== Sys2Proof/Certificates/Slice0/Obligations.lean ====
section
/-! DEFINITION. The statements about the HCC, each of a rule of spec/ or derived from its files. -/

open Sys2Proof Sys2Proof.Machine

/-! ## Command words -/

/-- 30_encoding.md R110 to R112: no bit of a command word is lost. Decoding the encoding of a well-formed
instruction gives that instruction, for every operand value. -/
def Obligations.DecodeOfEncodeIsIdentity : Prop :=
  ∀ i : Instr, i.wellFormed = true → decode (encode i) = i

/-- The other direction: every 32-bit word is the encoding of the instruction it decodes to, which is
well-formed. -/
def Obligations.EncodeOfDecodeIsIdentity : Prop :=
  ∀ w : Word, encode (decode w) = w ∧ (decode w).wellFormed = true

/-- R112: a word decodes to one of the eleven commands exactly when OP is at most 0xA and bits 31..4 are 0. -/
def Obligations.LegalWordsAreExactlyTheElevenCommands : Prop :=
  ∀ w : Word, decode w ∈ commands ↔ (w.extractLsb' 0 4).toNat ≤ 10 ∧ w.extractLsb' 4 28 = 0#28

/-- R111: words written out from the opcode map. -/
def Obligations.OpcodeMapSamples : Prop :=
  decode 0b00000000000000000000000000000010#32 = .scan ∧
    decode 0b00000000000000000000000000000001#32 = .clear ∧
    decode 0b00000000000000000000000000001010#32 = .decompress ∧
    decode 0b00000000000000000000000000010001#32 = .illegalReserved 1 1

/-! ## One step -/

/-- 46_control.md R310, 00_scope.md R6: a host write of a command word to CMD is one register access. It is `exec` of
the instruction the word decodes to, at the state whose script gives no other agent a turn (which leaves the
acceptance alone), with the model's step counter advanced; the script goes on after it. -/
def Obligations.StepRunsTheDecodedCommand : Prop :=
  ∀ (s : State) (v : Word) (rest : List Event), s.script = .write 32 0x04 v :: rest →
    ∃ t, exec (decode v) { s with script := [], ticks := s.ticks + 1 } = .next t ∧
      step s = .next { t with script := rest }

/-- 00_scope.md R6: `exec` of an accepted command is the run of single steps from the write of its word to the host's
next access, for every order of the agents' turns between them; of every other word, and of NOP (log entry 8), it is
the one step of the write. That `exec` names this run is the model's choice (log entry 7). -/
def Obligations.ExecIsTheRunOfItsSteps : Prop :=
  ∀ (s : State) (v : Word) (ran rest : List Event), s.script = .write 32 0x04 v :: (ran ++ rest) →
    (∀ e ∈ ran, e.isAccess = false) → hostNext rest = true →
    ∃ t, exec (decode v) { s with script := ran ++ rest } = .next t ∧
      ((s.opstate = .idle ∧ s.err = false ∧ decode v ∈ commands ∧ decode v ∉ [.nop, .clear]) →
        runSteps (ran.length + 1) s = some { t with ticks := s.ticks + (ran.length + 1) }) ∧
      (¬ (s.opstate = .idle ∧ s.err = false ∧ decode v ∈ commands ∧ decode v ∉ [.nop, .clear]) →
        step s = .next { t with ticks := s.ticks + 1 })

/-- 20_memory.md R87: a register access with an offset that is no multiple of 4, or of another width than 32
bits, is given no step. -/
def Obligations.AccessOfAnotherFormHasNoStep : Prop :=
  ∀ (s : State) (w : Nat) (off : Offset) (v : Word) (rest : List Event),
    s.script = .write w off v :: rest ∨ s.script = .read w off :: rest →
      (off.toNat % 4 ≠ 0 ∨ w ≠ 32) → ∀ t, step s ≠ .next t

/-- R81, R91: with legal accesses only, every step gives a next state, and what is left of the script is legal
again, so that no run ever gets stuck. -/
def Obligations.LegalScriptNeverSticks : Prop :=
  ∀ s : State, scriptLegal s.script = true →
    ∃ t, step s = .next t ∧ scriptLegal t.script = true

/-- 60_exceptions.md R355: with OPSTATE = IDLE the core takes no step on its own. -/
def Obligations.IdleCoreTakesNoStep : Prop :=
  ∀ s : State, s.opstate = .idle → coreTurn s = s

/-! ## Acceptance, refusal, CLEAR, NOP, illegal words -/

/-- R356 and 46_control.md R310: a command word other than CLEAR, written while a command runs or an error is
pending, sets REJECT and leaves everything else, the interrupt output included; and REJECT falls only by
CLEAR or reset. -/
def Obligations.RefusedCommandSetsOnlyReject : Prop :=
  (∀ (i : Instr) (s : State), i ≠ .clear → (s.opstate ≠ .idle ∨ s.err = true) →
    exec i s = .next { s with reject := true } ∧ State.irq { s with reject := true } = s.irq) ∧
  (∀ s t : State, step s = .next t → s.reject = true → t.reject = false →
    ∃ rest, s.script = .write 32 0x04 0x00000001 :: rest ∨ s.script = .reset :: rest)

/-- 46_control.md R313: CLEAR is accepted in every state and writes what `Clear()` writes; it keeps the rest, IRQ_EN,
SEL, CODE_WSEL and the hidden contents of NODE and BITS among it, and the interrupt output drops. R313 does not
name SEEN, which no register shows: this leaves it open. -/
def Obligations.ClearAbortsAndClears : Prop :=
  ∀ s : State, ∃ t seen, exec .clear s = .next t ∧ t.irq = false ∧ t =
    { s with
      cmdOp := 1, opstate := .idle, point := .atStart, item := none, done := false, err := false,
      reject := false, cause := .noCause, errOp := 0, errPos := 0,
      freq := Vector.replicate 256 0, scanTotal := 0, treeKind := .noTree, rootValid := false,
      rootIdx := 0, nsym := 0, nnodes := 0, codesValid := false, pbits := 0, encPad := 0,
      hdrParsed := false, hdrPad := 0, len := Vector.replicate 256 0, pq := [], stack := [],
      look := none, acc := 0, nacc := 0, cur := 0, wstate := .atRoot, inCount := 0, outCount := 0,
      pos := 0, out := [], seen := seen }

/-- 46_control.md R312: an accepted NOP sets DONE and changes nothing else but what acceptance writes. That it
completes in the step of its acceptance is the model's reading of R111's "completes at once" (log entry 8). -/
def Obligations.NopOnlySetsDone : Prop :=
  ∀ s : State, WorkClean s → s.opstate = .idle → s.err = false →
    exec .nop s = .next { s with cmdOp := 0, done := true, inCount := 0, outCount := 0, pos := 0 }

/-- 30_encoding.md R112, 46_control.md R310, 60_exceptions.md R343: an accepted illegal word raises ILLEGAL_CMD at
once, with ERR_OP = v[3:0] and ERR_POS = 0, and changes nothing else but what acceptance writes. -/
def Obligations.IllegalWordRaisesIllegalCmd : Prop :=
  ∀ (i : Instr) (s : State), i ∉ commands → WorkClean s → s.opstate = .idle → s.err = false →
    exec i s = .next
      { s with
        cmdOp := (encode i).extractLsb' 0 4, done := false, inCount := 0, outCount := 0, pos := 0,
        err := true, cause := .illegalCmd, errOp := (encode i).extractLsb' 0 4, errPos := 0 }

/-- 60_exceptions.md R346: CLEAR and reset are the only ways out of the error state. -/
def Obligations.OnlyClearOrResetLeavesTheErrorState : Prop :=
  (∀ s t : State, step s = .next t → s.err = true → t.err = false →
    ∃ rest, s.script = .write 32 0x04 0x00000001 :: rest ∨ s.script = .reset :: rest) ∧
  ∀ (s : State) (rest : List Event),
    s.script = .write 32 0x04 0x00000001 :: rest ∨ s.script = .reset :: rest →
      ∃ t, step s = .next t ∧ t.err = false ∧ t.opstate = .idle

/-- 46_control.md R311: a command that has run its rule holds until the host has every byte, and then completes
with DONE. -/
def Obligations.FinishWaitsForTheOutput : Prop :=
  ∀ (s : State) (op : Op) (ph : Nat), s.opstate = .run op ph → s.point = .finishing →
    (s.out ≠ [] → coreTurn s = s) ∧
    (s.out = [] → coreTurn s =
      { s with
        opstate := .idle, point := .atStart, item := none, look := none, cur := 0, wstate := .atRoot,
        acc := 0, nacc := 0, stack := [], done := true })

/-- 60_exceptions.md R342: a command that has raised a cause holds until the host has every byte, and then enters
the error state with the cause, the opcode of the running primitive (R111), in a composite that of its phase (R254,
45_bit_unpacker.md R286), and the position mod 2^32. -/
def Obligations.RaiseEntersTheErrorState : Prop :=
  ∀ (s : State) (op : Op) (ph : Nat) (c : Cause) (p : Nat), s.opstate = .run op ph →
    s.point = .raising c p →
    (s.out ≠ [] → coreTurn s = s) ∧
    (s.out = [] → coreTurn s =
      { s with
        cause := c, errPos := BitVec.ofNat 32 p, err := true,
        errOp :=
          (match op, ph with
          | .prim .nop, _ => 0
          | .prim .scan, _ => 2
          | .prim .build, _ => 3
          | .prim .gencode, _ => 4
          | .prim .emitHeader, _ => 5
          | .prim .pack, _ => 6
          | .prim .parseHeader, _ => 7
          | .prim .unpack, _ => 8
          | .compress, 0 => 2
          | .compress, 1 => 3
          | .compress, 2 => 4
          | .compress, 3 => 5
          | .compress, _ => 6
          | .decompress, 0 => 7
          | .decompress, _ => 8),
        opstate := .idle, point := .atStart, item := none, look := none, cur := 0, wstate := .atRoot,
        acc := 0, nacc := 0, stack := [], pq := [] })

/-- 42_code_generator.md R200, 43_tree_codec.md R220, 44_bit_packer.md R252, 45_bit_unpacker.md R282: a command whose
precondition does not hold raises SEQUENCE with ERR_POS = 0 and changes nothing else but what acceptance
writes; it consumes and offers nothing. -/
def Obligations.UnmetPreconditionRaisesSequence : Prop :=
  ∀ (s : State) (turns rest : List Event), WorkClean s → s.opstate = .idle → s.err = false →
    s.script = turns ++ rest → onlyTurns turns = true → hostNext rest = true → 2 ≤ coreTurns turns →
    ∀ (i : Instr) (op : BitVec 4),
      (i = .gencode ∧ op = 4 ∧ s.treeKind = .noTree ∨ i = .emitHeader ∧ op = 5 ∧ s.codesValid = false ∨
        i = .pack ∧ op = 6 ∧ s.codesValid = false ∨ i = .unpack ∧ op = 8 ∧ s.hdrParsed = false) →
      exec i s = .next
        { s with
          cmdOp := op, done := false, inCount := 0, outCount := 0, pos := 0, err := true,
          cause := .sequence, errOp := op, errPos := 0, script := rest }

/-! ## The register window -/

/-- 70_reset_and_hazards.md R380: after reset ID reads 0x48554646 and every other offset reads 0, whatever the state
before it. -/
def Obligations.EveryRegisterReadsItsResetValue : Prop :=
  ∀ (s : State) (off : Offset), regRead off (resetCore s) = if off = 0x00 then 0x48554646#32 else 0

/-- 46_control.md R319: a host read of an aligned offset puts what `RegRead` gives there into the host's own record
and changes nothing else. What it gives is what the register's rule gives in the present state, of every register
while no command runs and of the control and counter registers always. -/
def Obligations.ReadsAreExactAndChangeNothing : Prop :=
  ∀ (s : State) (off : Offset) (rest : List Event), off.toNat % 4 = 0 →
    s.script = .read 32 off :: rest →
    step s = .next { s with script := rest, readLog := s.readLog ++ [(off, regRead off s)] } ∧
    ∀ r : Reg, off = r.offset →
      (s.opstate = .idle ∨
        r ∈ [.id, .cmd, .status, .err, .errPos, .irqEn, .sel, .codeWsel, .inCount, .outCount]) →
      regRead off s = exactRead r s

/-- 20_memory.md R90: a read of a reserved offset returns 0; a write to one has no effect, on REJECT and ERR neither. -/
def Obligations.ReservedOffsetsReadZeroIgnoreWrites : Prop :=
  ∀ (s : State) (off : Offset) (v : Word) (rest : List Event), 0x5C ≤ off.toNat → off.toNat % 4 = 0 →
    (s.script = .read 32 off :: rest →
      step s = .next { s with script := rest, readLog := s.readLog ++ [(off, 0)] }) ∧
    (s.script = .write 32 off v :: rest →
      step s = .next { s with script := rest, ticks := s.ticks + 1 })

/-- 46_control.md R314 to R318: what a host write does in every state, at every offset but CMD's. No other field of
the machine changes, REJECT and ERR neither; the interrupt output follows IRQ_EN at once. -/
def Obligations.RegisterWritesReachOnlyTheirFields : Prop :=
  ∀ (s u : State) (off : Offset) (v : Word) (rest : List Event), s.script = .write 32 off v :: rest →
    u = { s with script := rest, ticks := s.ticks + 1 } →
    (off = 0x08 → step s = .next (if v.getLsbD 1 then { u with done := false } else u)) ∧
    (off = 0x14 → ∃ t, step s = .next t ∧ t = { u with doneIe := v.getLsbD 0, errIe := v.getLsbD 1 } ∧
      t.irq = ((s.done && v.getLsbD 0) || (s.err && v.getLsbD 1))) ∧
    (off = 0x3C → step s = .next { u with sel := v.extractLsb' 0 9 }) ∧
    (off = 0x48 → step s = .next { u with codeWsel := v.extractLsb' 0 3 }) ∧
    (off.toNat % 4 = 0 → off ∉ [0x04#8, 0x08#8, 0x14#8, 0x3C#8, 0x48#8] → step s = .next u)

/-- 10_state.md R35 and 60_exceptions.md R348: the bits of a read of STATUS, in every state, a running command or
not. -/
def Obligations.StatusShowsTheFlags : Prop :=
  ∀ s : State,
    (regRead 0x08 s).getLsbD 0 = decide (s.opstate ≠ .idle) ∧ (regRead 0x08 s).getLsbD 1 = s.done ∧
    (regRead 0x08 s).getLsbD 2 = s.err ∧ (regRead 0x08 s).getLsbD 3 = s.reject ∧
    (regRead 0x08 s).extractLsb' 4 2 =
      (match s.treeKind with | .noTree => 0#2 | .emptyTree => 1#2 | .leaf => 2#2 | .multi => 3#2) ∧
    (regRead 0x08 s).getLsbD 6 = s.codesValid ∧ (regRead 0x08 s).getLsbD 7 = s.hdrParsed ∧
    (regRead 0x08 s).getLsbD 8 = ((s.done && s.doneIe) || (s.err && s.errIe)) ∧
    (regRead 0x08 s).extractLsb' 9 23 = 0#23

/-- 20_memory.md R89, 10_state.md R33, R34, R36 to R50, 60_exceptions.md R341: what a read of each offset shows of its
register's field, at which bits, with 0 at the reserved bits; the window registers' while no command runs. STATUS,
CODE_WORD and the NODE_* windows have statements of their own. -/
def Obligations.PackedRegistersShowTheirFields : Prop :=
  ∀ s : State,
    (regRead 0x00 s = 0x48554646#32 ∧
      ((regRead 0x04 s).extractLsb' 0 4 = s.cmdOp ∧ (regRead 0x04 s).extractLsb' 4 28 = 0#28) ∧
      ((regRead 0x0C s).extractLsb' 0 8 =
          (match s.cause with
          | .noCause => 0x00#8
          | .illegalCmd => 0x01#8
          | .sequence => 0x02#8
          | .lengthOverflow => 0x03#8
          | .noCode => 0x04#8
          | .passMismatch => 0x05#8
          | .mhBadMarker => 0x10#8
          | .mhTruncated => 0x11#8
          | .mhNoSentinel => 0x12#8
          | .mhBadPad => 0x13#8
          | .mhDupSymbol => 0x14#8
          | .mhNodeLimit => 0x15#8
          | .truncatedStream => 0x20#8
          | .badCode => 0x21#8
          | .padNonzero => 0x22#8
          | .emptyPayload => 0x23#8) ∧
        (regRead 0x0C s).extractLsb' 8 4 = s.errOp ∧ (regRead 0x0C s).extractLsb' 12 20 = 0#20) ∧
      regRead 0x10 s = s.errPos ∧
      ((regRead 0x14 s).getLsbD 0 = s.doneIe ∧ (regRead 0x14 s).getLsbD 1 = s.errIe ∧
        (regRead 0x14 s).extractLsb' 2 30 = 0#30) ∧
      regRead 0x24 s = s.inCount ∧ regRead 0x28 s = s.outCount ∧
      ((regRead 0x3C s).extractLsb' 0 9 = s.sel ∧ (regRead 0x3C s).extractLsb' 9 23 = 0#23) ∧
      ((regRead 0x48 s).extractLsb' 0 3 = s.codeWsel ∧ (regRead 0x48 s).extractLsb' 3 29 = 0#29)) ∧
    (s.opstate = .idle →
      (s.nsym < 512 → (regRead 0x18 s).toNat = s.nsym) ∧
      (s.nnodes < 1024 → (regRead 0x1C s).toNat = s.nnodes) ∧
      ((regRead 0x20 s).extractLsb' 0 9 = BitVec.ofNat 9 s.rootIdx ∧
        (regRead 0x20 s).extractLsb' 9 22 = 0#22 ∧ (regRead 0x20 s).getLsbD 31 = s.rootValid) ∧
      (s.scanTotal < 2 ^ 32 → (regRead 0x2C s).toNat = s.scanTotal) ∧
      (s.pbits < 2 ^ 40 →
        (regRead 0x30 s).toNat + 2 ^ 32 * (regRead 0x34 s).toNat = s.pbits) ∧
      ((regRead 0x38 s).extractLsb' 0 3 = s.encPad ∧ (regRead 0x38 s).extractLsb' 8 3 = s.hdrPad ∧
        (regRead 0x38 s).extractLsb' 3 5 = 0#5 ∧ (regRead 0x38 s).extractLsb' 11 21 = 0#21) ∧
      (symGet s.freq (s.sel.extractLsb' 0 8) < 2 ^ 32 →
        (regRead 0x40 s).toNat = symGet s.freq (s.sel.extractLsb' 0 8)) ∧
      (symGet s.len (s.sel.extractLsb' 0 8) < 2 ^ 32 →
        (regRead 0x44 s).toNat =
          if s.codesValid then symGet s.len (s.sel.extractLsb' 0 8) else 0))

/-- 10_state.md R51: the first code bit is bit 31 of word 0; bits past the code's length read 0. -/
def Obligations.CodeWordShowsTheCodeMsbFirst : Prop :=
  ∀ (s : State) (j : Nat), s.opstate = .idle → j < 32 →
    (regRead 0x4C s).getLsbD (31 - j) =
      (s.codesValid &&
        decide (32 * s.codeWsel.toNat + j < symGet s.len (s.sel.extractLsb' 0 8)) &&
        bitAt (symGet s.bits (s.sel.extractLsb' 0 8)) (32 * s.codeWsel.toNat + j))

/-- 10_state.md R52 to R54: the tree dump of the selected node, and 0 at an index that no node has. -/
def Obligations.NodeWindowsShowTheSelectedNode : Prop :=
  ∀ s : State, s.opstate = .idle →
    (s.nnodes ≤ s.sel.toNat → regRead 0x50 s = 0 ∧ regRead 0x54 s = 0 ∧ regRead 0x58 s = 0) ∧
    (∀ b w, s.sel.toNat < s.nnodes → nodeGet s.node s.sel.toNat = .leaf b w →
      regRead 0x50 s = 0x80#8 ++ 0#8 ++ b ++ 0x01#8 ∧ regRead 0x54 s = BitVec.ofNat 32 w ∧
        regRead 0x58 s = 0) ∧
    (∀ w l r, s.sel.toNat < s.nnodes → nodeGet s.node s.sel.toNat = .internal w l r →
      regRead 0x50 s = 0x80000000#32 ∧ regRead 0x54 s = BitVec.ofNat 32 w ∧
        regRead 0x58 s = 0#7 ++ BitVec.ofNat 9 r ++ 0#7 ++ BitVec.ofNat 9 l)

/-- 70_reset_and_hazards.md R381: reset is the only event that changes IRQ_EN, SEL or CODE_WSEL other than the host's
own writes to them. -/
def Obligations.OnlyItsOwnWriteOrResetChangesASelection : Prop :=
  ∀ s t : State, step s = .next t → (∀ rest, s.script ≠ .reset :: rest) →
    ((∀ v rest, s.script ≠ .write 32 0x14 v :: rest) → t.doneIe = s.doneIe ∧ t.errIe = s.errIe) ∧
    ((∀ v rest, s.script ≠ .write 32 0x3C v :: rest) → t.sel = s.sel) ∧
    ((∀ v rest, s.script ≠ .write 32 0x48 v :: rest) → t.codeWsel = s.codeWsel)

/-- 70_reset_and_hazards.md R381: reset has the effect of CLEAR and then the zero selections, but for the hidden NODE,
BITS and SEEN, whose values this leaves open. -/
def Obligations.ResetIsClearWithZeroSelections : Prop :=
  ∀ s : State, ∃ t node bits seen, exec .clear s = .next t ∧
    resetCore s =
      { t with
        doneIe := false, errIe := false, sel := 0, codeWsel := 0, cmdOp := 0, node := node,
        bits := bits, seen := seen }

/-! ## What each command computes -/

/-- 40_frequency_scanner.md R150, R151: SCAN of a pass that fits counts every byte, whatever was counted before,
invalidates tree, codes and header, consumes the pass and its EOS and offers nothing. -/
def Obligations.ScanCountsThePass : Prop :=
  ∀ (s : State) (pass : List Byte) (more : List Item) (turns rest : List Event), WorkClean s →
    s.opstate = .idle → s.err = false → s.inQ = streamOf pass ++ more →
    pass.length ≤ s.params.passLimit → s.script = turns ++ rest → onlyTurns turns = true →
    hostNext rest = true → 2 * pass.length + 4 ≤ coreTurns turns →
    ∃ freq, (∀ b, symGet freq b = pass.count b) ∧
      exec .scan s = .next
        { s with
          cmdOp := 2, done := true, inCount := BitVec.ofNat 32 pass.length, outCount := 0,
          pos := pass.length + 1, freq := freq, scanTotal := pass.length, treeKind := .noTree,
          rootValid := false, rootIdx := 0, nsym := 0, nnodes := 0, codesValid := false, pbits := 0,
          encPad := 0, hdrParsed := false, hdrPad := 0, inQ := more, script := rest }

/-- 40_frequency_scanner.md R150: SCAN of a longer pass raises LENGTH_OVERFLOW at the first byte that does not fit; the
counts of the bytes before it stay, and the items after it stay with the host. -/
def Obligations.ScanOverflowsAtTheFirstByteTooMany : Prop :=
  ∀ (s : State) (pass : List Byte) (b : Byte) (more : List Item) (turns rest : List Event), WorkClean s →
    s.opstate = .idle → s.err = false → s.inQ = bytesIn pass ++ .byte b :: more →
    pass.length = s.params.passLimit → s.script = turns ++ rest → onlyTurns turns = true →
    hostNext rest = true → 2 * pass.length + 4 ≤ coreTurns turns →
    ∃ freq, (∀ c, symGet freq c = pass.count c) ∧
      exec .scan s = .next
        { s with
          cmdOp := 2, done := false, err := true, cause := .lengthOverflow, errOp := 2,
          errPos := BitVec.ofNat 32 s.params.passLimit,
          inCount := BitVec.ofNat 32 (s.params.passLimit + 1), outCount := 0,
          pos := s.params.passLimit + 1, freq := freq, scanTotal := s.params.passLimit,
          treeKind := .noTree, rootValid := false, rootIdx := 0, nsym := 0, nnodes := 0,
          codesValid := false, pbits := 0, encPad := 0, hdrParsed := false, hdrPad := 0, inQ := more,
          script := rest }

/-- 41_tree_builder.md R172: PQ_extract_min returns the unique member with the least key and removes it. -/
def Obligations.ExtractMinTakesTheLeastKey : Prop :=
  ∀ (node : Vector Node 511) (pq : List Nat), pq.Nodup →
    (extractMin node pq = none ↔ pq = []) ∧
    ∀ m rest, extractMin node pq = some (m, rest) →
      m ∈ pq ∧ (∀ i, i ∈ rest ↔ i ∈ pq ∧ i ≠ m) ∧
        ∀ i ∈ pq, i ≠ m →
          (nodeGet node m).weight < (nodeGet node i).weight ∨
            (nodeGet node m).weight = (nodeGet node i).weight ∧ m < i

/-- 41_tree_builder.md R175 to R177: BUILD. The leaves are the counted symbols in ascending order; every internal node
k joins the two nodes of least key, left first, among the nodes below k that no node below k has joined; the
weights add up; the root is the last node. With no counted symbol there is no tree. That the entries past the last
node keep what they held is the model's choice (log entry 24). -/
def Obligations.BuildMakesTheHuffmanTree : Prop :=
  ∀ (s : State) (n : Nat) (turns rest : List Event), WorkClean s → s.opstate = .idle → s.err = false →
    s.script = turns ++ rest → onlyTurns turns = true → hostNext rest = true →
    258 ≤ coreTurns turns → n = (countedSymbols s.freq).length →
    ∃ node,
      exec .build s = .next
        { s with
          cmdOp := 3, done := true, inCount := 0, outCount := 0, pos := 0,
          treeKind := (if n = 0 then .emptyTree else if n = 1 then .leaf else .multi),
          rootValid := decide (0 < n), rootIdx := 2 * n - 2, nsym := n, nnodes := 2 * n - 1,
          codesValid := false, pbits := 0, encPad := 0, hdrParsed := false, hdrPad := 0, node := node,
          script := rest } ∧
      (0 < n → (nodeGet node (2 * n - 2)).weight = s.freq.toList.sum) ∧
      (∀ k b, (countedSymbols s.freq)[k]? = some b → nodeGet node k = .leaf b (symGet s.freq b)) ∧
      (∀ k, 2 * n - 1 ≤ k → nodeGet node k = nodeGet s.node k) ∧
      ∀ k, n ≤ k → k < 2 * n - 1 → ∃ l r,
        nodeGet node k = .internal ((nodeGet node l).weight + (nodeGet node r).weight) l r ∧
        l < k ∧ r < k ∧ keyLt node l r = true ∧
        (∀ j < k, (nodeGet node j).isLeaf = false →
          l ∉ [(nodeGet node j).left, (nodeGet node j).right] ∧
            r ∉ [(nodeGet node j).left, (nodeGet node j).right]) ∧
        ∀ i < k, i ≠ l → i ≠ r →
          (∀ j < k, (nodeGet node j).isLeaf = false →
            i ∉ [(nodeGet node j).left, (nodeGet node j).right]) →
          keyLt node r i = true

/-- 42_code_generator.md R200 to R203: GENCODE gives every leaf its path, "0" to a lone leaf, and no code to another
symbol; PBITS is the sum of FREQ times LEN and ENC_PAD fills the last byte. That BITS of a symbol with no code keeps
what it held is the model's choice (log entry 24). -/
def Obligations.GencodeAssignsThePaths : Prop :=
  ∀ (s : State) (tr : HuffTree) (turns rest : List Event), WorkClean s → s.opstate = .idle →
    s.err = false → holdsTree s tr → tr.distinct → s.script = turns ++ rest →
    onlyTurns turns = true → hostNext rest = true → 2 * tr.leaves + 2 ≤ coreTurns turns →
    ∃ len bits, (∀ b p, (b, p) ∈ tr.codes → symGet len b = p.length ∧ symGet bits b = p) ∧
      (∀ b, b ∉ tr.symbols → symGet len b = 0 ∧ symGet bits b = symGet s.bits b) ∧
      exec .gencode s = .next
        { s with
          cmdOp := 4, done := true, inCount := 0, outCount := 0, pos := 0, len := len, bits := bits,
          pbits := (allSymbols.map fun b => symGet s.freq b * symGet len b).sum,
          encPad := BitVec.ofNat 3
            ((8 - (allSymbols.map fun b => symGet s.freq b * symGet len b).sum % 8) % 8),
          codesValid := true, script := rest }

/-- 42_code_generator.md R200, 45_bit_unpacker.md R282, 60_exceptions.md R349: with an empty tree GENCODE completes, no
symbol has a code, PBITS and ENC_PAD are 0; and UNPACK consumes nothing and offers nothing. EMIT_HEADER has a
statement of its own. -/
def Obligations.EmptyTreeIsNoError : Prop :=
  (∀ (s : State) (turns rest : List Event), WorkClean s → s.opstate = .idle → s.err = false →
    s.treeKind = .emptyTree → s.script = turns ++ rest → onlyTurns turns = true →
    hostNext rest = true → 3 ≤ coreTurns turns →
    exec .gencode s = .next
      { s with
        cmdOp := 4, done := true, inCount := 0, outCount := 0, pos := 0,
        len := Vector.replicate 256 0, pbits := 0, encPad := 0, codesValid := true, script := rest }) ∧
  ∀ (s : State) (turns rest : List Event), WorkClean s → s.opstate = .idle → s.err = false →
    s.hdrParsed = true → s.treeKind = .emptyTree → s.script = turns ++ rest →
    onlyTurns turns = true → hostNext rest = true → 2 ≤ coreTurns turns →
    exec .unpack s = .next
      { s with cmdOp := 8, done := true, inCount := 0, outCount := 0, pos := 0, script := rest }

/-- 42_code_generator.md R204: the code table that GENCODE leaves is prefix-free, and for a tree of more than one leaf
the sum of 2^(−LEN[b]) over the symbols b that have a code is 1. -/
def Obligations.CodesArePrefixFree : Prop :=
  ∀ (s : State) (tr : HuffTree) (turns rest : List Event), WorkClean s → s.opstate = .idle →
    s.err = false → holdsTree s tr → tr.distinct → s.script = turns ++ rest →
    onlyTurns turns = true → hostNext rest = true → 2 * tr.leaves + 2 ≤ coreTurns turns →
    ∃ t, exec .gencode s = .next t ∧ t.codesValid = true ∧
      (∀ a b, a ≠ b → symGet t.len a ≠ 0 → symGet t.len b ≠ 0 → ¬ tableCode t a <+: tableCode t b) ∧
      (s.treeKind = .multi →
        (allSymbols.map fun b =>
          if symGet t.len b = 0 then (0 : ℚ) else (1 / 2) ^ symGet t.len b).sum = 1)

/-- 43_tree_codec.md R220, R113: EMIT_HEADER offers the tree in pre-order, the sentinel and ENC_PAD, and changes nothing
else but what acceptance and completion write. -/
def Obligations.EmitHeaderOffersTheHeader : Prop :=
  ∀ (s : State) (tr : HuffTree) (n : Nat) (rest : List Event), WorkClean s → s.opstate = .idle →
    s.err = false → s.codesValid = true → holdsTree s tr → s.script = beats n ++ rest →
    hostNext rest = true → tr.bytes.length + 5 ≤ n →
    exec .emitHeader s = .next
      { s with
        cmdOp := 5, done := true, inCount := 0, pos := 0,
        outCount := BitVec.ofNat 32 (headerBytes tr s.encPad).length,
        outRec := s.outRec ++ headerBytes tr s.encPad, script := rest }

/-- 43_tree_codec.md R221: "EMIT_HEADER on TREE_KIND = EMPTY offers nothing". -/
def Obligations.EmitHeaderOfEmptyTreeOffersNothing : Prop :=
  ∀ (s : State) (turns rest : List Event), WorkClean s → s.opstate = .idle → s.err = false →
    s.codesValid = true → s.treeKind = .emptyTree → s.script = turns ++ rest →
    onlyTurns turns = true → hostNext rest = true → 2 ≤ coreTurns turns →
    exec .emitHeader s = .next
      { s with cmdOp := 5, done := true, inCount := 0, outCount := 0, pos := 0, script := rest }

/-- 43_tree_codec.md R222, R223, R225: PARSE_HEADER of the header of a tree with distinct symbols rebuilds that tree in
pre-order with every weight 0 and reads nothing after the PAD byte. NODE past the tree and SEEN, which no register
shows, are left open (93_implementation_defined.md I13; 10_state.md R62). -/
def Obligations.ParseHeaderRebuildsTheTree : Prop :=
  ∀ (s : State) (tr : HuffTree) (pad : BitVec 3) (more : List Item) (turns rest : List Event), WorkClean s →
    s.opstate = .idle → s.err = false → tr.distinct →
    s.inQ = bytesIn (headerBytes tr pad) ++ more → s.script = turns ++ rest →
    onlyTurns turns = true → hostNext rest = true →
    2 * (headerBytes tr pad).length + 3 ≤ coreTurns turns →
    ∃ node seen, PreorderAt node 0 tr ∧
      exec .parseHeader s = .next
        { s with
          cmdOp := 7, done := true, inCount := BitVec.ofNat 32 (headerBytes tr pad).length,
          outCount := 0, pos := (headerBytes tr pad).length,
          treeKind := (if tr.leaves = 1 then .leaf else .multi), rootValid := true, rootIdx := 0,
          nsym := tr.leaves, nnodes := 2 * tr.leaves - 1, codesValid := false, pbits := 0, encPad := 0,
          hdrParsed := true, hdrPad := pad, node := node, seen := seen, inQ := more, script := rest }

/-- 43_tree_codec.md R222: an empty container, EOS as the first item, gives the empty tree. -/
def Obligations.ParseHeaderOfEmptyContainer : Prop :=
  ∀ (s : State) (more : List Item) (turns rest : List Event), WorkClean s → s.opstate = .idle →
    s.err = false → s.inQ = .eos :: more → s.script = turns ++ rest → onlyTurns turns = true →
    hostNext rest = true → 5 ≤ coreTurns turns →
    exec .parseHeader s = .next
      { s with
        cmdOp := 7, done := true, inCount := 0, outCount := 0, pos := 1, treeKind := .emptyTree,
        rootValid := false, rootIdx := 0, nsym := 0, nnodes := 0, codesValid := false, pbits := 0,
        encPad := 0, hdrParsed := true, hdrPad := 0, seen := Vector.replicate 256 false, inQ := more,
        script := rest }

/-- 43_tree_codec.md R224: the item that a malformed header is reported at, for each cause. The core has the item and its
position, and its next step raises the cause there with NNODES = NSYM = 0. -/
def Obligations.MalformedHeaderCauses : Prop :=
  ∀ (s : State) (op : Op) (ph p : Nat) (c : Cause), s.opstate = .run op ph →
    ((∃ nint m, s.point = .parseMarker nint ∧ s.item = some (.byte m, p) ∧ 2 ≤ m.toNat ∧ c = .mhBadMarker) ∨
      (∃ m, s.point = .parseFirst ∧ s.item = some (.byte m, p) ∧ 2 ≤ m.toNat ∧ c = .mhBadMarker) ∨
      (∃ k, (s.point = .parseMarker k ∨ s.point = .parseSymbol k ∨ s.point = .parseSentinel k ∨
        s.point = .parsePad k) ∧ s.item = some (.eos, p) ∧ c = .mhTruncated) ∨
      (∃ root m, s.point = .parseSentinel root ∧ s.item = some (.byte m, p) ∧ m.toNat ≠ 255 ∧
        c = .mhNoSentinel) ∨
      (∃ root m, s.point = .parsePad root ∧ s.item = some (.byte m, p) ∧ 8 ≤ m.toNat ∧ c = .mhBadPad) ∨
      (∃ nint b, s.point = .parseSymbol nint ∧ s.item = some (.byte b, p) ∧ symGet s.seen b = true ∧
        c = .mhDupSymbol) ∨
      (s.point = .parseMarker 255 ∧ s.item = some (.byte 0x00, p) ∧ c = .mhNodeLimit)) →
    coreTurn s = { s with point := .raising c p, item := none, nnodes := 0, nsym := 0 }

/-- 44_bit_packer.md R250 to R253: PACK of a pass whose bytes all have codes and whose bits add up to PBITS offers the
bits MSB-first with zero padding, and changes nothing else but what acceptance and completion write. -/
def Obligations.PackOffersThePayload : Prop :=
  ∀ (s : State) (pass : List Byte) (more : List Item) (n : Nat) (rest : List Event), WorkClean s →
    s.opstate = .idle → s.err = false → s.codesValid = true → s.inQ = streamOf pass ++ more →
    pass.length ≤ s.params.passLimit → (∀ b ∈ pass, symGet s.len b ≠ 0) →
    (codeBits (tableCode s) pass).length = s.pbits → s.script = beats n ++ rest →
    hostNext rest = true → s.pbits + 3 * pass.length + 5 ≤ n →
    ∃ bs, PacksTo (codeBits (tableCode s) pass) bs ∧
      exec .pack s = .next
        { s with
          cmdOp := 6, done := true, inCount := BitVec.ofNat 32 pass.length,
          outCount := BitVec.ofNat 32 bs.length, pos := pass.length + 1, inQ := more,
          outRec := s.outRec ++ bs, script := rest }

/-- 44_bit_packer.md R252: the tests of PACK's loop in their order. The core has the item and its position, and its next
step raises the cause there with the partial byte dropped. -/
def Obligations.PackRaisesInTestOrder : Prop :=
  ∀ (s : State) (op : Op) (ph n nb p : Nat) (b : Byte) (c : Cause), s.opstate = .run op ph →
    s.point = .packRead n nb →
    (s.item = some (.eos, p) ∧ nb ≠ s.pbits ∧ c = .passMismatch ∨
      s.item = some (.byte b, p) ∧ n = s.params.passLimit ∧ c = .lengthOverflow ∨
      s.item = some (.byte b, p) ∧ n ≠ s.params.passLimit ∧ symGet s.len b = 0 ∧ c = .noCode) →
    coreTurn s = { s with point := .raising c p, item := none, acc := 0, nacc := 0 }

/-- 45_bit_unpacker.md R280 to R285: UNPACK of a payload that holds the codes of some symbols of the parsed tree, and
then HDR_PAD zero bits up to the end of its last byte, offers exactly those symbols. -/
def Obligations.UnpackOffersTheSymbols : Prop :=
  ∀ (s : State) (tr : HuffTree) (xs bs : List Byte) (more : List Item) (n : Nat) (rest : List Event),
    WorkClean s → s.opstate = .idle → s.err = false → s.hdrParsed = true → holdsTree s tr →
    tr.distinct → (∀ x ∈ xs, x ∈ tr.symbols) → bs ≠ [] →
    (codeBits tr.code xs).length + s.hdrPad.toNat = 8 * bs.length →
    PacksTo (codeBits tr.code xs) bs → s.inQ = streamOf bs ++ more → s.script = beats n ++ rest →
    hostNext rest = true → 11 * bs.length + 6 ≤ n →
    exec .unpack s = .next
      { s with
        cmdOp := 8, done := true, inCount := BitVec.ofNat 32 bs.length,
        outCount := BitVec.ofNat 32 xs.length, pos := bs.length + 1,
        inQ := more,
        outRec := s.outRec ++ xs, script := rest }

/-- 45_bit_unpacker.md R281, R283, R284: the framing errors of UNPACK. A valid bit 1 in a one-leaf tree is BAD_CODE at its
byte; after the last valid bit, a walk that is not at the root is TRUNCATED_STREAM, and only then is a padding
bit that is 1 PAD_NONZERO, both at the last payload byte; no payload byte is EMPTY_PAYLOAD. -/
def Obligations.UnpackFramingErrors : Prop :=
  ∀ (s : State) (op : Op) (ph : Nat), s.opstate = .run op ph →
    (∀ b cpos last lpos j, s.point = .unpackBits b cpos last lpos j → s.treeKind = .leaf →
      j < (if last then 8 - s.hdrPad.toNat else 8) → b.getLsbD (7 - j) = true →
      coreTurn s = { s with point := .raising .badCode cpos }) ∧
    (∀ b cpos lpos j, s.point = .unpackBits b cpos true lpos j → 8 - s.hdrPad.toNat ≤ j →
      s.wstate = .descending →
      coreTurn s = { s with point := .raising .truncatedStream cpos, look := none }) ∧
    (∀ b cpos lpos j, s.point = .unpackBits b cpos true lpos j → 8 - s.hdrPad.toNat ≤ j →
      s.wstate = .atRoot → (∃ k < s.hdrPad.toNat, b.getLsbD k = true) →
      coreTurn s = { s with point := .raising .padNonzero cpos, look := none }) ∧
    (∀ p, s.point = .unpackFirst → s.item = some (.eos, p) →
      coreTurn s = { s with point := .raising .emptyPayload p, item := none })

/-- 44_bit_packer.md R254, R255 and R117; 70_reset_and_hazards.md R384: COMPRESS of a pass given twice offers the empty
container for the empty pass, and else the header of a tree of the pass's symbols and the packed codes of the
pass. From any other idle state it offers the same container, and so do its five primitives run one after the
other; the tree is the one that their BUILD makes. -/
def Obligations.CompressOffersTheContainer : Prop :=
  ∀ (s u : State) (pass : List Byte) (more more' : List Item) (n : Nat) (rest : List Event), WorkClean s →
    s.opstate = .idle → s.err = false → pass.length ≤ s.params.passLimit →
    s.inQ = streamOf pass ++ streamOf pass ++ more → s.script = beats n ++ rest →
    hostNext rest = true → 300 * pass.length + 5000 ≤ n → WorkClean u → u.opstate = .idle →
    u.err = false → pass.length ≤ u.params.passLimit →
    u.inQ = streamOf pass ++ streamOf pass ++ more' →
    ∃ t container v u1 u2 u3 u4 u5, exec .compress s = .next t ∧ t.opstate = .idle ∧ t.done = true ∧
      t.err = false ∧ t.inQ = more ∧ t.script = rest ∧
      t.inCount = BitVec.ofNat 32 (2 * pass.length) ∧
      t.outCount = BitVec.ofNat 32 container.length ∧ t.outRec = s.outRec ++ container ∧
      t.scanTotal = pass.length ∧ t.cmdOp = 9 ∧ t.codesValid = true ∧ t.hdrParsed = false ∧
      completes .compress n u v ∧ v.outRec = u.outRec ++ container ∧
      completes .scan n u u1 ∧ completes .build n u1 u2 ∧ completes .gencode n u2 u3 ∧
      completes .emitHeader n u3 u4 ∧ completes .pack n u4 u5 ∧ u5.outRec = u.outRec ++ container ∧
      u5.inQ = more' ∧
      (pass = [] → container = [] ∧ t.treeKind = .emptyTree) ∧
      (pass ≠ [] → ∃ tr bs, tr.distinct ∧ (∀ b, b ∈ tr.symbols ↔ b ∈ pass) ∧ holdsTree u2 tr ∧
        holdsTree t tr ∧ PacksTo (codeBits tr.code pass) bs ∧
        container =
          headerBytes tr (BitVec.ofNat 3 ((8 - (codeBits tr.code pass).length % 8) % 8)) ++ bs)

/-- 45_bit_unpacker.md R286: DECOMPRESS of a container, the header of a tree with distinct symbols and the packed codes
of one or more of its symbols, offers exactly those symbols; the empty container gives nothing. -/
def Obligations.DecompressOffersTheSymbols : Prop :=
  ∀ (s : State) (more : List Item) (n : Nat) (rest : List Event), WorkClean s → s.opstate = .idle →
    s.err = false → s.script = beats n ++ rest → hostNext rest = true →
    (s.inQ = .eos :: more → 7 ≤ n → ∃ t, exec .decompress s = .next t ∧ t.opstate = .idle ∧
      t.done = true ∧ t.err = false ∧ t.inQ = more ∧ t.script = rest ∧ t.outRec = s.outRec ∧
      t.cmdOp = 10 ∧ t.inCount = 0 ∧ t.outCount = 0 ∧ t.treeKind = .emptyTree ∧ t.hdrParsed = true ∧
      t.codesValid = false ∧ t.nsym = 0 ∧ t.nnodes = 0 ∧ t.rootValid = false ∧ t.rootIdx = 0 ∧
      t.hdrPad = 0) ∧
    (∀ tr xs bs, tr.distinct → xs ≠ [] → (∀ x ∈ xs, x ∈ tr.symbols) →
      PacksTo (codeBits tr.code xs) bs →
      s.inQ = streamOf (headerBytes tr
        (BitVec.ofNat 3 ((8 - (codeBits tr.code xs).length % 8) % 8)) ++ bs) ++ more →
      11 * bs.length + 2000 ≤ n →
      ∃ t, exec .decompress s = .next t ∧ t.opstate = .idle ∧ t.done = true ∧ t.err = false ∧
        t.inQ = more ∧ t.script = rest ∧ t.outRec = s.outRec ++ xs ∧ t.cmdOp = 10 ∧
        t.inCount = BitVec.ofNat 32 ((headerBytes tr 0).length + bs.length) ∧
        t.outCount = BitVec.ofNat 32 xs.length ∧ holdsTree t tr ∧ t.hdrParsed = true ∧
        t.codesValid = false ∧ t.nsym = tr.leaves ∧ t.nnodes = 2 * tr.leaves - 1 ∧
        t.rootValid = true ∧ t.rootIdx = 0 ∧
        t.hdrPad = BitVec.ofNat 3 ((8 - (codeBits tr.code xs).length % 8) % 8))

/-- The round trip, 45_bit_unpacker.md R287, which the spec itself derives: what COMPRESS offers for a pass that
fits, DECOMPRESS turns back into exactly that pass, the empty pass and its empty container included, from any two
idle states. -/
def Obligations.DecompressInvertsCompress : Prop :=
  ∀ (s u : State) (pass : List Byte) (more more' : List Item) (n m : Nat) (rest rest' : List Event),
    WorkClean s → s.opstate = .idle → s.err = false → pass.length ≤ s.params.passLimit →
    s.inQ = streamOf pass ++ streamOf pass ++ more → s.script = beats n ++ rest →
    hostNext rest = true → 300 * pass.length + 5000 ≤ n →
    ∃ t container, exec .compress s = .next t ∧ t.done = true ∧
      t.outRec = s.outRec ++ container ∧ (pass = [] → container = []) ∧
      (WorkClean u → u.opstate = .idle → u.err = false → u.inQ = streamOf container ++ more' →
        u.script = beats m ++ rest' → hostNext rest' = true → 11 * container.length + 2000 ≤ m →
        ∃ v, exec .decompress u = .next v ∧ v.done = true ∧ v.outRec = u.outRec ++ pass)

/-! ## What each command leaves alone -/

/-- No command changes the interrupt enables, the selections, the host's read record or the build's parameters
(R313 "Kept", R381). -/
def Obligations.CommandsKeepTheHostsSelections : Prop :=
  ∀ (i : Instr) (s t : State), exec i s = .next t →
    t.doneIe = s.doneIe ∧ t.errIe = s.errIe ∧ t.sel = s.sel ∧ t.codeWsel = s.codeWsel ∧
      t.params = s.params ∧ t.readLog = s.readLog ∧ t.ticks = s.ticks

/-- Only SCAN, COMPRESS and CLEAR change the frequency table and SCAN_TOTAL (10_state.md R55, R44). -/
def Obligations.OnlyScanAndClearChangeTheCounts : Prop :=
  ∀ (i : Instr) (s t : State), exec i s = .next t → i ∉ [.scan, .compress, .clear] →
    t.freq = s.freq ∧ t.scanTotal = s.scanTotal

/-- Only BUILD and PARSE_HEADER, alone or in a composite, write the node arena; beside them only SCAN and CLEAR
change TREE_KIND, NSYM, NNODES, ROOT, HDR_PARSED or HDR_PAD (10_state.md R35, R56; R65). Of the hidden entries past
NNODES this is the model's choice (log entry 24). -/
def Obligations.OnlyTreeCommandsChangeTheTree : Prop :=
  ∀ (i : Instr) (s t : State), exec i s = .next t →
    (i ∉ [.build, .parseHeader, .compress, .decompress] → t.node = s.node) ∧
    (i ∉ [.build, .parseHeader, .compress, .decompress, .scan, .clear] →
      t.treeKind = s.treeKind ∧ t.nsym = s.nsym ∧ t.nnodes = s.nnodes ∧ t.rootIdx = s.rootIdx ∧
        t.rootValid = s.rootValid ∧ t.hdrParsed = s.hdrParsed ∧ t.hdrPad = s.hdrPad)

/-- Only GENCODE, alone or in COMPRESS, writes BITS, and only it and CLEAR write LEN; the commands that use the code
table leave CODES_VALID, PBITS and ENC_PAD (10_state.md R58, R35). Of the hidden BITS with LEN = 0 this is the model's
choice (log entry 24). -/
def Obligations.OnlyGencodeChangesTheCodeTable : Prop :=
  ∀ (i : Instr) (s t : State), exec i s = .next t →
    (i ∉ [.gencode, .compress] → t.bits = s.bits) ∧
    (i ∉ [.gencode, .compress, .clear] → t.len = s.len) ∧
    (i ∈ [.nop, .emitHeader, .pack, .unpack] ∨ i ∉ commands →
      t.codesValid = s.codesValid ∧ t.pbits = s.pbits ∧ t.encPad = s.encPad)

/-- SCAN, BUILD, GENCODE and PARSE_HEADER offer no output byte; NOP, BUILD, GENCODE and EMIT_HEADER consume no
input item. -/
def Obligations.CommandsUseOnlyTheirStreams : Prop :=
  ∀ (i : Instr) (s t : State), exec i s = .next t → WorkClean s → s.opstate = .idle → s.err = false →
    (i ∈ [.nop, .scan, .build, .gencode, .parseHeader] → t.outRec = s.outRec ∧ t.out = [] ∧ t.outCount = 0) ∧
    (i ∈ [.nop, .build, .gencode, .emitHeader] → s.inQ <+: t.inQ ∧ t.inCount = 0 ∧ t.pos = 0)

/-- A command that raises nothing leaves the error registers, and REJECT rises only at a refusal and falls only at
CLEAR (10_state.md R35, R36, R65; 60_exceptions.md R356). -/
def Obligations.CommandsKeepTheErrorRegistersUnlessTheyRaise : Prop :=
  ∀ (i : Instr) (s t : State), exec i s = .next t → i ≠ .clear →
    (t.err = s.err → t.cause = s.cause ∧ t.errOp = s.errOp ∧ t.errPos = s.errPos) ∧
    t.reject = (s.reject || decide (s.opstate ≠ .idle) || s.err)

/-! ## The whole machine -/

/-- 20_memory.md R82, R83, R93, R94: no item and no output byte is lost, duplicated or reordered.
Output: only CLEAR and reset take back bytes that were offered and not taken; every other step only adds at the
end of what was taken and is offered; the sink's turn moves one byte and counts it.
Input: a core turn that consumes takes the front item, with its position and its count, and no other turn touches
the queue; a command's run takes its items from the front, IN_COUNT counts the bytes among them and pos all of
them; the host's own transactions leave the queue, but for sending at its end and withdrawing at its front (the
model's choice, log entry 22). pos is the exact number of consumed items (10_state.md R31, 00_scope.md R12, R13). -/
def Obligations.StreamsAreNeverLostOrReordered : Prop :=
  (∀ s t : State, step s = .next t → (∀ rest, s.script ≠ .write 32 0x04 0x00000001 :: rest) →
    (∀ rest, s.script ≠ .reset :: rest) →
    s.outRec ++ s.out <+: t.outRec ++ t.out ∧ s.outRec <+: t.outRec) ∧
  (∀ (s t : State) (rest : List Event), s.script = .take :: rest → step s = .next t →
    t.outRec ++ t.out = s.outRec ++ s.out ∧ t.out = s.out.tail ∧
      t.outCount = s.outCount + BitVec.ofNat 32 (s.out.length - t.out.length)) ∧
  (∀ s : State,
    ((coreTurn s).inQ = s.inQ ∧ (coreTurn s).inCount = s.inCount ∧
      ((coreTurn s).pos = s.pos ∨ (coreTurn s).pos = 0 ∧ (coreTurn s).point = .atStart)) ∨
    ∃ it q, s.inQ = it :: q ∧ s.item = none ∧ coreTurn s =
      { s with
        inQ := q, item := some (it, s.pos), pos := s.pos + 1,
        inCount := s.inCount + BitVec.ofNat 32 (byteCount [it]) }) ∧
  (∀ (i : Instr) (s t : State), exec i s = .next t → ∃ ran consumed, s.script = ran ++ t.script ∧
    s.inQ ++ sentItems ran = consumed ++ t.inQ ∧
    (s.opstate = .idle → s.err = false → i ≠ .clear →
      t.inCount = BitVec.ofNat 32 (byteCount consumed) ∧
      (i ∉ [.compress, .decompress] → t.pos = consumed.length)) ∧
    (s.opstate ≠ .idle ∨ s.err = true ∨ i = .clear → ran = [] ∧ consumed = [])) ∧
  ∀ (s t : State) (e : Event) (rest : List Event), s.script = e :: rest → step s = .next t →
    (∀ it, e = .send it → t.inQ = s.inQ ++ [it]) ∧ (e = .withdraw → t.inQ = s.inQ.tail) ∧
    (e = .take → t.inQ = s.inQ) ∧
    (e.isAccess = true → e ≠ .withdraw → (∀ v, e ≠ .write 32 0x04 v) → t.inQ = s.inQ)

/-- 20_memory.md R95: when the sink takes the bytes makes no difference to the core. The core either holds, or its step
is the one it would take had the sink taken every offered byte before. -/
def Obligations.SinkTimingMakesNoDifference : Prop :=
  ∀ s : State, coreTurn s = s ∨ allTaken (coreTurn s) = allTaken (coreTurn (allTaken s))

/-- 20_memory.md R83: the core holds at most OUT_BUF offered, untaken bytes. -/
def Obligations.OutputBufferNeverOverflows : Prop :=
  ∀ s t : State, outputBounded s → step s = .next t → outputBounded t

/-- 00_scope.md R8, 40_frequency_scanner.md R150, 42_code_generator.md R203, R205, 10_state.md R56: FREQ adds up to
SCAN_TOTAL and never passes 2^CNT_W − 1, whatever steps are taken; and what is computed from the counts fits the
widths that show it: no code is longer than 255 bits, PBITS is at most (2^CNT_W − 1)·255, which is below 2^40, and no
node of the arena weighs more than 2^CNT_W − 1. So nothing wraps. The second half takes the invariants
WorkingStateIsEmptyWhenIdle and TreeKindAgreesWithTheTree. -/
def Obligations.CountsNeverWrap : Prop :=
  ∀ s t : State, CountsBounded s → step s = .next t →
    CountsBounded t ∧
      (WorkClean s → TreeState s → ValuesBounded s → ValuesBounded t ∧ t.pbits < 2 ^ 40)

/-- 60_exceptions.md R347, R36: every step keeps ERR = 1 apart from BUSY = 1, and a cause in ERR exactly while ERR = 1. -/
def Obligations.ErrorAndBusyNeverHoldTogether : Prop :=
  ∀ s t : State, ErrorState s → step s = .next t → ErrorState t

/-- 10_state.md R57, R59 to R61, R63: every step keeps the working state empty where no rule uses it, all of it while
OPSTATE = IDLE. -/
def Obligations.WorkingStateIsEmptyWhenIdle : Prop :=
  ∀ s t : State, WorkClean s → step s = .next t → WorkClean t

/-- 10_state.md R64, R56: every step keeps the agreement of TREE_KIND with ROOT_VALID, NSYM, NNODES and the root, and
of CODES_VALID and HDR_PARSED with TREE_KIND, through every place of the rules that make a tree. In every IDLE
state with a LEAF or MULTI tree there is one tree of nodes below NNODES that the machine holds, with distinct
symbols at its NSYM leaves. -/
def Obligations.TreeKindAgreesWithTheTree : Prop :=
  ∀ s t : State, WorkClean s → TreeState s → step s = .next t → TreeState t

/-- The invariants hold after reset, whatever the host's side holds (R380). -/
def Obligations.ResetIsSound : Prop :=
  ∀ s : State, Sound (resetCore s)
end

