-- ==== Sys2Proof/Laws/Ops.lean ====
section
/-! SUPPORT. One lemma per shared operation: what it can do, or what a read after a write gives. -/

namespace Sys2Proof.Machine

/-! ## The internal memories -/

@[simp] theorem symGet_symSet_same {α : Type} (v : Vector α 256) (b : Byte) (x : α) :
    symGet (symSet v b x) b = x := by
  simp [symGet, symSet]

theorem symGet_symSet_of_ne {α : Type} (v : Vector α 256) (b c : Byte) (x : α) (h : c ≠ b) :
    symGet (symSet v b x) c = symGet v c := by
  have : b.toNat ≠ c.toNat := fun e => h (BitVec.eq_of_toNat_eq e.symm)
  simp [symGet, symSet, this]

@[simp] theorem symGet_replicate {α : Type} (x : α) (b : Byte) :
    symGet (Vector.replicate 256 x) b = x := by
  simp [symGet]

theorem nodeGet_nodeSet_same (v : Vector Node 511) (i : Nat) (n : Node) (h : i < 511) :
    nodeGet (nodeSet v i n) i = n := by
  simp [nodeGet, nodeSet, h]

theorem nodeGet_nodeSet_of_ne (v : Vector Node 511) (i j : Nat) (n : Node) (h : j ≠ i) :
    nodeGet (nodeSet v i n) j = nodeGet v j := by
  have h' : ¬ i = j := fun e => h e.symm
  simp [nodeGet, nodeSet, h']

/-! ## The streams -/

/-- `OutWrite` holds and changes nothing, or offers its byte and goes on. -/
theorem offer_cases (b : Byte) (k : State → State) (s : State) :
    (s.params.outBuf ≤ s.out.length ∧ offer b k s = s) ∨
      (s.out.length < s.params.outBuf ∧ offer b k s = k { s with out := s.out ++ [b] }) := by
  unfold offer
  split
  · exact .inr ⟨‹_›, rfl⟩
  · exact .inl ⟨Nat.le_of_not_lt ‹_›, rfl⟩

/-- With no untaken byte `OutWrite` never holds: OUT_BUF is at least 1. -/
theorem offer_of_empty (b : Byte) (k : State → State) (s : State) (h : s.out = []) :
    offer b k s = k { s with out := [b] } := by
  simp [offer, h, Params.outBuf]

/-- The low 32 bits of R31's register are those of the position wherever the register has 32 bits (R37). -/
theorem posReg_low (s : State) (h : 31 ≤ s.params.cntW) :
    s.posReg.setWidth 32 = BitVec.ofNat 32 s.pos := by
  apply BitVec.eq_of_toNat_eq
  rw [State.posReg, BitVec.toNat_setWidth, BitVec.toNat_ofNat, BitVec.toNat_ofNat]
  exact Nat.mod_mod_of_dvd _ (Nat.pow_dvd_pow 2 (by omega))

/-- `InRead` holds, transfers an item, or hands the item it has to the rule. -/
theorem awaitItem_cases (k : Item → Nat → State → State) (s : State) :
    (s.item = none ∧ s.inQ = [] ∧ awaitItem k s = s) ∨
      (∃ it q, s.item = none ∧ s.inQ = it :: q ∧
        awaitItem k s = { s with inQ := q, item := some (it, s.pos), pos := s.pos + 1,
                                 inCount := countIn it s.inCount }) ∨
      (∃ it ipos, s.item = some (it, ipos) ∧ awaitItem k s = k it ipos { s with item := none }) := by
  unfold awaitItem
  split
  · unfold receive
    split
    · exact .inl ⟨‹_›, ‹_›, rfl⟩
    · exact .inr (.inl ⟨_, _, ‹_›, ‹_›, rfl⟩)
  · exact .inr (.inr ⟨_, _, ‹_›, rfl⟩)

/-! ## Finishing -/

/-- `finish` does nothing with no command running, starts the next phase, or waits for the output. -/
theorem finish_cases (s : State) :
    (s.opstate = .idle ∧ finish s = s) ∨
      (∃ op ph, s.opstate = .run op ph ∧ ph < lastPhase op ∧
        finish s = { s with opstate := .run op (ph + 1), pos := 0, point := .atStart }) ∨
      (∃ op ph, s.opstate = .run op ph ∧ lastPhase op ≤ ph ∧
        finish s = { s with point := .finishing }) := by
  unfold finish
  split
  · exact .inl ⟨‹_›, rfl⟩
  · split
    · exact .inr (.inl ⟨_, _, ‹_›, ‹_›, rfl⟩)
    · exact .inr (.inr ⟨_, _, ‹_›, Nat.le_of_not_lt ‹_›, rfl⟩)

/-! ## Registers, helpers and NOP -/

/-- A register write other than to CMD reaches DONE, the interrupt enables and the selections only
(R314 to R318). -/
theorem regWrite_frame (off : Offset) (v : Word) (s : State) :
    ∃ d i e x w, regWrite off v s =
      { s with done := d, doneIe := i, errIe := e, sel := x, codeWsel := w } := by
  unfold regWrite
  split <;> exact ⟨_, _, _, _, _, rfl⟩

/-- `InvalidateTree` as one update (R320). -/
theorem invalidateTree_eq (s : State) :
    invalidateTree s =
      { s with
        treeKind := .noTree, rootValid := false, rootIdx := 0, nsym := 0, nnodes := 0,
        codesValid := false, pbits := 0, encPad := 0, hdrParsed := false, hdrPad := 0 } := rfl

/-- The sink takes nothing or one byte. -/
theorem sinkTurn_cases (s : State) :
    (s.out = [] ∧ sinkTurn s = s) ∨
      ∃ b rest, s.out = b :: rest ∧
        sinkTurn s =
          { s with out := rest, outRec := s.outRec ++ [b], outCount := s.outCount + 1 } := by
  unfold sinkTurn
  split
  · exact .inl ⟨‹_›, rfl⟩
  · exact .inr ⟨_, _, ‹_›, rfl⟩

/-- A CMD write while the core may accept it means no command runs and no error is pending (R310). -/
theorem accepting_iff (s : State) : s.accepting = true ↔ s.opstate = .idle ∧ s.err = false := by
  unfold State.accepting State.busy
  cases s.opstate <;> simp

/-- An accepted NOP is its acceptance and `finish` (R312). -/
theorem nop_turns (s : State) :
    coreTurn (coreTurn (accept (.prim .nop) s)) =
      finishTurn { accept (.prim .nop) s with point := .finishing } := rfl

end Sys2Proof.Machine
end

