-- ==== Sys2Proof/Laws/Container.lean ====
section
/-! SUPPORT. Facts about trees, their bytes and their codes, and about the bits of a byte (30_encoding.md R113 to
R116; 44_bit_packer.md R250). -/

namespace Sys2Proof.Machine

theorem leaves_pos (t : HuffTree) : 1 ≤ t.leaves := by
  cases t with
  | leaf b => exact Nat.le_refl 1
  | node l r => have := leaves_pos l; simp only [HuffTree.leaves]; omega

theorem symbols_length (t : HuffTree) : t.symbols.length = t.leaves := by
  induction t with
  | leaf b => rfl
  | node l r hl hr => simp [HuffTree.symbols, HuffTree.leaves, hl, hr]

/-- A tree of N leaves takes 3·N − 1 bytes (R113). -/
theorem bytes_length (t : HuffTree) : t.bytes.length + 1 = 3 * t.leaves := by
  induction t with
  | leaf b => rfl
  | node l r hl hr => simp [HuffTree.bytes, HuffTree.leaves]; omega

theorem headerBytes_length (t : HuffTree) (pad : BitVec 3) :
    (headerBytes t pad).length = 3 * t.leaves + 1 := by
  have := bytes_length t
  simp [headerBytes]; omega

/-- A tree with distinct symbols has at most 256 leaves. -/
theorem leaves_le_of_distinct (t : HuffTree) (h : t.distinct) : t.leaves ≤ 256 := by
  have hn : (t.symbols.map BitVec.toNat).Nodup := h.map fun _ _ e => BitVec.eq_of_toNat_eq e
  have hs : t.symbols.map BitVec.toNat ⊆ List.range 256 := fun x hx => by
    obtain ⟨b, _, rfl⟩ := List.mem_map.1 hx
    exact List.mem_range.2 b.isLt
  simpa [symbols_length] using (List.subperm_of_subset hn hs).length_le

/-- Every path goes on from the given one. -/
theorem paths_extend (p : BitString) (t : HuffTree) (b : Byte) (q : BitString)
    (h : (b, q) ∈ t.paths p) : p <+: q := by
  induction t generalizing p with
  | leaf c => simp only [HuffTree.paths, List.mem_singleton, Prod.mk.injEq] at h; rw [h.2]
  | node l r hl hr =>
    simp only [HuffTree.paths, List.mem_append] at h
    rcases h with h | h
    · exact (List.prefix_append p [false]).trans (hl _ h)
    · exact (List.prefix_append p [true]).trans (hr _ h)

/-- The paths carry the symbols, in the order of the leaves. -/
theorem paths_symbols (p : BitString) (t : HuffTree) : (t.paths p).map (·.1) = t.symbols := by
  induction t generalizing p with
  | leaf c => rfl
  | node l r hl hr => simp [HuffTree.paths, HuffTree.symbols, hl, hr]

theorem codes_symbols (t : HuffTree) : t.codes.map (·.1) = t.symbols := by
  cases t with
  | leaf c => rfl
  | node l r => simp [HuffTree.codes, HuffTree.symbols, paths_symbols]

/-! ## Bits of a byte -/

theorem setMsbBit_getLsbD (b : Byte) (k j : Nat) (x : Bool) (hk : k < 8) :
    (setMsbBit b k x).getLsbD j = if j = 7 - k then x else b.getLsbD j := by
  have mask : ∀ k : Fin 8, ∀ j < 8, (0x80#8 >>> k.val).getLsbD j = decide (j = 7 - k.val) := by decide
  by_cases hj : j < 8
  · have hm := mask ⟨k, hk⟩ j hj
    simp only at hm
    cases x with
    | false =>
      show (b &&& ~~~(0x80#8 >>> k)).getLsbD j = _
      rw [BitVec.getLsbD_and, BitVec.getLsbD_not, hm]
      by_cases he : j = 7 - k
      · rw [if_pos he]; simp [he]
      · rw [if_neg he]; simp [he, hj]
    | true =>
      show (b ||| (0x80#8 >>> k)).getLsbD j = _
      rw [BitVec.getLsbD_or, hm]
      by_cases he : j = 7 - k
      · rw [if_pos he]; simp [he]
      · rw [if_neg he]; simp [he]
  · rw [if_neg (by omega), BitVec.getLsbD_of_ge _ _ (by omega), BitVec.getLsbD_of_ge _ _ (by omega)]

theorem flagAt_getLsbD (k j : Nat) (x : Bool) (hk : k < 32) :
    (flagAt k x).getLsbD j = (decide (j = k) && x) := by
  rw [flagAt, BitVec.getLsbD_ofNat]
  cases x
  · simp
  · by_cases h : j = k
    · simp [h, hk]
    · simp [h, Ne.symm h]

end Sys2Proof.Machine
end

