-- ==== Sys2Proof/Laws/PerInstr.lean ====
section
/-! SUPPORT. Statements made of each instruction as syntax, one lemma per constructor. -/

namespace Sys2Proof.Laws.RowMatch

/-- The words of an instruction match its row of the opcode table (30_encoding.md R111, R112). -/
def Statement (i : Instr) : Prop := encode i &&& i.row.mask = i.row.pattern

/-- The low bits of a joined word are those of its OP field. -/
theorem join_and_low (rsv : BitVec 28) (op m : BitVec 4) :
    joinFields rsv op &&& (0#28 ++ m) = 0#28 ++ (op &&& m) := by
  have key : ((rsv ++ op : BitVec (28 + 4)) &&& (0#28 ++ m)) = 0#28 ++ (op &&& m) := by
    ext k hk
    simp only [BitVec.getElem_and, BitVec.getElem_append]
    split <;> simp
  exact key

theorem nop : Statement .nop := rfl
theorem clear : Statement .clear := rfl
theorem scan : Statement .scan := rfl
theorem build : Statement .build := rfl
theorem gencode : Statement .gencode := rfl
theorem emitHeader : Statement .emitHeader := rfl
theorem pack : Statement .pack := rfl
theorem parseHeader : Statement .parseHeader := rfl
theorem unpack : Statement .unpack := rfl
theorem compress : Statement .compress := rfl
theorem decompress : Statement .decompress := rfl

theorem illegalOpB (rsv : BitVec 28) : Statement (.illegalOpB rsv) :=
  (join_and_low rsv 0xB#4 0xF#4).trans rfl

theorem illegalOpCtoF (lo : BitVec 2) (rsv : BitVec 28) : Statement (.illegalOpCtoF lo rsv) :=
  (join_and_low rsv (3#2 ++ lo) 0xC#4).trans (congrArg (0#28 ++ ·) (show (3#2 ++ lo) &&& 0xC#4 = 0xC#4 by revert lo; decide))

theorem illegalReserved (op : BitVec 4) (rsv : BitVec 28) : Statement (.illegalReserved op rsv) :=
  (join_and_low rsv op 0#4).trans (congrArg (0#28 ++ ·) BitVec.and_zero)

end Sys2Proof.Laws.RowMatch
end

