-- ==== Sys2Proof/Laws/Run.lean ====
section
/-! SUPPORT. What a running command can reach: each place in a rule belongs to one primitive, so a command's run
passes through the places of its own primitives only. -/

namespace Sys2Proof.Machine

/-- The primitives whose rules have the place; the first line and the two ends are in every rule. -/
def Point.isIn (p : Prim) : Point → Bool
  | .atStart | .finishing | .raising _ _ => true
  | .scanRead => p == .scan
  | .buildMerge => p == .build
  | .genWalk => p == .gencode
  | .emitNode | .emitSymbol _ | .emitSentinel | .emitPad => p == .emitHeader
  | .parseFirst | .parseMarker _ | .parseSymbol _ | .parseSentinel _ | .parsePad _ | .parseDone =>
    p == .parseHeader
  | .packRead _ _ | .packBits _ _ _ _ | .packFlush => p == .pack
  | .unpackFirst | .unpackNext _ | .unpackBits _ _ _ _ _ => p == .unpack

/-- The command op runs, at a place in the rule of its present primitive, or no command runs any more. -/
def RunOf (op : Op) (s : State) : Prop :=
  s.opstate = .idle ∨ ∃ ph, s.opstate = .run op ph ∧ s.point.isIn (currentPrim op ph) = true

theorem runOf_accept (op : Op) (s : State) : RunOf op (accept op s) := .inr ⟨0, rfl, rfl⟩

theorem runOf_finish {op : Op} {ph : Nat} (s : State) (h : s.opstate = .run op ph) :
    RunOf op (finish s) := by
  rcases finish_cases s with ⟨h1, e⟩ | ⟨op', ph', h1, _, e⟩ | ⟨op', ph', h1, _, e⟩ <;> rw [h] at h1
  · cases h1
  · cases h1; rw [e]; exact .inr ⟨ph + 1, rfl, rfl⟩
  · cases h1; rw [e]; exact .inr ⟨ph, h, rfl⟩

theorem runOf_at {op : Op} {ph : Nat} {s : State} (h : s.opstate = .run op ph)
    (hp : s.point.isIn (currentPrim op ph) = true) : RunOf op s := .inr ⟨ph, h, hp⟩

/-- A reading step stays in the run when what the rule does with the item does. -/
theorem runOf_awaitItem {op : Op} {ph : Nat} {s : State} (k : Item → Nat → State → State)
    (h : s.opstate = .run op ph) (hp : s.point.isIn (currentPrim op ph) = true)
    (hk : ∀ it ipos t, t.opstate = s.opstate → t.point = s.point → RunOf op (k it ipos t)) :
    RunOf op (awaitItem k s) := by
  rcases awaitItem_cases k s with ⟨_, _, e⟩ | ⟨it, q, _, _, e⟩ | ⟨it, ipos, _, e⟩ <;> rw [e]
  · exact runOf_at h hp
  · exact runOf_at h hp
  · exact hk _ _ _ rfl rfl

/-- The core's step stays in the run of its command. -/
theorem runOf_coreTurn {op : Op} {s : State} (h : RunOf op s) : RunOf op (coreTurn s) := by
  rcases h with h | ⟨ph, h, hp⟩
  · rw [coreTurn, h]; exact .inl h
  · have go : ∀ t : State, t.opstate = s.opstate → t.point.isIn (currentPrim op ph) = true → RunOf op t :=
      fun t e e' => runOf_at (e.trans h) e'
    rw [coreTurn, h]
    simp only
    generalize hpt : s.point = pt at hp ⊢
    have read : ∀ k, (∀ it ipos t, t.opstate = s.opstate → t.point = s.point → RunOf op (k it ipos t)) →
        RunOf op (awaitItem k s) := fun k => runOf_awaitItem k h (by rw [hpt]; exact hp)
    cases pt with
    | atStart =>
      generalize hq : currentPrim op ph = p at go
      cases p <;>
        simp only [pointTurn, startTurn, scanStart, buildStart, genStart, emitStart, packStart,
          parseStart, unpackStart, raise, assignCode]
      all_goals (repeat' split) <;>
        first
        | exact runOf_finish _ h
        | exact go _ rfl rfl
    | scanRead =>
      refine read _ fun it ipos t ho ht => ?_
      cases it <;> simp only [scanItem, raise]
      · split <;> refine go _ ho ?_
        · rfl
        · simp only [ht, hpt]; exact hp
      · exact runOf_finish t (ho.trans h)
    | buildMerge =>
      simp only [pointTurn, buildMerge, buildRoot, mergeNodes]
      (repeat' split) <;>
        first
        | exact runOf_finish _ h
        | (refine go _ rfl ?_; rw [hpt]; exact hp)
    | genWalk =>
      simp only [pointTurn, genWalk, genDone, assignNode, assignCode]
      (repeat' split) <;>
        first
        | exact runOf_finish _ h
        | (refine go _ rfl ?_; rw [hpt]; exact hp)
    | parseFirst =>
      refine read _ fun it ipos t ho ht => ?_
      cases it <;> simp only [parseFirst, parseMarker, parseInternal, parseRaise, raise]
      all_goals (repeat' split) <;> exact go _ ho (by first | rfl | exact hp)
    | parseMarker nint =>
      refine read _ fun it ipos t ho ht => ?_
      cases it <;> simp only [parseMarker, parseInternal, parseRaise, raise]
      all_goals (repeat' split) <;> exact go _ ho (by first | rfl | exact hp)
    | parseSymbol nint =>
      refine read _ fun it ipos t ho ht => ?_
      cases it <;> simp only [parseSymbol, parseLeaf, parseRaise, raise]
      all_goals (repeat' split) <;> exact go _ ho (by first | rfl | exact hp)
    | parseSentinel root =>
      refine read _ fun it ipos t ho ht => ?_
      cases it <;> simp only [parseSentinel, parseRaise, raise]
      all_goals (repeat' split) <;> exact go _ ho (by first | rfl | exact hp)
    | parsePad root =>
      refine read _ fun it ipos t ho ht => ?_
      cases it <;> simp only [parsePad, parseRaise, raise]
      all_goals (repeat' split) <;> exact go _ ho (by first | rfl | exact hp)
    | packRead n nb =>
      refine read _ fun it ipos t ho ht => ?_
      cases it <;> simp only [packItem, packRaise, raise]
      all_goals (repeat' split) <;> exact go _ ho (by first | rfl | exact hp)
    | unpackFirst =>
      refine read _ fun it ipos t ho ht => ?_
      cases it <;> exact go _ ho (by first | rfl | exact hp)
    | unpackNext lpos =>
      refine read _ fun it ipos t ho ht => ?_
      cases it <;> exact go _ ho (by first | rfl | exact hp)
    | parseDone => exact runOf_finish _ h
    | finishing =>
      simp only [pointTurn, finishTurn, complete, settle]
      split
      · exact .inl rfl
      · exact go _ rfl (by rw [hpt]; exact hp)
    | raising c p =>
      simp only [pointTurn, raiseTurn, enterError, settle]
      split
      · exact .inl rfl
      · exact go _ rfl (by rw [hpt]; exact hp)
    | _ =>
      simp only [pointTurn, emitNode, serNode, emitSymbol, emitSentinel, emitPad, offer, packBits,
        putBit, packFlush, flushed, unpackBits, walkBit, unpackEnd, raise]
      (repeat' split) <;>
        first
        | exact runOf_finish _ h
        | exact go _ rfl (by first | rfl | exact hp | (rw [hpt]; exact hp))

/-- What holds of a command's acceptance and is kept by every step of its own primitives and of the streams'
other ends holds after the run. -/
theorem drive_of_runOf {op : Op} {P : State → Prop}
    (script : ∀ s es, P s → P { s with script := es })
    (sink : ∀ s, P s → P (sinkTurn s)) (source : ∀ it s, P s → P (sendItem it s))
    (core : ∀ s ph, s.opstate = .run op ph → s.point.isIn (currentPrim op ph) = true → P s →
      P (coreTurn s)) (es : List Event) :
    ∀ s, RunOf op s → P s → P (drive es s) := by
  have hsink : ∀ s, RunOf op s → RunOf op (sinkTurn s) := by
    intro s hs; unfold sinkTurn; split <;> exact hs
  have hcore : ∀ s, RunOf op s → P s → P (coreTurn s) := by
    intro s hs hP
    rcases hs with hi | ⟨ph, h, hp⟩
    · rw [coreTurn, hi]; exact hP
    · exact core s ph h hp hP
  induction es with
  | nil => exact fun s _ hP => script s _ hP
  | cons e es ih =>
    intro s hs hP
    cases e with
    | write w off v => exact script s _ hP
    | read w off => exact script s _ hP
    | send it => exact ih _ hs (source it s hP)
    | take => exact ih _ (hsink s hs) (sink s hP)
    | core => exact ih _ (runOf_coreTurn hs) (hcore s hs hP)
    | withdraw => exact script s _ hP
    | reset => exact script s _ hP
    | poll c => exact script s _ hP

/-- The same of the whole command: it is refused, or accepted and run. -/
theorem runCommand_of_runOf {op : Op} {P : State → Prop} (s : State)
    (refuse : P (refuseCommand s)) (start : s.accepting = true → P (accept op s))
    (script : ∀ s es, P s → P { s with script := es })
    (sink : ∀ s, P s → P (sinkTurn s)) (source : ∀ it s, P s → P (sendItem it s))
    (core : ∀ s ph, s.opstate = .run op ph → s.point.isIn (currentPrim op ph) = true → P s →
      P (coreTurn s)) : P (runCommand op s) := by
  unfold runCommand
  split
  · exact drive_of_runOf script sink source core _ _ (runOf_accept op s) (start ‹_›)
  · exact refuse

/-! ## Schedules -/

/-- Turns of the core and the sink, up to the host's next access: the run passes through the turns and leaves the
access in the script. -/
theorem drive_append (es rest : List Event) (s : State) (h : onlyTurns es = true) :
    drive (es ++ rest) s =
      drive rest (es.foldl (fun t e => if e = .core then coreTurn t else sinkTurn t) s) := by
  induction es generalizing s with
  | nil => rfl
  | cons e es ih =>
    simp only [onlyTurns, List.all_cons, Bool.and_eq_true] at h
    cases e with
    | core => simpa [drive] using ih (coreTurn s) h.2
    | take => simpa [drive] using ih (sinkTurn s) h.2
    | write w off v => simp at h
    | read w off => simp at h
    | send it => simp at h
    | withdraw => simp at h
    | reset => simp at h
    | poll c => simp at h

/-- At the host's next access the run ends. -/
theorem drive_hostNext (rest : List Event) (s : State) (h : hostNext rest = true) :
    drive rest s = { s with script := rest } := by
  cases rest with
  | nil => rfl
  | cons e es => cases e <;> first | rfl | (simp [hostNext, Event.isAccess] at h)

/-- One beat: a turn of the core, then of the sink. -/
theorem drive_beats_succ (n : Nat) (rest : List Event) (s : State) :
    drive (beats (n + 1) ++ rest) s = drive (beats n ++ rest) (sinkTurn (coreTurn s)) := rfl

theorem beats_add (m n : Nat) : beats (m + n) = beats m ++ beats n := by
  induction m with
  | zero => simp [beats]
  | succ m ih => rw [Nat.succ_add]; simp [beats, ih]

/-- With no command running, turns of the core and the sink change nothing once the output is empty. -/
theorem drive_idle (es rest : List Event) (s : State) (h : onlyTurns es = true)
    (hr : hostNext rest = true) (hi : s.opstate = .idle) (ho : s.out = []) :
    drive (es ++ rest) s = { s with script := rest } := by
  induction es with
  | nil => exact drive_hostNext rest s hr
  | cons e es ih =>
    simp only [onlyTurns, List.all_cons, Bool.and_eq_true] at h
    have hc : coreTurn s = s := by simp [coreTurn, hi]
    have hs : sinkTurn s = s := by simp [sinkTurn, ho]
    cases e with
    | core => simpa [drive, hc] using ih h.2
    | take => simpa [drive, hs] using ih h.2
    | write w off v => simp at h
    | read w off => simp at h
    | send it => simp at h
    | withdraw => simp at h
    | reset => simp at h
    | poll c => simp at h

end Sys2Proof.Machine
end

