-- ==== Sys2Proof/Laws/Schedule.lean ====
section
/-! SUPPORT. The core and the sink take their turns whatever the script and the model's step counter are, so that
turns taken one step at a time and turns taken in one run give the same machine (00_scope.md R6). -/

namespace Sys2Proof.Machine

/-- The state with another script and step counter: neither is the HCC's. -/
def side (es : List Event) (n : Nat) (s : State) : State := { s with script := es, ticks := n }

theorem finish_side (es : List Event) (n : Nat) (s : State) : finish (side es n s) = side es n (finish s) := by
  rcases finish_cases s with ⟨h1, e⟩ | ⟨op, ph, h1, h2, e⟩ | ⟨op, ph, h1, h2, e⟩ <;> rw [e]
  · simp [finish, side, h1]
  · simp [finish, side, h1, h2]
  · simp [finish, side, h1, Nat.not_lt.2 h2]

theorem offer_side (b : Byte) (k : State → State) (es : List Event) (n : Nat) (s : State)
   (hk : ∀ t, k (side es n t) = side es n (k t)) : offer b k (side es n s) = side es n (offer b k s) := by
  rcases offer_cases b k s with ⟨h, e⟩ | ⟨h, e⟩ <;> rw [e]
  · exact if_neg (Nat.not_lt.2 h)
  · rw [← hk]; exact if_pos h

theorem awaitItem_side (k : Item → Nat → State → State) (es : List Event) (n : Nat) (s : State)
   (hk : ∀ it p t, k it p (side es n t) = side es n (k it p t)) :
   awaitItem k (side es n s) = side es n (awaitItem k s) := by
  rcases awaitItem_cases k s with ⟨h, h2, e⟩ | ⟨it, q, h, h2, e⟩ | ⟨it, ip, h, e⟩ <;> rw [e]
  · simp [awaitItem, side, receive, h, h2]
  · simp [awaitItem, side, receive, h, h2]
  · rw [← hk]; simp [awaitItem, side, h]

theorem ite_side (c : Prop) [Decidable c] (es : List Event) (n : Nat) (a b : State) :
    side es n (if c then a else b) = if c then side es n a else side es n b := by
  split <;> rfl

/-- The core's turn does not depend on the script or the step counter, and leaves both. -/
theorem coreTurn_side (s : State) (es : List Event) (n : Nat) :
    coreTurn (side es n s) = side es n (coreTurn s) := by
  have d : ∃ o, s.opstate = o := ⟨_, rfl⟩
  obtain ⟨o, ho⟩ := d
  cases o with
  | idle => simp [coreTurn, ho, side]
  | run op ph =>
    have e1 : (side es n s).opstate = .run op ph := ho
    have e2 : (side es n s).point = s.point := rfl
    simp only [coreTurn, ho, e1, e2]
    generalize currentPrim op ph = p
    generalize s.point = pt
    cases pt
    case atStart =>
      cases p
      case nop => exact finish_side es n s
      case gencode =>
        show genStart _ = side _ _ (genStart s)
        cases h : s.treeKind <;> simp [genStart, side, h, raise, assignCode]
      case emitHeader =>
        show emitStart _ = side _ _ (emitStart s)
        simp only [emitStart, ite_side, ← finish_side]; rfl
      case pack =>
        show packStart _ = side _ _ (packStart s)
        simp only [packStart, ite_side]; rfl
      case unpack =>
        show unpackStart _ = side _ _ (unpackStart s)
        simp only [unpackStart, ite_side, ← finish_side]; rfl
      all_goals rfl
    case scanRead =>
      refine awaitItem_side _ es n s fun it p t => ?_
      cases it
      · simp only [scanItem, ite_side]; rfl
      · exact finish_side es n t
    case buildMerge =>
      show buildMerge _ = side _ _ (buildMerge s)
      have : extractMin (side es n s).node (side es n s).pq = extractMin s.node s.pq := rfl
      simp only [buildMerge, this]
      cases extractMin s.node s.pq with
      | none => exact finish_side es n { s with treeKind := .emptyTree }
      | some x =>
        obtain ⟨l, q⟩ := x
        show (match extractMin s.node q with | none => _ | some (r, p) => _) =
          side es n (match extractMin s.node q with | none => _ | some (r, p) => _)
        cases extractMin s.node q with
        | none => 
          exact finish_side es n
            { s with pq := [], rootIdx := l, rootValid := true, treeKind := kindOfTree s.nsym }
        | some y => rfl
    case genWalk =>
      show genWalk _ = side _ _ (genWalk s)
      have hs : (side es n s).stack = s.stack := rfl
      simp only [genWalk, hs]
      cases s.stack with
      | nil => 
        exact finish_side es n
          { s with
            pbits := payloadBits s.freq s.len, encPad := padOfBits (payloadBits s.freq s.len),
            codesValid := true }
      | cons e r =>
        cases e <;> try rfl
        rename_i i p
        show assignNode _ _ _ _ = side _ _ (assignNode _ _ _ s)
        have hs : (side es n s).node = s.node := rfl
        simp only [assignNode, hs]
        cases nodeGet s.node i <;> rfl
    case emitNode =>
      show emitNode _ = side _ _ (emitNode s)
      have hs : (side es n s).stack = s.stack := rfl
      simp only [emitNode, hs]
      cases s.stack with
      | nil => rfl
      | cons e r =>
        cases e <;> try rfl
        rename_i i
        show serNode _ _ _ = side _ _ (serNode _ _ s)
        have hs : (side es n s).node = s.node := rfl
        simp only [serNode, hs]
        cases nodeGet s.node i <;> exact offer_side _ _ es n s fun t => rfl
    case emitSymbol b => exact offer_side b (fun t => { t with point := .emitNode }) es n s fun t => rfl
    case emitSentinel => exact offer_side sentinel (fun t => { t with point := .emitPad }) es n s fun t => rfl
    case emitPad => exact offer_side _ _ es n s fun t => finish_side es n t
    case packBits b j m nb =>
      show packBits _ _ _ _ _ = side _ _ (packBits _ _ _ _ s)
      simp only [packBits, ite_side, putBit]
      have : offer (setMsbBit s.acc 7 (bitAt (symGet s.bits b) j))
          (fun t => { t with acc := 0, nacc := 0, point := .packBits b (j + 1) m nb }) (side es n s) = _ :=
        offer_side _ _ es n s fun t => rfl
      simp only [← this]; rfl
    case packFlush =>
      show packFlush _ = side _ _ (packFlush s)
      simp only [packFlush, ite_side]
      have h1 : flushed (side es n s) = _ := finish_side es n { s with acc := 0, nacc := 0 }
      have : offer s.acc flushed (side es n s) = _ :=
        offer_side s.acc flushed es n s fun t => finish_side es n { t with acc := 0, nacc := 0 }
      rw [← this]
      show (if s.nacc = 0 then _ else _) = _
      rw [h1]; rfl
    case parseDone => exact finish_side es n { s with hdrParsed := true }
    case finishing =>
      show finishTurn _ = side _ _ (finishTurn s)
      simp only [finishTurn, ite_side]; rfl
    case raising =>
      show raiseTurn _ _ _ _ = side _ _ (raiseTurn _ _ _ s)
      simp only [raiseTurn, ite_side]; rfl
    case unpackBits c cpos last lpos j =>
      show unpackBits _ _ _ _ _ _ = side _ _ (unpackBits _ _ _ _ _ s)
      have hw : ∀ x p k, (∀ t, k (side es n t) = side es n (k t)) →
          walkBit x p k (side es n s) = side es n (walkBit x p k s) := by
        intro x p k hk
        have e1 : (side es n s).treeKind = s.treeKind := rfl
        have e2 : nodeGet (side es n s).node (childOf (side es n s).node (side es n s).cur x) =
            nodeGet s.node (childOf s.node s.cur x) := rfl
        simp only [walkBit, e1, e2]
        by_cases h : s.treeKind = .leaf
        · simp only [h, if_true]
          cases x
          · exact offer_side _ _ es n s hk
          · rfl
        · simp only [h, if_false]
          cases nodeGet s.node (childOf s.node s.cur x) with
          | leaf b w => 
            exact offer_side b (fun t => k { t with cur := t.rootIdx, wstate := .atRoot }) es n s
              fun t => hk { t with cur := t.rootIdx, wstate := .atRoot }
          | internal w l r => exact hk { s with cur := childOf s.node s.cur x, wstate := .descending }
      simp only [unpackBits, ite_side, unpackEnd, ← finish_side]
      rw [← hw (msbBit c j) cpos
        (fun t => { t with point := .unpackBits c cpos last lpos (j + 1) }) (fun t => rfl)]
      rfl
    case parseSymbol nint =>
      refine awaitItem_side _ es n s fun it p t => ?_
      cases it
      · rename_i b
        simp only [parseSymbol, ite_side]
        have : parseLeaf nint b (side es n t) = side es n (parseLeaf nint b t) := by
          simp only [parseLeaf]
          have e : returnSubtree (side es n t).nnodes
              (nodeSet (side es n t).node (side es n t).nnodes (.leaf b 0)) (side es n t).stack =
              returnSubtree t.nnodes (nodeSet t.node t.nnodes (.leaf b 0)) t.stack := rfl
          rw [e]
          rcases returnSubtree t.nnodes (nodeSet t.node t.nnodes (.leaf b 0)) t.stack with
            ⟨_ | _, _, _⟩ <;> rfl
        rw [this]; rfl
      · rfl
    all_goals
      refine awaitItem_side _ es n s fun it p t => ?_
      cases it <;>
        simp only [parseFirst, parseMarker, parseSentinel, parsePad, parseInternal, packItem, unpackFirst,
          unpackNext, ite_side] <;> rfl

theorem sinkTurn_side (s : State) (es : List Event) (n : Nat) :
    sinkTurn (side es n s) = side es n (sinkTurn s) := by
  have h : (side es n s).out = s.out := rfl
  simp only [sinkTurn, h]
  cases s.out <;> rfl

theorem sendItem_side (it : Item) (s : State) (es : List Event) (n : Nat) :
    sendItem it (side es n s) = side es n (sendItem it s) := rfl

end Sys2Proof.Machine
end

