-- ==== Sys2Proof/Laws/State.lean ====
section
/-! SUPPORT. One lemma per field per named update of the state: what each leaves in each field. -/

namespace Sys2Proof.Machine

/-! ## refuseCommand -/

@[simp] theorem refuseCommand_params (s : State) : (refuseCommand s).params = s.params := rfl
@[simp] theorem refuseCommand_opstate (s : State) : (refuseCommand s).opstate = s.opstate := rfl
@[simp] theorem refuseCommand_point (s : State) : (refuseCommand s).point = s.point := rfl
@[simp] theorem refuseCommand_pos (s : State) : (refuseCommand s).pos = s.pos := rfl
@[simp] theorem refuseCommand_item (s : State) : (refuseCommand s).item = s.item := rfl
@[simp] theorem refuseCommand_cmdOp (s : State) : (refuseCommand s).cmdOp = s.cmdOp := rfl
@[simp] theorem refuseCommand_done (s : State) : (refuseCommand s).done = s.done := rfl
@[simp] theorem refuseCommand_err (s : State) : (refuseCommand s).err = s.err := rfl
@[simp] theorem refuseCommand_reject (s : State) : (refuseCommand s).reject = true := rfl
@[simp] theorem refuseCommand_treeKind (s : State) : (refuseCommand s).treeKind = s.treeKind := rfl
@[simp] theorem refuseCommand_codesValid (s : State) : (refuseCommand s).codesValid = s.codesValid := rfl
@[simp] theorem refuseCommand_hdrParsed (s : State) : (refuseCommand s).hdrParsed = s.hdrParsed := rfl
@[simp] theorem refuseCommand_cause (s : State) : (refuseCommand s).cause = s.cause := rfl
@[simp] theorem refuseCommand_errOp (s : State) : (refuseCommand s).errOp = s.errOp := rfl
@[simp] theorem refuseCommand_errPos (s : State) : (refuseCommand s).errPos = s.errPos := rfl
@[simp] theorem refuseCommand_doneIe (s : State) : (refuseCommand s).doneIe = s.doneIe := rfl
@[simp] theorem refuseCommand_errIe (s : State) : (refuseCommand s).errIe = s.errIe := rfl
@[simp] theorem refuseCommand_nsym (s : State) : (refuseCommand s).nsym = s.nsym := rfl
@[simp] theorem refuseCommand_nnodes (s : State) : (refuseCommand s).nnodes = s.nnodes := rfl
@[simp] theorem refuseCommand_rootIdx (s : State) : (refuseCommand s).rootIdx = s.rootIdx := rfl
@[simp] theorem refuseCommand_rootValid (s : State) : (refuseCommand s).rootValid = s.rootValid := rfl
@[simp] theorem refuseCommand_inCount (s : State) : (refuseCommand s).inCount = s.inCount := rfl
@[simp] theorem refuseCommand_outCount (s : State) : (refuseCommand s).outCount = s.outCount := rfl
@[simp] theorem refuseCommand_scanTotal (s : State) : (refuseCommand s).scanTotal = s.scanTotal := rfl
@[simp] theorem refuseCommand_pbits (s : State) : (refuseCommand s).pbits = s.pbits := rfl
@[simp] theorem refuseCommand_encPad (s : State) : (refuseCommand s).encPad = s.encPad := rfl
@[simp] theorem refuseCommand_hdrPad (s : State) : (refuseCommand s).hdrPad = s.hdrPad := rfl
@[simp] theorem refuseCommand_sel (s : State) : (refuseCommand s).sel = s.sel := rfl
@[simp] theorem refuseCommand_codeWsel (s : State) : (refuseCommand s).codeWsel = s.codeWsel := rfl
@[simp] theorem refuseCommand_freq (s : State) : (refuseCommand s).freq = s.freq := rfl
@[simp] theorem refuseCommand_node (s : State) : (refuseCommand s).node = s.node := rfl
@[simp] theorem refuseCommand_pq (s : State) : (refuseCommand s).pq = s.pq := rfl
@[simp] theorem refuseCommand_len (s : State) : (refuseCommand s).len = s.len := rfl
@[simp] theorem refuseCommand_bits (s : State) : (refuseCommand s).bits = s.bits := rfl
@[simp] theorem refuseCommand_acc (s : State) : (refuseCommand s).acc = s.acc := rfl
@[simp] theorem refuseCommand_nacc (s : State) : (refuseCommand s).nacc = s.nacc := rfl
@[simp] theorem refuseCommand_cur (s : State) : (refuseCommand s).cur = s.cur := rfl
@[simp] theorem refuseCommand_wstate (s : State) : (refuseCommand s).wstate = s.wstate := rfl
@[simp] theorem refuseCommand_stack (s : State) : (refuseCommand s).stack = s.stack := rfl
@[simp] theorem refuseCommand_seen (s : State) : (refuseCommand s).seen = s.seen := rfl
@[simp] theorem refuseCommand_look (s : State) : (refuseCommand s).look = s.look := rfl
@[simp] theorem refuseCommand_out (s : State) : (refuseCommand s).out = s.out := rfl
@[simp] theorem refuseCommand_inQ (s : State) : (refuseCommand s).inQ = s.inQ := rfl
@[simp] theorem refuseCommand_outRec (s : State) : (refuseCommand s).outRec = s.outRec := rfl
@[simp] theorem refuseCommand_script (s : State) : (refuseCommand s).script = s.script := rfl
@[simp] theorem refuseCommand_readLog (s : State) : (refuseCommand s).readLog = s.readLog := rfl
@[simp] theorem refuseCommand_ticks (s : State) : (refuseCommand s).ticks = s.ticks := rfl

/-! ## acceptWord -/

@[simp] theorem acceptWord_params (op : BitVec 4) (s : State) : (acceptWord op s).params = s.params := rfl
@[simp] theorem acceptWord_opstate (op : BitVec 4) (s : State) : (acceptWord op s).opstate = s.opstate := rfl
@[simp] theorem acceptWord_point (op : BitVec 4) (s : State) : (acceptWord op s).point = s.point := rfl
@[simp] theorem acceptWord_pos (op : BitVec 4) (s : State) : (acceptWord op s).pos = 0 := rfl
@[simp] theorem acceptWord_item (op : BitVec 4) (s : State) : (acceptWord op s).item = s.item := rfl
@[simp] theorem acceptWord_cmdOp (op : BitVec 4) (s : State) : (acceptWord op s).cmdOp = op := rfl
@[simp] theorem acceptWord_done (op : BitVec 4) (s : State) : (acceptWord op s).done = false := rfl
@[simp] theorem acceptWord_err (op : BitVec 4) (s : State) : (acceptWord op s).err = s.err := rfl
@[simp] theorem acceptWord_reject (op : BitVec 4) (s : State) : (acceptWord op s).reject = s.reject := rfl
@[simp] theorem acceptWord_treeKind (op : BitVec 4) (s : State) :
    (acceptWord op s).treeKind = s.treeKind := rfl
@[simp] theorem acceptWord_codesValid (op : BitVec 4) (s : State) :
    (acceptWord op s).codesValid = s.codesValid := rfl
@[simp] theorem acceptWord_hdrParsed (op : BitVec 4) (s : State) :
    (acceptWord op s).hdrParsed = s.hdrParsed := rfl
@[simp] theorem acceptWord_cause (op : BitVec 4) (s : State) : (acceptWord op s).cause = s.cause := rfl
@[simp] theorem acceptWord_errOp (op : BitVec 4) (s : State) : (acceptWord op s).errOp = s.errOp := rfl
@[simp] theorem acceptWord_errPos (op : BitVec 4) (s : State) : (acceptWord op s).errPos = s.errPos := rfl
@[simp] theorem acceptWord_doneIe (op : BitVec 4) (s : State) : (acceptWord op s).doneIe = s.doneIe := rfl
@[simp] theorem acceptWord_errIe (op : BitVec 4) (s : State) : (acceptWord op s).errIe = s.errIe := rfl
@[simp] theorem acceptWord_nsym (op : BitVec 4) (s : State) : (acceptWord op s).nsym = s.nsym := rfl
@[simp] theorem acceptWord_nnodes (op : BitVec 4) (s : State) : (acceptWord op s).nnodes = s.nnodes := rfl
@[simp] theorem acceptWord_rootIdx (op : BitVec 4) (s : State) : (acceptWord op s).rootIdx = s.rootIdx := rfl
@[simp] theorem acceptWord_rootValid (op : BitVec 4) (s : State) :
    (acceptWord op s).rootValid = s.rootValid := rfl
@[simp] theorem acceptWord_inCount (op : BitVec 4) (s : State) : (acceptWord op s).inCount = 0 := rfl
@[simp] theorem acceptWord_outCount (op : BitVec 4) (s : State) : (acceptWord op s).outCount = 0 := rfl
@[simp] theorem acceptWord_scanTotal (op : BitVec 4) (s : State) :
    (acceptWord op s).scanTotal = s.scanTotal := rfl
@[simp] theorem acceptWord_pbits (op : BitVec 4) (s : State) : (acceptWord op s).pbits = s.pbits := rfl
@[simp] theorem acceptWord_encPad (op : BitVec 4) (s : State) : (acceptWord op s).encPad = s.encPad := rfl
@[simp] theorem acceptWord_hdrPad (op : BitVec 4) (s : State) : (acceptWord op s).hdrPad = s.hdrPad := rfl
@[simp] theorem acceptWord_sel (op : BitVec 4) (s : State) : (acceptWord op s).sel = s.sel := rfl
@[simp] theorem acceptWord_codeWsel (op : BitVec 4) (s : State) :
    (acceptWord op s).codeWsel = s.codeWsel := rfl
@[simp] theorem acceptWord_freq (op : BitVec 4) (s : State) : (acceptWord op s).freq = s.freq := rfl
@[simp] theorem acceptWord_node (op : BitVec 4) (s : State) : (acceptWord op s).node = s.node := rfl
@[simp] theorem acceptWord_pq (op : BitVec 4) (s : State) : (acceptWord op s).pq = s.pq := rfl
@[simp] theorem acceptWord_len (op : BitVec 4) (s : State) : (acceptWord op s).len = s.len := rfl
@[simp] theorem acceptWord_bits (op : BitVec 4) (s : State) : (acceptWord op s).bits = s.bits := rfl
@[simp] theorem acceptWord_acc (op : BitVec 4) (s : State) : (acceptWord op s).acc = s.acc := rfl
@[simp] theorem acceptWord_nacc (op : BitVec 4) (s : State) : (acceptWord op s).nacc = s.nacc := rfl
@[simp] theorem acceptWord_cur (op : BitVec 4) (s : State) : (acceptWord op s).cur = s.cur := rfl
@[simp] theorem acceptWord_wstate (op : BitVec 4) (s : State) : (acceptWord op s).wstate = s.wstate := rfl
@[simp] theorem acceptWord_stack (op : BitVec 4) (s : State) : (acceptWord op s).stack = s.stack := rfl
@[simp] theorem acceptWord_seen (op : BitVec 4) (s : State) : (acceptWord op s).seen = s.seen := rfl
@[simp] theorem acceptWord_look (op : BitVec 4) (s : State) : (acceptWord op s).look = s.look := rfl
@[simp] theorem acceptWord_out (op : BitVec 4) (s : State) : (acceptWord op s).out = s.out := rfl
@[simp] theorem acceptWord_inQ (op : BitVec 4) (s : State) : (acceptWord op s).inQ = s.inQ := rfl
@[simp] theorem acceptWord_outRec (op : BitVec 4) (s : State) : (acceptWord op s).outRec = s.outRec := rfl
@[simp] theorem acceptWord_script (op : BitVec 4) (s : State) : (acceptWord op s).script = s.script := rfl
@[simp] theorem acceptWord_readLog (op : BitVec 4) (s : State) : (acceptWord op s).readLog = s.readLog := rfl
@[simp] theorem acceptWord_ticks (op : BitVec 4) (s : State) : (acceptWord op s).ticks = s.ticks := rfl

/-! ## accept -/

@[simp] theorem accept_params (op : Op) (s : State) : (accept op s).params = s.params := rfl
@[simp] theorem accept_opstate (op : Op) (s : State) : (accept op s).opstate = .run op 0 := rfl
@[simp] theorem accept_point (op : Op) (s : State) : (accept op s).point = .atStart := rfl
@[simp] theorem accept_pos (op : Op) (s : State) : (accept op s).pos = 0 := rfl
@[simp] theorem accept_item (op : Op) (s : State) : (accept op s).item = s.item := rfl
@[simp] theorem accept_cmdOp (op : Op) (s : State) : (accept op s).cmdOp = op.code := rfl
@[simp] theorem accept_done (op : Op) (s : State) : (accept op s).done = false := rfl
@[simp] theorem accept_err (op : Op) (s : State) : (accept op s).err = s.err := rfl
@[simp] theorem accept_reject (op : Op) (s : State) : (accept op s).reject = s.reject := rfl
@[simp] theorem accept_treeKind (op : Op) (s : State) : (accept op s).treeKind = s.treeKind := rfl
@[simp] theorem accept_codesValid (op : Op) (s : State) : (accept op s).codesValid = s.codesValid := rfl
@[simp] theorem accept_hdrParsed (op : Op) (s : State) : (accept op s).hdrParsed = s.hdrParsed := rfl
@[simp] theorem accept_cause (op : Op) (s : State) : (accept op s).cause = s.cause := rfl
@[simp] theorem accept_errOp (op : Op) (s : State) : (accept op s).errOp = s.errOp := rfl
@[simp] theorem accept_errPos (op : Op) (s : State) : (accept op s).errPos = s.errPos := rfl
@[simp] theorem accept_doneIe (op : Op) (s : State) : (accept op s).doneIe = s.doneIe := rfl
@[simp] theorem accept_errIe (op : Op) (s : State) : (accept op s).errIe = s.errIe := rfl
@[simp] theorem accept_nsym (op : Op) (s : State) : (accept op s).nsym = s.nsym := rfl
@[simp] theorem accept_nnodes (op : Op) (s : State) : (accept op s).nnodes = s.nnodes := rfl
@[simp] theorem accept_rootIdx (op : Op) (s : State) : (accept op s).rootIdx = s.rootIdx := rfl
@[simp] theorem accept_rootValid (op : Op) (s : State) : (accept op s).rootValid = s.rootValid := rfl
@[simp] theorem accept_inCount (op : Op) (s : State) : (accept op s).inCount = 0 := rfl
@[simp] theorem accept_outCount (op : Op) (s : State) : (accept op s).outCount = 0 := rfl
@[simp] theorem accept_scanTotal (op : Op) (s : State) : (accept op s).scanTotal = s.scanTotal := rfl
@[simp] theorem accept_pbits (op : Op) (s : State) : (accept op s).pbits = s.pbits := rfl
@[simp] theorem accept_encPad (op : Op) (s : State) : (accept op s).encPad = s.encPad := rfl
@[simp] theorem accept_hdrPad (op : Op) (s : State) : (accept op s).hdrPad = s.hdrPad := rfl
@[simp] theorem accept_sel (op : Op) (s : State) : (accept op s).sel = s.sel := rfl
@[simp] theorem accept_codeWsel (op : Op) (s : State) : (accept op s).codeWsel = s.codeWsel := rfl
@[simp] theorem accept_freq (op : Op) (s : State) : (accept op s).freq = s.freq := rfl
@[simp] theorem accept_node (op : Op) (s : State) : (accept op s).node = s.node := rfl
@[simp] theorem accept_pq (op : Op) (s : State) : (accept op s).pq = s.pq := rfl
@[simp] theorem accept_len (op : Op) (s : State) : (accept op s).len = s.len := rfl
@[simp] theorem accept_bits (op : Op) (s : State) : (accept op s).bits = s.bits := rfl
@[simp] theorem accept_acc (op : Op) (s : State) : (accept op s).acc = s.acc := rfl
@[simp] theorem accept_nacc (op : Op) (s : State) : (accept op s).nacc = s.nacc := rfl
@[simp] theorem accept_cur (op : Op) (s : State) : (accept op s).cur = s.cur := rfl
@[simp] theorem accept_wstate (op : Op) (s : State) : (accept op s).wstate = s.wstate := rfl
@[simp] theorem accept_stack (op : Op) (s : State) : (accept op s).stack = s.stack := rfl
@[simp] theorem accept_seen (op : Op) (s : State) : (accept op s).seen = s.seen := rfl
@[simp] theorem accept_look (op : Op) (s : State) : (accept op s).look = s.look := rfl
@[simp] theorem accept_out (op : Op) (s : State) : (accept op s).out = s.out := rfl
@[simp] theorem accept_inQ (op : Op) (s : State) : (accept op s).inQ = s.inQ := rfl
@[simp] theorem accept_outRec (op : Op) (s : State) : (accept op s).outRec = s.outRec := rfl
@[simp] theorem accept_script (op : Op) (s : State) : (accept op s).script = s.script := rfl
@[simp] theorem accept_readLog (op : Op) (s : State) : (accept op s).readLog = s.readLog := rfl
@[simp] theorem accept_ticks (op : Op) (s : State) : (accept op s).ticks = s.ticks := rfl

/-! ## invalidateTree -/

@[simp] theorem invalidateTree_params (s : State) : (invalidateTree s).params = s.params := rfl
@[simp] theorem invalidateTree_opstate (s : State) : (invalidateTree s).opstate = s.opstate := rfl
@[simp] theorem invalidateTree_point (s : State) : (invalidateTree s).point = s.point := rfl
@[simp] theorem invalidateTree_pos (s : State) : (invalidateTree s).pos = s.pos := rfl
@[simp] theorem invalidateTree_item (s : State) : (invalidateTree s).item = s.item := rfl
@[simp] theorem invalidateTree_cmdOp (s : State) : (invalidateTree s).cmdOp = s.cmdOp := rfl
@[simp] theorem invalidateTree_done (s : State) : (invalidateTree s).done = s.done := rfl
@[simp] theorem invalidateTree_err (s : State) : (invalidateTree s).err = s.err := rfl
@[simp] theorem invalidateTree_reject (s : State) : (invalidateTree s).reject = s.reject := rfl
@[simp] theorem invalidateTree_treeKind (s : State) : (invalidateTree s).treeKind = .noTree := rfl
@[simp] theorem invalidateTree_codesValid (s : State) : (invalidateTree s).codesValid = false := rfl
@[simp] theorem invalidateTree_hdrParsed (s : State) : (invalidateTree s).hdrParsed = false := rfl
@[simp] theorem invalidateTree_cause (s : State) : (invalidateTree s).cause = s.cause := rfl
@[simp] theorem invalidateTree_errOp (s : State) : (invalidateTree s).errOp = s.errOp := rfl
@[simp] theorem invalidateTree_errPos (s : State) : (invalidateTree s).errPos = s.errPos := rfl
@[simp] theorem invalidateTree_doneIe (s : State) : (invalidateTree s).doneIe = s.doneIe := rfl
@[simp] theorem invalidateTree_errIe (s : State) : (invalidateTree s).errIe = s.errIe := rfl
@[simp] theorem invalidateTree_nsym (s : State) : (invalidateTree s).nsym = 0 := rfl
@[simp] theorem invalidateTree_nnodes (s : State) : (invalidateTree s).nnodes = 0 := rfl
@[simp] theorem invalidateTree_rootIdx (s : State) : (invalidateTree s).rootIdx = 0 := rfl
@[simp] theorem invalidateTree_rootValid (s : State) : (invalidateTree s).rootValid = false := rfl
@[simp] theorem invalidateTree_inCount (s : State) : (invalidateTree s).inCount = s.inCount := rfl
@[simp] theorem invalidateTree_outCount (s : State) : (invalidateTree s).outCount = s.outCount := rfl
@[simp] theorem invalidateTree_scanTotal (s : State) : (invalidateTree s).scanTotal = s.scanTotal := rfl
@[simp] theorem invalidateTree_pbits (s : State) : (invalidateTree s).pbits = 0 := rfl
@[simp] theorem invalidateTree_encPad (s : State) : (invalidateTree s).encPad = 0 := rfl
@[simp] theorem invalidateTree_hdrPad (s : State) : (invalidateTree s).hdrPad = 0 := rfl
@[simp] theorem invalidateTree_sel (s : State) : (invalidateTree s).sel = s.sel := rfl
@[simp] theorem invalidateTree_codeWsel (s : State) : (invalidateTree s).codeWsel = s.codeWsel := rfl
@[simp] theorem invalidateTree_freq (s : State) : (invalidateTree s).freq = s.freq := rfl
@[simp] theorem invalidateTree_node (s : State) : (invalidateTree s).node = s.node := rfl
@[simp] theorem invalidateTree_pq (s : State) : (invalidateTree s).pq = s.pq := rfl
@[simp] theorem invalidateTree_len (s : State) : (invalidateTree s).len = s.len := rfl
@[simp] theorem invalidateTree_bits (s : State) : (invalidateTree s).bits = s.bits := rfl
@[simp] theorem invalidateTree_acc (s : State) : (invalidateTree s).acc = s.acc := rfl
@[simp] theorem invalidateTree_nacc (s : State) : (invalidateTree s).nacc = s.nacc := rfl
@[simp] theorem invalidateTree_cur (s : State) : (invalidateTree s).cur = s.cur := rfl
@[simp] theorem invalidateTree_wstate (s : State) : (invalidateTree s).wstate = s.wstate := rfl
@[simp] theorem invalidateTree_stack (s : State) : (invalidateTree s).stack = s.stack := rfl
@[simp] theorem invalidateTree_seen (s : State) : (invalidateTree s).seen = s.seen := rfl
@[simp] theorem invalidateTree_look (s : State) : (invalidateTree s).look = s.look := rfl
@[simp] theorem invalidateTree_out (s : State) : (invalidateTree s).out = s.out := rfl
@[simp] theorem invalidateTree_inQ (s : State) : (invalidateTree s).inQ = s.inQ := rfl
@[simp] theorem invalidateTree_outRec (s : State) : (invalidateTree s).outRec = s.outRec := rfl
@[simp] theorem invalidateTree_script (s : State) : (invalidateTree s).script = s.script := rfl
@[simp] theorem invalidateTree_readLog (s : State) : (invalidateTree s).readLog = s.readLog := rfl
@[simp] theorem invalidateTree_ticks (s : State) : (invalidateTree s).ticks = s.ticks := rfl

/-! ## settle -/

@[simp] theorem settle_params (s : State) : (settle s).params = s.params := rfl
@[simp] theorem settle_opstate (s : State) : (settle s).opstate = .idle := rfl
@[simp] theorem settle_point (s : State) : (settle s).point = .atStart := rfl
@[simp] theorem settle_pos (s : State) : (settle s).pos = s.pos := rfl
@[simp] theorem settle_item (s : State) : (settle s).item = none := rfl
@[simp] theorem settle_cmdOp (s : State) : (settle s).cmdOp = s.cmdOp := rfl
@[simp] theorem settle_done (s : State) : (settle s).done = s.done := rfl
@[simp] theorem settle_err (s : State) : (settle s).err = s.err := rfl
@[simp] theorem settle_reject (s : State) : (settle s).reject = s.reject := rfl
@[simp] theorem settle_treeKind (s : State) : (settle s).treeKind = s.treeKind := rfl
@[simp] theorem settle_codesValid (s : State) : (settle s).codesValid = s.codesValid := rfl
@[simp] theorem settle_hdrParsed (s : State) : (settle s).hdrParsed = s.hdrParsed := rfl
@[simp] theorem settle_cause (s : State) : (settle s).cause = s.cause := rfl
@[simp] theorem settle_errOp (s : State) : (settle s).errOp = s.errOp := rfl
@[simp] theorem settle_errPos (s : State) : (settle s).errPos = s.errPos := rfl
@[simp] theorem settle_doneIe (s : State) : (settle s).doneIe = s.doneIe := rfl
@[simp] theorem settle_errIe (s : State) : (settle s).errIe = s.errIe := rfl
@[simp] theorem settle_nsym (s : State) : (settle s).nsym = s.nsym := rfl
@[simp] theorem settle_nnodes (s : State) : (settle s).nnodes = s.nnodes := rfl
@[simp] theorem settle_rootIdx (s : State) : (settle s).rootIdx = s.rootIdx := rfl
@[simp] theorem settle_rootValid (s : State) : (settle s).rootValid = s.rootValid := rfl
@[simp] theorem settle_inCount (s : State) : (settle s).inCount = s.inCount := rfl
@[simp] theorem settle_outCount (s : State) : (settle s).outCount = s.outCount := rfl
@[simp] theorem settle_scanTotal (s : State) : (settle s).scanTotal = s.scanTotal := rfl
@[simp] theorem settle_pbits (s : State) : (settle s).pbits = s.pbits := rfl
@[simp] theorem settle_encPad (s : State) : (settle s).encPad = s.encPad := rfl
@[simp] theorem settle_hdrPad (s : State) : (settle s).hdrPad = s.hdrPad := rfl
@[simp] theorem settle_sel (s : State) : (settle s).sel = s.sel := rfl
@[simp] theorem settle_codeWsel (s : State) : (settle s).codeWsel = s.codeWsel := rfl
@[simp] theorem settle_freq (s : State) : (settle s).freq = s.freq := rfl
@[simp] theorem settle_node (s : State) : (settle s).node = s.node := rfl
@[simp] theorem settle_pq (s : State) : (settle s).pq = s.pq := rfl
@[simp] theorem settle_len (s : State) : (settle s).len = s.len := rfl
@[simp] theorem settle_bits (s : State) : (settle s).bits = s.bits := rfl
@[simp] theorem settle_acc (s : State) : (settle s).acc = 0 := rfl
@[simp] theorem settle_nacc (s : State) : (settle s).nacc = 0 := rfl
@[simp] theorem settle_cur (s : State) : (settle s).cur = 0 := rfl
@[simp] theorem settle_wstate (s : State) : (settle s).wstate = .atRoot := rfl
@[simp] theorem settle_stack (s : State) : (settle s).stack = [] := rfl
@[simp] theorem settle_seen (s : State) : (settle s).seen = s.seen := rfl
@[simp] theorem settle_look (s : State) : (settle s).look = none := rfl
@[simp] theorem settle_out (s : State) : (settle s).out = s.out := rfl
@[simp] theorem settle_inQ (s : State) : (settle s).inQ = s.inQ := rfl
@[simp] theorem settle_outRec (s : State) : (settle s).outRec = s.outRec := rfl
@[simp] theorem settle_script (s : State) : (settle s).script = s.script := rfl
@[simp] theorem settle_readLog (s : State) : (settle s).readLog = s.readLog := rfl
@[simp] theorem settle_ticks (s : State) : (settle s).ticks = s.ticks := rfl

/-! ## raise -/

@[simp] theorem raise_params (c : Cause) (p : Nat) (s : State) : (raise c p s).params = s.params := rfl
@[simp] theorem raise_opstate (c : Cause) (p : Nat) (s : State) : (raise c p s).opstate = s.opstate := rfl
@[simp] theorem raise_point (c : Cause) (p : Nat) (s : State) : (raise c p s).point = .raising c p := rfl
@[simp] theorem raise_pos (c : Cause) (p : Nat) (s : State) : (raise c p s).pos = s.pos := rfl
@[simp] theorem raise_item (c : Cause) (p : Nat) (s : State) : (raise c p s).item = s.item := rfl
@[simp] theorem raise_cmdOp (c : Cause) (p : Nat) (s : State) : (raise c p s).cmdOp = s.cmdOp := rfl
@[simp] theorem raise_done (c : Cause) (p : Nat) (s : State) : (raise c p s).done = s.done := rfl
@[simp] theorem raise_err (c : Cause) (p : Nat) (s : State) : (raise c p s).err = s.err := rfl
@[simp] theorem raise_reject (c : Cause) (p : Nat) (s : State) : (raise c p s).reject = s.reject := rfl
@[simp] theorem raise_treeKind (c : Cause) (p : Nat) (s : State) : (raise c p s).treeKind = s.treeKind := rfl
@[simp] theorem raise_codesValid (c : Cause) (p : Nat) (s : State) :
    (raise c p s).codesValid = s.codesValid := rfl
@[simp] theorem raise_hdrParsed (c : Cause) (p : Nat) (s : State) :
    (raise c p s).hdrParsed = s.hdrParsed := rfl
@[simp] theorem raise_cause (c : Cause) (p : Nat) (s : State) : (raise c p s).cause = s.cause := rfl
@[simp] theorem raise_errOp (c : Cause) (p : Nat) (s : State) : (raise c p s).errOp = s.errOp := rfl
@[simp] theorem raise_errPos (c : Cause) (p : Nat) (s : State) : (raise c p s).errPos = s.errPos := rfl
@[simp] theorem raise_doneIe (c : Cause) (p : Nat) (s : State) : (raise c p s).doneIe = s.doneIe := rfl
@[simp] theorem raise_errIe (c : Cause) (p : Nat) (s : State) : (raise c p s).errIe = s.errIe := rfl
@[simp] theorem raise_nsym (c : Cause) (p : Nat) (s : State) : (raise c p s).nsym = s.nsym := rfl
@[simp] theorem raise_nnodes (c : Cause) (p : Nat) (s : State) : (raise c p s).nnodes = s.nnodes := rfl
@[simp] theorem raise_rootIdx (c : Cause) (p : Nat) (s : State) : (raise c p s).rootIdx = s.rootIdx := rfl
@[simp] theorem raise_rootValid (c : Cause) (p : Nat) (s : State) :
    (raise c p s).rootValid = s.rootValid := rfl
@[simp] theorem raise_inCount (c : Cause) (p : Nat) (s : State) : (raise c p s).inCount = s.inCount := rfl
@[simp] theorem raise_outCount (c : Cause) (p : Nat) (s : State) : (raise c p s).outCount = s.outCount := rfl
@[simp] theorem raise_scanTotal (c : Cause) (p : Nat) (s : State) :
    (raise c p s).scanTotal = s.scanTotal := rfl
@[simp] theorem raise_pbits (c : Cause) (p : Nat) (s : State) : (raise c p s).pbits = s.pbits := rfl
@[simp] theorem raise_encPad (c : Cause) (p : Nat) (s : State) : (raise c p s).encPad = s.encPad := rfl
@[simp] theorem raise_hdrPad (c : Cause) (p : Nat) (s : State) : (raise c p s).hdrPad = s.hdrPad := rfl
@[simp] theorem raise_sel (c : Cause) (p : Nat) (s : State) : (raise c p s).sel = s.sel := rfl
@[simp] theorem raise_codeWsel (c : Cause) (p : Nat) (s : State) : (raise c p s).codeWsel = s.codeWsel := rfl
@[simp] theorem raise_freq (c : Cause) (p : Nat) (s : State) : (raise c p s).freq = s.freq := rfl
@[simp] theorem raise_node (c : Cause) (p : Nat) (s : State) : (raise c p s).node = s.node := rfl
@[simp] theorem raise_pq (c : Cause) (p : Nat) (s : State) : (raise c p s).pq = s.pq := rfl
@[simp] theorem raise_len (c : Cause) (p : Nat) (s : State) : (raise c p s).len = s.len := rfl
@[simp] theorem raise_bits (c : Cause) (p : Nat) (s : State) : (raise c p s).bits = s.bits := rfl
@[simp] theorem raise_acc (c : Cause) (p : Nat) (s : State) : (raise c p s).acc = s.acc := rfl
@[simp] theorem raise_nacc (c : Cause) (p : Nat) (s : State) : (raise c p s).nacc = s.nacc := rfl
@[simp] theorem raise_cur (c : Cause) (p : Nat) (s : State) : (raise c p s).cur = s.cur := rfl
@[simp] theorem raise_wstate (c : Cause) (p : Nat) (s : State) : (raise c p s).wstate = s.wstate := rfl
@[simp] theorem raise_stack (c : Cause) (p : Nat) (s : State) : (raise c p s).stack = s.stack := rfl
@[simp] theorem raise_seen (c : Cause) (p : Nat) (s : State) : (raise c p s).seen = s.seen := rfl
@[simp] theorem raise_look (c : Cause) (p : Nat) (s : State) : (raise c p s).look = s.look := rfl
@[simp] theorem raise_out (c : Cause) (p : Nat) (s : State) : (raise c p s).out = s.out := rfl
@[simp] theorem raise_inQ (c : Cause) (p : Nat) (s : State) : (raise c p s).inQ = s.inQ := rfl
@[simp] theorem raise_outRec (c : Cause) (p : Nat) (s : State) : (raise c p s).outRec = s.outRec := rfl
@[simp] theorem raise_script (c : Cause) (p : Nat) (s : State) : (raise c p s).script = s.script := rfl
@[simp] theorem raise_readLog (c : Cause) (p : Nat) (s : State) : (raise c p s).readLog = s.readLog := rfl
@[simp] theorem raise_ticks (c : Cause) (p : Nat) (s : State) : (raise c p s).ticks = s.ticks := rfl

/-! ## tick -/

@[simp] theorem tick_params (s : State) : (tick s).params = s.params := rfl
@[simp] theorem tick_opstate (s : State) : (tick s).opstate = s.opstate := rfl
@[simp] theorem tick_point (s : State) : (tick s).point = s.point := rfl
@[simp] theorem tick_pos (s : State) : (tick s).pos = s.pos := rfl
@[simp] theorem tick_item (s : State) : (tick s).item = s.item := rfl
@[simp] theorem tick_cmdOp (s : State) : (tick s).cmdOp = s.cmdOp := rfl
@[simp] theorem tick_done (s : State) : (tick s).done = s.done := rfl
@[simp] theorem tick_err (s : State) : (tick s).err = s.err := rfl
@[simp] theorem tick_reject (s : State) : (tick s).reject = s.reject := rfl
@[simp] theorem tick_treeKind (s : State) : (tick s).treeKind = s.treeKind := rfl
@[simp] theorem tick_codesValid (s : State) : (tick s).codesValid = s.codesValid := rfl
@[simp] theorem tick_hdrParsed (s : State) : (tick s).hdrParsed = s.hdrParsed := rfl
@[simp] theorem tick_cause (s : State) : (tick s).cause = s.cause := rfl
@[simp] theorem tick_errOp (s : State) : (tick s).errOp = s.errOp := rfl
@[simp] theorem tick_errPos (s : State) : (tick s).errPos = s.errPos := rfl
@[simp] theorem tick_doneIe (s : State) : (tick s).doneIe = s.doneIe := rfl
@[simp] theorem tick_errIe (s : State) : (tick s).errIe = s.errIe := rfl
@[simp] theorem tick_nsym (s : State) : (tick s).nsym = s.nsym := rfl
@[simp] theorem tick_nnodes (s : State) : (tick s).nnodes = s.nnodes := rfl
@[simp] theorem tick_rootIdx (s : State) : (tick s).rootIdx = s.rootIdx := rfl
@[simp] theorem tick_rootValid (s : State) : (tick s).rootValid = s.rootValid := rfl
@[simp] theorem tick_inCount (s : State) : (tick s).inCount = s.inCount := rfl
@[simp] theorem tick_outCount (s : State) : (tick s).outCount = s.outCount := rfl
@[simp] theorem tick_scanTotal (s : State) : (tick s).scanTotal = s.scanTotal := rfl
@[simp] theorem tick_pbits (s : State) : (tick s).pbits = s.pbits := rfl
@[simp] theorem tick_encPad (s : State) : (tick s).encPad = s.encPad := rfl
@[simp] theorem tick_hdrPad (s : State) : (tick s).hdrPad = s.hdrPad := rfl
@[simp] theorem tick_sel (s : State) : (tick s).sel = s.sel := rfl
@[simp] theorem tick_codeWsel (s : State) : (tick s).codeWsel = s.codeWsel := rfl
@[simp] theorem tick_freq (s : State) : (tick s).freq = s.freq := rfl
@[simp] theorem tick_node (s : State) : (tick s).node = s.node := rfl
@[simp] theorem tick_pq (s : State) : (tick s).pq = s.pq := rfl
@[simp] theorem tick_len (s : State) : (tick s).len = s.len := rfl
@[simp] theorem tick_bits (s : State) : (tick s).bits = s.bits := rfl
@[simp] theorem tick_acc (s : State) : (tick s).acc = s.acc := rfl
@[simp] theorem tick_nacc (s : State) : (tick s).nacc = s.nacc := rfl
@[simp] theorem tick_cur (s : State) : (tick s).cur = s.cur := rfl
@[simp] theorem tick_wstate (s : State) : (tick s).wstate = s.wstate := rfl
@[simp] theorem tick_stack (s : State) : (tick s).stack = s.stack := rfl
@[simp] theorem tick_seen (s : State) : (tick s).seen = s.seen := rfl
@[simp] theorem tick_look (s : State) : (tick s).look = s.look := rfl
@[simp] theorem tick_out (s : State) : (tick s).out = s.out := rfl
@[simp] theorem tick_inQ (s : State) : (tick s).inQ = s.inQ := rfl
@[simp] theorem tick_outRec (s : State) : (tick s).outRec = s.outRec := rfl
@[simp] theorem tick_script (s : State) : (tick s).script = s.script := rfl
@[simp] theorem tick_readLog (s : State) : (tick s).readLog = s.readLog := rfl
@[simp] theorem tick_ticks (s : State) : (tick s).ticks = s.ticks + 1 := rfl

/-! ## sendItem -/

@[simp] theorem sendItem_params (it : Item) (s : State) : (sendItem it s).params = s.params := rfl
@[simp] theorem sendItem_opstate (it : Item) (s : State) : (sendItem it s).opstate = s.opstate := rfl
@[simp] theorem sendItem_point (it : Item) (s : State) : (sendItem it s).point = s.point := rfl
@[simp] theorem sendItem_pos (it : Item) (s : State) : (sendItem it s).pos = s.pos := rfl
@[simp] theorem sendItem_item (it : Item) (s : State) : (sendItem it s).item = s.item := rfl
@[simp] theorem sendItem_cmdOp (it : Item) (s : State) : (sendItem it s).cmdOp = s.cmdOp := rfl
@[simp] theorem sendItem_done (it : Item) (s : State) : (sendItem it s).done = s.done := rfl
@[simp] theorem sendItem_err (it : Item) (s : State) : (sendItem it s).err = s.err := rfl
@[simp] theorem sendItem_reject (it : Item) (s : State) : (sendItem it s).reject = s.reject := rfl
@[simp] theorem sendItem_treeKind (it : Item) (s : State) : (sendItem it s).treeKind = s.treeKind := rfl
@[simp] theorem sendItem_codesValid (it : Item) (s : State) : (sendItem it s).codesValid = s.codesValid := rfl
@[simp] theorem sendItem_hdrParsed (it : Item) (s : State) : (sendItem it s).hdrParsed = s.hdrParsed := rfl
@[simp] theorem sendItem_cause (it : Item) (s : State) : (sendItem it s).cause = s.cause := rfl
@[simp] theorem sendItem_errOp (it : Item) (s : State) : (sendItem it s).errOp = s.errOp := rfl
@[simp] theorem sendItem_errPos (it : Item) (s : State) : (sendItem it s).errPos = s.errPos := rfl
@[simp] theorem sendItem_doneIe (it : Item) (s : State) : (sendItem it s).doneIe = s.doneIe := rfl
@[simp] theorem sendItem_errIe (it : Item) (s : State) : (sendItem it s).errIe = s.errIe := rfl
@[simp] theorem sendItem_nsym (it : Item) (s : State) : (sendItem it s).nsym = s.nsym := rfl
@[simp] theorem sendItem_nnodes (it : Item) (s : State) : (sendItem it s).nnodes = s.nnodes := rfl
@[simp] theorem sendItem_rootIdx (it : Item) (s : State) : (sendItem it s).rootIdx = s.rootIdx := rfl
@[simp] theorem sendItem_rootValid (it : Item) (s : State) : (sendItem it s).rootValid = s.rootValid := rfl
@[simp] theorem sendItem_inCount (it : Item) (s : State) : (sendItem it s).inCount = s.inCount := rfl
@[simp] theorem sendItem_outCount (it : Item) (s : State) : (sendItem it s).outCount = s.outCount := rfl
@[simp] theorem sendItem_scanTotal (it : Item) (s : State) : (sendItem it s).scanTotal = s.scanTotal := rfl
@[simp] theorem sendItem_pbits (it : Item) (s : State) : (sendItem it s).pbits = s.pbits := rfl
@[simp] theorem sendItem_encPad (it : Item) (s : State) : (sendItem it s).encPad = s.encPad := rfl
@[simp] theorem sendItem_hdrPad (it : Item) (s : State) : (sendItem it s).hdrPad = s.hdrPad := rfl
@[simp] theorem sendItem_sel (it : Item) (s : State) : (sendItem it s).sel = s.sel := rfl
@[simp] theorem sendItem_codeWsel (it : Item) (s : State) : (sendItem it s).codeWsel = s.codeWsel := rfl
@[simp] theorem sendItem_freq (it : Item) (s : State) : (sendItem it s).freq = s.freq := rfl
@[simp] theorem sendItem_node (it : Item) (s : State) : (sendItem it s).node = s.node := rfl
@[simp] theorem sendItem_pq (it : Item) (s : State) : (sendItem it s).pq = s.pq := rfl
@[simp] theorem sendItem_len (it : Item) (s : State) : (sendItem it s).len = s.len := rfl
@[simp] theorem sendItem_bits (it : Item) (s : State) : (sendItem it s).bits = s.bits := rfl
@[simp] theorem sendItem_acc (it : Item) (s : State) : (sendItem it s).acc = s.acc := rfl
@[simp] theorem sendItem_nacc (it : Item) (s : State) : (sendItem it s).nacc = s.nacc := rfl
@[simp] theorem sendItem_cur (it : Item) (s : State) : (sendItem it s).cur = s.cur := rfl
@[simp] theorem sendItem_wstate (it : Item) (s : State) : (sendItem it s).wstate = s.wstate := rfl
@[simp] theorem sendItem_stack (it : Item) (s : State) : (sendItem it s).stack = s.stack := rfl
@[simp] theorem sendItem_seen (it : Item) (s : State) : (sendItem it s).seen = s.seen := rfl
@[simp] theorem sendItem_look (it : Item) (s : State) : (sendItem it s).look = s.look := rfl
@[simp] theorem sendItem_out (it : Item) (s : State) : (sendItem it s).out = s.out := rfl
@[simp] theorem sendItem_inQ (it : Item) (s : State) : (sendItem it s).inQ = s.inQ ++ [it] := rfl
@[simp] theorem sendItem_outRec (it : Item) (s : State) : (sendItem it s).outRec = s.outRec := rfl
@[simp] theorem sendItem_script (it : Item) (s : State) : (sendItem it s).script = s.script := rfl
@[simp] theorem sendItem_readLog (it : Item) (s : State) : (sendItem it s).readLog = s.readLog := rfl
@[simp] theorem sendItem_ticks (it : Item) (s : State) : (sendItem it s).ticks = s.ticks := rfl

end Sys2Proof.Machine
end

