-- ==== Sys2Proof/Laws/Step.lean ====
section
/-! SUPPORT. What one step can do, said once: a property that every transaction keeps is kept by `step`. -/

namespace Sys2Proof.Machine

/-- A property that each of the operations a step is made of keeps. -/
structure StepClosed (P : State → Prop) : Prop where
  script : ∀ s es, P s → P { s with script := es }
  ticks : ∀ s n, P s → P { s with ticks := n }
  log : ∀ s l, P s → P { s with readLog := l }
  core : ∀ s, P s → P (coreTurn s)
  sink : ∀ s, P s → P (sinkTurn s)
  send : ∀ it s, P s → P (sendItem it s)
  withdraw : ∀ s, P s → P (withdrawItem s)
  accept : ∀ op s, P s → s.accepting = true → P (accept op s)
  illegal : ∀ op s, P s → s.accepting = true → P (enterError .illegalCmd op 0 (acceptWord op s))
  refuse : ∀ s, P s → P (refuseCommand s)
  clear : ∀ s, P s → P (clearCore { s with cmdOp := 1 })
  reset : ∀ s, P s → P (resetCore s)
  write : ∀ off v s, P s → P (regWrite off v s)

theorem StepClosed.drive {P : State → Prop} (h : StepClosed P) (es : List Event) :
    ∀ s, P s → P (Machine.drive es s) := by
  induction es with
  | nil => exact fun s hs => h.script s _ hs
  | cons e es ih =>
    intro s hs
    cases e with
    | write w off v => exact h.script s _ hs
    | read w off => exact h.script s _ hs
    | send it => exact ih _ (h.send it s hs)
    | take => exact ih _ (h.sink s hs)
    | core => exact ih _ (h.core s hs)
    | withdraw => exact h.script s _ hs
    | reset => exact h.script s _ hs
    | poll c => exact h.script s _ hs

theorem StepClosed.runCommand {P : State → Prop} (h : StepClosed P) (op : Op) (s : State) (hs : P s) :
    P (Machine.runCommand op s) := by
  unfold Machine.runCommand
  split
  · exact h.drive _ _ (h.accept op s hs ‹_›)
  · exact h.refuse s hs

theorem StepClosed.illegalCommand {P : State → Prop} (h : StepClosed P) (op : BitVec 4) (s : State)
    (hs : P s) : P (Machine.illegalCommand op s) := by
  unfold Machine.illegalCommand
  split
  · exact h.illegal op s hs ‹_›
  · exact h.refuse s hs

/-- Every instruction answers a next state: the machine has no refusal and no fault of an instruction. -/
theorem exec_next (i : Instr) (s : State) : ∃ t, exec i s = .next t := by
  cases i <;> exact ⟨_, rfl⟩

theorem StepClosed.exec {P : State → Prop} (h : StepClosed P) (i : Instr) (s t : State) (hs : P s)
    (ht : Machine.exec i s = .next t) : P t := by
  cases i with
  | nop =>
    cases ht
    show P (if s.accepting then coreTurn (coreTurn (Machine.accept (.prim .nop) s)) else refuseCommand s)
    split
    · exact h.core _ (h.core _ (h.accept _ s hs ‹_›))
    · exact h.refuse s hs
  | clear => cases ht; exact h.clear s hs
  | scan => cases ht; exact h.runCommand _ s hs
  | build => cases ht; exact h.runCommand _ s hs
  | gencode => cases ht; exact h.runCommand _ s hs
  | emitHeader => cases ht; exact h.runCommand _ s hs
  | pack => cases ht; exact h.runCommand _ s hs
  | parseHeader => cases ht; exact h.runCommand _ s hs
  | unpack => cases ht; exact h.runCommand _ s hs
  | compress => cases ht; exact h.runCommand _ s hs
  | decompress => cases ht; exact h.runCommand _ s hs
  | illegalOpB rsv => cases ht; exact h.illegalCommand _ s hs
  | illegalOpCtoF lo rsv => cases ht; exact h.illegalCommand _ s hs
  | illegalReserved op rsv => cases ht; exact h.illegalCommand _ s hs

theorem StepClosed.commandTurn {P : State → Prop} (h : StepClosed P) (v : Word) (s t : State) (hs : P s)
    (ht : Machine.commandTurn v s = .next t) : P t := by
  obtain ⟨u, hu⟩ := exec_next (decode v) { s with script := [] }
  simp only [Machine.commandTurn, hu] at ht
  cases ht
  exact h.script u _ (h.exec _ _ u (h.script s _ hs) hu)

theorem StepClosed.writeTurn {P : State → Prop} (h : StepClosed P) (w : Nat) (off : Offset) (v : Word)
    (s t : State) (hs : P s) (ht : Machine.writeTurn w off v s = .next t) : P t := by
  unfold Machine.writeTurn at ht
  split at ht
  · cases ht
  · split at ht
    · exact h.commandTurn v s t hs ht
    · cases ht; exact h.write off v s hs

theorem StepClosed.pollTurn {P : State → Prop} (h : StepClosed P) (c : PollFor) (s : State) (hs : P s) :
    P (Machine.pollTurn c s) := by
  cases c with
  | idle =>
    simp only [Machine.pollTurn]
    split
    · exact h.script _ _ (h.log s _ hs)
    · exact h.log s _ hs
  | irq =>
    simp only [Machine.pollTurn]
    split
    · exact hs
    · exact h.script _ _ hs

theorem StepClosed.eventTurn {P : State → Prop} (h : StepClosed P) (e : Event) (s t : State) (hs : P s)
    (ht : Machine.eventTurn e s = .next t) : P t := by
  have htick : P (tick s) := h.ticks s _ hs
  cases e with
  | write w off v => exact h.writeTurn w off v _ t htick ht
  | read w off =>
    simp only [Machine.eventTurn, readStep] at ht
    split at ht
    · cases ht
    · cases ht; exact h.log s _ hs
  | send it => cases ht; exact h.send it _ htick
  | withdraw => cases ht; exact h.withdraw _ htick
  | take => cases ht; exact h.sink _ htick
  | core => cases ht; exact h.core _ htick
  | reset => cases ht; exact h.reset _ htick
  | poll c => cases ht; exact h.pollTurn c s hs

/-- The induction over a step, packaged once. -/
theorem StepClosed.step {P : State → Prop} (h : StepClosed P) (s t : State) (hs : P s)
    (ht : Machine.step s = .next t) : P t := by
  unfold Machine.step stepScript at ht
  split at ht
  · cases ht; exact h.core _ (h.ticks s _ hs)
  · exact h.eventTurn _ _ t (h.script s _ hs) ht

end Sys2Proof.Machine
end

