-- ==== Sys2Proof/Laws/Tree.lean ====
section
/-! SUPPORT. What the priority structure, the leaf list and the deserializer's return do
(41_tree_builder.md R170 to R176; 43_tree_codec.md R223). -/

namespace Sys2Proof.Machine

/-! ## The priority structure -/

/-- Two different nodes are always ordered by key, one way or the other. -/
theorem keyLt_total (node : Vector Node 511) (i j : Nat) (h : i ≠ j) :
    keyLt node i j = true ∨ keyLt node j i = true := by
  simp only [keyLt, Bool.or_eq_true, Bool.and_eq_true, decide_eq_true_eq, beq_iff_eq]
  omega

theorem keyLt_asymm (node : Vector Node 511) (i j : Nat) (h : keyLt node i j = true) :
    keyLt node j i = false := by
  rw [Bool.eq_false_iff]
  simp only [keyLt, ne_eq, Bool.or_eq_true, Bool.and_eq_true, decide_eq_true_eq, beq_iff_eq] at h ⊢
  omega

theorem keyLt_trans (node : Vector Node 511) (i j k : Nat) (h : keyLt node i j = true)
    (h' : keyLt node j k = true) : keyLt node i k = true := by
  simp only [keyLt, Bool.or_eq_true, Bool.and_eq_true, decide_eq_true_eq, beq_iff_eq] at h h' ⊢
  omega

theorem leastKey_mem (node : Vector Node 511) (m : Nat) (rest : List Nat) :
    leastKey node m rest ∈ m :: rest := by
  unfold leastKey
  induction rest generalizing m with
  | nil => simp
  | cons a l ih =>
    have := ih (if keyLt node a m = true then a else m)
    simp only [List.foldl_cons, List.mem_cons] at this ⊢
    rcases this with h | h
    · rw [h]; split <;> simp
    · exact .inr (.inr h)

theorem extractMin_none (node : Vector Node 511) (pq : List Nat) (h : extractMin node pq = none) :
    pq = [] := by
  cases pq with
  | nil => rfl
  | cons m rest => simp [extractMin] at h

/-- What is extracted was a member, and the rest is the members without it. -/
theorem extractMin_some (node : Vector Node 511) (pq : List Nat) (m : Nat) (rest : List Nat)
    (h : extractMin node pq = some (m, rest)) : m ∈ pq ∧ rest = pq.erase m := by
  cases pq with
  | nil => simp [extractMin] at h
  | cons a l =>
    simp only [extractMin, Option.some.injEq, Prod.mk.injEq] at h
    obtain ⟨rfl, rfl⟩ := h
    exact ⟨leastKey_mem _ _ _, rfl⟩

/-! ## Counts and leaves -/

theorem sum_set_succ (l : List Nat) (i : Nat) (h : i < l.length) :
    (l.set i (l[i] + 1)).sum = l.sum + 1 := by
  induction l generalizing i with
  | nil => simp at h
  | cons a l ih =>
    cases i with
    | zero => simp; omega
    | succ i => simp only [List.length_cons, Nat.add_lt_add_iff_right] at h; simp [ih i h]; omega

/-- One more occurrence of a byte adds one to the sum of the counts (R150). -/
theorem bump_sum (freq : Vector Nat 256) (b : Byte) :
    (bump freq b).toList.sum = freq.toList.sum + 1 := by
  have := sum_set_succ freq.toList b.toNat (by simpa using b.isLt)
  simpa [bump, symSet, symGet, Vector.toList_set] using this

theorem symGet_bump (freq : Vector Nat 256) (b c : Byte) :
    symGet (bump freq b) c = symGet freq c + if c = b then 1 else 0 := by
  unfold bump
  split
  · subst c; simp
  · rw [symGet_symSet_of_ne _ _ _ _ ‹_›, Nat.add_zero]

theorem leavesOf_length (freq : Vector Nat 256) : (leavesOf freq).length ≤ 256 := by
  simp only [leavesOf, List.length_map]
  exact Nat.le_trans (List.length_filter_le _ _) (by simp [allSymbols])

/-- The arena after a row of entries was written: the row where it was written, the rest as before. -/
theorem writeNodes_get (l : List Node) : ∀ (v : Vector Node 511) (k j : Nat), k + l.length ≤ 511 →
    nodeGet (writeNodes v k l) j =
      if k ≤ j ∧ j < k + l.length then (l[j - k]?).getD Node.blank else nodeGet v j := by
  induction l with
  | nil => intro v k j h; simp only [writeNodes, List.length_nil]; rw [if_neg (by omega)]
  | cons a l ih =>
    intro v k j h
    simp only [List.length_cons] at h ⊢
    rw [writeNodes, ih _ (k + 1) j (by omega)]
    by_cases hj : j = k
    · subst hj
      rw [if_neg (by omega), if_pos (by omega), nodeGet_nodeSet_same _ _ _ (by omega)]
      simp
    · by_cases h2 : k ≤ j ∧ j < k + (l.length + 1)
      · rw [if_pos (by omega), if_pos h2, show j - k = (j - (k + 1)) + 1 by omega,
          List.getElem?_cons_succ]
      · rw [if_neg (by omega), if_neg h2, nodeGet_nodeSet_of_ne _ _ _ _ hj]

/-- TREE_KIND of a tree with at least one leaf is LEAF or MULTI. -/
theorem kindOfTree_cases (n : Nat) :
    kindOfTree n ≠ .noTree ∧ (kindOfTree n = .leaf ↔ n = 1) ∧ kindOfTree n ≠ .emptyTree := by
  unfold kindOfTree
  split <;> simp_all

/-! ## The deserializer's return -/

/-- When the whole tree is complete, STACK is empty. -/
theorem returnSubtree_root (k : Nat) (n : Vector Node 511) (st : List StackEntry) (r : Nat)
    (st' : List StackEntry) (n' : Vector Node 511)
    (h : returnSubtree k n st = (some r, st', n')) : st' = [] := by
  induction st generalizing k n with
  | nil => simp only [returnSubtree, Prod.mk.injEq] at h; exact h.2.1.symm
  | cons e st ih =>
    cases e with
    | assign i p => exact ih k n h
    | ser i => exact ih k n h
    | parseLeft p => simp [returnSubtree] at h
    | parseRight p l => exact ih p _ h

/-! ## Trees in the arena -/

theorem represents_of_below {n : Nat} {node : Vector Node 511} {i : Nat} {t : HuffTree}
    (h : RepresentsBelow n node i t) : Represents node i t := by
  induction t generalizing i with
  | leaf b => exact h.2
  | node l r hl hr =>
    obtain ⟨_, w, a, b, e, h1, h2⟩ := h
    exact ⟨w, a, b, e, hl h1, hr h2⟩

theorem root_lt_of_below {n : Nat} {node : Vector Node 511} {i : Nat} {t : HuffTree}
    (h : RepresentsBelow n node i t) : i < n := by
  cases t <;> exact h.1

/-- A tree of nodes below n is kept by what leaves these nodes alone. -/
theorem below_congr {n m : Nat} {node node' : Vector Node 511} {i : Nat} {t : HuffTree} (hnm : n ≤ m)
    (same : ∀ j < n, nodeGet node' j = nodeGet node j) (h : RepresentsBelow n node i t) :
    RepresentsBelow m node' i t := by
  induction t generalizing i with
  | leaf b => exact ⟨Nat.lt_of_lt_of_le h.1 hnm, by rw [same i h.1]; exact h.2⟩
  | node l r hl hr =>
    obtain ⟨h0, w, a, b, e, h1, h2⟩ := h
    exact ⟨Nat.lt_of_lt_of_le h0 hnm, w, a, b, by rw [same i h0]; exact e, hl h1, hr h2⟩

/-- A tree that stands at the root index is a Leaf there exactly if it is one leaf. -/
theorem isLeaf_of_represents {node : Vector Node 511} {i : Nat} {t : HuffTree}
    (h : Represents node i t) : (nodeGet node i).isLeaf = decide (t.leaves = 1) := by
  cases t with
  | leaf b => obtain ⟨w, e⟩ := h; rw [e]; rfl
  | node l r =>
    obtain ⟨w, a, b, e, _⟩ := h
    have := leaves_pos l
    have := leaves_pos r
    rw [e]
    simp only [Node.isLeaf, HuffTree.leaves]
    exact (decide_eq_false (by omega)).symm

/-- The tree of a machine whose TREE_KIND is that of the tree's leaves is its current tree. -/
theorem holdsTree_of_kind {s : State} {t : HuffTree} (h : Represents s.node s.rootIdx t)
    (hk : s.treeKind = kindOfTree t.leaves) : holdsTree s t := by
  refine ⟨h, ?_⟩
  cases t with
  | leaf b => exact hk
  | node l r =>
    have := leaves_pos l
    have := leaves_pos r
    show s.treeKind = .multi
    rw [hk, kindOfTree, if_neg (by simp only [HuffTree.leaves]; omega)]

/-- A pre-order tree of N leaves takes the 2·N − 1 entries from its root on, and is kept by what leaves them
alone. -/
theorem preorderAt_congr {node node' : Vector Node 511} {i : Nat} {t : HuffTree}
    (same : ∀ j, i ≤ j → j + 1 < i + 2 * t.leaves → nodeGet node' j = nodeGet node j)
    (h : PreorderAt node i t) : PreorderAt node' i t := by
  induction t generalizing i with
  | leaf b =>
    show nodeGet node' i = _
    rw [same i (Nat.le_refl _) (by simp only [HuffTree.leaves]; omega)]
    exact h
  | node l r hl hr =>
    obtain ⟨e, h1, h2⟩ := h
    have := leaves_pos l
    have := leaves_pos r
    simp only [HuffTree.leaves] at same
    refine ⟨by rw [same i (Nat.le_refl _) (by omega)]; exact e, hl (fun j a b => ?_) h1,
      hr (fun j a b => ?_) h2⟩ <;> exact same j (by omega) (by omega)

theorem below_of_preorderAt {n : Nat} {node : Vector Node 511} {i : Nat} {t : HuffTree}
    (hn : i + 2 * t.leaves ≤ n + 1) (h : PreorderAt node i t) : RepresentsBelow n node i t := by
  induction t generalizing i with
  | leaf b => exact ⟨by simp only [HuffTree.leaves] at hn; omega, 0, h⟩
  | node l r hl hr =>
    obtain ⟨e, h1, h2⟩ := h
    have := leaves_pos l
    have := leaves_pos r
    simp only [HuffTree.leaves] at hn
    exact ⟨by omega, 0, _, _, e, hl (by omega) h1, hr (by omega) h2⟩

/-! ## Merging two trees of a forest -/

/-- The merge of two members l and r of PQ into node k keeps the forest (R175). -/
theorem forest_merge {f : Nat → HuffTree} {s : State} {l r : Nat} (hf : Forest f s)
    (hl : l ∈ s.pq) (hr : r ∈ s.pq.erase l) (hk : s.nnodes < 511) :
    Forest (Function.update f s.nnodes (.node (f l) (f r)))
      (mergeNodes l r ((s.pq.erase l).erase r) s) := by
  have hperm : s.pq.Perm (l :: r :: (s.pq.erase l).erase r) :=
    (List.perm_cons_erase hl).trans ((List.perm_cons_erase hr).cons l)
  have old : ∀ i ∈ s.pq, Function.update f s.nnodes (.node (f l) (f r)) i = f i := fun i hi =>
    Function.update_of_ne (Nat.ne_of_lt (root_lt_of_below (hf.roots i hi))) _ _
  have hrest : ∀ i ∈ (s.pq.erase l).erase r, i ∈ s.pq := fun i hi =>
    List.mem_of_mem_erase (List.mem_of_mem_erase hi)
  have keep : ∀ i ∈ s.pq, RepresentsBelow (s.nnodes + 1)
      (mergeNodes l r ((s.pq.erase l).erase r) s).node i (f i) := fun i hi =>
    below_congr (Nat.le_succ _) (fun j hj => nodeGet_nodeSet_of_ne _ _ _ _ (Nat.ne_of_lt hj))
      (hf.roots i hi)
  have flat : ((s.pq.erase l).erase r).flatMap
      (fun i => (Function.update f s.nnodes (.node (f l) (f r)) i).symbols) =
        ((s.pq.erase l).erase r).flatMap fun i => (f i).symbols :=
    List.flatMap_congr fun i hi => by rw [old i (hrest i hi)]
  have sums : ((s.pq.erase l).erase r).map
      (fun i => (Function.update f s.nnodes (.node (f l) (f r)) i).leaves) =
        ((s.pq.erase l).erase r).map fun i => (f i).leaves :=
    List.map_congr_left fun i hi => by rw [old i (hrest i hi)]
  refine ⟨fun i hi => ?_, ?_, ?_⟩
  · simp only [mergeNodes, pqInsert, List.mem_append, List.mem_singleton] at hi
    rcases hi with hi | rfl
    · rw [old i (hrest i hi)]; exact keep i (hrest i hi)
    · rw [Function.update_self]
      exact ⟨Nat.lt_succ_self _, _, l, r, nodeGet_nodeSet_same _ _ _ hk, keep l hl,
        keep r (List.mem_of_mem_erase hr)⟩
  · have h1 := (hperm.flatMap_right fun i => (f i).symbols).nodup_iff.1 hf.symbols
    rw [List.flatMap_cons, List.flatMap_cons, ← List.append_assoc] at h1
    simp only [mergeNodes, pqInsert, List.flatMap_append, List.flatMap_singleton,
      Function.update_self, HuffTree.symbols, flat]
    exact List.perm_append_comm.nodup_iff.1 h1
  · have h1 := (hperm.map fun i => (f i).leaves).sum_eq
    have h2 := hf.leaves
    simp only [List.map_cons, List.sum_cons] at h1
    simp only [mergeNodes, pqInsert, List.map_append, List.map_cons, List.map_nil, List.sum_append,
      List.sum_cons, List.sum_nil, Function.update_self, HuffTree.leaves, sums]
    omega

theorem allSymbols_nodup : allSymbols.Nodup := by
  refine List.Nodup.map_on (fun a ha b hb h => ?_) List.nodup_range
  have := congrArg BitVec.toNat h
  simp only [BitVec.toNat_ofNat] at this
  simp only [List.mem_range] at ha hb
  omega

/-- BUILD's leaves are a forest of one-leaf trees (R175, R176). -/
theorem forest_start (s : State) :
    Forest (fun i => .leaf ((countedSymbols s.freq)[i]?.getD 0)) (buildStart s) := by
  have hlen : (leavesOf s.freq).length = (countedSymbols s.freq).length := by
    simp [leavesOf, countedSymbols]
  have h256 := leavesOf_length s.freq
  refine ⟨fun i hi => ?_, ?_, ?_⟩
  · simp only [buildStart, List.mem_range] at hi
    refine ⟨hi, symGet s.freq ((countedSymbols s.freq)[i]?.getD 0), ?_⟩
    show nodeGet (writeNodes s.node 0 (leavesOf s.freq)) i = _
    have hi' : i < (countedSymbols s.freq).length := hlen ▸ hi
    rw [writeNodes_get _ _ _ _ (by omega), if_pos (by omega), Nat.sub_zero]
    show (((countedSymbols s.freq).map _)[i]?).getD _ = _
    simp [hi']
  · show ((List.range (leavesOf s.freq).length).flatMap fun i =>
      [(countedSymbols s.freq)[i]?.getD 0]).Nodup
    have : ((List.range (leavesOf s.freq).length).flatMap fun i =>
        [(countedSymbols s.freq)[i]?.getD 0]) = countedSymbols s.freq := by
      rw [hlen, ← List.map_eq_flatMap]
      refine List.ext_getElem (by simp) fun i h1 h2 => ?_
      simp [h2]
    rw [this]
    exact allSymbols_nodup.filter _
  · show ((List.range (leavesOf s.freq).length).map fun _ => 1).sum = _
    simp [buildStart]

/-! ## STACK in PARSE_HEADER -/

/-- What STACK holds stands below c, and is kept by what leaves the nodes below c alone. -/
theorem stackHolds_congr {node node' : Vector Node 511} {c : Nat} {st : List StackEntry}
    {syms : List Byte} (same : ∀ j < c, nodeGet node' j = nodeGet node j)
    (h : StackHolds node c st syms) : StackHolds node' c st syms := by
  induction st generalizing c syms with
  | nil => exact h
  | cons e st ih =>
    cases e with
    | assign i p => exact h
    | ser i => exact h
    | parseLeft k =>
      obtain ⟨rfl, e, h⟩ := h
      exact ⟨rfl, by rw [same k (by omega)]; exact e, ih (fun j hj => same j (by omega)) h⟩
    | parseRight k l =>
      obtain ⟨t, below, rfl, rfl, rfl, ht, e, h⟩ := h
      have := leaves_pos t
      exact ⟨t, below, rfl, rfl, rfl, preorderAt_congr (fun j _ _ => same j (by omega)) ht,
        by rw [same k (by omega)]; exact e, ih (fun j hj => same j (by omega)) h⟩

/-- The subtree t at c is complete and returns to STACK: either an entry that waited for a left subtree waits for
its right one now, at the index after t, or the whole tree is complete at node 0. No symbol is lost (R223). -/
theorem returnSubtree_holds {c : Nat} {node : Vector Node 511} {st : List StackEntry}
    {syms : List Byte} {t : HuffTree} (hs : StackHolds node c st syms) (ht : PreorderAt node c t)
    (hc : c < 511) {r : Option Nat} {st' : List StackEntry} {node' : Vector Node 511}
    (h : returnSubtree c node st = (r, st', node')) :
    (r = none → st' ≠ [] ∧ awaitedLefts st' + 1 = awaitedLefts st ∧
      ∃ syms', StackHolds node' (c + 2 * t.leaves - 1) st' syms' ∧ syms'.Perm (t.symbols ++ syms)) ∧
    ∀ x, r = some x → x = 0 ∧ awaitedLefts st = 0 ∧
      ∃ tr, PreorderAt node' 0 tr ∧ tr.symbols.Perm (t.symbols ++ syms) := by
  induction st generalizing c node syms t with
  | nil =>
    obtain ⟨rfl, rfl⟩ := hs
    simp only [returnSubtree, Prod.mk.injEq] at h
    obtain ⟨rfl, rfl, rfl⟩ := h
    refine ⟨by simp, fun x hx => ?_⟩
    cases hx
    exact ⟨rfl, rfl, t, ht, by simp⟩
  | cons e st ih =>
    cases e with
    | assign i p => exact hs.elim
    | ser i => exact hs.elim
    | parseLeft k =>
      obtain ⟨rfl, e, hs⟩ := hs
      simp only [returnSubtree, Prod.mk.injEq] at h
      obtain ⟨rfl, rfl, rfl⟩ := h
      exact ⟨fun _ => ⟨by simp, by simp [awaitedLefts],
        _, ⟨t, syms, rfl, rfl, by omega, ht, e, hs⟩, .refl _⟩, by simp⟩
    | parseRight k l =>
      obtain ⟨tl, below, rfl, rfl, rfl, htl, e, hs⟩ := hs
      have := leaves_pos tl
      have := leaves_pos t
      simp only [returnSubtree, e] at h
      have hne : ∀ j, j ≠ k → nodeGet (nodeSet node k ((Node.internal 0 0 0).withChildren (k + 1)
          (k + 2 * tl.leaves))) j = nodeGet node j := fun j => nodeGet_nodeSet_of_ne _ _ _ _
      have := ih (t := .node tl t) (stackHolds_congr (fun j hj => hne j (by omega)) hs)
        ⟨nodeGet_nodeSet_same _ _ _ (by omega), preorderAt_congr (fun j _ _ => hne j (by omega)) htl,
          preorderAt_congr (fun j _ _ => hne j (by omega)) ht⟩ (by omega) h
      simp only [HuffTree.symbols, HuffTree.leaves] at this
      have hp : (tl.symbols ++ t.symbols ++ below).Perm (t.symbols ++ (tl.symbols ++ below)) := by
        rw [← List.append_assoc]
        exact List.perm_append_comm.append_right below
      refine ⟨fun hr => ?_, fun x hx => ?_⟩
      · obtain ⟨h1, h2, syms', h3, h4⟩ := this.1 hr
        refine ⟨h1, h2, syms', ?_, h4.trans hp⟩
        rw [show k + 2 * tl.leaves + 2 * t.leaves - 1 = k + 2 * (tl.leaves + t.leaves) - 1 by omega]
        exact h3
      · obtain ⟨h1, h2, tr, h3, h4⟩ := this.2 x hx
        exact ⟨h1, h2, tr, h3, h4.trans hp⟩

end Sys2Proof.Machine
end

