-- ==== Sys2Proof/Laws/Values.lean ====
section
/-! SUPPORT. The sizes of what is computed from the counts: depths, payload bits and weights (00_scope.md R8;
42_code_generator.md R203, R205; 10_state.md R56). -/

namespace Sys2Proof.Machine

/-- A leaf is at most N − 1 branches deep (R8). -/
theorem depth_lt_leaves (t : HuffTree) : t.depth < t.leaves := by
  induction t with
  | leaf b => exact Nat.one_pos
  | node l r hl hr => simp only [HuffTree.depth, HuffTree.leaves]; omega

/-- A memory indexed by symbol, read at all symbols in ascending order, is its list of entries. -/
theorem allSymbols_get {α : Type} (v : Vector α 256) : allSymbols.map (symGet v) = v.toList := by
  apply List.ext_getElem
  · simp [allSymbols]
  · intro i h1 h2
    have hi : i < 256 := by simpa [allSymbols] using h1
    simp [allSymbols, symGet, Nat.mod_eq_of_lt hi]

/-- PBITS of codes of at most 255 bits (R203). -/
theorem payloadBits_le (freq len : Vector Nat 256) (h : ∀ b, symGet len b ≤ 255) :
    payloadBits freq len ≤ freq.toList.sum * 255 := by
  rw [← allSymbols_get freq, payloadBits]
  induction allSymbols with
  | nil => simp
  | cons b l ih =>
    have := Nat.mul_le_mul_left (symGet freq b) (h b)
    simp only [List.map_cons, List.sum_cons, Nat.add_mul]
    omega

/-- The leaves weigh no more than all counts together (R175). -/
theorem leavesOf_weights (freq : Vector Nat 256) :
    ((leavesOf freq).map Node.weight).sum ≤ freq.toList.sum := by
  rw [← allSymbols_get freq, leavesOf]
  induction allSymbols with
  | nil => simp
  | cons b l ih =>
    rw [List.filter_cons]
    split <;> simp only [List.map_cons, List.sum_cons, Node.weight] <;> omega

/-- The leaves of BUILD, read back from the arena by their indices (R175). -/
theorem leaves_read (freq : Vector Nat 256) (node : Vector Node 511) :
    (List.range (leavesOf freq).length).map (nodeGet (writeNodes node 0 (leavesOf freq))) =
      leavesOf freq := by
  have hl := leavesOf_length freq
  apply List.ext_getElem
  · simp
  · intro i h1 h2
    simp only [List.getElem_map, List.getElem_range]
    rw [writeNodes_get _ _ _ _ (by omega), if_pos (by omega)]
    simp [h2]

/-- Setting a node's children keeps every weight (R223). -/
theorem weight_withChildren (node : Vector Node 511) (p l r j : Nat) :
    (nodeGet (nodeSet node p ((nodeGet node p).withChildren l r)) j).weight =
      (nodeGet node j).weight := by
  by_cases hj : j = p
  · subst hj
    by_cases h : j < 511
    · rw [nodeGet_nodeSet_same _ _ _ h]; rfl
    · simp [nodeGet, nodeSet, h]
  · rw [nodeGet_nodeSet_of_ne _ _ _ _ hj]

/-- The return of a subtree keeps every weight (R223). -/
theorem returnSubtree_weight (k : Nat) (node : Vector Node 511) (st : List StackEntry) (j : Nat) :
    (nodeGet (returnSubtree k node st).2.2 j).weight = (nodeGet node j).weight := by
  induction st generalizing k node with
  | nil => rfl
  | cons e st ih =>
    cases e with
    | assign i p => exact ih k node
    | ser i => exact ih k node
    | parseLeft p => rfl
    | parseRight p l => exact (ih p _).trans (weight_withChildren _ _ _ _ _)

/-- A new entry weighs w and the others weigh what they did; an index past the arena weighs 0. -/
theorem weight_nodeSet_le (node : Vector Node 511) (k j b : Nat) (n : Node) (hn : n.weight ≤ b)
    (h : j ≠ k → (nodeGet node j).weight ≤ b) : (nodeGet (nodeSet node k n) j).weight ≤ b := by
  by_cases hj : j = k
  · subst hj
    by_cases hk : j < 511
    · rw [nodeGet_nodeSet_same _ _ _ hk]; exact hn
    · simp [nodeGet, nodeSet, hk, Node.blank, Node.weight]
  · rw [nodeGet_nodeSet_of_ne _ _ _ _ hj]; exact h hj

/-- A member and what is left of the list after it weigh what the list weighs. -/
theorem sum_erase (f : Nat → Nat) (l : List Nat) (i : Nat) (h : i ∈ l) :
    f i + ((l.erase i).map f).sum = (l.map f).sum := by
  have := ((List.perm_cons_erase h).map f).sum_nat
  simp only [List.map_cons, List.sum_cons] at this
  omega

/-- A new code of at most 255 bits keeps every code so (R201, R205). -/
theorem codes_assign {len : Vector Nat 256} {bits : Vector BitString 256}
    (h : ∀ b, symGet len b ≤ 255 ∧ (symGet bits b).length ≤ 255) (b : Byte) (p : BitString)
    (hp : p.length ≤ 255) (c : Byte) :
    symGet (symSet len b p.length) c ≤ 255 ∧ (symGet (symSet bits b p) c).length ≤ 255 := by
  by_cases hc : c = b
  · subst hc; simp [hp]
  · rw [symGet_symSet_of_ne _ _ _ _ hc, symGet_symSet_of_ne _ _ _ _ hc]; exact h c

end Sys2Proof.Machine
end

