-- ==== Sys2Proof/Laws/Words.lean ====
section
/-! SUPPORT. The two fields of a command word (30_encoding.md R110). -/

namespace Sys2Proof

@[simp] theorem opField_joinFields (rsv : BitVec 28) (op : BitVec 4) :
    opField (joinFields rsv op) = op := by
  ext k hk
  have h : (rsv ++ op).getLsbD k = op.getLsbD k := by
    rw [BitVec.getLsbD_append, if_pos hk]
  simpa [opField, joinFields, BitVec.getLsbD_eq_getElem hk] using h

@[simp] theorem rsvField_joinFields (rsv : BitVec 28) (op : BitVec 4) :
    rsvField (joinFields rsv op) = rsv := by
  ext k hk
  have h : (rsv ++ op).getLsbD (4 + k) = rsv.getLsbD k := by
    rw [BitVec.getLsbD_append, if_neg (by omega), Nat.add_sub_cancel_left]
  simpa [rsvField, joinFields, BitVec.getLsbD_eq_getElem hk] using h

/-- A word is its two fields put together again. -/
@[simp] theorem joinFields_fields (w : Word) : joinFields (rsvField w) (opField w) = w := by
  have h : ((rsvField w ++ opField w : BitVec (28 + 4))).toNat = w.toNat := by
    rw [BitVec.toNat_append]
    simp only [rsvField, opField, BitVec.extractLsb'_toNat]
    rw [← Nat.shiftLeft_add_eq_or_of_lt (Nat.mod_lt _ (by decide)), Nat.shiftLeft_eq,
      Nat.shiftRight_eq_div_pow, Nat.shiftRight_eq_div_pow]
    have := w.isLt
    omega
  exact BitVec.eq_of_toNat_eq h

/-- Two joined words are equal exactly when both fields are. -/
theorem joinFields_inj (r r' : BitVec 28) (o o' : BitVec 4) :
    joinFields r o = joinFields r' o' ↔ r = r' ∧ o = o' := by
  refine ⟨fun h => ⟨?_, ?_⟩, fun ⟨h, h'⟩ => by rw [h, h']⟩
  · simpa using congrArg rsvField h
  · simpa using congrArg opField h

end Sys2Proof
end

