-- ==== Sys2Proof/Tests/Slice0.lean ====
section
/-! SUPPORT. Tests of the model on small states. The expected results are those of the opcode map
(30_encoding.md R111, R112) and of the test vectors of 95_test_vectors.md, which each test names; the
witness theorems show states and operands that meet the hypotheses of the statements. -/

namespace Sys2Proof.Tests

open Sys2Proof Sys2Proof.Machine

/-! ## WellFormed: what it refuses -/

theorem test_reserved_row_refuses_op_b : (Instr.illegalReserved 0xB 1).wellFormed = false := by decide
theorem test_reserved_row_refuses_zero_bits : (Instr.illegalReserved 2 0).wellFormed = false := by decide

/-! ## Decode: each row's word written out from 30_encoding.md R110 to R112 -/

theorem test_decode_nop : decode 0b00000000000000000000000000000000#32 = .nop := by decide
theorem test_decode_clear : decode 0b00000000000000000000000000000001#32 = .clear := by decide
theorem test_decode_scan : decode 0b00000000000000000000000000000010#32 = .scan := by decide
theorem test_decode_build : decode 0b00000000000000000000000000000011#32 = .build := by decide
theorem test_decode_gencode : decode 0b00000000000000000000000000000100#32 = .gencode := by decide
theorem test_decode_emit : decode 0b00000000000000000000000000000101#32 = .emitHeader := by decide
theorem test_decode_pack : decode 0b00000000000000000000000000000110#32 = .pack := by decide
theorem test_decode_parse : decode 0b00000000000000000000000000000111#32 = .parseHeader := by decide
theorem test_decode_unpack : decode 0b00000000000000000000000000001000#32 = .unpack := by decide
theorem test_decode_compress : decode 0b00000000000000000000000000001001#32 = .compress := by decide
theorem test_decode_decompress : decode 0b00000000000000000000000000001010#32 = .decompress := by decide
theorem test_decode_op_b :
    decode 0b10000000000000000000000000101011#32 = .illegalOpB 0x8000002#28 := by decide
theorem test_decode_op_d :
    decode 0b00000000000000000000000000011101#32 = .illegalOpCtoF 1#2 1#28 := by decide
theorem test_decode_reserved_bit :
    decode 0b10000000000000000000000000000010#32 = .illegalReserved 2#4 0x8000000#28 := by decide

/-! ## Small states -/

/-- The machine after reset with CNT_W = 4 and OUT_BUF = 1, and a host with these items and events. -/
def host (q : List Item) (es : List Event) : State :=
  { State.reset with params := { cntWPred := 3, outBufExtra := 0 }, inQ := q, script := es }

/-- The state an instruction answers. -/
def after (i : Instr) (s : State) : State :=
  match exec i s with
  | .next t => t
  | .fault _ => s
  | .refused _ => s

/-- An arena that begins with these nodes. -/
def arena (l : List Node) : Vector Node 511 := writeNodes (Vector.replicate 511 (.leaf 0 0)) 0 l

/-- Counts of a few symbols. -/
def counts (l : List (Byte × Nat)) : Vector Nat 256 :=
  l.foldl (fun v p => symSet v p.1 p.2) (Vector.replicate 256 0)

/-- After SCAN, BUILD and GENCODE of "ab" (V-BLD-3): a "0", b "1", PBITS 2, ENC_PAD 6. -/
def abCodes (q : List Item) (es : List Event) : State :=
  { host q es with
    freq := counts [(0x61, 1), (0x62, 1)], scanTotal := 2, treeKind := .multi, rootValid := true,
    rootIdx := 2, nsym := 2, nnodes := 3,
    node := arena [.leaf 0x61 1, .leaf 0x62 1, .internal 2 0 1], len := counts [(0x61, 1), (0x62, 1)],
    bits := symSet (symSet (Vector.replicate 256 []) 0x61 [false]) 0x62 [true], codesValid := true,
    pbits := 2, encPad := 6 }

/-- After PARSE_HEADER of 00 01 61 01 62 FF pad (V-PH-4). -/
def abParsed (pad : BitVec 3) (q : List Item) (es : List Event) : State :=
  { host q es with
    treeKind := .multi, rootValid := true, rootIdx := 0, nsym := 2, nnodes := 3,
    node := arena [.internal 0 1 2, .leaf 0x61 0, .leaf 0x62 0], hdrParsed := true, hdrPad := pad }

/-- The tree of "ab". -/
def abTree : HuffTree := .node (.leaf 0x61) (.leaf 0x62)

/-- A command running at a place in its rule. -/
def running (p : Prim) (pt : Point) (it : Option (Item × Nat)) : State :=
  { host [] [] with opstate := .run (.prim p) 0, point := pt, item := it }

/-! ## The commands on vectors of 95_test_vectors.md -/

/-- V-SCAN-3, shortened to one symbol that is the sentinel. -/
theorem test_scan_counts :
    symGet (after .scan (host (streamOf [0xFF, 0x00, 0xFF]) (beats 10))).freq 0xFF = 2 := by
  decide +kernel

/-- V-SCAN-5: SCAN invalidates the tree; STATUS = 0x02. -/
theorem test_scan_status :
    statusWord (after .scan (abCodes (streamOf [0x61]) (beats 6))) = 0x02 := by decide +kernel

/-- V-BLD-4 "aab": the lighter b is extracted first and becomes the left child. -/
theorem test_build_lighter_left :
    nodeGet (after .build { host [] (beats 5) with freq := counts [(0x61, 2), (0x62, 1)] }).node 2 =
      .internal 3 1 0 := by decide +kernel

/-- V-BLD-1: BUILD of no counts gives the empty tree, STATUS = 0x12; before that, after `InvalidateTree` (R175,
R320), STATUS shows BUSY and TREE_KIND NONE. -/
theorem test_build_empty :
    statusWord (after .build { host [] (beats 1) with treeKind := .emptyTree, hdrParsed := true }) =
        0x01 ∧
      statusWord (after .build (host [] (beats 3))) = 0x12 := by decide +kernel

/-- R12, R13, R37: the position of an item is exact, also past the 5 bits of CNT_W = 4. -/
theorem test_position_is_exact :
    (coreTurn { running .unpack (.unpackNext 39) none with inQ := [.eos], pos := 40 }).item =
      some (.eos, 40) := by
  decide

/-- R6, R310: the step of a CMD write is the acceptance alone, STATUS = 1; the turns are steps of their own. -/
theorem test_cmd_write_is_one_access :
    ∃ t, step (host [.eos] (cmd .scan ++ beats 4)) = .next t ∧ statusWord t = 1 ∧ t.script = beats 4 ∧
      t.inQ = [.eos] := ⟨_, rfl, by decide, rfl, rfl⟩

/-- R391: the host takes back what it has queued, the oldest item first. -/
theorem test_withdraw :
    ∃ t, step (host [.byte 0x61, .eos] [.withdraw]) = .next t ∧ t.inQ = [.eos] := ⟨_, rfl, rfl⟩

/-- V-GEN-8 with counts 1 and 1: b "1". -/
theorem test_gencode_right_is_one :
    symGet (after .gencode { abCodes [] (beats 6) with bits := Vector.replicate 256 [] }).bits 0x62 =
      [true] := by decide +kernel

/-- V-GEN-1: SEQUENCE, ERR = 0x0402. -/
theorem test_gencode_no_tree :
    exactRead .err (after .gencode (host [] (beats 2))) = 0x0402 := by decide

/-- V-EH-6. -/
theorem test_emit_ab :
    (after .emitHeader (abCodes [] (beats 10))).outRec = [0x00, 0x01, 0x61, 0x01, 0x62, 0xFF, 0x06] := by
  decide +kernel

/-- V-EH-1: SEQUENCE, ERR = 0x0502. -/
theorem test_emit_no_codes :
    exactRead .err (after .emitHeader (host [] (beats 2))) = 0x0502 := by decide

/-- V-PACK-2. -/
theorem test_pack_ab :
    (after .pack (abCodes (streamOf [0x61, 0x62]) (beats 13))).outRec = [0x40] := by decide +kernel

/-- V-PACK-4: NO_CODE at the 63. -/
theorem test_pack_no_code :
    (after .pack (abCodes (streamOf [0x61, 0x62, 0x63]) (beats 20))).errPos = 2 := by decide +kernel

/-- V-PH-4: NODE_CHILD at SEL 0. -/
theorem test_parse_ab :
    exactRead .nodeChild (after .parseHeader
      (host (bytesIn [0x00, 0x01, 0x61, 0x01, 0x62, 0xFF, 0x06]) (beats 17))) = 0x00020001 := by
  decide +kernel

/-- V-PH-21: MH_DUP_SYMBOL, ERR = 0x0714. -/
theorem test_parse_duplicate :
    exactRead .err (after .parseHeader (host (bytesIn [0x00, 0x01, 0x61, 0x01, 0x61]) (beats 12))) =
      0x0714 := by decide +kernel

/-- V-PACK-2 read back: 40 with six padding bits is "ab". -/
theorem test_unpack_ab :
    (after .unpack (abParsed 6 (streamOf [0x40]) (beats 15))).outRec = [0x61, 0x62] := by decide +kernel

/-- V-UNP-3: PAD_NONZERO, ERR = 0x0822, after 61 was offered. -/
theorem test_unpack_padding :
    exactRead .err (after .unpack (abParsed 7 (streamOf [0x40]) (beats 15))) = 0x0822 := by decide +kernel

/-- V-SCAN-7 with COMPRESS: the error is SCAN's, ERR = 0x0203 (R342). -/
theorem test_compress_overflow :
    exactRead .err (after .compress (host (bytesIn (List.replicate 16 0x61)) (beats 34))) = 0x0203 := by
  decide +kernel

/-- R286, with the container of V-EH-5 "aaaa" and V-PACK-10. -/
theorem test_decompress_aaaa :
    (after .decompress (host (streamOf [0x01, 0x61, 0xFF, 0x04, 0x00]) (beats 40))).outRec =
      [0x61, 0x61, 0x61, 0x61] := by decide +kernel

/-- R312: an accepted NOP sets DONE. -/
theorem test_nop_done : statusWord (after .nop (host [] [])) = 0x02 := by decide

/-- R313: CLEAR leaves the error state. -/
theorem test_clear_leaves_error :
    statusWord (after .clear { host [] [] with err := true, cause := .sequence, reject := true }) = 0 := by
  decide

/-- R343: an illegal word, ERR = 0x0B01. -/
theorem test_illegal_op_b : exactRead .err (after (.illegalOpB 0) (host [] [])) = 0x0B01 := by decide
theorem test_illegal_op_f : exactRead .err (after (.illegalOpCtoF 3 0) (host [] [])) = 0x0F01 := by decide
theorem test_illegal_reserved :
    exactRead .err (after (.illegalReserved 2 1) (host [] [])) = 0x0201 := by decide

/-! ## Witnesses: states that meet the statements' hypotheses -/

/-- An idle state with nothing left of a command is clean. -/
theorem clean_of_idle (s : State) (hp : s.point = .atStart) (hq : s.pq = []) (hs : s.stack = [])
    (h : s.item = none ∧ s.look = none ∧ s.cur = 0 ∧ s.wstate = .atRoot ∧ s.acc = 0 ∧ s.nacc = 0 ∧
      s.out = []) : WorkClean s :=
  ⟨fun _ => hq, fun _ => hs, fun _ => ⟨hp, h⟩⟩

theorem clean_host (q : List Item) (es : List Event) : WorkClean (host q es) :=
  clean_of_idle _ rfl rfl rfl ⟨rfl, rfl, rfl, rfl, rfl, rfl, rfl⟩

theorem clean_abCodes (q : List Item) (es : List Event) : WorkClean (abCodes q es) :=
  clean_of_idle _ rfl rfl rfl ⟨rfl, rfl, rfl, rfl, rfl, rfl, rfl⟩

theorem clean_abParsed (pad : BitVec 3) (q : List Item) (es : List Event) :
    WorkClean (abParsed pad q es) :=
  clean_of_idle _ rfl rfl rfl ⟨rfl, rfl, rfl, rfl, rfl, rfl, rfl⟩

theorem abCodes_root : nodeGet (abCodes [] []).node 2 = .internal 2 0 1 := by decide +kernel
theorem abCodes_left : nodeGet (abCodes [] []).node 0 = .leaf 0x61 1 := by decide +kernel
theorem abCodes_right : nodeGet (abCodes [] []).node 1 = .leaf 0x62 1 := by decide +kernel
theorem abParsed_root : nodeGet (abParsed 0 [] []).node 0 = .internal 0 1 2 := by decide +kernel
theorem abParsed_left : nodeGet (abParsed 0 [] []).node 1 = .leaf 0x61 0 := by decide +kernel
theorem abParsed_right : nodeGet (abParsed 0 [] []).node 2 = .leaf 0x62 0 := by decide +kernel

theorem abCodes_holds (q : List Item) (es : List Event) : holdsTree (abCodes q es) abTree :=
  ⟨⟨2, 0, 1, abCodes_root, ⟨1, abCodes_left⟩, ⟨1, abCodes_right⟩⟩, rfl⟩

theorem abParsed_holds (pad : BitVec 3) (q : List Item) (es : List Event) :
    holdsTree (abParsed pad q es) abTree :=
  ⟨⟨0, 1, 2, abParsed_root, ⟨0, abParsed_left⟩, ⟨0, abParsed_right⟩⟩, rfl⟩

theorem abTree_distinct : abTree.distinct := by unfold HuffTree.distinct; decide

/-- Every beat is a turn of the core or the sink. -/
theorem onlyTurns_beats (n : Nat) : onlyTurns (beats n) = true := by
  induction n with
  | zero => rfl
  | succ n ih => simpa [onlyTurns, beats] using ih

theorem coreTurns_beats (n : Nat) : coreTurns (beats n) = n := by
  induction n with
  | zero => rfl
  | succ n ih => simp only [coreTurns, beats] at ih ⊢; simp [ih]

/-- An idle core, and a host that gives n beats after its command word and then polls. -/
def Ready (n : Nat) (s : State) : Prop :=
  WorkClean s ∧ s.opstate = .idle ∧ s.err = false ∧ s.script = beats n ++ wait ∧
    onlyTurns (beats n) = true ∧ coreTurns (beats n) = n ∧ hostNext wait = true

theorem ready_host (n : Nat) (q : List Item) : Ready n (host q (beats n ++ wait)) :=
  ⟨clean_host _ _, rfl, rfl, rfl, onlyTurns_beats n, coreTurns_beats n, rfl⟩

theorem ready_abCodes (n : Nat) (q : List Item) : Ready n (abCodes q (beats n ++ wait)) :=
  ⟨clean_abCodes _ _, rfl, rfl, rfl, onlyTurns_beats n, coreTurns_beats n, rfl⟩

theorem ready_abParsed (n : Nat) (pad : BitVec 3) (q : List Item) :
    Ready n (abParsed pad q (beats n ++ wait)) :=
  ⟨clean_abParsed _ _ _, rfl, rfl, rfl, onlyTurns_beats n, coreTurns_beats n, rfl⟩

/-- An idle core with an empty tree, whose codes and header are there. -/
def emptyTree (n : Nat) : State :=
  { host [] (beats n ++ wait) with treeKind := .emptyTree, codesValid := true, hdrParsed := true }

theorem ready_emptyTree (n : Nat) : Ready n (emptyTree n) :=
  ⟨clean_of_idle _ rfl rfl rfl ⟨rfl, rfl, rfl, rfl, rfl, rfl, rfl⟩, rfl, rfl, rfl, onlyTurns_beats n,
    coreTurns_beats n, rfl⟩

theorem witness_DecodeOfEncodeIsIdentity : (Instr.illegalReserved 10 0xFFFFFFF).wellFormed = true := by
  decide

theorem witness_StepRunsTheDecodedCommand :
    (host [] (cmd .scan ++ wait)).script = .write 32 0x04 0x00000002 :: wait := rfl

/-- SCAN with turns of all three agents, accepted; and the same word refused. -/
theorem witness_ExecIsTheRunOfItsSteps :
    (host [] (cmd .scan ++ [.send .eos, .core, .take] ++ wait)).script =
        .write 32 0x04 0x00000002 :: ([.send .eos, .core, .take] ++ wait) ∧
      (∀ e ∈ [Event.send .eos, .core, .take], e.isAccess = false) ∧ hostNext wait = true ∧
      ((host [] []).opstate = .idle ∧ (host [] []).err = false ∧ decode 0x00000002 ∈ commands ∧
        decode 0x00000002 ∉ [Instr.nop, .clear]) ∧
      ¬ ({ host [] [] with err := true }.err = false) :=
  ⟨rfl, by decide, rfl, ⟨rfl, rfl, by decide, by decide⟩, by decide⟩

theorem witness_AccessOfAnotherFormHasNoStep :
    (host [] [.write 32 0x03 0]).script = [.write 32 0x03 0] ∧ (0x03#8).toNat % 4 ≠ 0 ∧
      (host [] [.read 16 0x04]).script = [.read 16 0x04] ∧ 16 ≠ 32 := by
  refine ⟨rfl, ?_, rfl, ?_⟩ <;> decide

theorem witness_LegalScriptNeverSticks :
    scriptLegal (host [] (cmd .scan ++ [.send .eos, .core] ++ wait ++ rd .status)).script = true := by
  decide

theorem witness_IdleCoreTakesNoStep : (host [] []).opstate = .idle := rfl

theorem witness_RefusedCommandSetsOnlyReject :
    (Instr.nop ≠ .clear ∧ (running .scan .scanRead none).opstate ≠ .idle) ∧
      { host [] [] with err := true }.err = true ∧
      (∃ t, step { host [] (wr .cmd 1) with reject := true } = .next t ∧ t.reject = false) ∧
      ∃ t, step { host [] [.reset] with reject := true } = .next t ∧ t.reject = false :=
  ⟨⟨by decide, by decide⟩, rfl, ⟨_, rfl, rfl⟩, ⟨_, rfl, rfl⟩⟩

theorem witness_NopOnlySetsDone :
    WorkClean (host [] []) ∧ (host [] []).opstate = .idle ∧ (host [] []).err = false :=
  ⟨clean_host _ _, rfl, rfl⟩

theorem witness_IllegalWordRaisesIllegalCmd :
    Instr.illegalOpB 0 ∉ commands ∧ Instr.illegalOpCtoF 3 5 ∉ commands ∧
      Instr.illegalReserved 1 1 ∉ commands ∧ WorkClean (host [] []) ∧
      (host [] []).opstate = .idle ∧ (host [] []).err = false :=
  ⟨by decide, by decide, by decide, clean_host _ _, rfl, rfl⟩

theorem witness_OnlyClearOrResetLeavesTheErrorState :
    (∃ t, step { host [] (wr .cmd 1) with err := true, cause := .sequence } = .next t ∧
      t.err = false) ∧
      ∃ t, step { host [] [.reset] with err := true, cause := .sequence } = .next t ∧ t.err = false :=
  ⟨⟨_, rfl, rfl⟩, ⟨_, rfl, rfl⟩⟩

theorem witness_FinishWaitsForTheOutput :
    (running .pack .finishing none).opstate = .run (.prim .pack) 0 ∧
      (running .pack .finishing none).point = .finishing ∧ (running .pack .finishing none).out = [] ∧
      { running .pack .finishing none with out := [0x40] }.out ≠ [] :=
  ⟨rfl, rfl, rfl, by decide⟩

theorem witness_RaiseEntersTheErrorState :
    (running .pack (.raising .noCode 2) none).opstate = .run (.prim .pack) 0 ∧
      (running .pack (.raising .noCode 2) none).point = .raising .noCode 2 ∧
      (running .pack (.raising .noCode 2) none).out = [] ∧
      { running .pack (.raising .noCode 2) none with out := [0x40] }.out ≠ [] :=
  ⟨rfl, rfl, rfl, by decide⟩

/-- After reset no tree, no codes and no header are there, so each of the four preconditions fails. -/
theorem witness_UnmetPreconditionRaisesSequence :
    Ready 2 (host [] (beats 2 ++ wait)) ∧ (host [] (beats 2 ++ wait)).treeKind = .noTree ∧
      (host [] (beats 2 ++ wait)).codesValid = false ∧
      (host [] (beats 2 ++ wait)).hdrParsed = false :=
  ⟨ready_host _ _, rfl, rfl, rfl⟩

theorem witness_ReadsAreExactAndChangeNothing :
    (host [] (rd .nodeChild)).script = .read 32 0x58 :: [] ∧ (0x58#8).toNat % 4 = 0 ∧
      (host [] (rd .nodeChild)).opstate = .idle ∧ 0x58#8 = Reg.nodeChild.offset ∧
      { running .scan .scanRead none with script := rd .status }.script = .read 32 0x08 :: [] ∧
      (0x08#8).toNat % 4 = 0 ∧ 0x08#8 = Reg.status.offset ∧
      Reg.status ∈ [Reg.id, .cmd, .status, .err, .errPos, .irqEn, .sel, .codeWsel, .inCount, .outCount] :=
  ⟨rfl, by decide, rfl, rfl, rfl, by decide, rfl, by decide⟩

theorem witness_ReservedOffsetsReadZeroIgnoreWrites :
    (host [] [.read 32 0x5C]).script = .read 32 0x5C :: [] ∧
      (host [] [.write 32 0xFC 1]).script = .write 32 0xFC 1 :: [] ∧
      0x5C ≤ (0x5C#8).toNat ∧ (0x5C#8).toNat % 4 = 0 ∧ 0x5C ≤ (0xFC#8).toNat ∧ (0xFC#8).toNat % 4 = 0 := by
  refine ⟨rfl, rfl, ?_⟩; decide

theorem witness_RegisterWritesReachOnlyTheirFields :
    (host [] ackDone).script = .write 32 0x08 2 :: [] ∧
      (host [] (wr .irqEn 3)).script = .write 32 0x14 3 :: [] ∧
      (host [] (wr .sel 0x1FF)).script = .write 32 0x3C 0x1FF :: [] ∧
      (host [] (wr .codeWsel 7)).script = .write 32 0x48 7 :: [] ∧
      (host [] (wr .id 1)).script = .write 32 0x00 1 :: [] ∧
      (0x00#8).toNat % 4 = 0 ∧ 0x00#8 ∉ [0x04#8, 0x08#8, 0x14#8, 0x3C#8, 0x48#8] ∧
      (0xFC#8).toNat % 4 = 0 ∧ 0xFC#8 ∉ [0x04#8, 0x08#8, 0x14#8, 0x3C#8, 0x48#8] := by
  refine ⟨rfl, rfl, rfl, rfl, rfl, ?_⟩; decide

/-- No command runs, and each bounded field is at the greatest value of its range. -/
theorem witness_PackedRegistersShowTheirFields :
    (host [] []).opstate = .idle ∧ { host [] [] with nsym := 511 }.nsym < 512 ∧ { host [] [] with nnodes := 1023 }.nnodes < 1024 ∧
      { host [] [] with scanTotal := 2 ^ 32 - 1 }.scanTotal < 2 ^ 32 ∧
      { host [] [] with pbits := 2 ^ 40 - 1 }.pbits < 2 ^ 40 ∧
      symGet { host [] [] with freq := Vector.replicate 256 (2 ^ 32 - 1), sel := 511 }.freq 255 < 2 ^ 32 ∧
      symGet { host [] [] with len := Vector.replicate 256 (2 ^ 32 - 1), sel := 511 }.len 255 < 2 ^ 32 ∧
      (511#9).extractLsb' 0 8 = 255#8 := by
  decide

theorem witness_CodeWordShowsTheCodeMsbFirst : (abCodes [] []).opstate = .idle ∧ 0 < 32 ∧ 31 < 32 :=
  ⟨rfl, by decide, by decide⟩

/-- SEL at the first index with no node, at the last node, and at a leaf. -/
theorem witness_NodeWindowsShowTheSelectedNode :
    (abCodes [] []).opstate = .idle ∧
      { abCodes [] [] with sel := 3 }.nnodes ≤ { abCodes [] [] with sel := 3 }.sel.toNat ∧
      ({ abCodes [] [] with sel := 2 }.sel.toNat < { abCodes [] [] with sel := 2 }.nnodes ∧
        nodeGet (abCodes [] []).node 2 = .internal 2 0 1) ∧
      (abCodes [] []).sel.toNat < (abCodes [] []).nnodes ∧
      nodeGet (abCodes [] []).node 0 = .leaf 0x61 1 :=
  ⟨rfl, by decide, ⟨by decide, abCodes_root⟩, by decide, abCodes_left⟩

theorem witness_OnlyItsOwnWriteOrResetChangesASelection :
    (∃ t, step (host [] (wr .sel 5)) = .next t) ∧ (∀ rest, (host [] (wr .sel 5)).script ≠ .reset :: rest) ∧
      (∀ v rest, (host [] (wr .sel 5)).script ≠ .write 32 0x14 v :: rest) ∧
      (∀ v rest, (host [] (wr .sel 5)).script ≠ .write 32 0x48 v :: rest) ∧
      ∀ v rest, (host [] (wr .codeWsel 5)).script ≠ .write 32 0x3C v :: rest := by
  refine ⟨⟨_, rfl⟩, ?_, ?_, ?_, ?_⟩ <;> intros <;> simp [host, wr, Reg.offset]

theorem witness_ScanCountsThePass :
    Ready 8 (host (streamOf [0x61, 0x62] ++ [.eos]) (beats 8 ++ wait)) ∧
      [0x61#8, 0x62#8].length ≤ (host [] []).params.passLimit ∧ 2 * [0x61#8, 0x62#8].length + 4 ≤ 8 :=
  ⟨ready_host _ _, by decide, by decide⟩

/-- V-SCAN-7: CNT_W = 4 and 16 bytes. -/
theorem witness_ScanOverflowsAtTheFirstByteTooMany :
    Ready 34 (host (bytesIn (List.replicate 15 0x61) ++ .byte 0x0F :: [.eos]) (beats 34 ++ wait)) ∧
      (List.replicate 15 0x61#8).length = (host [] []).params.passLimit ∧
      2 * (List.replicate 15 0x61#8).length + 4 ≤ 34 :=
  ⟨ready_host _ _, by decide, by decide⟩

theorem witness_ExtractMinTakesTheLeastKey :
    [0, 1, 2].Nodup ∧ extractMin (abCodes [] []).node [0, 1, 2] = some (0, [1, 2]) :=
  ⟨by decide, by decide +kernel⟩

theorem witness_BuildMakesTheHuffmanTree : Ready 258 (abCodes [] (beats 258 ++ wait)) :=
  ready_abCodes _ _

theorem witness_GencodeAssignsThePaths :
    Ready 6 (abCodes [] (beats 6 ++ wait)) ∧ holdsTree (abCodes [] (beats 6 ++ wait)) abTree ∧
      abTree.distinct ∧ 2 * abTree.leaves + 2 ≤ 6 :=
  ⟨ready_abCodes _ _, abCodes_holds _ _, abTree_distinct, by decide⟩

theorem witness_EmptyTreeIsNoError :
    (Ready 3 (emptyTree 3) ∧ (emptyTree 3).treeKind = .emptyTree) ∧
      Ready 2 (emptyTree 2) ∧ (emptyTree 2).treeKind = .emptyTree ∧ (emptyTree 2).hdrParsed = true :=
  ⟨⟨ready_emptyTree _, rfl⟩, ready_emptyTree _, rfl, rfl⟩

theorem witness_CodesArePrefixFree :
    Ready 6 (abCodes [] (beats 6 ++ wait)) ∧ holdsTree (abCodes [] (beats 6 ++ wait)) abTree ∧
      abTree.distinct ∧ 2 * abTree.leaves + 2 ≤ 6 ∧ (abCodes [] (beats 6 ++ wait)).treeKind = .multi ∧
      0x61#8 ≠ 0x62#8 ∧ symGet (after .gencode (abCodes [] (beats 6))).len 0x61 ≠ 0 ∧
      symGet (after .gencode (abCodes [] (beats 6))).len 0x62 ≠ 0 :=
  ⟨ready_abCodes _ _, abCodes_holds _ _, abTree_distinct, by decide, rfl, by decide, by decide +kernel,
    by decide +kernel⟩

theorem witness_EmitHeaderOffersTheHeader :
    Ready 10 (abCodes [] (beats 10 ++ wait)) ∧ (abCodes [] (beats 10 ++ wait)).codesValid = true ∧
      holdsTree (abCodes [] (beats 10 ++ wait)) abTree ∧ abTree.bytes.length + 5 ≤ 10 :=
  ⟨ready_abCodes _ _, rfl, abCodes_holds _ _, by decide⟩

theorem witness_EmitHeaderOfEmptyTreeOffersNothing :
    Ready 2 (emptyTree 2) ∧ (emptyTree 2).treeKind = .emptyTree ∧ (emptyTree 2).codesValid = true :=
  ⟨ready_emptyTree _, rfl, rfl⟩

theorem witness_ParseHeaderRebuildsTheTree :
    Ready 17 (host (bytesIn (headerBytes abTree 6) ++ [.eos]) (beats 17 ++ wait)) ∧ abTree.distinct ∧
      2 * (headerBytes abTree 6).length + 3 ≤ 17 :=
  ⟨ready_host _ _, abTree_distinct, by decide⟩

theorem witness_ParseHeaderOfEmptyContainer :
    Ready 5 (host (.eos :: [.eos]) (beats 5 ++ wait)) ∧
      (host (.eos :: [.eos]) (beats 5 ++ wait)).inQ = .eos :: [.eos] := ⟨ready_host _ _, rfl⟩

/-- One item for each cause, at the boundary of its range. -/
theorem witness_MalformedHeaderCauses :
    ((running .parseHeader (.parseMarker 1) (some (.byte 2, 3))).item = some (.byte 2, 3) ∧
      2 ≤ (2#8).toNat) ∧
      ((running .parseHeader .parseFirst (some (.byte 0xFF, 0))).point = .parseFirst ∧
        2 ≤ (0xFF#8).toNat) ∧
      (running .parseHeader (.parseSymbol 0) (some (.eos, 1))).item = some (.eos, 1) ∧
      ((running .parseHeader (.parseSentinel 0) (some (.byte 0xFE, 2))).point = .parseSentinel 0 ∧
        (0xFE#8).toNat ≠ 255) ∧
      ((running .parseHeader (.parsePad 0) (some (.byte 8, 3))).point = .parsePad 0 ∧ 8 ≤ (8#8).toNat) ∧
      symGet { running .parseHeader (.parseSymbol 1) (some (.byte 0x61, 4)) with
        seen := symSet (Vector.replicate 256 false) 0x61 true }.seen 0x61 = true ∧
      (running .parseHeader (.parseMarker 255) (some (.byte 0, 255))).point = .parseMarker 255 :=
  ⟨⟨rfl, by decide⟩, ⟨rfl, by decide⟩, rfl, ⟨rfl, by decide⟩, ⟨rfl, by decide⟩, by decide, rfl⟩

theorem witness_PackOffersThePayload :
    Ready 13 (abCodes (streamOf [0x61, 0x62] ++ [.eos]) (beats 13 ++ wait)) ∧
      (abCodes [] []).codesValid = true ∧ [0x61#8, 0x62#8].length ≤ (abCodes [] []).params.passLimit ∧
      (∀ b ∈ [0x61#8, 0x62#8], symGet (abCodes [] []).len b ≠ 0) ∧
      (codeBits (tableCode (abCodes [] [])) [0x61, 0x62]).length = (abCodes [] []).pbits ∧
      (abCodes [] []).pbits + 3 * [0x61#8, 0x62#8].length + 5 ≤ 13 :=
  ⟨ready_abCodes _ _, rfl, by decide, by decide, by decide, by decide⟩

theorem witness_PackRaisesInTestOrder :
    ((running .pack (.packRead 3 3) (some (.eos, 3))).item = some (.eos, 3) ∧
      3 ≠ (running .pack (.packRead 3 3) (some (.eos, 3))).pbits) ∧
      ((running .pack (.packRead 15 15) (some (.byte 0x61, 15))).point = .packRead 15 15 ∧
        15 = (running .pack (.packRead 15 15) (some (.byte 0x61, 15))).params.passLimit) ∧
      0 ≠ (running .pack (.packRead 0 0) (some (.byte 0x63, 0))).params.passLimit ∧
      symGet (running .pack (.packRead 0 0) (some (.byte 0x63, 0))).len 0x63 = 0 :=
  ⟨⟨rfl, by decide⟩, ⟨rfl, by decide⟩, by decide, by decide⟩

theorem witness_UnpackOffersTheSymbols :
    Ready 17 (abParsed 6 (streamOf [0x40] ++ [.eos]) (beats 17 ++ wait)) ∧
      (abParsed 6 [] []).hdrParsed = true ∧ holdsTree (abParsed 6 [] []) abTree ∧ abTree.distinct ∧
      (∀ x ∈ [0x61#8, 0x62#8], x ∈ abTree.symbols) ∧ [0x40#8] ≠ [] ∧
      (codeBits abTree.code [0x61, 0x62]).length + (abParsed 6 [] []).hdrPad.toNat =
        8 * [0x40#8].length ∧
      PacksTo (codeBits abTree.code [0x61, 0x62]) [0x40] ∧ 11 * [0x40#8].length + 6 ≤ 17 :=
  ⟨ready_abParsed _ _ _, rfl, abParsed_holds _ _ _, abTree_distinct, by decide, by decide, by decide,
    ⟨by decide, by decide⟩, by decide⟩

theorem witness_UnpackFramingErrors :
    ({ running .unpack (.unpackBits 0x80 0 true 0 0) none with treeKind := .leaf, hdrPad := 7 }.treeKind =
        .leaf ∧ 0 < 8 - (7#3).toNat ∧ (0x80#8).getLsbD (7 - 0) = true) ∧
      (8 - (6#3).toNat ≤ 2 ∧
        { running .unpack (.unpackBits 0xC0 0 true 0 2) none with
          hdrPad := 6, wstate := .descending }.wstate = .descending) ∧
      ((running .unpack (.unpackBits 0x40 0 true 0 1) none).wstate = .atRoot ∧ 8 - (7#3).toNat ≤ 1 ∧
        ∃ k < (7#3).toNat, (0x40#8).getLsbD k = true) ∧
      (running .unpack .unpackFirst (some (.eos, 0))).item = some (.eos, 0) :=
  ⟨⟨rfl, by decide, by decide⟩, ⟨by decide, rfl⟩, ⟨rfl, by decide, 6, by decide, by decide⟩, rfl⟩

/-- A pass of one byte and the empty pass; the second state is one with an old tree and codes. -/
theorem witness_CompressOffersTheContainer :
    (Ready 5300 (host (streamOf [0x61] ++ streamOf [0x61] ++ [.eos]) (beats 5300 ++ wait)) ∧
      [0x61#8].length ≤ (host [] []).params.passLimit ∧ 300 * [0x61#8].length + 5000 ≤ 5300 ∧
      [0x61#8] ≠ [] ∧
      Ready 0 (abCodes (streamOf [0x61] ++ streamOf [0x61] ++ []) (beats 0 ++ wait)) ∧
      [0x61#8].length ≤ (abCodes [] []).params.passLimit) ∧
      Ready 5000 (host (streamOf [] ++ streamOf [] ++ [.eos]) (beats 5000 ++ wait)) ∧
      ([] : List Byte).length ≤ (host [] []).params.passLimit ∧
      300 * ([] : List Byte).length + 5000 ≤ 5000 ∧
      Ready 0 (abCodes (streamOf [] ++ streamOf [] ++ []) (beats 0 ++ wait)) ∧
      ([] : List Byte).length ≤ (abCodes [] []).params.passLimit :=
  ⟨⟨ready_host _ _, by decide, by decide, by decide, ready_abCodes _ _, by decide⟩, ready_host _ _,
    by decide, by decide, ready_abCodes _ _, by decide⟩

/-- The empty container, and the container of "ab". -/
theorem witness_DecompressOffersTheSymbols :
    Ready 7 (host (.eos :: [.eos]) (beats 7 ++ wait)) ∧
      Ready 2011 (host (streamOf (headerBytes abTree 6 ++ [0x40]) ++ [.eos]) (beats 2011 ++ wait)) ∧
      abTree.distinct ∧ [0x61#8, 0x62#8] ≠ [] ∧ (∀ x ∈ [0x61#8, 0x62#8], x ∈ abTree.symbols) ∧
      PacksTo (codeBits abTree.code [0x61, 0x62]) [0x40] ∧
      BitVec.ofNat 3 ((8 - (codeBits abTree.code [0x61, 0x62]).length % 8) % 8) = 6#3 ∧
      11 * [0x40#8].length + 2000 ≤ 2011 :=
  ⟨ready_host _ _, ready_host _ _, abTree_distinct, by decide, by decide, ⟨by decide, by decide⟩,
    by decide, by decide⟩

/-- The empty pass: its container is the empty one. -/
theorem witness_DecompressInvertsCompress :
    Ready 5000 (host (streamOf [] ++ streamOf [] ++ [.eos]) (beats 5000 ++ wait)) ∧
      ([] : List Byte).length ≤ (host [] []).params.passLimit ∧
      300 * ([] : List Byte).length + 5000 ≤ 5000 ∧
      Ready 2000 (host (streamOf [] ++ [.eos]) (beats 2000 ++ wait)) ∧
      11 * ([] : List Byte).length + 2000 ≤ 2000 :=
  ⟨ready_host _ _, by decide, by decide, ready_host _ _, by decide⟩

theorem witness_CommandsKeepTheHostsSelections :
    ∃ t, exec .unpack (abParsed 6 (streamOf [0x40]) [.core]) = .next t := ⟨_, rfl⟩

theorem witness_CommandsKeepTheErrorRegistersUnlessTheyRaise :
    ∃ t, exec .nop (host [] []) = .next t ∧ t.err = (host [] []).err ∧ Instr.nop ≠ .clear :=
  ⟨_, rfl, rfl, by decide⟩

theorem witness_CommandsUseOnlyTheirStreams :
    (∃ t, exec .build (host [] []) = .next t) ∧ WorkClean (host [] []) ∧
      (host [] []).opstate = .idle ∧ (host [] []).err = false ∧
      Instr.build ∈ [Instr.nop, .scan, .build, .gencode, .parseHeader] ∧
      Instr.build ∈ [Instr.nop, .build, .gencode, .emitHeader] :=
  ⟨⟨_, rfl⟩, clean_host _ _, rfl, rfl, by decide, by decide⟩

theorem witness_OnlyScanAndClearChangeTheCounts :
    (∃ t, exec .decompress (host [] []) = .next t) ∧ Instr.decompress ∉ [Instr.scan, .compress, .clear] :=
  ⟨⟨_, rfl⟩, by decide⟩

theorem witness_OnlyTreeCommandsChangeTheTree :
    (∃ t, exec .gencode (abCodes [] [.core]) = .next t) ∧
      Instr.gencode ∉ [Instr.build, .parseHeader, .compress, .decompress] ∧
      Instr.gencode ∉ [Instr.build, .parseHeader, .compress, .decompress, .scan, .clear] :=
  ⟨⟨_, rfl⟩, by decide, by decide⟩

theorem witness_OnlyGencodeChangesTheCodeTable :
    (∃ t, exec .pack (abCodes [] [.core]) = .next t) ∧ Instr.pack ∉ [Instr.gencode, .compress] ∧
      Instr.pack ∉ [Instr.gencode, .compress, .clear] ∧
      Instr.pack ∈ [Instr.nop, .emitHeader, .pack, .unpack] ∧ Instr.illegalOpB 1 ∉ commands :=
  ⟨⟨_, rfl⟩, by decide, by decide, by decide, by decide⟩

/-- A step of each clause: a byte taken, an item consumed, a command's run (accepted, refused, CLEAR), and the
host's send, withdrawal and register read. -/
theorem witness_StreamsAreNeverLostOrReordered :
    ((∃ t, step { host [] [.take] with out := [0x40] } = .next t) ∧
      (∀ rest, { host [] [.take] with out := [0x40] }.script ≠ .write 32 0x04 0x00000001 :: rest) ∧
      (∀ rest, { host [] [.take] with out := [0x40] }.script ≠ .reset :: rest) ∧
      { host [] [.take] with out := [0x40] }.script = .take :: []) ∧
      ({ running .scan .scanRead none with inQ := [.eos] }.inQ = .eos :: [] ∧
        (coreTurn { running .scan .scanRead none with inQ := [.eos] }).item = some (.eos, 0)) ∧
      ((∃ t, exec .scan (host [] [.send .eos, .core, .core]) = .next t ∧ t.pos = 1) ∧
        (host [] []).opstate = .idle ∧ (host [] []).err = false ∧ Instr.scan ≠ .clear ∧
        Instr.scan ∉ [Instr.compress, .decompress]) ∧
      ((∃ t, exec .scan (running .scan .scanRead none) = .next t) ∧
        (running .scan .scanRead none).opstate ≠ .idle ∧ ∃ t, exec .clear (host [] []) = .next t) ∧
      (∃ t, step (host [] [.send .eos]) = .next t ∧ t.inQ = [.eos]) ∧
      (∃ t, step (host [.eos] [.withdraw]) = .next t ∧ t.inQ = []) ∧
      (∃ t, step (host [.eos] (rd .status)) = .next t) ∧
      (Event.read 32 0x08).isAccess = true ∧ Event.read 32 0x08 ≠ .withdraw ∧
      ∀ v, Event.read 32 0x08 ≠ .write 32 0x04 v := by
  refine ⟨⟨⟨_, rfl⟩, ?_, ?_, rfl⟩, ⟨rfl, by decide⟩, ⟨⟨_, rfl, rfl⟩, rfl, rfl, by decide, by decide⟩,
    ⟨⟨_, rfl⟩, by decide, ⟨_, rfl⟩⟩, ⟨_, rfl, rfl⟩, ⟨_, rfl, rfl⟩, ⟨_, rfl⟩, rfl, by decide, ?_⟩ <;>
    intros <;> simp [host]

theorem abCodes_below (q : List Item) (es : List Event) :
    RepresentsBelow (abCodes q es).nnodes (abCodes q es).node (abCodes q es).rootIdx abTree :=
  ⟨by show 2 < 3; decide, 2, 0, 1, abCodes_root, ⟨by show 0 < 3; decide, 1, abCodes_left⟩,
    by show 1 < 3; decide, 1, abCodes_right⟩

theorem abCodes_tree (q : List Item) (es : List Event) : TreeState (abCodes q es) := by
  refine ⟨fun _ => ⟨?_, ?_, ?_, ?_⟩, fun h => absurd rfl h⟩
  · refine ⟨rfl, ?_, ?_, rfl, ?_, ?_⟩
    · show 2 ≤ 2; decide
    · show 2 ≤ 256; decide
    · show 2 < 3; decide
    · exact congrArg Node.isLeaf abCodes_root
  · exact fun _ => ⟨abTree, abCodes_holds _ _, abCodes_below _ _, abTree_distinct, rfl⟩
  · intro _; exact TreeKind.noConfusion
  · intro h; cases h

/-- The invariants hold of the state with the "ab" tree, and a step goes on from it. -/
theorem witness_TreeKindAgreesWithTheTree :
    WorkClean (abCodes [] [.core]) ∧ TreeState (abCodes [] [.core]) ∧
      ∃ t, step (abCodes [] [.core]) = .next t :=
  ⟨clean_abCodes _ _, abCodes_tree _ _, ⟨_, rfl⟩⟩

theorem witness_WorkingStateIsEmptyWhenIdle :
    WorkClean (abCodes [] [.core]) ∧ ∃ t, step (abCodes [] [.core]) = .next t :=
  ⟨clean_abCodes _ _, ⟨_, rfl⟩⟩

theorem witness_CountsNeverWrap :
    CountsBounded (abCodes [] [.core]) ∧ (∃ t, step (abCodes [] [.core]) = .next t) ∧
      WorkClean (abCodes [] [.core]) ∧ TreeState (abCodes [] [.core]) ∧
      ValuesBounded (abCodes [] [.core]) := by
  refine ⟨⟨by decide +kernel, by decide⟩, ⟨_, rfl⟩, clean_abCodes _ _, abCodes_tree _ _, ?_⟩
  refine ⟨?_, by decide, ?_, fun e => ?_, fun e => ?_⟩
  · decide +kernel
  · show ∀ k < 3, _; decide +kernel
  · cases e
  · cases e

theorem witness_ErrorAndBusyNeverHoldTogether :
    ErrorState { host [] [.core] with err := true, cause := .sequence } ∧
      ∃ t, step { host [] [.core] with err := true, cause := .sequence } = .next t :=
  ⟨⟨fun _ => rfl, by decide, fun _ => Point.noConfusion⟩, ⟨_, rfl⟩⟩

theorem witness_OutputBufferNeverOverflows :
    outputBounded { host [] [.core] with out := [0x40] } ∧
      ∃ t, step { host [] [.core] with out := [0x40] } = .next t :=
  ⟨by show 1 ≤ 0 + 1; decide, ⟨_, rfl⟩⟩

end Sys2Proof.Tests
end

section
/-! Proofs of the scope family (00_scope.md): the run of a command word and the single steps it is made of. -/

namespace Sys2Proof.Machine

/-- An agent's turn, in one run and as a step of its own: both make the same change, and the step counts one more
(R6). -/
theorem agentTurn_drive_step (e : Event) (h : e.isAccess = false) :
    ∃ turn : State → State, (∀ es s, drive (e :: es) s = drive es (turn s)) ∧
      ∀ es n s, step (side (e :: es) n s) = .next (side es (n + 1) (turn s)) := by
  cases e with
  | core => exact ⟨coreTurn, fun _ _ => rfl, fun es n s => congrArg _ (coreTurn_side s es (n + 1))⟩
  | take => exact ⟨sinkTurn, fun _ _ => rfl, fun es n s => congrArg _ (sinkTurn_side s es (n + 1))⟩
  | send it =>
    exact ⟨sendItem it, fun _ _ => rfl, fun es n s => congrArg _ (sendItem_side it s es (n + 1))⟩
  | write w off v => cases h
  | read w off => cases h
  | withdraw => cases h
  | reset => cases h
  | poll c => cases h

/-- Turns taken one step at a time lead where `drive` leads (log entry 7). -/
theorem runSteps_agentTurns (ran rest : List Event) (hran : ∀ e ∈ ran, e.isAccess = false)
    (hrest : hostNext rest = true) (n : Nat) (s : State) :
    runSteps ran.length (side (ran ++ rest) n s) =
      some { drive (ran ++ rest) s with ticks := n + ran.length } := by
  induction ran generalizing n s with
  | nil => simp [drive_hostNext rest s hrest, runSteps, side]
  | cons e ran ih =>
    obtain ⟨turn, hdrive, hstep⟩ := agentTurn_drive_step e (hran e (by simp))
    have hnext := ih (fun e' he' => hran e' (by simp [he'])) (n + 1) (turn s)
    simp only [List.length_cons, List.cons_append, runSteps, hstep, hdrive, hnext]
    rw [Nat.add_assoc, Nat.add_comm 1]

/-- The write of a command word is `exec` of its instruction with no turns, and the script goes on after it
(R310). -/
theorem step_commandWrite {s t : State} {v : Word} {es : List Event}
    (hs : s.script = .write 32 0x04 v :: es)
    (ht : exec (decode v) (side [] (s.ticks + 1) s) = .next t) :
    step s = .next { t with script := es } := by
  have hturn : step s = commandTurn v (side es (s.ticks + 1) s) := by
    simp only [step, stepScript, hs]
    rfl
  have hexec : exec (decode v) { side es (s.ticks + 1) s with script := [] } = .next t := ht
  rw [hturn, commandTurn, hexec]
  rfl

/-- The commands other than NOP and CLEAR are accepted and then run through the turns that the script gives
(R310). -/
theorem exec_eq_runCommand {i : Instr} (h : i ∈ commands ∧ i ∉ [.nop, .clear]) :
    ∃ op, ∀ s, exec i s = .next (runCommand op s) := by
  cases i with
  | nop => exact absurd h (by decide)
  | clear => exact absurd h (by decide)
  | scan => exact ⟨.prim .scan, fun _ => rfl⟩
  | build => exact ⟨.prim .build, fun _ => rfl⟩
  | gencode => exact ⟨.prim .gencode, fun _ => rfl⟩
  | emitHeader => exact ⟨.prim .emitHeader, fun _ => rfl⟩
  | pack => exact ⟨.prim .pack, fun _ => rfl⟩
  | parseHeader => exact ⟨.prim .parseHeader, fun _ => rfl⟩
  | unpack => exact ⟨.prim .unpack, fun _ => rfl⟩
  | compress => exact ⟨.compress, fun _ => rfl⟩
  | decompress => exact ⟨.decompress, fun _ => rfl⟩
  | illegalOpB rsv => simp [commands] at h
  | illegalOpCtoF lo rsv => simp [commands] at h
  | illegalReserved op rsv => simp [commands] at h

theorem runCommand_of_accepting (op : Op) (s : State) (h : s.accepting = true) :
    runCommand op s = drive s.script (accept op s) := if_pos h

/-- A refused command word is not run, so that the script does not matter. -/
theorem runCommand_of_not_accepting (op : Op) (s : State) (h : ¬ s.accepting = true) :
    runCommand op s = refuseCommand s := if_neg h

theorem illegalCommand_side (op : BitVec 4) (es : List Event) (n : Nat) (s : State) :
    illegalCommand op (side es n s) = side es n (illegalCommand op s) := by
  simp only [illegalCommand, ite_side]
  rfl

theorem execNop_side (es : List Event) (n : Nat) {s t : State} (ht : execNop s = .next t) :
    execNop (side es n s) = .next (side es n t) := by
  cases ht
  rw [ite_side, ← coreTurn_side, ← coreTurn_side]
  rfl

/-- An instruction that lets no turn follow its write does the same under every script: CLEAR, NOP, an illegal
word (R112, R312, R313), and a word that is refused (R310). -/
theorem exec_side {i : Instr} {s t : State}
    (h : ¬ (s.accepting = true ∧ i ∈ commands ∧ i ∉ [.nop, .clear])) (es : List Event) (n : Nat)
    (ht : exec i s = .next t) : exec i (side es n s) = .next (side es n t) := by
  by_cases hi : i ∈ commands ∧ i ∉ [.nop, .clear]
  · obtain ⟨op, hop⟩ := exec_eq_runCommand hi
    have hrefused : ¬ s.accepting = true := fun ha => h ⟨ha, hi⟩
    rw [hop, runCommand_of_not_accepting op s hrefused] at ht
    rw [hop, runCommand_of_not_accepting op (side es n s) hrefused]
    cases ht
    rfl
  · cases i with
    | nop => exact execNop_side es n ht
    | clear => cases ht; rfl
    | illegalOpB rsv => cases ht; exact congrArg _ (illegalCommand_side _ es n s)
    | illegalOpCtoF lo rsv => cases ht; exact congrArg _ (illegalCommand_side _ es n s)
    | illegalReserved op rsv => cases ht; exact congrArg _ (illegalCommand_side _ es n s)
    | _ => exact absurd (by decide) hi

/-- The write of an accepted command is its acceptance, with every turn still in the script (R6, R310). -/
theorem step_acceptedWrite {s : State} {v : Word} {es : List Event} {op : Op}
    (hs : s.script = .write 32 0x04 v :: es) (ha : s.accepting = true)
    (hop : ∀ u, exec (decode v) u = .next (runCommand op u)) :
    step s = .next (side es (s.ticks + 1) (accept op s)) :=
  step_commandWrite hs ((hop _).trans (congrArg _ (runCommand_of_accepting op (side [] _ s) ha)))

/-- Settles O6: the acceptance is the first step, and `runSteps_agentTurns` takes the turns after it; every other
word leaves the script to the steps that follow (`exec_side`). -/
theorem execIsTheRunOfItsSteps : Obligations.ExecIsTheRunOfItsSteps := by
  intro s v ran rest hs hran hrest
  obtain ⟨t, ht⟩ := exec_next (decode v) { s with script := ran ++ rest }
  refine ⟨t, ht, fun ⟨hidle, herr, hcmd⟩ => ?accepted, fun hother => ?oneStep⟩
  case accepted =>
    have ha : s.accepting = true := (accepting_iff s).mpr ⟨hidle, herr⟩
    obtain ⟨op, hop⟩ := exec_eq_runCommand hcmd
    have hrun := runCommand_of_accepting op { s with script := ran ++ rest } ha
    rw [hop, hrun] at ht
    cases ht
    have hturns := runSteps_agentTurns ran rest hran hrest (s.ticks + 1)
      (accept op { s with script := ran ++ rest })
    rw [Nat.add_assoc, Nat.add_comm 1] at hturns
    simp only [runSteps, step_acceptedWrite hs ha hop]
    exact hturns
  case oneStep =>
    have hnot : ¬ (State.accepting { s with script := ran ++ rest } = true ∧
        decode v ∈ commands ∧ decode v ∉ [.nop, .clear]) := by
      rwa [accepting_iff, and_assoc]
    have hfirst : exec (decode v) (side [] (s.ticks + 1) s) = .next (side [] (s.ticks + 1) t) :=
      exec_side hnot [] (s.ticks + 1) ht
    have hscript : t.script = ran ++ rest := by
      have hsame := exec_side hnot (ran ++ rest) s.ticks ht
      exact congrArg State.script (Host.Outcome.next.inj (ht.symm.trans hsame))
    rw [step_commandWrite hs hfirst, ← hscript]
    rfl

end Sys2Proof.Machine
end

section
/-! Proofs of the state family (10_state.md): the turns that write no result. Every turn of the core moves the running
rule on, and most of them do nothing else: said here once, for all statements of the family. -/

namespace Sys2Proof.Machine

/-- A place in a rule at which the tree state is as in an IDLE state: no tree is being made and none is needed. -/
def Point.rests : Point → Bool
  | .atStart | .scanRead | .emitNode | .emitSymbol _ | .emitSentinel | .emitPad | .packRead _ _
  | .packBits _ _ _ _ | .packFlush | .unpackFirst | .unpackNext _ | .unpackBits _ _ _ _ _ | .finishing
  | .raising _ _ => true
  | .buildMerge | .genWalk | .parseFirst | .parseMarker _ | .parseSymbol _ | .parseSentinel _ | .parsePad _
  | .parseDone => false

/-- The state without the place in the rule, the streams' ends, the bit channel and the decode walk. -/
def blankFlow (s : State) : State :=
  { s with
    opstate := .idle, point := .atStart, pos := 0, item := none, inCount := 0, inQ := [], out := [],
    look := none, acc := 0, nacc := 0, cur := 0, wstate := .atRoot }

/-- A running rule moves on from s to t and writes nothing but what `blankFlow` leaves out. -/
structure Quiet (s t : State) : Prop where
  kept : blankFlow t = blankFlow s
  runs : s.opstate ≠ .idle → t.opstate ≠ .idle
  place : t.point.rests = true ∨ t.point = s.point

theorem Quiet.refl (s : State) : Quiet s s := ⟨rfl, id, .inr rfl⟩

theorem Quiet.trans {s t u : State} (h : Quiet s t) (h' : Quiet t u) : Quiet s u :=
  ⟨h'.kept.trans h.kept, fun hs => h'.runs (h.runs hs),
    h'.place.elim .inl fun e => h.place.imp (e ▸ ·) e.trans⟩

theorem Quiet.finish {u s : State} (h : Quiet u s) : Quiet u (finish s) := by
  rcases finish_cases s with ⟨_, e⟩ | ⟨op, ph, _, _, e⟩ | ⟨op, ph, _, _, e⟩ <;> rw [e]
  · exact h
  · exact h.trans ⟨rfl, fun _ => OpState.noConfusion, .inl rfl⟩
  · exact h.trans ⟨rfl, id, .inl rfl⟩

theorem Quiet.raise (c : Cause) (p : Nat) (s : State) : Quiet s (raise c p s) := ⟨rfl, id, .inl rfl⟩

theorem Quiet.offer {b : Byte} {k : State → State} {s u : State} (hs : Quiet u s)
    (hk : ∀ t, Quiet u t → Quiet u (k t)) : Quiet u (offer b k s) := by
  rcases offer_cases b k s with ⟨_, e⟩ | ⟨_, e⟩ <;> rw [e]
  · exact hs
  · exact hk _ (hs.trans ⟨rfl, id, .inr rfl⟩)

/-- `InRead` waits where it is, or the rule acts on the item. -/
theorem awaitItem_quiet (k : Item → Nat → State → State) (s : State) :
    (Quiet s (awaitItem k s) ∧ (awaitItem k s).point = s.point) ∨
      ∃ it ipos, awaitItem k s = k it ipos { s with item := none } := by
  rcases awaitItem_cases k s with ⟨_, _, e⟩ | ⟨it, q, _, _, e⟩ | ⟨it, ipos, _, e⟩ <;> rw [e]
  · exact .inl ⟨.refl s, rfl⟩
  · exact .inl ⟨⟨rfl, id, .inr rfl⟩, rfl⟩
  · exact .inr ⟨it, ipos, rfl⟩

/-- A reading turn is quiet when what the rule does with the item is. -/
theorem Quiet.awaitItem {k : Item → Nat → State → State} {s : State}
    (hk : ∀ it ipos t, Quiet s t → Quiet s (k it ipos t)) : Quiet s (awaitItem k s) := by
  rcases awaitItem_quiet k s with ⟨h, _⟩ | ⟨it, ipos, e⟩
  · exact h
  · rw [e]; exact hk it ipos _ ⟨rfl, id, .inr rfl⟩

/-! ## PACK, UNPACK and the single bytes of EMIT_HEADER -/

theorem packStart_quiet (s : State) : Quiet s (packStart s) := by
  unfold packStart
  split
  · exact .raise _ _ s
  · exact ⟨rfl, id, .inl rfl⟩

theorem packItem_quiet (n nb : Nat) (it : Item) (ipos : Nat) (s : State) :
    Quiet s (packItem n nb it ipos s) := by
  cases it <;> simp only [packItem] <;> (repeat' split) <;> exact ⟨rfl, id, .inl rfl⟩

theorem putBit_quiet {x : Bool} {k : State → State} {s : State} (hk : ∀ t, Quiet s t → Quiet s (k t)) :
    Quiet s (putBit x k s) := by
  unfold putBit
  split
  · exact .offer (.refl s) fun t ht => hk _ (ht.trans ⟨rfl, id, .inr rfl⟩)
  · exact hk _ ⟨rfl, id, .inr rfl⟩

theorem packBits_quiet (b : Byte) (j n nb : Nat) (s : State) : Quiet s (packBits b j n nb s) := by
  unfold packBits
  split
  · exact putBit_quiet fun t ht => ht.trans ⟨rfl, id, .inl rfl⟩
  · exact ⟨rfl, id, .inl rfl⟩

theorem packFlush_quiet (s : State) : Quiet s (packFlush s) := by
  have hflush : ∀ t, Quiet s t → Quiet s (flushed t) := fun t ht =>
    .finish (ht.trans ⟨rfl, id, .inr rfl⟩)
  unfold packFlush
  split
  · exact hflush s (.refl s)
  · exact .offer (.refl s) hflush

theorem unpackStart_quiet (s : State) : Quiet s (unpackStart s) := by
  unfold unpackStart
  (repeat' split)
  · exact .raise _ _ s
  · exact .finish (.refl s)
  · exact ⟨rfl, id, .inl rfl⟩

theorem unpackFirst_quiet (it : Item) (ipos : Nat) (s : State) : Quiet s (unpackFirst it ipos s) := by
  cases it <;> exact ⟨rfl, id, .inl rfl⟩

theorem unpackNext_quiet (lpos : Nat) (it : Item) (ipos : Nat) (s : State) :
    Quiet s (unpackNext lpos it ipos s) := by
  cases it <;> exact ⟨rfl, id, .inl rfl⟩

theorem walkBit_quiet {x : Bool} {p : Nat} {k : State → State} {s : State}
    (hk : ∀ t, Quiet s t → Quiet s (k t)) : Quiet s (walkBit x p k s) := by
  unfold walkBit
  (repeat' split)
  · exact .raise _ _ s
  · exact .offer (.refl s) hk
  · exact .offer (.refl s) fun t ht => hk _ (ht.trans ⟨rfl, id, .inr rfl⟩)
  · exact hk _ ⟨rfl, id, .inr rfl⟩

theorem unpackEnd_quiet {u s : State} (h : Quiet u s) (c : Byte) (cpos : Nat) :
    Quiet u (unpackEnd c cpos s) := by
  unfold unpackEnd
  (repeat' split)
  · exact h.trans (.raise _ _ s)
  · exact h.trans (.raise _ _ s)
  · exact .finish (h.trans ⟨rfl, id, .inr rfl⟩)

theorem unpackBits_quiet (c : Byte) (cpos : Nat) (last : Bool) (lpos j : Nat) (s : State) :
    Quiet s (unpackBits c cpos last lpos j s) := by
  unfold unpackBits
  (repeat' split)
  · exact walkBit_quiet fun t ht => ht.trans ⟨rfl, id, .inl rfl⟩
  · refine unpackEnd_quiet ?_ c cpos
    exact ⟨rfl, id, .inr rfl⟩
  · exact ⟨rfl, id, .inl rfl⟩

/-! ## EMIT_HEADER -/

theorem emitStart_quiet (s : State) :
    Quiet s (emitStart s) ∨
      emitStart s = { s with stack := [.ser s.rootIdx], point := .emitNode } := by
  unfold emitStart
  (repeat' split)
  · exact .inl (.raise _ _ s)
  · exact .inl (.finish (.refl s))
  · exact .inr rfl

/-- A step of the traversal writes STACK, and leaves the traversal with STACK empty. -/
theorem emitNode_quiet (s : State) (hpt : s.point = .emitNode) :
    ∃ st, Quiet { s with stack := st } (emitNode s) ∧
      ((emitNode s).point.usesStack = true ∨ st = []) := by
  have hold : s.point.usesStack = true := by rw [hpt]; rfl
  unfold emitNode
  split
  next hnil => exact ⟨[], by rw [← hnil]; exact ⟨rfl, id, .inl rfl⟩, .inr rfl⟩
  next i rest _ =>
    unfold serNode
    split
    next b w _ =>
      rcases offer_cases leafMarker
        (fun t => { t with stack := rest, point := .emitSymbol b }) s with ⟨_, e⟩ | ⟨_, e⟩ <;> rw [e]
      · exact ⟨s.stack, .refl s, .inl hold⟩
      · exact ⟨rest, ⟨rfl, id, .inl rfl⟩, .inl rfl⟩
    next w l r _ =>
      rcases offer_cases internalMarker
        (fun t => { t with stack := .ser l :: .ser r :: rest }) s with ⟨_, e⟩ | ⟨_, e⟩ <;> rw [e]
      · exact ⟨s.stack, .refl s, .inl hold⟩
      · exact ⟨.ser l :: .ser r :: rest, ⟨rfl, id, .inr rfl⟩, .inl hold⟩
  all_goals exact ⟨_, .refl _, .inl hold⟩

theorem emitSymbol_quiet (b : Byte) (s : State) : Quiet s (emitSymbol b s) :=
  .offer (.refl s) fun _ ht => ht.trans ⟨rfl, id, .inl rfl⟩

theorem emitSentinel_quiet (s : State) : Quiet s (emitSentinel s) :=
  .offer (.refl s) fun _ ht => ht.trans ⟨rfl, id, .inl rfl⟩

theorem emitPad_quiet (s : State) : Quiet s (emitPad s) := .offer (.refl s) fun _ ht => .finish ht

/-! ## The places whose turns are quiet -/

/-- A place at which the rule's turn is quiet whatever the state is. -/
def Point.isQuiet : Point → Bool
  | .emitSymbol _ | .emitSentinel | .emitPad | .packRead _ _ | .packBits _ _ _ _ | .packFlush
  | .unpackFirst | .unpackNext _ | .unpackBits _ _ _ _ _ => true
  | .atStart | .scanRead | .buildMerge | .genWalk | .emitNode | .parseFirst | .parseMarker _
  | .parseSymbol _ | .parseSentinel _ | .parsePad _ | .parseDone | .finishing | .raising _ _ => false

theorem pointTurn_quiet (p : Prim) {pt : Point} (s : State) (h : pt.isQuiet = true) :
    Quiet s (pointTurn p pt s) := by
  cases pt with
  | emitSymbol b => exact emitSymbol_quiet b s
  | emitSentinel => exact emitSentinel_quiet s
  | emitPad => exact emitPad_quiet s
  | packRead n nb => exact .awaitItem fun it ipos t ht => ht.trans (packItem_quiet n nb it ipos t)
  | packBits b j n nb => exact packBits_quiet b j n nb s
  | packFlush => exact packFlush_quiet s
  | unpackFirst => exact .awaitItem fun it ipos t ht => ht.trans (unpackFirst_quiet it ipos t)
  | unpackNext lpos => exact .awaitItem fun it ipos t ht => ht.trans (unpackNext_quiet lpos it ipos t)
  | unpackBits c cpos last lpos j => exact unpackBits_quiet c cpos last lpos j s
  | _ => exact absurd h Bool.false_ne_true

end Sys2Proof.Machine
end

section
/-! Proofs of the state family (10_state.md): the working state is empty where no rule uses it (R57, R59 to R61,
R63). -/

namespace Sys2Proof.Machine

/-! ## PQ and STACK while a command runs -/

theorem Quiet.pq {s t : State} (h : Quiet s t) : t.pq = s.pq :=
  show (blankFlow t).pq = (blankFlow s).pq from congrArg State.pq h.kept

theorem Quiet.stack {s t : State} (h : Quiet s t) : t.stack = s.stack :=
  show (blankFlow t).stack = (blankFlow s).stack from congrArg State.stack h.kept

/-- A command runs, and PQ and STACK are empty, as they are outside BUILD's merge loop and the traversals (R57,
R61). -/
structure Stowed (s : State) : Prop where
  runs : s.opstate ≠ .idle
  pq : s.pq = []
  stack : s.stack = []

theorem Stowed.workClean {s : State} (h : Stowed s) : WorkClean s :=
  ⟨fun _ => h.pq, fun _ => h.stack, fun hidle => absurd hidle h.runs⟩

theorem Stowed.workClean_of_quiet {s t : State} (h : Stowed s) (hq : Quiet s t) : WorkClean t :=
  Stowed.workClean ⟨hq.runs h.runs, hq.pq.trans h.pq, hq.stack.trans h.stack⟩

theorem Stowed.finish {s : State} (h : Stowed s) : WorkClean (finish s) :=
  h.workClean_of_quiet (.finish (.refl s))

theorem Stowed.awaitItem {k : Item → Nat → State → State} {s : State} (h : Stowed s)
    (hk : ∀ it ipos t, Stowed t → WorkClean (k it ipos t)) : WorkClean (awaitItem k s) := by
  rcases awaitItem_quiet k s with ⟨hq, _⟩ | ⟨it, ipos, e⟩
  · exact h.workClean_of_quiet hq
  · rw [e]; exact hk it ipos _ ⟨h.runs, h.pq, h.stack⟩

/-- A command runs at a place whose rule uses STACK, and PQ is empty (R57, R61). -/
structure Walking (s : State) : Prop where
  runs : s.opstate ≠ .idle
  pq : s.pq = []
  uses : s.point.usesStack = true

theorem Walking.workClean {s : State} (h : Walking s) : WorkClean s :=
  ⟨fun _ => h.pq, fun hno => by simp [h.uses] at hno, fun hidle => absurd hidle h.runs⟩

theorem Walking.awaitItem {k : Item → Nat → State → State} {s : State} (h : Walking s)
    (hk : ∀ it ipos t, Walking t → WorkClean (k it ipos t)) : WorkClean (awaitItem k s) := by
  rcases awaitItem_quiet k s with ⟨hq, hpt⟩ | ⟨it, ipos, e⟩
  · exact Walking.workClean ⟨hq.runs h.runs, hq.pq.trans h.pq, hpt ▸ h.uses⟩
  · rw [e]; exact hk it ipos _ ⟨h.runs, h.pq, h.uses⟩

/-! ## The rules' turns -/

theorem workClean_startTurn (p : Prim) {s : State} (h : Stowed s) : WorkClean (startTurn p s) := by
  cases p with
  | nop => exact h.finish
  | scan => exact Stowed.workClean ⟨h.runs, h.pq, h.stack⟩
  | build => exact ⟨fun hpt => absurd rfl hpt, fun _ => h.stack, fun hidle => absurd hidle h.runs⟩
  | gencode =>
    simp only [startTurn, genStart]
    split
    · exact h.workClean_of_quiet (.raise _ _ s)
    all_goals exact Walking.workClean ⟨h.runs, h.pq, rfl⟩
  | emitHeader =>
    rcases emitStart_quiet s with hq | e
    · exact h.workClean_of_quiet hq
    · rw [startTurn, e]
      exact Walking.workClean ⟨h.runs, h.pq, rfl⟩
  | pack => exact h.workClean_of_quiet (packStart_quiet s)
  | parseHeader => exact Stowed.workClean ⟨h.runs, h.pq, h.stack⟩
  | unpack => exact h.workClean_of_quiet (unpackStart_quiet s)

theorem workClean_scanItem (it : Item) (ipos : Nat) {s : State} (h : Stowed s) :
    WorkClean (scanItem it ipos s) := by
  cases it with
  | eos => exact h.finish
  | byte b => simp only [scanItem]; split <;> exact Stowed.workClean ⟨h.runs, h.pq, h.stack⟩

/-- BUILD leaves its merge loop with PQ empty (R57, R175). -/
theorem workClean_buildMerge {s : State} (hr : s.opstate ≠ .idle) (hpt : s.point = .buildMerge)
    (hst : s.stack = []) : WorkClean (buildMerge s) := by
  unfold buildMerge
  split
  next hnone => exact Stowed.finish ⟨hr, extractMin_none _ _ hnone, hst⟩
  next l pq1 _ =>
    split
    · exact Stowed.finish ⟨hr, rfl, hst⟩
    · exact ⟨fun hne => absurd hpt hne, fun _ => hst, fun hidle => absurd hidle hr⟩

theorem workClean_genWalk {s : State} (h : Walking s) : WorkClean (genWalk s) := by
  unfold genWalk
  split
  next hnil => exact Stowed.finish ⟨h.runs, h.pq, hnil⟩
  next i p rest _ =>
    unfold assignNode
    split <;> exact Walking.workClean ⟨h.runs, h.pq, h.uses⟩
  all_goals exact Walking.workClean ⟨h.runs, h.pq, h.uses⟩

theorem workClean_emitNode {s : State} (h : Walking s) (hpt : s.point = .emitNode) :
    WorkClean (emitNode s) := by
  obtain ⟨st, hq, huses | rfl⟩ := emitNode_quiet s hpt
  · exact Walking.workClean ⟨hq.runs h.runs, hq.pq.trans h.pq, huses⟩
  · have hst : Stowed { s with stack := [] } := ⟨h.runs, h.pq, rfl⟩
    exact hst.workClean_of_quiet hq

theorem workClean_emitSymbol {b : Byte} {s : State} (h : Walking s) : WorkClean (emitSymbol b s) := by
  rcases offer_cases b (fun t => { t with point := .emitNode }) s with ⟨_, e⟩ | ⟨_, e⟩ <;>
    rw [emitSymbol, e]
  · exact h.workClean
  · exact Walking.workClean ⟨h.runs, h.pq, rfl⟩

/-- A marker leads to a place that uses STACK, an error one too. -/
theorem workClean_parseMarker (nint : Nat) (it : Item) (ipos : Nat) {s : State}
    (hr : s.opstate ≠ .idle) (hq : s.pq = []) : WorkClean (parseMarker nint it ipos s) := by
  cases it <;> simp only [parseMarker, parseInternal] <;> (repeat' split) <;>
    exact Walking.workClean ⟨hr, hq, rfl⟩

theorem workClean_parseFirst (it : Item) (ipos : Nat) {s : State} (h : Stowed s) :
    WorkClean (parseFirst it ipos s) := by
  cases it with
  | eos => exact Stowed.workClean ⟨h.runs, h.pq, h.stack⟩
  | byte m => exact workClean_parseMarker 0 (.byte m) ipos h.runs h.pq

/-- The last leaf's return leaves STACK empty (R223). -/
theorem workClean_parseSymbol (nint : Nat) (it : Item) (ipos : Nat) {s : State} (h : Walking s) :
    WorkClean (parseSymbol nint it ipos s) := by
  cases it with
  | eos => exact Walking.workClean ⟨h.runs, h.pq, rfl⟩
  | byte b =>
    simp only [parseSymbol, parseLeaf]
    split
    · exact Walking.workClean ⟨h.runs, h.pq, rfl⟩
    · split
      next hroot => exact Stowed.workClean ⟨h.runs, h.pq, returnSubtree_root _ _ _ _ _ _ hroot⟩
      next => exact Walking.workClean ⟨h.runs, h.pq, rfl⟩

theorem workClean_parseSentinel (root : Nat) (it : Item) (ipos : Nat) {s : State} (h : Stowed s) :
    WorkClean (parseSentinel root it ipos s) := by
  cases it <;> simp only [parseSentinel] <;> (repeat' split) <;>
    exact Stowed.workClean ⟨h.runs, h.pq, h.stack⟩

theorem workClean_parsePad (root : Nat) (it : Item) (ipos : Nat) {s : State} (h : Stowed s) :
    WorkClean (parsePad root it ipos s) := by
  cases it <;> simp only [parsePad] <;> (repeat' split) <;>
    exact Stowed.workClean ⟨h.runs, h.pq, h.stack⟩

/-- A command that has ended leaves nothing behind (R311, R342). -/
theorem workClean_settle {s : State} (hout : s.out.isEmpty = true) (hq : s.pq = []) :
    WorkClean (settle s) :=
  ⟨fun _ => hq, fun _ => rfl,
    fun _ => ⟨rfl, rfl, rfl, rfl, rfl, rfl, rfl, List.isEmpty_iff.1 hout⟩⟩

theorem workClean_finishTurn {s : State} (h : Stowed s) : WorkClean (finishTurn s) := by
  unfold finishTurn
  split
  next hout =>
    obtain ⟨hpq, hstack, hidle⟩ := workClean_settle hout h.pq
    exact ⟨hpq, hstack, hidle⟩
  next => exact h.workClean

theorem workClean_raiseTurn (prim : Prim) (c : Cause) (p : Nat) {s : State} (h : Walking s) :
    WorkClean (raiseTurn prim c p s) := by
  unfold raiseTurn
  split
  next hout =>
    obtain ⟨_, hstack, hidle⟩ := workClean_settle hout h.pq
    exact ⟨fun _ => rfl, hstack, hidle⟩
  next => exact h.workClean

/-- The core's turn keeps the working state clean: the rule at each place is told by whether it uses STACK. -/
theorem workClean_coreTurn {s : State} (h : WorkClean s) : WorkClean (coreTurn s) := by
  unfold coreTurn
  split
  · exact h
  next op ph hop =>
    have hr : s.opstate ≠ .idle := by rw [hop]; exact OpState.noConfusion
    have stowed : s.point ≠ .buildMerge → s.point.usesStack = false → Stowed s := fun hne hno =>
      ⟨hr, h.pq hne, h.stack hno⟩
    have walking : s.point ≠ .buildMerge → s.point.usesStack = true → Walking s := fun hne huses =>
      ⟨hr, h.pq hne, huses⟩
    cases hpt : s.point <;> rw [hpt] at stowed walking
    case buildMerge => exact workClean_buildMerge hr hpt (h.stack (by rw [hpt]; rfl))
    case genWalk => exact workClean_genWalk (walking nofun rfl)
    case emitNode => exact workClean_emitNode (walking nofun rfl) hpt
    case emitSymbol => exact workClean_emitSymbol (walking nofun rfl)
    case parseMarker =>
      exact (walking nofun rfl).awaitItem fun it ipos t ht => workClean_parseMarker _ it ipos ht.runs ht.pq
    case parseSymbol =>
      exact (walking nofun rfl).awaitItem fun it ipos t ht => workClean_parseSymbol _ it ipos ht
    case raising => exact workClean_raiseTurn _ _ _ (walking nofun rfl)
    all_goals have hst : Stowed s := stowed nofun rfl
    case atStart => exact workClean_startTurn _ hst
    case scanRead => exact hst.awaitItem fun it ipos t ht => workClean_scanItem it ipos ht
    case parseFirst => exact hst.awaitItem fun it ipos t ht => workClean_parseFirst it ipos ht
    case parseSentinel => exact hst.awaitItem fun it ipos t ht => workClean_parseSentinel _ it ipos ht
    case parsePad => exact hst.awaitItem fun it ipos t ht => workClean_parsePad _ it ipos ht
    case parseDone => exact Stowed.finish ⟨hst.runs, hst.pq, hst.stack⟩
    case finishing => exact workClean_finishTurn hst
    all_goals exact hst.workClean_of_quiet (pointTurn_quiet _ s rfl)

/-! ## The other transactions -/

theorem workClean_sinkTurn {s : State} (h : WorkClean s) : WorkClean (sinkTurn s) := by
  rcases sinkTurn_cases s with ⟨_, e⟩ | ⟨b, rest, hout, e⟩ <;> rw [e]
  · exact h
  · refine ⟨h.pq, h.stack, fun hidle => ?_⟩
    obtain ⟨_, _, _, _, _, _, _, hnone⟩ := h.idle hidle
    simp [hnone] at hout

theorem workClean_illegal (op : BitVec 4) {s : State} (h : WorkClean s) (ha : s.accepting = true) :
    WorkClean (enterError .illegalCmd op 0 (acceptWord op s)) := by
  obtain ⟨_, _, _, _, _, _, _, hout⟩ := h.idle ((accepting_iff s).1 ha).1
  exact ⟨fun _ => rfl, fun _ => rfl, fun _ => ⟨rfl, rfl, rfl, rfl, rfl, rfl, rfl, hout⟩⟩

theorem workClean_closed : StepClosed WorkClean where
  script _ _ h := ⟨h.pq, h.stack, h.idle⟩
  ticks _ _ h := ⟨h.pq, h.stack, h.idle⟩
  log _ _ h := ⟨h.pq, h.stack, h.idle⟩
  core _ h := workClean_coreTurn h
  sink _ h := workClean_sinkTurn h
  send _ _ h := ⟨h.pq, h.stack, h.idle⟩
  withdraw _ h := ⟨h.pq, h.stack, h.idle⟩
  accept op s h ha := by
    obtain ⟨hpt, _⟩ := h.idle ((accepting_iff s).1 ha).1
    exact Stowed.workClean ⟨OpState.noConfusion, h.pq (by rw [hpt]; exact Point.noConfusion),
      h.stack (by rw [hpt]; rfl)⟩
  illegal op _ h ha := workClean_illegal op h ha
  refuse _ h := ⟨h.pq, h.stack, h.idle⟩
  clear _ _ := ⟨fun _ => rfl, fun _ => rfl, fun _ => ⟨rfl, rfl, rfl, rfl, rfl, rfl, rfl, rfl⟩⟩
  reset _ _ := ⟨fun _ => rfl, fun _ => rfl, fun _ => ⟨rfl, rfl, rfl, rfl, rfl, rfl, rfl, rfl⟩⟩
  write off v s h := by
    obtain ⟨d, i, e, x, w, hw⟩ := regWrite_frame off v s
    rw [hw]
    exact ⟨h.pq, h.stack, h.idle⟩

/-- Settles O58: every transaction keeps `WorkClean`, the core's turn by the rule at its place
(`workClean_coreTurn`). -/
theorem workingStateIsEmptyWhenIdle : Obligations.WorkingStateIsEmptyWhenIdle :=
  fun s t => workClean_closed.step s t

end Sys2Proof.Machine
end

section
/-! Proofs of the state family (10_state.md): TREE_KIND agrees with the tree, through every step (R64). -/

namespace Sys2Proof.Machine

/-! ## What the tree state depends on -/

/-- The fields that the tree state speaks of, and nothing else of the state. -/
def treeView (s : State) : State :=
  { State.reset with
    treeKind := s.treeKind, codesValid := s.codesValid, hdrParsed := s.hdrParsed, nsym := s.nsym,
    nnodes := s.nnodes, rootIdx := s.rootIdx, rootValid := s.rootValid, node := s.node, pq := s.pq,
    stack := s.stack, seen := s.seen }

theorem treeAt_treeView (pt : Point) (s : State) : treeAt pt (treeView s) ↔ treeAt pt s := by
  have forest : ∀ f, Forest f (treeView s) ↔ Forest f s := fun f =>
    ⟨fun h => ⟨h.roots, h.symbols, h.leaves⟩, fun h => ⟨h.roots, h.symbols, h.leaves⟩⟩
  cases pt with
  | buildMerge =>
    simp only [treeAt, mergeProgress, forest]
    exact Iff.rfl
  | _ => exact Iff.rfl

theorem treeAt_congr {pt : Point} {s t : State} (hv : treeView t = treeView s) (h : treeAt pt s) :
    treeAt pt t := by
  rwa [← treeAt_treeView, hv, treeAt_treeView]

/-- At a place where no tree is being made the tree state is that of R64. -/
theorem treeAt_of_rests {pt : Point} (hp : pt.rests = true) (s : State) : treeAt pt s ↔ treeAgrees s := by
  cases pt <;> simp only [Point.rests, Bool.false_eq_true] at hp <;> exact Iff.rfl

theorem Quiet.view {s t : State} (h : Quiet s t) : treeView t = treeView s :=
  show treeView (blankFlow t) = treeView (blankFlow s) from congrArg _ h.kept

theorem Quiet.keepsTree {s t : State} (h : Quiet s t) (ha : treeAgrees s) : treeAgrees t :=
  treeAt_congr (pt := .atStart) h.view ha

theorem TreeState.congr {s t : State} (h : TreeState s) (hv : treeView t = treeView s)
    (ho : t.opstate = s.opstate) (hp : t.point = s.point) : TreeState t :=
  ⟨fun hidle => treeAt_congr (pt := .atStart) hv (h.idle (ho ▸ hidle)),
    fun hrun => treeAt_congr hv (hp ▸ h.running (ho ▸ hrun))⟩

/-! ## The tree state while a command runs -/

theorem TreeState.of_rests {s : State} (hp : s.point.rests = true) (ha : treeAgrees s) : TreeState s :=
  ⟨fun _ => ha, fun _ => (treeAt_of_rests hp s).2 ha⟩

theorem TreeState.of_running {s : State} (hr : s.opstate ≠ .idle) (h : treeAt s.point s) : TreeState s :=
  ⟨fun hidle => absurd hidle hr, fun _ => h⟩

theorem Quiet.treeState {s t : State} (h : Quiet s t) (hp : s.point.rests = true) (ha : treeAgrees s) :
    TreeState t :=
  .of_rests (h.place.elim id (· ▸ hp)) (h.keepsTree ha)

theorem treeState_finish {s : State} (hr : s.opstate ≠ .idle) (ha : treeAgrees s) :
    TreeState (finish s) := by
  have hq : treeAgrees (finish s) := (Quiet.finish (.refl s)).keepsTree ha
  rcases finish_cases s with ⟨hidle, _⟩ | ⟨op, ph, _, _, e⟩ | ⟨op, ph, _, _, e⟩
  · exact absurd hidle hr
  · exact .of_rests (by rw [e]; rfl) hq
  · exact .of_rests (by rw [e]; rfl) hq

/-- A reading turn at its place keeps the tree state when what the rule does with the item does. -/
theorem treeState_awaitItem {k : Item → Nat → State → State} {s : State} (hr : s.opstate ≠ .idle)
    (h : treeAt s.point s)
    (hk : ∀ it ipos t, t.opstate ≠ .idle → t.point = s.point → t.stack = s.stack → treeAt s.point t →
      TreeState (k it ipos t)) : TreeState (awaitItem k s) := by
  rcases awaitItem_quiet k s with ⟨hq, hpt⟩ | ⟨it, ipos, e⟩
  · exact .of_running (hq.runs hr) (treeAt_congr hq.view (hpt ▸ h))
  · rw [e]; exact hk it ipos _ hr rfl rfl (treeAt_congr (s := s) rfl h)

/-! ## No tree, and a tree just made -/

/-- Without a tree, NSYM and NNODES are 0 (R64). -/
theorem treeAgrees_of_noTree {s : State} (h : noTreeYet s) (hsym : s.nsym = 0) (hnodes : s.nnodes = 0) :
    treeAgrees s := by
  obtain ⟨hk, hv, hi, hc, hh⟩ := h
  refine ⟨by rw [treeRow, hk]; exact ⟨hv, hi, hsym, hnodes⟩, ?_, by simp [hc], by simp [hh]⟩
  simp [treeHeld, hk]

/-- The empty tree is as no tree, but for TREE_KIND (R64). -/
theorem treeAgrees_of_empty {s : State} (hk : s.treeKind = .emptyTree) (hv : s.rootValid = false)
    (hi : s.rootIdx = 0) (hsym : s.nsym = 0) (hnodes : s.nnodes = 0) : treeAgrees s := by
  refine ⟨by rw [treeRow, hk]; exact ⟨hv, hi, hsym, hnodes⟩, ?_, by simp [hk], by simp [hk]⟩
  simp [treeHeld, hk]

/-- A full tree below NNODES with distinct symbols is the current tree of the kind that its NSYM gives (R64, R177,
R225). -/
theorem treeAgrees_of_tree {s : State} {tr : HuffTree} (hk : s.treeKind = kindOfTree s.nsym)
    (hv : s.rootValid = true) (hb : RepresentsBelow s.nnodes s.node s.rootIdx tr) (hd : tr.distinct)
    (hl : s.nsym = tr.leaves) (hn : s.nnodes + 1 = 2 * s.nsym) : treeAgrees s := by
  have hrep : Represents s.node s.rootIdx tr := represents_of_below hb
  have hroot : s.rootIdx < s.nnodes := root_lt_of_below hb
  have hleaf : (nodeGet s.node s.rootIdx).isLeaf = decide (s.nsym = 1) := by
    rw [hl]; exact isLeaf_of_represents hrep
  have h256 : s.nsym ≤ 256 := hl ▸ leaves_le_of_distinct tr hd
  have hkind : s.treeKind ≠ .noTree := by rw [hk]; exact (kindOfTree_cases _).1
  refine ⟨?row, fun _ => ⟨tr, holdsTree_of_kind hrep (hl ▸ hk), hb, hd, hl⟩, fun _ => hkind,
    fun _ => hkind⟩
  by_cases h1 : s.nsym = 1
  · have h0 : s.rootIdx = 0 := by omega
    rw [treeRow, hk, kindOfTree, if_pos h1]
    exact ⟨hv, h0, h1, by omega, by simpa [h0, h1] using hleaf⟩
  · have hpos := leaves_pos tr
    rw [treeRow, hk, kindOfTree, if_neg h1]
    exact ⟨hv, by omega, h256, by omega, hroot, by simpa [h1] using hleaf⟩

/-! ## BUILD -/

/-- BUILD's leaves: a forest of one-leaf trees, all of them in PQ (R175). -/
theorem mergeProgress_buildStart (s : State) : mergeProgress (buildStart s) := by
  refine ⟨⟨rfl, rfl, rfl, rfl, rfl⟩, leavesOf_length s.freq, ?_, List.nodup_range, _, forest_start s⟩
  simp only [buildStart, List.length_range]
  omega

/-- With PQ empty there was no leaf. -/
theorem counts_of_forest_nil {f : Nat → HuffTree} {s : State} (hf : Forest f s) (hpq : s.pq = [])
    (hlen : 2 * s.nsym = s.nnodes + s.pq.length) : s.nsym = 0 ∧ s.nnodes = 0 := by
  have hsum := hf.leaves
  rw [hpq] at hsum hlen
  simp only [List.map_nil, List.sum_nil, List.length_nil] at hsum hlen
  omega

/-- The one tree left in PQ is the current tree (R175, R177). -/
theorem treeAgrees_buildRoot {f : Nat → HuffTree} {s : State} {root : Nat} (hf : Forest f s)
    (hpq : s.pq = [root]) (hlen : 2 * s.nsym = s.nnodes + s.pq.length) :
    treeAgrees { s with
      pq := [], rootIdx := root, rootValid := true, treeKind := kindOfTree s.nsym } := by
  obtain ⟨hroots, hsyms, hleaves⟩ := hf
  rw [hpq] at hroots hsyms hleaves hlen
  refine treeAgrees_of_tree (tr := f root) rfl rfl (hroots root (by simp)) ?_ ?_ ?_
  · simpa [HuffTree.distinct] using hsyms
  · simpa using hleaves.symm
  · simpa using hlen.symm

/-- A merge takes two trees from PQ and puts one back (R175). -/
theorem mergeProgress_mergeNodes {s : State} {l r : Nat} (h : mergeProgress s) (hl : l ∈ s.pq)
    (hr : r ∈ s.pq.erase l) : mergeProgress (mergeNodes l r ((s.pq.erase l).erase r) s) := by
  obtain ⟨hno, h256, hlen, hnodup, f, hf⟩ := h
  have hlen1 := List.length_erase_of_mem hl
  have hlen2 := List.length_erase_of_mem hr
  have hpos := List.length_pos_of_mem hl
  have hpos1 := List.length_pos_of_mem hr
  have hnew : s.nnodes ∉ (s.pq.erase l).erase r := fun hmem =>
    absurd (root_lt_of_below (hf.roots _ (List.mem_of_mem_erase (List.mem_of_mem_erase hmem))))
      (Nat.lt_irrefl _)
  refine ⟨hno, h256, ?_, ?_, _, forest_merge hf hl hr (by omega)⟩
  · simp only [mergeNodes, pqInsert, List.length_append, List.length_singleton]
    omega
  · simp only [mergeNodes, pqInsert]
    exact List.nodup_append.2 ⟨(hnodup.erase l).erase r, List.nodup_singleton _,
      fun a ha b hb => by rw [List.mem_singleton.1 hb]; exact fun e => hnew (e ▸ ha)⟩

theorem treeState_buildMerge {s : State} (hr : s.opstate ≠ .idle) (hpt : s.point = .buildMerge)
    (h : mergeProgress s) : TreeState (buildMerge s) := by
  have hprogress := h
  obtain ⟨⟨_, hv, hi, _, _⟩, _, hlen, _, f, hf⟩ := h
  unfold buildMerge
  split
  next hnone =>
    obtain ⟨hsym, hnodes⟩ := counts_of_forest_nil hf (extractMin_none _ _ hnone) hlen
    exact treeState_finish hr (treeAgrees_of_empty rfl hv hi hsym hnodes)
  next l pq1 hmin =>
    obtain ⟨hl, rfl⟩ := extractMin_some _ _ _ _ hmin
    split
    next hnone =>
      have hpq : s.pq = [l] := by
        have := List.perm_cons_erase hl
        rw [extractMin_none _ _ hnone] at this
        exact List.perm_singleton.1 this
      exact treeState_finish hr (treeAgrees_buildRoot hf hpq hlen)
    next r pq2 hmin2 =>
      obtain ⟨hr', rfl⟩ := extractMin_some _ _ _ _ hmin2
      refine .of_running hr ?_
      show treeAt s.point _
      rw [hpt]
      exact mergeProgress_mergeNodes hprogress hl hr'

/-! ## GENCODE -/

theorem treeState_genStart {s : State} (hr : s.opstate ≠ .idle) (ha : treeAgrees s) :
    TreeState (genStart s) := by
  unfold genStart
  split
  next => exact .of_rests rfl ha
  next hk => exact .of_running hr ⟨ha, by simp [hk]⟩
  next hk => exact .of_running hr ⟨ha, by simp [assignCode, hk]⟩
  next hk => exact .of_running hr ⟨ha, by simp [hk]⟩

/-- The traversal writes the code table and STACK only, and its end makes the codes valid (R200, R201). -/
theorem treeState_genWalk {s : State} (hr : s.opstate ≠ .idle) (hpt : s.point = .genWalk)
    (h : treeAgrees s ∧ s.treeKind ≠ .noTree) : TreeState (genWalk s) := by
  have go : ∀ len bits st, TreeState { s with len := len, bits := bits, stack := st } :=
    fun len bits st => .of_running hr (by show treeAt s.point _; rw [hpt]; exact h)
  obtain ⟨⟨hrow, hheld, _, hh⟩, hk⟩ := h
  unfold genWalk
  split
  next => exact treeState_finish hr ⟨hrow, hheld, fun _ => hk, hh⟩
  next i p rest _ =>
    unfold assignNode
    split
    · exact go _ _ _
    · exact go _ _ _
  all_goals exact go _ _ _

/-! ## PARSE_HEADER -/

/-- A raise inside PARSE_HEADER leaves no tree (R222, D49). -/
theorem treeState_parseRaise (c : Cause) (ipos : Nat) {s : State} (h : noTreeYet s) :
    TreeState (parseRaise c ipos s) :=
  .of_rests rfl (treeAgrees_of_noTree h rfl rfl)

/-- One more Internal node: STACK waits for its left subtree (R223). -/
theorem treeState_parseInternal {nint ipos : Nat} {s : State} (hr : s.opstate ≠ .idle)
    (h : parseProgress nint s) : TreeState (parseInternal nint ipos s) := by
  obtain ⟨hno, hnint, hnodes, hwait, syms, hstack, hdistinct, hlen, hseen⟩ := h
  unfold parseInternal
  split
  · exact treeState_parseRaise _ _ hno
  · refine .of_running hr
      ⟨⟨hno, by omega, ?_, ?_, syms, ⟨rfl, ?_, ?_⟩, hdistinct, hlen, hseen⟩, by simp⟩
    · show s.nnodes + 1 = s.nsym + (nint + 1)
      omega
    · show s.nsym + (awaitedLefts s.stack + 1) = nint + 1
      omega
    · exact nodeGet_nodeSet_same _ _ _ (by omega)
    · exact stackHolds_congr (fun j hj => nodeGet_nodeSet_of_ne _ _ _ _ (Nat.ne_of_lt hj)) hstack

theorem treeState_parseMarker {nint : Nat} (it : Item) (ipos : Nat) {s : State} (hr : s.opstate ≠ .idle)
    (h : parseProgress nint s) : TreeState (parseMarker nint it ipos s) := by
  have hno : noTreeYet s := h.1
  cases it with
  | eos => exact treeState_parseRaise _ _ hno
  | byte m =>
    simp only [parseMarker]
    (repeat' split)
    · exact .of_running hr h
    · exact treeState_parseInternal hr h
    · exact treeState_parseRaise _ _ hno

theorem treeState_parseFirst (it : Item) (ipos : Nat) {s : State} (hr : s.opstate ≠ .idle)
    (hst : s.stack = []) (h : noTreeYet s ∧ s.nsym = 0 ∧ s.nnodes = 0) :
    TreeState (parseFirst it ipos s) := by
  obtain ⟨hno, hsym, hnodes⟩ := h
  cases it with
  | eos =>
    obtain ⟨_, hv, hi, _, _⟩ := hno
    exact .of_running hr ⟨treeAgrees_of_empty rfl hv hi hsym hnodes, TreeKind.noConfusion⟩
  | byte m =>
    refine treeState_parseMarker (.byte m) ipos hr ⟨hno, by omega, by omega, ?_, [], ?_, ?_⟩
    · rw [hst, hsym]; rfl
    · rw [hst, hnodes]; exact ⟨rfl, rfl⟩
    · simp [hsym]

/-- One more leaf, whose symbol is new: its subtree returns to STACK, and the tree is complete or the next marker
is read (R223, R225). -/
theorem treeState_parseLeaf {nint : Nat} {b : Byte} {s : State} (hr : s.opstate ≠ .idle)
    (h : parseProgress nint s) (hb : symGet s.seen b = false) : TreeState (parseLeaf nint b s) := by
  obtain ⟨hno, hnint, hnodes, hwait, syms, hstack, hdistinct, hlen, hseen⟩ := h
  have hnew : b ∉ syms := fun hmem => by simp [hseen b hmem] at hb
  have hnodup : (b :: syms).Nodup := List.nodup_cons.2 ⟨hnew, hdistinct⟩
  have hstack' : StackHolds (nodeSet s.node s.nnodes (.leaf b 0)) s.nnodes s.stack syms :=
    stackHolds_congr (fun j hj => nodeGet_nodeSet_of_ne _ _ _ _ (Nat.ne_of_lt hj)) hstack
  have hleaf : PreorderAt (nodeSet s.node s.nnodes (.leaf b 0)) s.nnodes (.leaf b) :=
    nodeGet_nodeSet_same _ _ _ (by omega)
  have hreturn {r st' node'} :=
    returnSubtree_holds hstack' hleaf (by omega) (r := r) (st' := st') (node' := node')
  unfold parseLeaf
  simp only
  split
  next root st' node' e =>
    obtain ⟨rfl, hnone, tr, hpre, hperm⟩ := (hreturn e).2 root rfl
    have hleaves : tr.leaves = s.nsym + 1 := by
      have := hperm.length_eq
      simpa [symbols_length, HuffTree.symbols, hlen, HuffTree.leaves, Nat.add_comm] using this
    refine .of_running hr ⟨hno, rfl, ?_, tr, hpre, hperm.nodup_iff.2 hnodup, hleaves.symm⟩
    show s.nnodes + 1 = 2 * (s.nsym + 1) - 1
    omega
  next st' node' e =>
    obtain ⟨hne, hwait', syms', hstack'', hperm⟩ := (hreturn e).1 rfl
    refine .of_running hr ⟨⟨hno, hnint, ?_, ?_, syms', hstack'', hperm.nodup_iff.2 hnodup, ?_, ?_⟩, hne⟩
    · show s.nnodes + 1 = s.nsym + 1 + nint
      omega
    · show s.nsym + 1 + awaitedLefts st' = nint
      omega
    · have := hperm.length_eq
      simpa [HuffTree.symbols, hlen] using this
    · intro c hc
      show symGet (symSet s.seen b true) c = true
      by_cases hcb : c = b
      · rw [hcb, symGet_symSet_same]
      · rw [symGet_symSet_of_ne _ _ _ _ hcb]
        have := hperm.subset hc
        simp only [HuffTree.symbols, List.singleton_append, List.mem_cons, hcb, false_or] at this
        exact hseen c this

theorem treeState_parseSymbol {nint : Nat} (it : Item) (ipos : Nat) {s : State} (hr : s.opstate ≠ .idle)
    (h : parseProgress nint s) : TreeState (parseSymbol nint it ipos s) := by
  have hno : noTreeYet s := h.1
  cases it with
  | eos => exact treeState_parseRaise _ _ hno
  | byte b =>
    simp only [parseSymbol]
    split
    next => exact treeState_parseRaise _ _ hno
    next hb => exact treeState_parseLeaf hr h (by simpa using hb)

theorem treeState_parseSentinel {root : Nat} (it : Item) (ipos : Nat) {s : State}
    (hr : s.opstate ≠ .idle) (h : parsedTree root s) : TreeState (parseSentinel root it ipos s) := by
  have hno : noTreeYet s := h.1
  cases it with
  | eos => exact treeState_parseRaise _ _ hno
  | byte b =>
    simp only [parseSentinel]
    split
    · exact .of_running hr h
    · exact treeState_parseRaise _ _ hno

/-- The PAD byte makes the parsed tree the current one (R222, R225). -/
theorem treeState_parsePad {root : Nat} (it : Item) (ipos : Nat) {s : State} (hr : s.opstate ≠ .idle)
    (h : parsedTree root s) : TreeState (parsePad root it ipos s) := by
  obtain ⟨hno, rfl, hnodes, tr, hpre, hd, hl⟩ := h
  cases it with
  | eos => exact treeState_parseRaise _ _ hno
  | byte b =>
    simp only [parsePad]
    split
    next => exact treeState_parseRaise _ _ hno
    next =>
      have hpos := leaves_pos tr
      refine .of_running hr ⟨treeAgrees_of_tree (tr := tr) rfl rfl ?_ hd hl ?_, (kindOfTree_cases _).1⟩
      · exact below_of_preorderAt (by show 0 + 2 * tr.leaves ≤ s.nnodes + 1; omega) hpre
      · show s.nnodes + 1 = 2 * s.nsym
        omega

theorem treeState_parseDone {s : State} (hr : s.opstate ≠ .idle)
    (h : treeAgrees s ∧ s.treeKind ≠ .noTree) : TreeState (parseDone s) := by
  obtain ⟨⟨hrow, hheld, hc, _⟩, hk⟩ := h
  exact treeState_finish hr ⟨hrow, hheld, hc, fun _ => hk⟩

/-! ## The core's turn -/

theorem treeState_startTurn (p : Prim) {s : State} (hr : s.opstate ≠ .idle) (hpt : s.point = .atStart)
    (ha : treeAgrees s) : TreeState (startTurn p s) := by
  have hp : s.point.rests = true := by rw [hpt]; rfl
  cases p with
  | nop => exact treeState_finish hr ha
  | scan => exact .of_rests rfl (treeAgrees_of_noTree ⟨rfl, rfl, rfl, rfl, rfl⟩ rfl rfl)
  | build => exact .of_running hr (mergeProgress_buildStart s)
  | gencode => exact treeState_genStart hr ha
  | emitHeader =>
    rcases emitStart_quiet s with hq | e
    · exact hq.treeState hp ha
    · rw [startTurn, e]
      exact .of_rests rfl ha
  | pack => exact (packStart_quiet s).treeState hp ha
  | parseHeader => exact .of_running hr ⟨⟨rfl, rfl, rfl, rfl, rfl⟩, rfl, rfl⟩
  | unpack => exact (unpackStart_quiet s).treeState hp ha

theorem treeState_scanItem (it : Item) (ipos : Nat) {s : State} (hr : s.opstate ≠ .idle)
    (hpt : s.point = .scanRead) (ha : treeAgrees s) : TreeState (scanItem it ipos s) := by
  cases it with
  | eos => exact treeState_finish hr ha
  | byte b =>
    simp only [scanItem]
    split
    · exact .of_rests rfl ha
    · exact .of_rests (by show s.point.rests = true; rw [hpt]; rfl) ha

theorem treeState_emitNode {s : State} (hpt : s.point = .emitNode) (ha : treeAgrees s) :
    TreeState (emitNode s) := by
  obtain ⟨st, hq, _⟩ := emitNode_quiet s hpt
  exact hq.treeState (by show s.point.rests = true; rw [hpt]; rfl) ha

/-- The end of a command keeps the tree (R311). -/
theorem treeState_finishTurn {s : State} (h : TreeState s) (ha : treeAgrees s) :
    TreeState (finishTurn s) := by
  unfold finishTurn
  split
  · exact .of_rests rfl ha
  · exact h

/-- The entry of the error state keeps the tree (R342). -/
theorem treeState_raiseTurn (prim : Prim) (c : Cause) (p : Nat) {s : State} (h : TreeState s)
    (ha : treeAgrees s) : TreeState (raiseTurn prim c p s) := by
  unfold raiseTurn
  split
  · exact .of_rests rfl ha
  · exact h

/-- The core's turn keeps the tree state: most turns at a place where no tree is being made are quiet, and the others
have a lemma of their own. -/
theorem treeState_coreTurn {s : State} (hw : WorkClean s) (h : TreeState s) :
    TreeState (coreTurn s) := by
  unfold coreTurn
  split
  · exact h
  next op ph hop =>
    have hr : s.opstate ≠ .idle := by rw [hop]; exact OpState.noConfusion
    have hat : treeAt s.point s := h.running hr
    have read {k} := treeState_awaitItem (k := k) hr hat
    have quiet : ∀ t, s.point.rests = true → Quiet s t → TreeState t := fun t hp hq =>
      hq.treeState hp ((treeAt_of_rests hp s).1 hat)
    cases hpt : s.point <;> rw [hpt] at hat read quiet
    case atStart => exact treeState_startTurn _ hr hpt hat
    case scanRead => exact read fun it ipos t hrt hptt _ ht => treeState_scanItem it ipos hrt hptt ht
    case buildMerge => exact treeState_buildMerge hr hpt hat
    case genWalk => exact treeState_genWalk hr hpt hat
    case emitNode => exact treeState_emitNode hpt hat
    case parseFirst =>
      have hst : s.stack = [] := hw.stack (by rw [hpt]; rfl)
      exact read fun it ipos t hrt _ hstt ht => treeState_parseFirst it ipos hrt (hstt.trans hst) ht
    case parseMarker => exact read fun it ipos t hrt _ _ ht => treeState_parseMarker it ipos hrt ht.1
    case parseSymbol => exact read fun it ipos t hrt _ _ ht => treeState_parseSymbol it ipos hrt ht
    case parseSentinel => exact read fun it ipos t hrt _ _ ht => treeState_parseSentinel it ipos hrt ht
    case parsePad => exact read fun it ipos t hrt _ _ ht => treeState_parsePad it ipos hrt ht
    case parseDone => exact treeState_parseDone hr hat
    case finishing => exact treeState_finishTurn h hat
    case raising => exact treeState_raiseTurn _ _ _ h hat
    all_goals exact quiet _ rfl (pointTurn_quiet _ s rfl)

/-! ## The other transactions -/

/-- The two invariants together are kept by every transaction: the core's turn needs both (R61, R64). -/
theorem treeState_closed : StepClosed fun s => WorkClean s ∧ TreeState s where
  script s es h := ⟨workClean_closed.script s es h.1, h.2.congr rfl rfl rfl⟩
  ticks s n h := ⟨workClean_closed.ticks s n h.1, h.2.congr rfl rfl rfl⟩
  log s l h := ⟨workClean_closed.log s l h.1, h.2.congr rfl rfl rfl⟩
  core s h := ⟨workClean_closed.core s h.1, treeState_coreTurn h.1 h.2⟩
  sink s h := by
    refine ⟨workClean_closed.sink s h.1, ?_⟩
    rcases sinkTurn_cases s with ⟨_, e⟩ | ⟨b, rest, _, e⟩ <;> rw [e]
    · exact h.2
    · exact h.2.congr rfl rfl rfl
  send it s h := ⟨workClean_closed.send it s h.1, h.2.congr rfl rfl rfl⟩
  withdraw s h := ⟨workClean_closed.withdraw s h.1, h.2.congr rfl rfl rfl⟩
  accept op s h ha :=
    ⟨workClean_closed.accept op s h.1 ha, .of_rests rfl (h.2.idle ((accepting_iff s).1 ha).1)⟩
  illegal op s h ha :=
    ⟨workClean_closed.illegal op s h.1 ha, .of_rests rfl (h.2.idle ((accepting_iff s).1 ha).1)⟩
  refuse s h := ⟨workClean_closed.refuse s h.1, h.2.congr rfl rfl rfl⟩
  clear s h := ⟨workClean_closed.clear s h.1,
    .of_rests rfl (treeAgrees_of_noTree ⟨rfl, rfl, rfl, rfl, rfl⟩ rfl rfl)⟩
  reset s h := ⟨workClean_closed.reset s h.1,
    .of_rests rfl (treeAgrees_of_noTree ⟨rfl, rfl, rfl, rfl, rfl⟩ rfl rfl)⟩
  write off v s h := by
    refine ⟨workClean_closed.write off v s h.1, ?_⟩
    obtain ⟨d, i, e, x, w, hw⟩ := regWrite_frame off v s
    rw [hw]
    exact h.2.congr rfl rfl rfl

/-- Settles O59: every transaction keeps both invariants, the core's turn by what its rule keeps at its place
(`treeState_coreTurn`). -/
theorem treeKindAgreesWithTheTree : Obligations.TreeKindAgreesWithTheTree :=
  fun s t hw ht hstep => (treeState_closed.step s t ⟨hw, ht⟩ hstep).2

end Sys2Proof.Machine
end

section
/-! Proofs of the state family (10_state.md): what each command leaves alone. Every turn of a primitive's rule
leaves what the rule does not write, so that a command leaves what none of its primitives writes. -/

namespace Sys2Proof.Machine

/-! ## What each primitive writes -/

/-- The state without what the rule of a primitive may write of the counts, the tree and the code table. -/
def Prim.blankWrites : Prim → State → State
  | .scan, s => invalidateTree { s with freq := Vector.replicate 256 0, scanTotal := 0 }
  | .build, s => invalidateTree { s with node := Vector.replicate 511 Node.blank }
  | .parseHeader, s => invalidateTree { s with node := Vector.replicate 511 Node.blank }
  | .gencode, s =>
    invalidateCodes { s with len := Vector.replicate 256 0, bits := Vector.replicate 256 [] }
  | .nop, s => s
  | .emitHeader, s => s
  | .pack, s => s
  | .unpack, s => s

/-- The state beyond the reach of a primitive's rule: without its writes, the working state and DONE. -/
def beyond (p : Prim) (s : State) : State :=
  p.blankWrites { blankFlow s with
    done := false, pq := [], stack := [], seen := Vector.replicate 256 false }

theorem Quiet.beyond {s t : State} (h : Quiet s t) (p : Prim) : beyond p t = beyond p s :=
  congrArg (fun u : State => p.blankWrites { u with
    done := false, pq := [], stack := [], seen := Vector.replicate 256 false }) h.kept

theorem beyond_finish (p : Prim) (s : State) : beyond p (finish s) = beyond p s :=
  (Quiet.finish (.refl s)).beyond p

theorem beyond_awaitItem {p : Prim} {k : Item → Nat → State → State} {s : State}
    (hk : ∀ it ipos t, beyond p (k it ipos t) = beyond p t) :
    beyond p (awaitItem k s) = beyond p s := by
  rcases awaitItem_quiet k s with ⟨hq, _⟩ | ⟨it, ipos, e⟩
  · exact hq.beyond p
  · rw [e]; exact hk it ipos _

theorem beyond_startTurn (p : Prim) (s : State) : beyond p (startTurn p s) = beyond p s := by
  cases p with
  | nop => exact beyond_finish .nop s
  | scan => rw [startTurn, scanStart, invalidateTree_eq]; rfl
  | build => rw [startTurn, buildStart, invalidateTree_eq]; rfl
  | gencode => simp only [startTurn, genStart]; split <;> rfl
  | emitHeader =>
    rcases emitStart_quiet s with hq | e
    · exact hq.beyond _
    · rw [startTurn, e]; rfl
  | pack => exact (packStart_quiet s).beyond _
  | parseHeader => rw [startTurn, parseStart, invalidateTree_eq]; rfl
  | unpack => exact (unpackStart_quiet s).beyond _

theorem beyond_scanItem (it : Item) (ipos : Nat) (s : State) :
    beyond .scan (scanItem it ipos s) = beyond .scan s := by
  cases it with
  | eos => exact beyond_finish .scan s
  | byte b => simp only [scanItem]; split <;> rfl

theorem beyond_buildMerge (s : State) : beyond .build (buildMerge s) = beyond .build s := by
  unfold buildMerge
  split
  · exact (beyond_finish _ _).trans rfl
  · split
    · exact (beyond_finish _ _).trans rfl
    · rfl

theorem beyond_genWalk (s : State) : beyond .gencode (genWalk s) = beyond .gencode s := by
  unfold genWalk
  split
  next => exact (beyond_finish _ _).trans rfl
  next => unfold assignNode; split <;> rfl
  all_goals rfl

theorem beyond_emitNode {s : State} (hpt : s.point = .emitNode) :
    beyond .emitHeader (emitNode s) = beyond .emitHeader s := by
  obtain ⟨st, hq, _⟩ := emitNode_quiet s hpt
  exact (hq.beyond _).trans rfl

theorem beyond_parseMarker (nint : Nat) (it : Item) (ipos : Nat) (s : State) :
    beyond .parseHeader (parseMarker nint it ipos s) = beyond .parseHeader s := by
  cases it <;> simp only [parseMarker, parseInternal] <;> (repeat' split) <;> rfl

theorem beyond_parseFirst (it : Item) (ipos : Nat) (s : State) :
    beyond .parseHeader (parseFirst it ipos s) = beyond .parseHeader s := by
  cases it with
  | eos => rfl
  | byte m => exact beyond_parseMarker 0 (.byte m) ipos s

theorem beyond_parseSymbol (nint : Nat) (it : Item) (ipos : Nat) (s : State) :
    beyond .parseHeader (parseSymbol nint it ipos s) = beyond .parseHeader s := by
  cases it <;> simp only [parseSymbol, parseLeaf] <;> (repeat' split) <;> rfl

theorem beyond_parseSentinel (root : Nat) (it : Item) (ipos : Nat) (s : State) :
    beyond .parseHeader (parseSentinel root it ipos s) = beyond .parseHeader s := by
  cases it <;> simp only [parseSentinel] <;> (repeat' split) <;> rfl

theorem beyond_parsePad (root : Nat) (it : Item) (ipos : Nat) (s : State) :
    beyond .parseHeader (parsePad root it ipos s) = beyond .parseHeader s := by
  cases it <;> simp only [parsePad] <;> (repeat' split) <;> rfl

theorem beyond_finishTurn (p : Prim) (s : State) : beyond p (finishTurn s) = beyond p s := by
  unfold finishTurn
  split <;> rfl

/-- A turn of a primitive's rule, but for the entry of the error state, leaves all beyond its reach. -/
theorem beyond_pointTurn {p : Prim} {s : State} (hp : s.point.isIn p = true)
    (hraise : ∀ c q, s.point ≠ .raising c q) : beyond p (pointTurn p s.point s) = beyond p s := by
  have own : ∀ q : Prim, (p == q) = true → p = q := fun q h => eq_of_beq h
  cases hpt : s.point <;> rw [hpt] at hp
  case atStart => exact beyond_startTurn p s
  case finishing => exact beyond_finishTurn p s
  case raising c q => exact absurd hpt (hraise c q)
  all_goals obtain rfl := own _ hp
  case scanRead => exact beyond_awaitItem beyond_scanItem
  case buildMerge => exact beyond_buildMerge s
  case genWalk => exact beyond_genWalk s
  case emitNode => exact beyond_emitNode hpt
  case parseFirst => exact beyond_awaitItem beyond_parseFirst
  case parseMarker => exact beyond_awaitItem (beyond_parseMarker _)
  case parseSymbol => exact beyond_awaitItem (beyond_parseSymbol _)
  case parseSentinel => exact beyond_awaitItem (beyond_parseSentinel _)
  case parsePad => exact beyond_awaitItem (beyond_parsePad _)
  case parseDone => exact (beyond_finish _ _).trans rfl
  all_goals exact (pointTurn_quiet _ s rfl).beyond _

/-- The core's turn in a rule leaves all beyond the rule's reach, or holds, or enters the error state (R342). -/
theorem coreTurn_cases {op : Op} {ph : Nat} {s : State} (hop : s.opstate = .run op ph)
    (hp : s.point.isIn (currentPrim op ph) = true) :
    beyond (currentPrim op ph) (coreTurn s) = beyond (currentPrim op ph) s ∨
      ∃ c q, coreTurn s = enterError c (currentPrim op ph).code q s := by
  have hturn : coreTurn s = pointTurn (currentPrim op ph) s.point s := by rw [coreTurn, hop]
  by_cases hraise : ∃ c q, s.point = .raising c q
  · obtain ⟨c, q, hpt⟩ := hraise
    rw [hturn, hpt, pointTurn, raiseTurn]
    split
    · exact .inr ⟨c, q, rfl⟩
    · exact .inl rfl
  · rw [hturn]
    exact .inl (beyond_pointTurn hp fun c q h => hraise ⟨c, q, h⟩)

/-! ## What each command leaves -/

/-- What the commands compute and keep: the counts, the tree and the code table, and nothing else of the state. -/
def results (s : State) : State :=
  { State.reset with
    freq := s.freq, scanTotal := s.scanTotal, node := s.node, treeKind := s.treeKind, nsym := s.nsym,
    nnodes := s.nnodes, rootIdx := s.rootIdx, rootValid := s.rootValid, hdrParsed := s.hdrParsed,
    hdrPad := s.hdrPad, bits := s.bits, len := s.len, codesValid := s.codesValid, pbits := s.pbits,
    encPad := s.encPad }

theorem results_beyond (p : Prim) (s : State) : results (beyond p s) = p.blankWrites (results s) := by
  cases p <;> rfl

/-- What the rule of its primitive does not write is kept by the core's turn. -/
theorem coreTurn_keeps {α : Type} (f : State → α) {op : Op} {ph : Nat} {s : State}
    (hf : ∀ u, f ((currentPrim op ph).blankWrites u) = f u) (hop : s.opstate = .run op ph)
    (hp : s.point.isIn (currentPrim op ph) = true) : f (results (coreTurn s)) = f (results s) := by
  rcases coreTurn_cases hop hp with e | ⟨c, q, e⟩
  · rw [← hf, ← results_beyond, e, results_beyond, hf]
  · rw [e]; rfl

theorem results_sinkTurn (s : State) : results (sinkTurn s) = results s := by
  rcases sinkTurn_cases s with ⟨_, e⟩ | ⟨_, _, _, e⟩ <;> rw [e]
  rfl

theorem runCommand_keeps {α : Type} (f : State → α) (op : Op) (s : State)
    (hf : ∀ ph u, f ((currentPrim op ph).blankWrites u) = f u) :
    f (results (runCommand op s)) = f (results s) :=
  runCommand_of_runOf (P := fun u => f (results u) = f (results s)) s rfl (fun _ => rfl)
    (fun _ _ h => h) (fun u h => by rw [results_sinkTurn]; exact h) (fun _ _ h => h)
    fun _ _ hop hp h => (coreTurn_keeps f (hf _) hop hp).trans h

theorem results_illegalCommand (op : BitVec 4) (s : State) :
    results (illegalCommand op s) = results s := by
  unfold illegalCommand
  split <;> rfl

theorem results_execNop {s t : State} (h : execNop s = .next t) : results t = results s := by
  cases h
  split
  · rw [nop_turns, finishTurn]; split <;> rfl
  · rfl

/-- The instructions that run a primitive's rule: its own command and the composite it is part of (R254, R286). -/
def Prim.users : Prim → List Instr
  | .nop => [.nop]
  | .scan => [.scan, .compress]
  | .build => [.build, .compress]
  | .gencode => [.gencode, .compress]
  | .emitHeader => [.emitHeader, .compress]
  | .pack => [.pack, .compress]
  | .parseHeader => [.parseHeader, .decompress]
  | .unpack => [.unpack, .decompress]

theorem compress_mem_users (ph : Nat) : Instr.compress ∈ (currentPrim .compress ph).users := by
  unfold currentPrim
  split <;> simp_all [Prim.users]

theorem decompress_mem_users (ph : Nat) : Instr.decompress ∈ (currentPrim .decompress ph).users := by
  unfold currentPrim
  split <;> simp_all [Prim.users]

/-- An instruction other than CLEAR keeps what none of the primitives that it runs writes. -/
theorem exec_keeps {α : Type} (f : State → α) {i : Instr} {s t : State} (h : exec i s = .next t)
    (hclear : i ≠ .clear) (hf : ∀ p : Prim, i ∈ p.users → ∀ u, f (p.blankWrites u) = f u) :
    f (results t) = f (results s) := by
  cases i with
  | clear => exact absurd rfl hclear
  | nop => rw [results_execNop h]
  | compress => cases h; exact runCommand_keeps f _ s fun ph => hf _ (compress_mem_users ph)
  | decompress => cases h; exact runCommand_keeps f _ s fun ph => hf _ (decompress_mem_users ph)
  | illegalOpB rsv => cases h; rw [results_illegalCommand]
  | illegalOpCtoF lo rsv => cases h; rw [results_illegalCommand]
  | illegalReserved op rsv => cases h; rw [results_illegalCommand]
  | _ => cases h; exact runCommand_keeps f _ s fun _ => hf _ (.head _)

/-- Settles O48: of the primitives only SCAN writes the counts. -/
theorem onlyScanAndClearChangeTheCounts : Obligations.OnlyScanAndClearChangeTheCounts := by
  intro i s t h hi
  simp only [List.mem_cons, List.not_mem_nil, or_false, not_or] at hi
  obtain ⟨hscan, hcompress, hclear⟩ := hi
  have keeps := exec_keeps (fun u => (u.freq, u.scanTotal)) h hclear fun p hp u => by
    cases p with
    | scan => simp [Prim.users, hscan, hcompress] at hp
    | _ => rfl
  exact Prod.mk.inj keeps

/-- Settles O49: of the primitives only BUILD and PARSE_HEADER write the arena, and only these and SCAN the rest of
the tree. -/
theorem onlyTreeCommandsChangeTheTree : Obligations.OnlyTreeCommandsChangeTheTree := by
  intro i s t h
  constructor
  · intro hi
    by_cases hclear : i = .clear
    · subst hclear; cases h; rfl
    · simp only [List.mem_cons, List.not_mem_nil, or_false, not_or] at hi
      obtain ⟨hbuild, hparse, hcompress, hdecompress⟩ := hi
      exact exec_keeps (fun u => u.node) h hclear fun p hp u => by
        cases p with
        | build => simp [Prim.users, hbuild, hcompress] at hp
        | parseHeader => simp [Prim.users, hparse, hdecompress] at hp
        | _ => rfl
  · intro hi
    simp only [List.mem_cons, List.not_mem_nil, or_false, not_or] at hi
    obtain ⟨hbuild, hparse, hcompress, hdecompress, hscan, hclear⟩ := hi
    have keeps := exec_keeps (fun u => (u.treeKind, u.nsym, u.nnodes, u.rootIdx, u.rootValid,
      u.hdrParsed, u.hdrPad)) h hclear fun p hp u => by
        cases p with
        | scan => simp [Prim.users, hscan, hcompress] at hp
        | build => simp [Prim.users, hbuild, hcompress] at hp
        | parseHeader => simp [Prim.users, hparse, hdecompress] at hp
        | _ => rfl
    simp only [Prod.mk.injEq] at keeps
    exact keeps

/-- The commands that use the code table and the illegal words run no primitive that invalidates the codes. -/
theorem blankWrites_of_user {i : Instr} (hi : i ∈ [.nop, .emitHeader, .pack, .unpack] ∨ i ∉ commands)
    {p : Prim} (hp : i ∈ p.users) (u : State) : p.blankWrites u = u := by
  cases p with
  | nop => rfl
  | emitHeader => rfl
  | pack => rfl
  | unpack => rfl
  | _ =>
    simp only [Prim.users, List.mem_cons, List.not_mem_nil, or_false] at hp
    rcases hp with rfl | rfl <;> simp [commands] at hi

/-- Settles O50: of the primitives only GENCODE writes the code table, and those of the commands that use it leave
its validity, PBITS and ENC_PAD. -/
theorem onlyGencodeChangesTheCodeTable : Obligations.OnlyGencodeChangesTheCodeTable := by
  intro i s t h
  have table {α : Type} (f : State → α) (hg : i ≠ .gencode) (hc : i ≠ .compress) (hclear : i ≠ .clear)
      (hf : ∀ p : Prim, p ≠ .gencode → ∀ u, f (p.blankWrites u) = f u) : f (results t) = f (results s) :=
    exec_keeps f h hclear fun p hp => hf p fun e => by
      subst e
      simp [Prim.users, hg, hc] at hp
  refine ⟨fun hi => ?bits, fun hi => ?len, fun hi => ?flags⟩
  case bits =>
    by_cases hclear : i = .clear
    · subst hclear; cases h; rfl
    · simp only [List.mem_cons, List.not_mem_nil, or_false, not_or] at hi
      exact table (fun u => u.bits) hi.1 hi.2 hclear fun p hp u => by
        cases p with
        | gencode => exact absurd rfl hp
        | _ => rfl
  case len =>
    simp only [List.mem_cons, List.not_mem_nil, or_false, not_or] at hi
    obtain ⟨hg, hc, hclear⟩ := hi
    exact table (fun u => u.len) hg hc hclear fun p hp u => by
      cases p with
      | gencode => exact absurd rfl hp
      | _ => rfl
  case flags =>
    have hclear : i ≠ .clear := by rintro rfl; simp [commands] at hi
    have keeps := exec_keeps (fun u => (u.codesValid, u.pbits, u.encPad)) h hclear
      fun p hp u => by rw [blankWrites_of_user hi hp]
    simp only [Prod.mk.injEq] at keeps
    exact keeps

/-! ## The error registers and REJECT -/

/-- REJECT, ERR and the error registers. -/
def errorRegs (s : State) : Bool × Bool × Cause × BitVec 4 × Word :=
  (s.reject, s.err, s.cause, s.errOp, s.errPos)

theorem errorRegs_beyond (p : Prim) (s : State) : errorRegs (beyond p s) = errorRegs s := by
  cases p <;> rfl

/-- REJECT is as it was, and the error registers too unless ERR is set. -/
structure NoNewError (s t : State) : Prop where
  reject : t.reject = s.reject
  regs : t.err = false → errorRegs t = errorRegs s

theorem NoNewError.of_eq {s t u : State} (h : NoNewError s t) (e : errorRegs u = errorRegs t) :
    NoNewError s u := by
  have he := e
  simp only [errorRegs, Prod.mk.injEq] at he
  obtain ⟨hreject, herr, _⟩ := he
  exact ⟨hreject.trans h.reject, fun hu => e.trans (h.regs (herr ▸ hu))⟩

theorem NoNewError.coreTurn {s t : State} {op : Op} {ph : Nat} (h : NoNewError s t)
    (hop : t.opstate = .run op ph) (hp : t.point.isIn (currentPrim op ph) = true) :
    NoNewError s (coreTurn t) := by
  rcases coreTurn_cases hop hp with e | ⟨c, q, e⟩
  · exact h.of_eq (by rw [← errorRegs_beyond, e, errorRegs_beyond])
  · rw [e]
    exact ⟨h.reject, fun hfalse => Bool.noConfusion hfalse⟩

/-- An accepted command leaves REJECT, and the error registers unless it raises an error (R35, R36). -/
theorem noNewError_runCommand (op : Op) {s : State} (ha : s.accepting = true) :
    NoNewError s (runCommand op s) := by
  rw [runCommand_of_accepting op s ha]
  refine drive_of_runOf (P := NoNewError s) (fun _ _ h => h.of_eq rfl) (fun u h => ?_)
    (fun _ _ h => h.of_eq rfl) (fun _ _ hop hp h => h.coreTurn hop hp) _ _ (runOf_accept op s)
    ⟨rfl, fun _ => rfl⟩
  rcases sinkTurn_cases u with ⟨_, e⟩ | ⟨_, _, _, e⟩ <;> rw [e]
  · exact h
  · exact h.of_eq rfl

theorem noNewError_illegalCommand (op : BitVec 4) {s : State} (ha : s.accepting = true) :
    NoNewError s (illegalCommand op s) := by
  rw [illegalCommand, if_pos ha]
  exact ⟨rfl, fun hfalse => Bool.noConfusion hfalse⟩

theorem noNewError_execNop {s t : State} (ha : s.accepting = true) (h : execNop s = .next t) :
    NoNewError s t := by
  cases h
  rw [if_pos ha, nop_turns, finishTurn]
  split <;> exact ⟨rfl, fun _ => rfl⟩

theorem noNewError_exec {i : Instr} {s t : State} (hclear : i ≠ .clear) (ha : s.accepting = true)
    (h : exec i s = .next t) : NoNewError s t := by
  cases i with
  | clear => exact absurd rfl hclear
  | nop => exact noNewError_execNop ha h
  | illegalOpB rsv => cases h; exact noNewError_illegalCommand _ ha
  | illegalOpCtoF lo rsv => cases h; exact noNewError_illegalCommand _ ha
  | illegalReserved op rsv => cases h; exact noNewError_illegalCommand _ ha
  | _ => cases h; exact noNewError_runCommand _ ha

/-- While a command runs or an error is pending every word but CLEAR is refused (R310). -/
theorem exec_of_not_accepting {i : Instr} {s : State} (hclear : i ≠ .clear)
    (ha : ¬ s.accepting = true) : exec i s = .next (refuseCommand s) := by
  cases i with
  | clear => exact absurd rfl hclear
  | _ => exact congrArg _ (if_neg ha)

/-- Settles O52: a refusal sets REJECT alone (`exec_of_not_accepting`), and what is accepted keeps REJECT, and the
error registers unless it sets ERR (`noNewError_exec`). -/
theorem commandsKeepTheErrorRegistersUnlessTheyRaise :
    Obligations.CommandsKeepTheErrorRegistersUnlessTheyRaise := by
  intro i s t h hclear
  by_cases ha : s.accepting = true
  · obtain ⟨hreject, hregs⟩ := noNewError_exec hclear ha h
    obtain ⟨hidle, herr⟩ := (accepting_iff s).1 ha
    refine ⟨fun hsame => ?_, by simp [hreject, hidle, herr]⟩
    have hkept := hregs (hsame.trans herr)
    simp only [errorRegs, Prod.mk.injEq] at hkept
    exact hkept.2.2
  · rw [exec_of_not_accepting hclear ha] at h
    cases h
    refine ⟨fun _ => ⟨rfl, rfl, rfl⟩, ?_⟩
    rw [accepting_iff, not_and_or, Bool.not_eq_false] at ha
    rcases ha with hbusy | herr
    · simp [hbusy]
    · simp [herr]

end Sys2Proof.Machine
end

section
/-! Proofs of the state family (10_state.md): what the reads of STATUS, CODE_WORD and the NODE_* windows show (R35,
R51 to R54). -/

namespace Sys2Proof.Machine

/-- A read of a register is exact with no command running, and always where the register is not hidden (R319). -/
theorem regRead_exact {off : Offset} {r : Reg} {s : State} (hreg : regAt off = some r)
    (h : s.opstate = .idle ∨ r.hiddenWhileBusy = false) : regRead off s = exactRead r s := by
  have hexact : (s.busy && r.hiddenWhileBusy) = false := by
    rcases h with hidle | hshown
    · simp [State.busy, hidle]
    · simp [hshown]
  simp [regRead, hreg, hexact]

/-! ## STATUS -/

theorem busy_eq (s : State) : s.busy = decide (s.opstate ≠ .idle) := by
  unfold State.busy
  cases s.opstate <;> simp

/-- Each bit of STATUS is a flag or a bit of TREE_KIND at its place (R35). -/
theorem statusWord_getLsbD (s : State) (j : Nat) : (statusWord s).getLsbD j =
    (decide (j = 0) && s.busy || decide (j = 1) && s.done || decide (j = 2) && s.err ||
      decide (j = 3) && s.reject ||
      decide (j < 32) && !decide (j < 4) && (decide (j - 4 < 32) && s.treeKind.code.getLsbD (j - 4)) ||
      decide (j = 6) && s.codesValid || decide (j = 7) && s.hdrParsed || decide (j = 8) && s.irq) := by
  simp [statusWord, flagAt_getLsbD]

/-- Settles O22, from the bits of `statusWord`. -/
theorem statusShowsTheFlags : Obligations.StatusShowsTheFlags := by
  intro s
  rw [regRead_exact (r := .status) (by decide) (.inr rfl), exactRead, ← busy_eq]
  have hkind : (statusWord s).extractLsb' 4 2 = s.treeKind.code := by
    ext j hj
    obtain rfl | rfl : j = 0 ∨ j = 1 := by omega
    · simp [statusWord_getLsbD, ← BitVec.getLsbD_eq_getElem]
    · simp [statusWord_getLsbD, ← BitVec.getLsbD_eq_getElem]
  have hrest : (statusWord s).extractLsb' 9 23 = 0#23 := by
    ext j hj
    have hpast : s.treeKind.code.getLsbD (9 + j - 4) = false := BitVec.getLsbD_of_ge _ _ (by omega)
    simp [statusWord_getLsbD, hpast]
    omega
  refine ⟨?_, ?_, ?_, ?_, hkind.trans ?kind, ?_, ?_, ?_, hrest⟩
  case kind => cases s.treeKind <;> rfl
  all_goals rw [statusWord_getLsbD]; simp [State.irq]

/-! ## CODE_WORD -/

/-- Of the number that n bits spell, the first one foremost, binary digit n − 1 − j is bit j. -/
theorem testBit_foldl_digits (b : Nat → Bool) (n j : Nat) (hj : j < n) :
    ((List.range n).foldl (fun acc k => 2 * acc + (b k).toNat) 0).testBit (n - 1 - j) = b j := by
  induction n with
  | zero => omega
  | succ n ih =>
    rw [List.range_succ, List.foldl_append, List.foldl_cons, List.foldl_nil]
    by_cases hlast : j = n
    · subst hlast
      cases b j <;> simp [Nat.testBit_zero]
    · have hhalf : ∀ v, (2 * v + (b n).toNat) / 2 = v := fun v => by
        have := Bool.toNat_lt (b n)
        omega
      rw [show n + 1 - 1 - j = (n - 1 - j) + 1 by omega, Nat.testBit_succ, hhalf]
      exact ih (by omega)

/-- Settles O24: the fold of `codeWordValue` puts code bit j of the word at bit 31 − j. -/
theorem codeWordShowsTheCodeMsbFirst : Obligations.CodeWordShowsTheCodeMsbFirst := by
  intro s j hidle hj
  rw [regRead_exact (r := .codeWord) (by decide) (.inl hidle), exactRead, codeWordValue,
    BitVec.getLsbD_ofNat, testBit_foldl_digits _ 32 j hj, decide_eq_true (by omega : 31 - j < 32)]
  exact Bool.true_and _

/-! ## The NODE_* windows -/

/-- NODE_INFO of a Leaf, from its fields: VALID, the symbol and KIND (R52). -/
theorem nodeInfo_fields (b : Byte) :
    flagAt 0 true ||| (b.setWidth 32 <<< 8) ||| 0x80000000#32 = 0x80#8 ++ 0#8 ++ b ++ 0x01#8 := by
  have hkind : 0x01#8 = BitVec.twoPow 8 0 := rfl
  have hvalid : 0x80#8 = BitVec.twoPow 8 7 := rfl
  have hflag : 0x80000000#32 = flagAt 31 true := rfl
  rw [hkind, hvalid, hflag]
  ext k hk
  have hpast : 8 ≤ k - 8 → b.getLsbD (k - 8) = false := BitVec.getLsbD_of_ge b (k - 8)
  have h0 := flagAt_getLsbD 0 k true (by decide)
  have h31 := flagAt_getLsbD 31 k true (by decide)
  simp only [← BitVec.getLsbD_eq_getElem, BitVec.getLsbD_or, BitVec.getLsbD_setWidth,
    BitVec.getLsbD_shiftLeft, BitVec.getLsbD_append, BitVec.getLsbD_zero, BitVec.getLsbD_twoPow, h0, h31]
  grind

/-- NODE_CHILD from its fields: LEFT in the low half and RIGHT in the high one (R54). -/
theorem nodeChild_fields (l r : BitVec 9) :
    l.setWidth 32 ||| (r.setWidth 32 <<< 16) = 0#7 ++ r ++ 0#7 ++ l := by
  ext k hk
  have hl : 9 ≤ k → l.getLsbD k = false := BitVec.getLsbD_of_ge l k
  have hr : 9 ≤ k - 16 → r.getLsbD (k - 16) = false := BitVec.getLsbD_of_ge r (k - 16)
  simp only [← BitVec.getLsbD_eq_getElem, BitVec.getLsbD_or, BitVec.getLsbD_setWidth,
    BitVec.getLsbD_shiftLeft, BitVec.getLsbD_append, BitVec.getLsbD_zero]
  grind

theorem nodeChildValue_of_ge {s : State} (h : s.nnodes ≤ s.sel.toNat) : nodeChildValue s = 0 := by
  unfold nodeChildValue
  split
  · rfl
  · exact if_neg (Nat.not_lt.2 h)

/-- Settles O25, from the values of the three windows at each kind of node. -/
theorem nodeWindowsShowTheSelectedNode : Obligations.NodeWindowsShowTheSelectedNode := by
  intro s hidle
  have info : regRead 0x50 s = nodeInfoValue s := regRead_exact (r := .nodeInfo) (by decide) (.inl hidle)
  have weight : regRead 0x54 s =
      if selNode s < s.nnodes then BitVec.ofNat 32 (nodeGet s.node (selNode s)).weight else 0 :=
    regRead_exact (r := .nodeWeight) (by decide) (.inl hidle)
  have child : regRead 0x58 s = nodeChildValue s :=
    regRead_exact (r := .nodeChild) (by decide) (.inl hidle)
  rw [info, weight, child, nodeInfoValue, selNode]
  refine ⟨fun hpast => ?past, fun b w hi hn => ?leaf, fun w l r hi hn => ?internal⟩
  case past =>
    rw [if_neg (Nat.not_lt.2 hpast), if_neg (Nat.not_lt.2 hpast), nodeChildValue_of_ge hpast]
    exact ⟨rfl, rfl, rfl⟩
  case leaf =>
    rw [if_pos hi, if_pos hi, nodeChildValue, selNode, hn]
    exact ⟨nodeInfo_fields b, rfl, rfl⟩
  case internal =>
    rw [if_pos hi, if_pos hi, nodeChildValue, selNode, hn]
    have hinfo : flagAt 0 false ||| ((0#8).setWidth 32 <<< 8) ||| 0x80000000#32 = 0x80000000#32 := by
      decide
    exact ⟨hinfo, rfl, (if_pos hi).trans (nodeChild_fields _ _)⟩

end Sys2Proof.Machine
end

section
/-! Proofs of the memory family (20_memory.md): the host's accesses, legal and not, and the reserved offsets (R81, R87,
R90, R91). -/

namespace Sys2Proof.Machine

/-! ## One event -/

theorem step_of_script {s : State} {e : Event} {rest : List Event} (hs : s.script = e :: rest) :
    step s = eventTurn e { s with script := rest } := by
  rw [step, stepScript, hs]

/-- The accesses of the HCC are the aligned 32-bit ones (R81, R87). -/
theorem accessFault_eq_none_iff (w : Nat) (off : Offset) :
    accessFault w off = none ↔ off.toNat % 4 = 0 ∧ w = 32 := by
  unfold accessFault
  split
  next halign => simp [halign]
  next halign =>
    split
    next hwidth => simp [hwidth]
    next hwidth => simpa using And.intro (not_not.1 halign) (not_not.1 hwidth)

/-- Settles O7: the access is at fault, so that neither a write nor a read of it has a step. -/
theorem accessOfAnotherFormHasNoStep : Obligations.AccessOfAnotherFormHasNoStep := by
  intro s w off v rest hs hform t ht
  cases hf : accessFault w off with
  | none =>
    obtain ⟨halign, hwidth⟩ := (accessFault_eq_none_iff w off).1 hf
    exact hform.elim (absurd halign) (absurd hwidth)
  | some f =>
    rcases hs with hs | hs
    · rw [step_of_script hs, eventTurn, writeTurn, hf] at ht
      cases ht
    · rw [step_of_script hs, eventTurn, readStep, hf] at ht
      cases ht

/-! ## The script under a step -/

theorem coreTurn_script (s : State) : (coreTurn s).script = s.script := by
  have h : coreTurn s = side s.script s.ticks (coreTurn s) := coreTurn_side s s.script s.ticks
  rw [h]
  rfl

theorem sinkTurn_script (s : State) : (sinkTurn s).script = s.script := by
  have h : sinkTurn s = side s.script s.ticks (sinkTurn s) := sinkTurn_side s s.script s.ticks
  rw [h]
  rfl

theorem regWrite_script (off : Offset) (v : Word) (s : State) : (regWrite off v s).script = s.script := by
  obtain ⟨d, i, e, x, w, hw⟩ := regWrite_frame off v s
  rw [hw]

/-- A command word always has its turn, and the script goes on after it (R310). -/
theorem commandTurn_next (v : Word) (s : State) :
    ∃ u, exec (decode v) { s with script := [] } = .next u ∧
      commandTurn v s = .next { u with script := s.script } := by
  obtain ⟨u, hu⟩ := exec_next (decode v) { s with script := [] }
  exact ⟨u, hu, by rw [commandTurn, hu]⟩

theorem writeTurn_legal {w : Nat} {off : Offset} (h : accessFault w off = none) (v : Word) (s : State) :
    writeTurn w off v s = if off = cmdOffset then commandTurn v s else .next (regWrite off v s) := by
  rw [writeTurn, h]

theorem writeTurn_next {w : Nat} {off : Offset} (h : accessFault w off = none) (v : Word) (s : State) :
    ∃ t, writeTurn w off v s = .next t ∧ t.script = s.script := by
  rw [writeTurn_legal h]
  split
  · obtain ⟨u, _, hturn⟩ := commandTurn_next v s
    exact ⟨_, hturn, rfl⟩
  · exact ⟨_, rfl, regWrite_script off v s⟩

theorem readStep_legal {w : Nat} {off : Offset} (h : accessFault w off = none) (s : State) :
    readStep w off s = .next (readTurn off s) := by
  rw [readStep, h]

/-- A poll leaves the script as it is, or puts turns and the poll before it (R122). -/
theorem pollTurn_script (c : PollFor) (s : State) :
    (pollTurn c s).script = s.script ∨ (pollTurn c s).script = .core :: .take :: .poll c :: s.script := by
  cases c with
  | idle =>
    simp only [pollTurn]
    split
    · exact .inr rfl
    · exact .inl rfl
  | irq =>
    simp only [pollTurn]
    split
    · exact .inl rfl
    · exact .inr rfl

/-- A legal event has its turn, after which the script has legal events only (R91). -/
theorem eventTurn_legal {e : Event} {s : State} (he : accessLegal e = true)
    (hs : scriptLegal s.script = true) :
    ∃ t, eventTurn e s = .next t ∧ scriptLegal t.script = true := by
  cases e with
  | write w off v =>
    obtain ⟨t, ht, hscript⟩ := writeTurn_next (Option.isNone_iff_eq_none.1 he) v (tick s)
    exact ⟨t, ht, by rw [hscript]; exact hs⟩
  | read w off => exact ⟨_, readStep_legal (Option.isNone_iff_eq_none.1 he) s, hs⟩
  | send it => exact ⟨_, rfl, hs⟩
  | withdraw => exact ⟨_, rfl, hs⟩
  | take => exact ⟨_, rfl, by rw [sinkTurn_script]; exact hs⟩
  | core => exact ⟨_, rfl, by rw [coreTurn_script]; exact hs⟩
  | reset => exact ⟨_, rfl, hs⟩
  | poll c =>
    refine ⟨_, rfl, ?_⟩
    rcases pollTurn_script c s with e | e <;> rw [e] <;> exact hs

/-- Settles O8: the script's next event has its turn (`eventTurn_legal`); with an empty script the core has. -/
theorem legalScriptNeverSticks : Obligations.LegalScriptNeverSticks := by
  intro s hlegal
  cases hs : s.script with
  | nil =>
    refine ⟨coreTurn (tick s), by rw [step, stepScript, hs], ?_⟩
    rw [coreTurn_script]
    exact hlegal
  | cons e rest =>
    rw [hs, scriptLegal, List.all_cons, Bool.and_eq_true] at hlegal
    obtain ⟨he, hrest⟩ := hlegal
    rw [step_of_script hs]
    exact eventTurn_legal he hrest

/-! ## Reserved offsets -/

/-- No register stands at 0x5C or above (R89). -/
theorem regAt_reserved {off : Offset} (h : 0x5C ≤ off.toNat) : regAt off = none := by
  refine List.find?_eq_none.2 fun r _ hr => ?_
  have hoff : r.offset.toNat < 0x5C := by cases r <;> decide
  rw [eq_of_beq hr] at hoff
  exact absurd hoff (Nat.not_lt.2 h)

/-- Settles O20: no register stands at the offset, so that a read gives 0 and a write leaves the state. -/
theorem reservedOffsetsReadZeroIgnoreWrites : Obligations.ReservedOffsetsReadZeroIgnoreWrites := by
  intro s off v rest hres halign
  have hlegal : accessFault 32 off = none := (accessFault_eq_none_iff 32 off).2 ⟨halign, rfl⟩
  have hreg : regAt off = none := regAt_reserved hres
  refine ⟨fun hs => ?read, fun hs => ?write⟩
  case read =>
    have hzero : regRead off { s with script := rest } = 0 := by rw [regRead, hreg]
    rw [step_of_script hs, eventTurn, readStep_legal hlegal, readTurn, hzero]
  case write =>
    have hcmd : off ≠ cmdOffset := by rintro rfl; exact absurd hres (by decide)
    rw [step_of_script hs, eventTurn, writeTurn_legal hlegal, if_neg hcmd, regWrite, hreg]
    rfl

end Sys2Proof.Machine
end

section
/-! Proofs of the memory family (20_memory.md): what the reads of the packed registers show (R89; 10_state.md R33, R34,
R36 to R50). -/

namespace Sys2Proof.Machine

/-! ## Words of one and of two fields -/

/-- A word that holds one field, at its low end. -/
theorem extract_setWidth {n : Nat} (a : BitVec n) (h : n ≤ 32) (m : Nat) :
    (a.setWidth 32).extractLsb' 0 n = a ∧ (a.setWidth 32).extractLsb' n m = 0#m := by
  constructor <;> ext j hj
  · have hj32 : j < 32 := by omega
    simp [← BitVec.getLsbD_eq_getElem, hj, hj32]
  · simp [← BitVec.getLsbD_eq_getElem]

section
variable {n m : Nat} (a : BitVec n) (b : BitVec m) (k : Nat)

/-- The word that holds one field at its low end and one from bit k on. -/
def packed : Word := a.setWidth 32 ||| (b.setWidth 32 <<< k)

theorem packed_getLsbD {j : Nat} (hj : j < 32) :
    (packed a b k).getLsbD j = (a.getLsbD j || !decide (j < k) && b.getLsbD (j - k)) := by
  have hjk : j - k < 32 := by omega
  simp [packed, hj]

variable {k}

theorem packed_low (hn : n ≤ k) (hm : k + m ≤ 32) : (packed a b k).extractLsb' 0 n = a := by
  ext j hj
  rw [← BitVec.getLsbD_eq_getElem, BitVec.getLsbD_extractLsb', packed_getLsbD a b k (by omega)]
  simp [← BitVec.getLsbD_eq_getElem, hj]
  omega

theorem packed_high (hn : n ≤ k) (hm : k + m ≤ 32) : (packed a b k).extractLsb' k m = b := by
  ext j hj
  have ha : a.getLsbD (k + j) = false := a.getLsbD_of_ge (k + j) (by omega)
  rw [← BitVec.getLsbD_eq_getElem, BitVec.getLsbD_extractLsb', packed_getLsbD a b k (by omega)]
  simp [← BitVec.getLsbD_eq_getElem, hj, ha]

/-- Bits that neither field holds are 0. -/
theorem packed_zero {i l : Nat} (hm : k + m ≤ 32) (hi : n ≤ i)
    (hl : i + l ≤ k ∨ k + m ≤ i ∧ i + l ≤ 32) :
    (packed a b k).extractLsb' i l = 0#l := by
  ext j hj
  have ha : a.getLsbD (i + j) = false := a.getLsbD_of_ge (i + j) (by omega)
  rw [← BitVec.getLsbD_eq_getElem, BitVec.getLsbD_extractLsb', packed_getLsbD a b k (by omega), ha]
  rcases hl with hl | hl
  · have hk : i + j < k := by omega
    simp [hk]
  · have hb : b.getLsbD (i + j - k) = false := b.getLsbD_of_ge (i + j - k) (by omega)
    simp [hb]

end

/-- A flag is a field of one bit. -/
theorem flagAt_eq (k : Nat) (x : Bool) : flagAt k x = (BitVec.ofBool x).setWidth 32 <<< k := by
  apply BitVec.eq_of_toNat_eq
  cases x <;> simp [flagAt, Nat.shiftLeft_eq]

/-! ## The registers -/

/-- IRQ_EN shows its two bits (R38). -/
theorem irqEn_fields (d e : Bool) :
    (flagAt 0 d ||| flagAt 1 e).getLsbD 0 = d ∧ (flagAt 0 d ||| flagAt 1 e).getLsbD 1 = e ∧
      (flagAt 0 d ||| flagAt 1 e).extractLsb' 2 30 = 0#30 := by
  have bit (j : Nat) : (flagAt 0 d ||| flagAt 1 e).getLsbD j =
      (decide (j = 0) && d || decide (j = 1) && e) := by
    rw [BitVec.getLsbD_or, flagAt_getLsbD 0 j d (by decide), flagAt_getLsbD 1 j e (by decide)]
  refine ⟨by rw [bit]; simp, by rw [bit]; simp, ?_⟩
  ext j hj
  have hpast : 2 + j ≠ 1 := by omega
  rw [← BitVec.getLsbD_eq_getElem, BitVec.getLsbD_extractLsb', bit]
  simp [hpast]

/-- ROOT shows ROOT_IDX in its low bits and ROOT_VALID in bit 31 (R41). -/
theorem root_fields (i : BitVec 9) (x : Bool) :
    (i.setWidth 32 ||| flagAt 31 x).extractLsb' 0 9 = i ∧
      (i.setWidth 32 ||| flagAt 31 x).extractLsb' 9 22 = 0#22 ∧
      (i.setWidth 32 ||| flagAt 31 x).getLsbD 31 = x := by
  have hvalid : (i.setWidth 32 ||| flagAt 31 x).getLsbD 31 = x := by
    rw [BitVec.getLsbD_or, flagAt_getLsbD 31 31 x (by decide)]
    simp
  refine ⟨?_, ?_, hvalid⟩
  · rw [flagAt_eq]; exact packed_low i _ (by decide) (by decide)
  · rw [flagAt_eq]; exact packed_zero i _ (by decide) (by decide) (by decide)

theorem toNat_setWidth_ofNat {n v : Nat} (hn : n ≤ 32) (h : v < 2 ^ n) :
    ((BitVec.ofNat n v).setWidth 32).toNat = v := by
  rw [BitVec.toNat_setWidth_of_le hn, BitVec.toNat_ofNat, Nat.mod_eq_of_lt h]

theorem toNat_ofNat_of_lt {v : Nat} (h : v < 2 ^ 32) : (BitVec.ofNat 32 v).toNat = v := by
  rw [BitVec.toNat_ofNat, Nat.mod_eq_of_lt h]

/-- PBITS_LO and PBITS_HI together (R45). -/
theorem pbits_words {v : Nat} (h : v < 2 ^ 40) :
    (BitVec.ofNat 32 v).toNat + 2 ^ 32 * ((BitVec.ofNat 8 (v / 2 ^ 32)).setWidth 32).toNat = v := by
  rw [toNat_setWidth_ofNat (by decide) (by omega), BitVec.toNat_ofNat]
  exact Nat.mod_add_div v (2 ^ 32)

/-- Settles O23: each register is its fields put together, from which they are read back. -/
theorem packedRegistersShowTheirFields : Obligations.PackedRegistersShowTheirFields := by
  intro s
  constructor
  · have shown {off : Offset} {r : Reg} (hreg : regAt off = some r) (h : r.hiddenWhileBusy = false) :
        regRead off s = exactRead r s := regRead_exact hreg (.inr h)
    rw [shown (r := .id) (by decide) rfl, shown (r := .cmd) (by decide) rfl,
      shown (r := .err) (by decide) rfl, shown (r := .errPos) (by decide) rfl,
      shown (r := .irqEn) (by decide) rfl, shown (r := .inCount) (by decide) rfl,
      shown (r := .outCount) (by decide) rfl, shown (r := .sel) (by decide) rfl,
      shown (r := .codeWsel) (by decide) rfl]
    have hcause := packed_low s.cause.code s.errOp (k := 8) (by decide) (by decide)
    refine ⟨rfl, extract_setWidth s.cmdOp (by decide) 28, ⟨hcause.trans ?_, ?errOp, ?reserved⟩, rfl,
      irqEn_fields s.doneIe s.errIe, rfl, rfl, extract_setWidth s.sel (by decide) 23,
      extract_setWidth s.codeWsel (by decide) 29⟩
    · cases s.cause <;> rfl
    case errOp => exact packed_high s.cause.code s.errOp (by decide) (by decide)
    case reserved => exact packed_zero s.cause.code s.errOp (k := 8) (by decide) (by decide) (by decide)
  · intro hidle
    have idle {off : Offset} {r : Reg} (hreg : regAt off = some r) : regRead off s = exactRead r s :=
      regRead_exact hreg (.inl hidle)
    rw [idle (r := .nsym) (by decide), idle (r := .nnodes) (by decide), idle (r := .root) (by decide),
      idle (r := .scanTotal) (by decide), idle (r := .pbitsLo) (by decide),
      idle (r := .pbitsHi) (by decide), idle (r := .pad) (by decide), idle (r := .freqData) (by decide),
      idle (r := .codeLen) (by decide)]
    refine ⟨toNat_setWidth_ofNat (n := 9) (by decide), toNat_setWidth_ofNat (n := 10) (by decide),
      root_fields _ _, toNat_ofNat_of_lt, pbits_words, ⟨?encPad, ?hdrPad, ?between, ?above⟩, toNat_ofNat_of_lt,
      fun hlen => ?codeLen⟩
    case encPad => exact packed_low s.encPad s.hdrPad (k := 8) (by decide) (by decide)
    case hdrPad => exact packed_high s.encPad s.hdrPad (by decide) (by decide)
    case between => exact packed_zero s.encPad s.hdrPad (k := 8) (by decide) (by decide) (by decide)
    case above => exact packed_zero s.encPad s.hdrPad (k := 8) (by decide) (by decide) (by decide)
    case codeLen =>
      simp only [exactRead]
      split
      · exact toNat_ofNat_of_lt hlen
      · rfl

end Sys2Proof.Machine
end

section
/-! Proofs of the memory family (20_memory.md): the streams. What one turn of the core does with them is said once
here, for every place of every rule (R82, R83, R94). -/

namespace Sys2Proof.Machine

/-! ## Work that no output waits for -/

/-- The state with another output: other bytes offered and taken, and another count (R83). -/
def withOutput (o r : List Byte) (c : Word) (s : State) : State :=
  { s with out := o, outRec := r, outCount := c }

/-- The input's side of the state, with the parameters. -/
def inputSide (s : State) : Params × List Item × Word × Nat := (s.params, s.inQ, s.inCount, s.pos)

/-- From s to t no item is consumed, and pos starts again only where a composite's next phase does (R31, R311). -/
structure ReadsNothing (s t : State) : Prop where
  params : t.params = s.params
  queue : t.inQ = s.inQ
  count : t.inCount = s.inCount
  pos : t.pos = s.pos ∨
    (t.pos = 0 ∧ t.point = .atStart ∧ ∃ op ph, s.opstate = .run op ph ∧ ph < lastPhase op)

/-- t is what some work makes of s, reading nothing, and u what it makes of s with the output o, r, c: the two differ
in the output alone, so that the work depends on none (R95). -/
structure Blind (o r : List Byte) (c : Word) (s t u : State) : Prop where
  reads : ReadsNothing s t
  same : u = withOutput o r c t

section
variable {o r : List Byte} {c : Word} {s t u : State}

theorem ReadsNothing.of_eq (h : inputSide t = inputSide s) : ReadsNothing s t := by
  simp only [inputSide, Prod.mk.injEq] at h
  obtain ⟨hparams, hqueue, hcount, hpos⟩ := h
  exact ⟨hparams, hqueue, hcount, .inl hpos⟩

theorem ReadsNothing.rebase {v : State} (h : ReadsNothing v t) (e : inputSide v = inputSide s)
    (hop : v.opstate = s.opstate) : ReadsNothing s t := by
  simp only [inputSide, Prod.mk.injEq] at e
  obtain ⟨hparams, hqueue, hcount, hpos⟩ := e
  exact ⟨h.params.trans hparams, h.queue.trans hqueue, h.count.trans hcount, hpos ▸ hop ▸ h.pos⟩

theorem Blind.silent (h : inputSide t = inputSide s) : Blind o r c s t (withOutput o r c t) :=
  ⟨.of_eq h, rfl⟩

theorem Blind.rebase {v : State} (h : Blind o r c v t u) (e : inputSide v = inputSide s)
    (hop : v.opstate = s.opstate) : Blind o r c s t u :=
  ⟨h.reads.rebase e hop, h.same⟩

theorem Blind.ite {p : Prop} [Decidable p] {t' u' : State} (h : Blind o r c s t u)
    (h' : Blind o r c s t' u') : Blind o r c s (if p then t else t') (if p then u else u') := by
  split
  · exact h
  · exact h'

end

theorem readsNothing_finish (s : State) : ReadsNothing s (finish s) := by
  rcases finish_cases s with ⟨_, e⟩ | ⟨op, ph, hop, hph, e⟩ | ⟨op, ph, _, _, e⟩ <;> rw [e]
  · exact .of_eq rfl
  · exact ⟨rfl, rfl, rfl, .inr ⟨rfl, rfl, op, ph, hop, hph⟩⟩
  · exact .of_eq rfl

section
variable (o r : List Byte) (c : Word) (s : State)

theorem blind_finish : Blind o r c s (finish s) (finish (withOutput o r c s)) := by
  refine ⟨readsNothing_finish s, ?_⟩
  simp only [finish, withOutput]
  split
  · rfl
  · split <;> rfl

theorem blind_genStart : Blind o r c s (genStart s) (genStart (withOutput o r c s)) := by
  simp only [genStart, withOutput]
  split <;> exact .silent rfl

theorem blind_startTurn (p : Prim) :
    Blind o r c s (startTurn p s) (startTurn p (withOutput o r c s)) := by
  cases p with
  | nop => exact blind_finish o r c s
  | scan => exact .silent rfl
  | build => exact .silent rfl
  | gencode => exact blind_genStart o r c s
  | emitHeader => exact .ite (.silent rfl) (.ite (blind_finish o r c s) (.silent rfl))
  | pack => exact .ite (.silent rfl) (.silent rfl)
  | parseHeader => exact .silent rfl
  | unpack => exact .ite (.silent rfl) (.ite (blind_finish o r c s) (.silent rfl))

theorem blind_scanItem (it : Item) (ipos : Nat) :
    Blind o r c s (scanItem it ipos s) (scanItem it ipos (withOutput o r c s)) := by
  cases it with
  | eos => exact blind_finish o r c s
  | byte b => exact .ite (.silent rfl) (.silent rfl)

theorem blind_buildMerge : Blind o r c s (buildMerge s) (buildMerge (withOutput o r c s)) := by
  simp only [buildMerge, withOutput]
  split
  · exact (blind_finish o r c { s with treeKind := .emptyTree }).rebase rfl rfl
  next l pq1 _ =>
    split
    · exact (blind_finish o r c
        { s with pq := [], rootIdx := l, rootValid := true, treeKind := kindOfTree s.nsym }).rebase rfl rfl
    · exact .silent rfl

theorem blind_genWalk : Blind o r c s (genWalk s) (genWalk (withOutput o r c s)) := by
  simp only [genWalk, withOutput]
  split
  next =>
    exact (blind_finish o r c { s with
      pbits := payloadBits s.freq s.len, encPad := padOfBits (payloadBits s.freq s.len),
      codesValid := true }).rebase rfl rfl
  next =>
    simp only [assignNode]
    split <;> exact .silent rfl
  all_goals exact .silent rfl

theorem blind_parseMarker (nint : Nat) (it : Item) (ipos : Nat) :
    Blind o r c s (parseMarker nint it ipos s) (parseMarker nint it ipos (withOutput o r c s)) := by
  cases it with
  | eos => exact .silent rfl
  | byte m => exact .ite (.silent rfl) (.ite (.ite (.silent rfl) (.silent rfl)) (.silent rfl))

theorem blind_parseFirst (it : Item) (ipos : Nat) :
    Blind o r c s (parseFirst it ipos s) (parseFirst it ipos (withOutput o r c s)) := by
  cases it with
  | eos => exact .silent rfl
  | byte m => exact blind_parseMarker o r c s 0 (.byte m) ipos

theorem blind_parseLeaf (nint : Nat) (b : Byte) :
    Blind o r c s (parseLeaf nint b s) (parseLeaf nint b (withOutput o r c s)) := by
  simp only [parseLeaf, withOutput]
  split <;> exact .silent rfl

theorem blind_parseSymbol (nint : Nat) (it : Item) (ipos : Nat) :
    Blind o r c s (parseSymbol nint it ipos s) (parseSymbol nint it ipos (withOutput o r c s)) := by
  cases it with
  | eos => exact .silent rfl
  | byte b => exact .ite (.silent rfl) (blind_parseLeaf o r c s nint b)

theorem blind_parseSentinel (root : Nat) (it : Item) (ipos : Nat) :
    Blind o r c s (parseSentinel root it ipos s)
      (parseSentinel root it ipos (withOutput o r c s)) := by
  cases it with
  | eos => exact .silent rfl
  | byte b => exact .ite (.silent rfl) (.silent rfl)

theorem blind_parsePad (root : Nat) (it : Item) (ipos : Nat) :
    Blind o r c s (parsePad root it ipos s) (parsePad root it ipos (withOutput o r c s)) := by
  cases it with
  | eos => exact .silent rfl
  | byte b => exact .ite (.silent rfl) (.silent rfl)

theorem blind_packItem (n nb : Nat) (it : Item) (ipos : Nat) :
    Blind o r c s (packItem n nb it ipos s) (packItem n nb it ipos (withOutput o r c s)) := by
  cases it with
  | eos => exact .ite (.silent rfl) (.silent rfl)
  | byte b => exact .ite (.silent rfl) (.ite (.silent rfl) (.silent rfl))

theorem blind_unpackFirst (it : Item) (ipos : Nat) :
    Blind o r c s (unpackFirst it ipos s) (unpackFirst it ipos (withOutput o r c s)) := by
  cases it <;> exact .silent rfl

theorem blind_unpackNext (lpos : Nat) (it : Item) (ipos : Nat) :
    Blind o r c s (unpackNext lpos it ipos s) (unpackNext lpos it ipos (withOutput o r c s)) := by
  cases it <;> exact .silent rfl

theorem blind_unpackEnd (b : Byte) (cpos : Nat) :
    Blind o r c s (unpackEnd b cpos s) (unpackEnd b cpos (withOutput o r c s)) :=
  .ite (.silent rfl) (.ite (.silent rfl) ((blind_finish o r c { s with cur := 0 }).rebase rfl rfl))

theorem blind_flushed : Blind o r c s (flushed s) (flushed (withOutput o r c s)) :=
  (blind_finish o r c { s with acc := 0, nacc := 0 }).rebase rfl rfl

end

/-! ## What one turn can do with the streams -/

/-- What the core's turn f can do with the streams at s: it holds, consumes the front item, or offers the bytes bs,
which fit, in work that is the same whatever output is held and taken (R82, R83, R95). -/
inductive Turn (f : State → State) (s : State) : Prop where
  | holds (same : f s = s)
  | consumes (it : Item) (q : List Item) (queue : s.inQ = it :: q) (item : s.item = none)
      (works : ∀ o r c, f (withOutput o r c s) = withOutput o r c
        { s with
          inQ := q, item := some (it, s.pos), pos := s.pos + 1,
          inCount := s.inCount + BitVec.ofNat 32 (byteCount [it]) })
  | offers (bs : List Byte) (t : State) (reads : ReadsNothing s t)
      (room : bs = [] ∨ s.out.length + bs.length ≤ s.params.outBuf)
      (works : ∀ o r c, o.length ≤ s.out.length →
        f (withOutput o r c s) = withOutput (o ++ bs) r c t)

/-- IN_COUNT counts the bytes (R42). -/
theorem countIn_eq (it : Item) (n : Word) : countIn it n = n + BitVec.ofNat 32 (byteCount [it]) := by
  cases it with
  | byte b => rfl
  | eos => exact (BitVec.add_zero n).symm

section
variable {f g : State → State} {s : State}

theorem Turn.blind (h : ∀ o r c, Blind o r c s (f s) (f (withOutput o r c s))) : Turn f s :=
  .offers [] (f s) (h s.out s.outRec s.outCount).reads (.inl rfl) fun o r c _ => by
    rw [(h o r c).same, List.append_nil]

/-- The turn is that of the function it branches to. -/
theorem Turn.congr (hg : Turn g s) (h : ∀ o r c, f (withOutput o r c s) = g (withOutput o r c s)) :
    Turn f s := by
  have hself : f s = g s := h s.out s.outRec s.outCount
  cases hg with
  | holds same => exact .holds (hself.trans same)
  | consumes it q queue item works =>
    exact .consumes it q queue item fun o r c => (h o r c).trans (works o r c)
  | offers bs t reads room works =>
    exact .offers bs t reads room fun o r c ho => (h o r c).trans (works o r c ho)

/-- `OutWrite` holds, or offers its byte and goes on with work that no output waits for. -/
theorem Turn.offer (b : Byte) {k : State → State}
    (hk : ∀ o r c, Blind o r c s (k s) (k (withOutput o r c s))) : Turn (offer b k) s := by
  rcases offer_cases b k s with ⟨_, e⟩ | ⟨hroom, _⟩
  · exact .holds e
  · refine .offers [b] (k s) (hk [] [] 0).reads (.inr hroom) fun o r c ho => ?_
    rw [← (hk (o ++ [b]) r c).same]
    exact if_pos (Nat.lt_of_le_of_lt ho hroom)

theorem awaitItem_of_none {k : Item → Nat → State → State} (h : s.item = none) :
    awaitItem k s = receive s := by
  rw [awaitItem, h]

theorem awaitItem_of_some {k : Item → Nat → State → State} {it : Item} {ipos : Nat}
    (h : s.item = some (it, ipos)) : awaitItem k s = k it ipos { s with item := none } := by
  rw [awaitItem, h]

theorem receive_of_cons {it : Item} {q : List Item} (h : s.inQ = it :: q) :
    receive s =
      { s with inQ := q, item := some (it, s.pos), pos := s.pos + 1, inCount := countIn it s.inCount } := by
  rw [receive, h]

/-- `InRead` holds, consumes the front item, or hands the item it has to work that no output waits for. -/
theorem Turn.awaitItem {k : Item → Nat → State → State}
    (hk : ∀ o r c t it ipos, Blind o r c t (k it ipos t) (k it ipos (withOutput o r c t))) :
    Turn (awaitItem k) s := by
  rcases awaitItem_cases k s with ⟨_, _, e⟩ | ⟨it, q, hitem, hq, _⟩ | ⟨it, ipos, hitem, _⟩
  · exact .holds e
  · refine .consumes it q hq hitem fun o r c => ?_
    rw [← countIn_eq]
    exact (awaitItem_of_none (s := withOutput o r c s) hitem).trans (receive_of_cons hq)
  · refine .congr (g := fun t => k it ipos { t with item := none })
      (.blind fun o r c => (hk o r c { s with item := none } it ipos).rebase rfl rfl) fun o r c => ?_
    exact awaitItem_of_some (s := withOutput o r c s) hitem

end

/-! ## The turns that offer a byte -/

section
variable {s : State}

theorem serNode_of_leaf {i w : Nat} {b : Byte} (rest : List StackEntry)
    (h : nodeGet s.node i = .leaf b w) : serNode i rest s =
      offer leafMarker (fun t => { t with stack := rest, point := .emitSymbol b }) s := by
  rw [serNode, h]

theorem serNode_of_internal {i w l r : Nat} (rest : List StackEntry)
    (h : nodeGet s.node i = .internal w l r) : serNode i rest s =
      offer internalMarker (fun t => { t with stack := .ser l :: .ser r :: rest }) s := by
  rw [serNode, h]

theorem turn_serNode (i : Nat) (rest : List StackEntry) : Turn (serNode i rest) s := by
  cases hn : nodeGet s.node i with
  | leaf b w =>
    refine .congr ?_ fun o r c => serNode_of_leaf (s := withOutput o r c s) rest hn
    exact .offer _ fun o r c => .silent rfl
  | internal w l r' =>
    refine .congr ?_ fun o r c => serNode_of_internal (s := withOutput o r c s) rest hn
    exact .offer _ fun o r c => .silent rfl

theorem turn_emitNode : Turn emitNode s := by
  have hrun (o r c) : emitNode (withOutput o r c s) =
      match s.stack with
      | [] => { withOutput o r c s with point := .emitSentinel }
      | .ser i :: rest => serNode i rest (withOutput o r c s)
      | .assign _ _ :: rest => { withOutput o r c s with stack := rest }
      | .parseLeft _ :: rest => { withOutput o r c s with stack := rest }
      | .parseRight _ _ :: rest => { withOutput o r c s with stack := rest } := rfl
  cases hst : s.stack with
  | nil =>
    exact .congr (g := fun t => { t with point := .emitSentinel }) (.blind fun o r c => .silent rfl)
      fun o r c => by rw [hrun, hst]
  | cons e rest =>
    cases e with
    | ser i => exact .congr (turn_serNode i rest) fun o r c => by rw [hrun, hst]
    | _ =>
      exact .congr (g := fun t => { t with stack := rest }) (.blind fun o r c => .silent rfl)
        fun o r c => by rw [hrun, hst]

/-- The packer's channel holds a bit, or offers the byte that the bit fills (R250). -/
theorem turn_putBit (x : Bool) {k : State → State}
    (hk : ∀ o r c t, Blind o r c t (k t) (k (withOutput o r c t))) : Turn (putBit x k) s := by
  by_cases hfull : s.nacc = 7
  · refine .congr (g := offer (setMsbBit s.acc 7 x) fun t => k { t with acc := 0, nacc := 0 })
      (.offer _ fun o r c => (hk o r c { s with acc := 0, nacc := 0 }).rebase rfl rfl) fun o r c => ?_
    exact if_pos hfull
  · refine .congr (g := fun t => k { t with acc := setMsbBit s.acc s.nacc.toNat x, nacc := s.nacc + 1 })
      (.blind fun o r c =>
        (hk o r c { s with acc := setMsbBit s.acc s.nacc.toNat x, nacc := s.nacc + 1 }).rebase rfl rfl)
      fun o r c => ?_
    exact if_neg hfull

theorem turn_packBits (b : Byte) (j n nb : Nat) : Turn (packBits b j n nb) s := by
  by_cases hj : j < symGet s.len b
  · refine .congr (turn_putBit (bitAt (symGet s.bits b) j)
      (k := fun t => { t with point := .packBits b (j + 1) n nb })
      fun o r c t => .silent rfl) fun o r c => ?_
    exact if_pos hj
  · exact .congr (g := fun t => { t with point := .packRead (n + 1) (nb + symGet s.len b) })
      (.blind fun o r c => .silent rfl) fun o r c => if_neg hj

theorem turn_packFlush : Turn packFlush s := by
  by_cases hempty : s.nacc = 0
  · exact .congr (.blind fun o r c => blind_flushed o r c s) fun o r c => if_pos hempty
  · exact .congr (g := offer s.acc flushed) (.offer _ fun o r c => blind_flushed o r c s)
      fun o r c => if_neg hempty

theorem walkBit_of_leaf {x : Bool} {p w : Nat} {k : State → State} {b : Byte}
    (hkind : s.treeKind ≠ .leaf) (h : nodeGet s.node (childOf s.node s.cur x) = .leaf b w) :
    walkBit x p k s = offer b (fun t => k { t with cur := t.rootIdx, wstate := .atRoot }) s := by
  rw [walkBit, if_neg hkind, h]

theorem walkBit_of_internal {x : Bool} {p w l r : Nat} {k : State → State}
    (hkind : s.treeKind ≠ .leaf) (h : nodeGet s.node (childOf s.node s.cur x) = .internal w l r) :
    walkBit x p k s = k { s with cur := childOf s.node s.cur x, wstate := .descending } := by
  rw [walkBit, if_neg hkind, h]

/-- A bit of the walk is no code, offers a symbol, or goes down the tree (R281, R283). -/
theorem turn_walkBit (x : Bool) (p : Nat) {k : State → State}
    (hk : ∀ o r c t, Blind o r c t (k t) (k (withOutput o r c t))) : Turn (walkBit x p k) s := by
  by_cases hkind : s.treeKind = .leaf
  · cases x with
    | true =>
      exact .congr (g := raise .badCode p) (.blind fun o r c => .silent rfl) fun o r c => if_pos hkind
    | false =>
      exact .congr (g := offer (nodeGet s.node s.rootIdx).sym k) (.offer _ fun o r c => hk o r c s)
        fun o r c => if_pos hkind
  · cases hn : nodeGet s.node (childOf s.node s.cur x) with
    | leaf b w =>
      refine .congr ?_ fun o r c => walkBit_of_leaf (s := withOutput o r c s) hkind hn
      exact .offer b fun o r c => (hk o r c { s with cur := s.rootIdx, wstate := .atRoot }).rebase rfl rfl
    | internal w l r' =>
      refine .congr (g := fun t => k { t with cur := childOf s.node s.cur x, wstate := .descending })
        (.blind fun o r c => ?_) fun o r c => walkBit_of_internal (s := withOutput o r c s) hkind hn
      exact (hk o r c { s with cur := childOf s.node s.cur x, wstate := .descending }).rebase rfl rfl

theorem turn_unpackBits (b : Byte) (cpos : Nat) (last : Bool) (lpos j : Nat) :
    Turn (unpackBits b cpos last lpos j) s := by
  by_cases hj : j < validBits last s.hdrPad
  · refine .congr (turn_walkBit (msbBit b j) cpos
      (k := fun t => { t with point := .unpackBits b cpos last lpos (j + 1) })
      fun o r c t => .silent rfl) fun o r c => ?_
    exact if_pos hj
  · refine .congr (g := fun t => if last then unpackEnd b cpos { t with look := none }
      else { t with point := .unpackNext lpos }) (.blind fun o r c => ?_) fun o r c => if_neg hj
    exact .ite ((blind_unpackEnd o r c { s with look := none } b cpos).rebase rfl rfl) (.silent rfl)

/-- The two waits for the output hold while a byte is untaken (R311, R342). -/
theorem turn_of_wait {f done : State → State}
    (hf : ∀ t, f t = if t.out.isEmpty then done t else t)
    (hdone : ∀ o r c t, Blind o r c t (done t) (done (withOutput o r c t))) : Turn f s := by
  by_cases hout : s.out = []
  · refine .offers [] (done s) (hdone [] [] 0 s).reads (.inl rfl) fun o r c ho => ?_
    obtain rfl : o = [] := by simpa [hout] using ho
    rw [hf, List.append_nil, ← (hdone [] r c s).same]
    exact if_pos rfl
  · exact .holds ((hf s).trans (if_neg (by simpa using hout)))

/-- Every place of every rule: what a turn there can do with the streams. -/
theorem turn_pointTurn (p : Prim) (pt : Point) : Turn (pointTurn p pt) s := by
  cases pt with
  | atStart => exact .blind fun o r c => blind_startTurn o r c s p
  | scanRead => exact .awaitItem blind_scanItem
  | buildMerge => exact .blind fun o r c => blind_buildMerge o r c s
  | genWalk => exact .blind fun o r c => blind_genWalk o r c s
  | emitNode => exact turn_emitNode
  | emitSymbol b =>
    exact .offer b (k := fun t => { t with point := .emitNode }) fun o r c => .silent rfl
  | emitSentinel =>
    exact .offer sentinel (k := fun t => { t with point := .emitPad }) fun o r c => .silent rfl
  | emitPad =>
    exact .congr (g := offer (s.encPad.setWidth 8) finish) (.offer _ fun o r c => blind_finish o r c s)
      fun o r c => rfl
  | parseFirst => exact .awaitItem blind_parseFirst
  | parseMarker nint => exact .awaitItem fun o r c t => blind_parseMarker o r c t nint
  | parseSymbol nint => exact .awaitItem fun o r c t => blind_parseSymbol o r c t nint
  | parseSentinel root => exact .awaitItem fun o r c t => blind_parseSentinel o r c t root
  | parsePad root => exact .awaitItem fun o r c t => blind_parsePad o r c t root
  | parseDone =>
    exact .blind fun o r c => (blind_finish o r c { s with hdrParsed := true }).rebase rfl rfl
  | packRead n nb => exact .awaitItem fun o r c t => blind_packItem o r c t n nb
  | packBits b j n nb => exact turn_packBits b j n nb
  | packFlush => exact turn_packFlush
  | unpackFirst => exact .awaitItem blind_unpackFirst
  | unpackNext lpos => exact .awaitItem fun o r c t => blind_unpackNext o r c t lpos
  | unpackBits b cpos last lpos j => exact turn_unpackBits b cpos last lpos j
  | finishing => exact turn_of_wait (fun _ => rfl) fun o r c t => .silent rfl
  | raising e q =>
    exact turn_of_wait (done := enterError e p.code q) (fun _ => rfl) fun o r c t => .silent rfl

end

/-- What the core's turn can do with the streams, in every state. -/
theorem turn_coreTurn (s : State) : Turn coreTurn s := by
  cases hop : s.opstate with
  | idle => exact .holds (by rw [coreTurn, hop])
  | run op ph =>
    refine .congr (turn_pointTurn (currentPrim op ph) s.point) fun o r c => ?_
    rw [coreTurn, show (withOutput o r c s).opstate = .run op ph from hop]
    rfl

/-! ## The sink's timing and the output buffer -/

/-- Settles O54: a turn that does not hold does the same work with and without the untaken bytes. -/
theorem sinkTimingMakesNoDifference : Obligations.SinkTimingMakesNoDifference := by
  intro s
  have hself : withOutput s.out s.outRec s.outCount s = s := rfl
  have htaken : allTaken s =
      withOutput [] (s.outRec ++ s.out) (s.outCount + BitVec.ofNat 32 s.out.length) s := rfl
  cases turn_coreTurn s with
  | holds same => exact .inl same
  | consumes it q queue item works =>
    right
    rw [htaken, works, ← hself, works]
    simp [allTaken, withOutput]
  | offers bs t reads room works =>
    right
    have hs := works s.out s.outRec s.outCount le_rfl
    rw [hself] at hs
    rw [htaken, works [] _ _ (Nat.zero_le _), hs]
    simp [allTaken, withOutput, BitVec.ofNat_add, BitVec.add_assoc]

/-- What a turn of the core offers fits the buffer (R83). -/
theorem outputBounded_coreTurn {s : State} (h : outputBounded s) : outputBounded (coreTurn s) := by
  cases turn_coreTurn s with
  | holds same => rwa [same]
  | consumes it q queue item works =>
    rw [show coreTurn s = _ from works s.out s.outRec s.outCount]
    exact h
  | offers bs t reads room works =>
    rw [show coreTurn s = _ from works s.out s.outRec s.outCount le_rfl]
    show (s.out ++ bs).length ≤ t.params.outBuf
    rw [reads.params, List.length_append]
    rcases room with rfl | hroom
    · exact h
    · exact hroom

theorem outputBounded_closed : StepClosed outputBounded where
  script _ _ h := h
  ticks _ _ h := h
  log _ _ h := h
  core _ h := outputBounded_coreTurn h
  sink s h := by
    rcases sinkTurn_cases s with ⟨_, e⟩ | ⟨b, rest, hout, e⟩ <;> rw [e]
    · exact h
    · have hlen : rest.length + 1 ≤ s.params.outBuf := by simpa [outputBounded, hout] using h
      exact Nat.le_of_succ_le hlen
  send _ _ h := h
  withdraw _ h := h
  accept _ _ h _ := h
  illegal _ _ h _ := h
  refuse _ h := h
  clear s _ := Nat.zero_le s.params.outBuf
  reset s _ := Nat.zero_le s.params.outBuf
  write off v s h := by
    obtain ⟨d, i, e, x, w, hw⟩ := regWrite_frame off v s
    rw [hw]
    exact h

/-- Settles O55: every transaction keeps the bound, the core's turn because what it offers fits. -/
theorem outputBufferNeverOverflows : Obligations.OutputBufferNeverOverflows :=
  fun s t => outputBounded_closed.step s t

end Sys2Proof.Machine
end

section
/-! Proofs of the memory family (20_memory.md): no item and no byte is lost, duplicated or reordered, by a turn of the
core, a command's run and a step (R82, R83, R93, R94). -/

namespace Sys2Proof.Machine

/-! ## What a turn of the core does with each stream -/

theorem coreTurn_output (s : State) :
    (coreTurn s).outRec = s.outRec ∧ s.out <+: (coreTurn s).out := by
  cases turn_coreTurn s with
  | holds same => exact ⟨by rw [same], by rw [same]⟩
  | consumes it q queue item works =>
    rw [show coreTurn s = _ from works s.out s.outRec s.outCount]
    exact ⟨rfl, List.prefix_rfl⟩
  | offers bs t reads room works =>
    rw [show coreTurn s = _ from works s.out s.outRec s.outCount le_rfl]
    exact ⟨rfl, s.out.prefix_append bs⟩

/-- A turn reads nothing, or consumes the front item and does nothing else (R13, R82). -/
theorem coreTurn_input (s : State) : ReadsNothing s (coreTurn s) ∨
    ∃ it q, s.inQ = it :: q ∧ s.item = none ∧ coreTurn s =
      { s with
        inQ := q, item := some (it, s.pos), pos := s.pos + 1,
        inCount := s.inCount + BitVec.ofNat 32 (byteCount [it]) } := by
  cases turn_coreTurn s with
  | holds same => exact .inl (.of_eq (by rw [same]))
  | consumes it q queue item works =>
    exact .inr ⟨it, q, queue, item, works s.out s.outRec s.outCount⟩
  | offers bs t reads room works =>
    rw [show coreTurn s = _ from works s.out s.outRec s.outCount le_rfl]
    exact .inl ⟨reads.params, reads.queue, reads.count, reads.pos⟩

/-! ## The output that a command leaves -/

/-- What was taken and is offered stays where it is, and more can only follow it (R83). -/
structure KeepsOutput (s t : State) : Prop where
  stream : s.outRec ++ s.out <+: t.outRec ++ t.out
  taken : s.outRec <+: t.outRec

theorem KeepsOutput.of_eq {s t : State} (hrec : t.outRec = s.outRec) (hout : t.out = s.out) :
    KeepsOutput s t :=
  ⟨by rw [hrec, hout], by rw [hrec]⟩

theorem KeepsOutput.trans {s t u : State} (h : KeepsOutput s t) (h' : KeepsOutput t u) :
    KeepsOutput s u :=
  ⟨h.stream.trans h'.stream, h.taken.trans h'.taken⟩

theorem keepsOutput_coreTurn (s : State) : KeepsOutput s (coreTurn s) := by
  obtain ⟨hrec, hout⟩ := coreTurn_output s
  exact ⟨by rw [hrec]; exact (List.prefix_append_right_inj _).2 hout, by rw [hrec]⟩

/-- The sink's turn moves the oldest offered byte to the record and counts it (R43, R83). -/
theorem sinkTurn_output (s : State) :
    (sinkTurn s).outRec ++ (sinkTurn s).out = s.outRec ++ s.out ∧ (sinkTurn s).out = s.out.tail ∧
      (sinkTurn s).outCount = s.outCount + BitVec.ofNat 32 (s.out.length - (sinkTurn s).out.length) := by
  rcases sinkTurn_cases s with ⟨hout, e⟩ | ⟨b, rest, hout, e⟩ <;> rw [e]
  · simp [hout]
  · simp [hout]

theorem keepsOutput_sinkTurn (s : State) : KeepsOutput s (sinkTurn s) := by
  refine ⟨by rw [(sinkTurn_output s).1], ?_⟩
  rcases sinkTurn_cases s with ⟨_, e⟩ | ⟨b, rest, _, e⟩ <;> rw [e]
  exact s.outRec.prefix_append [b]

theorem keepsOutput_runCommand (op : Op) (s : State) : KeepsOutput s (runCommand op s) :=
  runCommand_of_runOf s (.of_eq rfl rfl) (fun _ => .of_eq rfl rfl)
    (fun _ _ h => h.trans (.of_eq rfl rfl)) (fun u h => h.trans (keepsOutput_sinkTurn u))
    (fun _ _ h => h.trans (.of_eq rfl rfl)) fun u _ _ _ h => h.trans (keepsOutput_coreTurn u)

theorem keepsOutput_illegalCommand (op : BitVec 4) (s : State) :
    KeepsOutput s (illegalCommand op s) := by
  unfold illegalCommand
  split <;> exact .of_eq rfl rfl

/-- Of the instructions only CLEAR takes back what was offered (R83, R313). -/
theorem keepsOutput_exec {i : Instr} {s t : State} (hclear : i ≠ .clear) (h : exec i s = .next t) :
    KeepsOutput s t := by
  cases i with
  | clear => exact absurd rfl hclear
  | nop =>
    cases h
    split
    · exact .trans (t := accept (.prim .nop) s) (.of_eq rfl rfl)
        ((keepsOutput_coreTurn _).trans (keepsOutput_coreTurn _))
    · exact .of_eq rfl rfl
  | illegalOpB rsv => cases h; exact keepsOutput_illegalCommand _ s
  | illegalOpCtoF lo rsv => cases h; exact keepsOutput_illegalCommand _ s
  | illegalReserved op rsv => cases h; exact keepsOutput_illegalCommand _ s
  | _ => cases h; exact keepsOutput_runCommand _ s

/-! ## The items that a command consumes -/

/-- From s to t, with the events ran between, the items consumed leave the queue at its front; IN_COUNT counts the
bytes among them and, in a command of one phase, pos all of them (R31, R42, R82). -/
structure Takes (op : Op) (ran : List Event) (consumed : List Item) (s t : State) : Prop where
  queue : s.inQ ++ sentItems ran = consumed ++ t.inQ
  count : t.inCount = s.inCount + BitVec.ofNat 32 (byteCount consumed)
  pos : lastPhase op = 0 → t.pos = s.pos + consumed.length

theorem Takes.nothing {op : Op} {e : List Event} {s t : State} (hsent : sentItems e = [])
    (h : inputSide t = inputSide s) : Takes op e [] s t := by
  simp only [inputSide, Prod.mk.injEq] at h
  obtain ⟨_, hqueue, hcount, hpos⟩ := h
  exact ⟨by simp [hsent, hqueue], by simp [hcount, byteCount], fun _ => by simp [hpos]⟩

theorem Takes.trans {op : Op} {ran ran' : List Event} {items items' : List Item} {s t u : State}
    (h : Takes op ran items s t) (h' : Takes op ran' items' t u) :
    Takes op (ran ++ ran') (items ++ items') s u where
  queue := by
    have happ : sentItems (ran ++ ran') = sentItems ran ++ sentItems ran' := List.filterMap_append
    rw [happ, ← List.append_assoc, h.queue, List.append_assoc, h'.queue, List.append_assoc]
  count := by
    rw [h'.count, h.count, byteCount, byteCount, byteCount, List.countP_append, BitVec.ofNat_add,
      BitVec.add_assoc]
  pos hlast := by rw [h'.pos hlast, h.pos hlast, List.length_append, Nat.add_assoc]

theorem takes_sinkTurn (op : Op) (s : State) : Takes op [.take] [] s (sinkTurn s) := by
  rcases sinkTurn_cases s with ⟨_, e⟩ | ⟨b, rest, _, e⟩ <;> rw [e] <;> exact .nothing rfl rfl

theorem takes_sendItem (op : Op) (it : Item) (s : State) :
    Takes op [.send it] [] s (sendItem it s) :=
  ⟨rfl, (BitVec.add_zero _).symm, fun _ => rfl⟩

theorem runOf_sinkTurn {op : Op} {s : State} (h : RunOf op s) : RunOf op (sinkTurn s) := by
  rcases sinkTurn_cases s with ⟨_, e⟩ | ⟨b, rest, _, e⟩ <;> rw [e] <;> exact h

/-- pos starts again only at a phase that is not the last, which a primitive does not have (R311). -/
theorem takes_coreTurn {op : Op} {s : State} (h : RunOf op s) :
    ∃ items, Takes op [.core] items s (coreTurn s) := by
  rcases coreTurn_input s with hr | ⟨it, q, hq, _, e⟩
  · refine ⟨[], by simp [hr.queue, sentItems, Event.sent], by simp [hr.count, byteCount],
      fun hlast => ?_⟩
    rcases hr.pos with hpos | ⟨_, _, op', ph, hop, hph⟩
    · exact hpos
    · rcases h with hidle | ⟨ph', hrun, _⟩
      · cases hop.symm.trans hidle
      · cases hop.symm.trans hrun
        omega
  · rw [e]
    exact ⟨[it], by simp [hq, sentItems, Event.sent], rfl, fun _ => rfl⟩

/-- The run of a command up to the host's next access. -/
theorem takes_drive {op : Op} (es : List Event) (s : State) (h : RunOf op s) :
    ∃ ran items, es = ran ++ (drive es s).script ∧ Takes op ran items s (drive es s) := by
  induction es generalizing s with
  | nil => exact ⟨[], [], rfl, .nothing rfl rfl⟩
  | cons e es ih =>
    have turn {items : List Item} {t : State} (htake : Takes op [e] items s t) (ht : RunOf op t) :
        ∃ ran items, e :: es = ran ++ (drive es t).script ∧ Takes op ran items s (drive es t) := by
      obtain ⟨ran, items', hes, hrest⟩ := ih t ht
      exact ⟨e :: ran, items ++ items', congrArg (e :: ·) hes, htake.trans hrest⟩
    cases e with
    | core =>
      obtain ⟨items, htake⟩ := takes_coreTurn h
      exact turn htake (runOf_coreTurn h)
    | take => exact turn (takes_sinkTurn op s) (runOf_sinkTurn h)
    | send it => exact turn (takes_sendItem op it s) h
    | _ => exact ⟨[], [], rfl, .nothing rfl rfl⟩

/-- What an instruction consumes: the events ran of its script, and the items at the queue's front. -/
structure Consumes (i : Instr) (ran : List Event) (consumed : List Item) (s t : State) : Prop where
  script : s.script = ran ++ t.script
  queue : s.inQ ++ sentItems ran = consumed ++ t.inQ
  count : t.inCount = BitVec.ofNat 32 (byteCount consumed)
  pos : i ∉ [.compress, .decompress] → t.pos = consumed.length

theorem Consumes.nothing {i : Instr} {s t : State} (hscript : t.script = s.script) (hq : t.inQ = s.inQ)
    (hcount : t.inCount = 0) (hpos : t.pos = 0) : Consumes i [] [] s t :=
  ⟨hscript.symm, by simp [hq, sentItems], hcount, fun _ => hpos⟩

theorem consumes_runCommand (i : Instr) (op : Op) {s : State} (ha : s.accepting = true)
    (hi : i ∉ [.compress, .decompress] → lastPhase op = 0) :
    ∃ ran consumed, Consumes i ran consumed s (runCommand op s) := by
  rw [runCommand_of_accepting op s ha]
  obtain ⟨ran, consumed, hscript, htake⟩ := takes_drive s.script (accept op s) (runOf_accept op s)
  refine ⟨ran, consumed, hscript, htake.queue, htake.count.trans (BitVec.zero_add _), fun h => ?_⟩
  exact (htake.pos (hi h)).trans (Nat.zero_add _)

theorem consumes_illegalCommand (i : Instr) (op : BitVec 4) {s : State} (ha : s.accepting = true) :
    ∃ ran consumed, Consumes i ran consumed s (illegalCommand op s) := by
  rw [illegalCommand, if_pos ha]
  exact ⟨[], [], .nothing rfl rfl rfl rfl⟩

theorem consumes_execNop {s t : State} (ha : s.accepting = true) (h : execNop s = .next t) :
    ∃ ran consumed, Consumes .nop ran consumed s t := by
  cases h
  rw [if_pos ha, nop_turns, finishTurn]
  split <;> exact ⟨[], [], .nothing rfl rfl rfl rfl⟩

/-- An accepted instruction other than CLEAR takes its items from the front of the queue. -/
theorem consumes_exec {i : Instr} {s t : State} (hclear : i ≠ .clear) (ha : s.accepting = true)
    (h : exec i s = .next t) : ∃ ran consumed, Consumes i ran consumed s t := by
  cases i with
  | clear => exact absurd rfl hclear
  | nop => exact consumes_execNop ha h
  | compress => cases h; exact consumes_runCommand _ _ ha fun hno => absurd (by simp) hno
  | decompress => cases h; exact consumes_runCommand _ _ ha fun hno => absurd (by simp) hno
  | illegalOpB rsv => cases h; exact consumes_illegalCommand _ _ ha
  | illegalOpCtoF lo rsv => cases h; exact consumes_illegalCommand _ _ ha
  | illegalReserved op rsv => cases h; exact consumes_illegalCommand _ _ ha
  | _ => cases h; exact consumes_runCommand _ _ ha fun _ => rfl

/-- A refused word and CLEAR run nothing and consume nothing (R310, R313). -/
theorem exec_keeps_queue {i : Instr} {s t : State} (hi : ¬ s.accepting = true ∨ i = .clear)
    (h : exec i s = .next t) : t.script = s.script ∧ t.inQ = s.inQ := by
  by_cases hclear : i = .clear
  · subst hclear
    cases h
    exact ⟨rfl, rfl⟩
  · rw [exec_of_not_accepting hclear (hi.resolve_right hclear)] at h
    cases h
    exact ⟨rfl, rfl⟩

/-! ## One step -/

theorem illegalWord_ne_clear (w : Word) : illegalWord w ≠ .clear := by
  unfold illegalWord
  (repeat' split) <;> exact Instr.noConfusion

/-- CLEAR has one word (R111). -/
theorem eq_one_of_decode_clear {w : Word} (h : decode w = .clear) : w = 0x00000001 := by
  unfold decode at h
  cases hf : commands.find? fun i => i.row.pattern == w with
  | none => exact absurd (by rwa [hf] at h) (illegalWord_ne_clear w)
  | some i =>
    obtain rfl : i = .clear := by rwa [hf] at h
    have hrow := List.find?_some hf
    exact (eq_of_beq hrow).symm

/-- A write with a step is a command word's turn or the write of another register. -/
theorem writeTurn_cases {w : Nat} {off : Offset} {v : Word} {s t : State}
    (h : writeTurn w off v s = .next t) :
    (w = 32 ∧ off = cmdOffset ∧ commandTurn v s = .next t) ∨ t = regWrite off v s := by
  cases hf : accessFault w off with
  | some f => rw [writeTurn, hf] at h; cases h
  | none =>
    rw [writeTurn_legal hf] at h
    split at h
    next hoff => exact .inl ⟨((accessFault_eq_none_iff w off).1 hf).2, hoff, h⟩
    next => cases h; exact .inr rfl

theorem readStep_cases {w : Nat} {off : Offset} {s t : State} (h : readStep w off s = .next t) :
    t = readTurn off s := by
  unfold readStep at h
  split at h <;> cases h
  rfl

/-- A poll reads STATUS or nothing, and changes the host's side only (R122). -/
theorem pollTurn_frame (c : PollFor) (s : State) :
    ∃ es l, pollTurn c s = { s with script := es, readLog := l } := by
  cases c <;> simp only [pollTurn] <;> split <;> exact ⟨_, _, rfl⟩

theorem keepsOutput_commandTurn {v : Word} {s t : State} (hv : v ≠ 0x00000001)
    (h : commandTurn v s = .next t) : KeepsOutput s t := by
  obtain ⟨u, hu, hturn⟩ := commandTurn_next v s
  have hkeeps := keepsOutput_exec (fun hc => hv (eq_one_of_decode_clear hc)) hu
  rw [hturn] at h
  cases h
  exact ⟨hkeeps.stream, hkeeps.taken⟩

theorem keepsOutput_regWrite (off : Offset) (v : Word) (s : State) : KeepsOutput s (regWrite off v s) := by
  obtain ⟨d, i, e, x, w, hw⟩ := regWrite_frame off v s
  rw [hw]
  exact .of_eq rfl rfl

/-- Of the events only CLEAR's write and reset take back what was offered. -/
theorem keepsOutput_eventTurn {e : Event} {s t : State} (hclear : e ≠ .write 32 0x04 0x00000001)
    (hreset : e ≠ .reset) (h : eventTurn e s = .next t) : KeepsOutput s t := by
  have htick : KeepsOutput s (tick s) := .of_eq rfl rfl
  cases e with
  | write w off v =>
    rcases writeTurn_cases h with ⟨rfl, rfl, hturn⟩ | rfl
    · exact htick.trans (keepsOutput_commandTurn (fun hv => hclear (by rw [hv]; rfl)) hturn)
    · exact htick.trans (keepsOutput_regWrite off v _)
  | read w off =>
    rw [readStep_cases h]
    exact .of_eq rfl rfl
  | send it => cases h; exact .of_eq rfl rfl
  | withdraw => cases h; exact .of_eq rfl rfl
  | take => cases h; exact htick.trans (keepsOutput_sinkTurn _)
  | core => cases h; exact htick.trans (keepsOutput_coreTurn _)
  | reset => exact absurd rfl hreset
  | poll c =>
    cases h
    obtain ⟨es, l, e⟩ := pollTurn_frame c s
    rw [e]
    exact .of_eq rfl rfl

theorem keepsOutput_step {s t : State} (h : step s = .next t)
    (hclear : ∀ rest, s.script ≠ .write 32 0x04 0x00000001 :: rest)
    (hreset : ∀ rest, s.script ≠ .reset :: rest) : KeepsOutput s t := by
  cases hs : s.script with
  | nil =>
    rw [step, stepScript, hs] at h
    cases h
    exact .trans (t := tick s) (.of_eq rfl rfl) (keepsOutput_coreTurn _)
  | cons e rest =>
    rw [step_of_script hs] at h
    exact .trans (t := { s with script := rest }) (.of_eq rfl rfl)
      (keepsOutput_eventTurn (fun he => hclear rest (he ▸ hs)) (fun he => hreset rest (he ▸ hs)) h)

theorem sinkTurn_inQ (s : State) : (sinkTurn s).inQ = s.inQ := by
  rcases sinkTurn_cases s with ⟨_, e⟩ | ⟨b, rest, _, e⟩ <;> rw [e]

/-- The host's own accesses leave the queue, but for a command word and a withdrawal. -/
theorem eventTurn_keeps_queue {e : Event} {s t : State} (he : e.isAccess = true) (hw : e ≠ .withdraw)
    (hcmd : ∀ v, e ≠ .write 32 0x04 v) (h : eventTurn e s = .next t) : t.inQ = s.inQ := by
  cases e with
  | write w off v =>
    rcases writeTurn_cases h with ⟨rfl, rfl, _⟩ | rfl
    · exact absurd rfl (hcmd v)
    · obtain ⟨d, i, e, x, y, e'⟩ := regWrite_frame off v (tick s)
      rw [e']
      rfl
  | read w off => rw [readStep_cases h]; rfl
  | withdraw => exact absurd rfl hw
  | reset => cases h; rfl
  | poll c =>
    cases h
    obtain ⟨es, l, e⟩ := pollTurn_frame c s
    rw [e]
  | send it => cases he
  | take => cases he
  | core => cases he

/-- Settles O53: the output by what each event leaves of it (`keepsOutput_step`), the input by what a turn of the core
(`coreTurn_input`), a command (`consumes_exec`) and the host's own events do with the queue. -/
theorem streamsAreNeverLostOrReordered : Obligations.StreamsAreNeverLostOrReordered := by
  refine ⟨fun s t h hclear hreset => ?output, fun s t rest hs h => ?taken, fun s => ?turn,
    fun i s t h => ?command, fun s t e rest hs h => ?host⟩
  case output =>
    obtain ⟨hstream, htaken⟩ := keepsOutput_step h hclear hreset
    exact ⟨hstream, htaken⟩
  case taken =>
    rw [step_of_script hs] at h
    cases h
    exact sinkTurn_output _
  case turn =>
    rcases coreTurn_input s with hreads | hconsumes
    · have hpos := hreads.pos.imp_right fun ⟨hzero, hpt, _⟩ => And.intro hzero hpt
      exact .inl ⟨hreads.queue, hreads.count, hpos⟩
    · exact .inr hconsumes
  case command =>
    by_cases hi : s.accepting = true ∧ i ≠ .clear
    · obtain ⟨ha, hclear⟩ := hi
      obtain ⟨ran, consumed, hc⟩ := consumes_exec hclear ha h
      obtain ⟨hidle, herr⟩ := (accepting_iff s).1 ha
      refine ⟨ran, consumed, hc.script, hc.queue, fun _ _ _ => ⟨hc.count, hc.pos⟩, fun hno => ?_⟩
      simp [hidle, herr, hclear] at hno
    · obtain ⟨hscript, hq⟩ := exec_keeps_queue (by tauto) h
      refine ⟨[], [], hscript.symm, by simp [hq, sentItems], fun hidle herr hclear => ?_,
        fun _ => ⟨rfl, rfl⟩⟩
      exact absurd ⟨(accepting_iff s).2 ⟨hidle, herr⟩, hclear⟩ hi
  case host =>
    rw [step_of_script hs] at h
    refine ⟨fun it he => ?_, fun he => ?_, fun he => ?_,
      fun he hw hcmd => (eventTurn_keeps_queue he hw hcmd h).trans rfl⟩ <;> subst he <;> cases h
    · rfl
    · rfl
    · exact sinkTurn_inQ _

end Sys2Proof.Machine
end

section
/-! Proofs of the encoding family (30_encoding.md): decoding and encoding undo each other, and the legal words are
those of the eleven commands (R110 to R112). -/

namespace Sys2Proof

/-! ## Opcodes and fields -/

/-- OP is 0xB, one of 0xC to 0xF, or the opcode of a command (R111, R112). -/
theorem opcode_cases :
    ∀ op : BitVec 4, op = 0xB#4 ∨ (∃ lo : BitVec 2, op = 3#2 ++ lo) ∨ op.toNat ≤ 10 := by
  decide

theorem opCtoF_not_command_opcode : ∀ lo : BitVec 2, ¬ (3#2 ++ lo).toNat ≤ 10 := by
  decide

/-- An opcode of the last illegal row, taken apart as the decoder does (R112). -/
theorem opCtoF_parts : ∀ lo : BitVec 2,
    3#2 ++ lo ≠ 0xB#4 ∧ (3#2 ++ lo).extractLsb' 2 2 = 3#2 ∧ (3#2 ++ lo).extractLsb' 0 2 = lo := by
  decide

theorem command_opcode_parts : ∀ op : BitVec 4, op.toNat ≤ 10 → op ≠ 0xB#4 ∧ op.extractLsb' 2 2 ≠ 3#2 := by
  decide

theorem exists_command_of_opcode :
    ∀ op : BitVec 4, op.toNat ≤ 10 → ∃ i ∈ commands, encode i = joinFields 0#28 op := by
  decide

theorem fields_of_mem_commands :
    ∀ i ∈ commands, (opField (encode i)).toNat ≤ 10 ∧ rsvField (encode i) = 0#28 := by
  decide

theorem wellFormed_of_mem_commands : ∀ i ∈ commands, i.wellFormed = true := by
  decide

theorem wellFormed_illegalReserved_iff (op : BitVec 4) (rsv : BitVec 28) :
    (Instr.illegalReserved op rsv).wellFormed = true ↔ op.toNat ≤ 10 ∧ rsv ≠ 0#28 := by
  simp [Instr.wellFormed]

/-- The fields of R110 tell the commands from the illegal words. -/
theorem mem_commands_iff {i : Instr} (h : i.wellFormed = true) :
    i ∈ commands ↔ (opField (encode i)).toNat ≤ 10 ∧ rsvField (encode i) = 0#28 := by
  refine ⟨fields_of_mem_commands i, fun ⟨hop, hrsv⟩ => ?_⟩
  cases i with
  | illegalOpB rsv =>
    rw [encode, opField_joinFields] at hop
    exact absurd hop (by decide)
  | illegalOpCtoF lo rsv =>
    rw [encode, opField_joinFields] at hop
    exact absurd hop (opCtoF_not_command_opcode lo)
  | illegalReserved op rsv =>
    rw [encode, rsvField_joinFields] at hrsv
    exact absurd hrsv ((wellFormed_illegalReserved_iff op rsv).1 h).2
  | _ => decide

/-- Every word is the word of a command or of its own illegal row (R112). -/
theorem exists_wellFormed_encode (w : Word) : ∃ i : Instr, i.wellFormed = true ∧ encode i = w := by
  rw [← joinFields_fields w]
  rcases opcode_cases (opField w) with hop | ⟨lo, hop⟩ | hop
  · exact ⟨.illegalOpB (rsvField w), rfl, by rw [encode, hop]⟩
  · exact ⟨.illegalOpCtoF lo (rsvField w), rfl, by rw [encode, hop]⟩
  · by_cases hrsv : rsvField w = 0#28
    · obtain ⟨i, hi, hw⟩ := exists_command_of_opcode (opField w) hop
      exact ⟨i, wellFormed_of_mem_commands i hi, by rw [hw, hrsv]⟩
    · exact ⟨.illegalReserved (opField w) (rsvField w),
        (wellFormed_illegalReserved_iff _ _).2 ⟨hop, hrsv⟩, rfl⟩

/-! ## The decoder -/

/-- The opcode table's match of a command is its encoding (R111). -/
theorem pattern_of_mem_commands : ∀ i ∈ commands, i.row.pattern = encode i := by
  decide

theorem decode_encode_of_mem_commands : ∀ i ∈ commands, decode (encode i) = i := by
  decide

/-- A word that no command encodes to is split over the illegal rows. -/
theorem decode_eq_illegalWord {w : Word} (h : ∀ i ∈ commands, encode i ≠ w) :
    decode w = illegalWord w := by
  have hnone : commands.find? (fun i => i.row.pattern == w) = none := by
    refine List.find?_eq_none.2 fun i hi heq => h i hi ?_
    rw [← pattern_of_mem_commands i hi]
    exact eq_of_beq heq
  rw [decode, hnone, Option.getD_none]

/-- The split of log entry 4 gives a word of an illegal row back to its row. -/
theorem illegalWord_encode {i : Instr} (h : i.wellFormed = true) (hi : i ∉ commands) :
    illegalWord (encode i) = i := by
  cases i with
  | illegalOpB rsv => simp [illegalWord, encode]
  | illegalOpCtoF lo rsv =>
    obtain ⟨hB, hhigh, hlow⟩ := opCtoF_parts lo
    simp [illegalWord, encode, hB, hhigh, hlow]
  | illegalReserved op rsv =>
    obtain ⟨hop, _⟩ := (wellFormed_illegalReserved_iff op rsv).1 h
    obtain ⟨hB, hhigh⟩ := command_opcode_parts op hop
    simp [illegalWord, encode, hB, hhigh]
  | _ => exact absurd (by decide) hi

/-- Settles O1: a command's word is found in the opcode table, and a word of an illegal row is no command's
(`mem_commands_iff`), so that the split of the illegal words decides (`illegalWord_encode`). -/
theorem decodeOfEncodeIsIdentity : Obligations.DecodeOfEncodeIsIdentity := by
  intro i h
  by_cases hi : i ∈ commands
  · exact decode_encode_of_mem_commands i hi
  · have hother : ∀ j ∈ commands, encode j ≠ encode i := by
      intro j hj heq
      have hfields := fields_of_mem_commands j hj
      rw [heq, ← mem_commands_iff h] at hfields
      exact hi hfields
    rw [decode_eq_illegalWord hother, illegalWord_encode h hi]

/-- Settles O2: the word is some well-formed instruction's (`exists_wellFormed_encode`), and that is what it
decodes to. -/
theorem encodeOfDecodeIsIdentity : Obligations.EncodeOfDecodeIsIdentity := by
  intro w
  obtain ⟨i, hi, rfl⟩ := exists_wellFormed_encode w
  rw [decodeOfEncodeIsIdentity i hi]
  exact ⟨rfl, hi⟩

/-- Settles O3: what the word decodes to is well-formed and encodes to the word, so that its fields decide. -/
theorem legalWordsAreExactlyTheElevenCommands : Obligations.LegalWordsAreExactlyTheElevenCommands := by
  intro w
  obtain ⟨hencode, hwf⟩ := encodeOfDecodeIsIdentity w
  have hfields := mem_commands_iff hwf
  rwa [hencode] at hfields

/-- Settles O4: each of the four words is the encoding of the instruction named. -/
theorem opcodeMapSamples : Obligations.OpcodeMapSamples :=
  ⟨decodeOfEncodeIsIdentity .scan rfl, decodeOfEncodeIsIdentity .clear rfl,
    decodeOfEncodeIsIdentity .decompress rfl, decodeOfEncodeIsIdentity (.illegalReserved 1 1) rfl⟩

end Sys2Proof
end

section
/-! Proofs of the encoding family (30_encoding.md): what the write of a command word does, and of an illegal one (R110,
R112; 46_control.md R310). -/

namespace Sys2Proof.Machine

/-- Settles O5: `exec` always answers a state, and the step of the write is that answer (`step_commandWrite`). -/
theorem stepRunsTheDecodedCommand : Obligations.StepRunsTheDecodedCommand := by
  intro s v rest hs
  obtain ⟨t, ht⟩ := exec_next (decode v) (side [] (s.ticks + 1) s)
  exact ⟨t, ht, step_commandWrite hs ht⟩

/-- The illegal rows differ in nothing but the OP field that they record (R112). -/
theorem exec_of_not_mem_commands {i : Instr} (h : i ∉ commands) (s : State) :
    exec i s = .next (illegalCommand (opField (encode i)) s) := by
  cases i with
  | illegalOpB rsv => rw [encode, opField_joinFields]; rfl
  | illegalOpCtoF lo rsv => rw [encode, opField_joinFields]; rfl
  | illegalReserved op rsv => rw [encode, opField_joinFields]; rfl
  | _ => exact absurd (by decide) h

/-- In an idle core the end of a command has nothing to clear (R311, R342). -/
theorem settle_of_idle {s : State} (hw : WorkClean s) (hidle : s.opstate = .idle) : settle s = s := by
  obtain ⟨hpoint, hitem, hlook, hcur, hwstate, hacc, hnacc, _⟩ := hw.idle hidle
  have hstack : s.stack = [] := hw.stack (by rw [hpoint]; rfl)
  rw [settle, ← hidle, ← hpoint, ← hitem, ← hlook, ← hcur, ← hwstate, ← hacc, ← hnacc, ← hstack]

/-- Settles O13: the word is accepted, and the entry into the error state finds no work to clear
(`settle_of_idle`), so that it writes the error registers only. -/
theorem illegalWordRaisesIllegalCmd : Obligations.IllegalWordRaisesIllegalCmd := by
  intro i s hi hw hidle herr
  have ha : s.accepting = true := (accepting_iff s).2 ⟨hidle, herr⟩
  obtain ⟨hpoint, _⟩ := hw.idle hidle
  have hpq : s.pq = [] := hw.pq (by rw [hpoint]; exact Point.noConfusion)
  have hsettle (op : BitVec 4) : settle (acceptWord op s) = acceptWord op s :=
    congrArg (acceptWord op) (settle_of_idle hw hidle)
  rw [exec_of_not_mem_commands hi, illegalCommand, if_pos ha, enterError, hsettle, ← hpq]
  rfl

end Sys2Proof.Machine
end

section
/-! Proofs of the frequency scanner family (40_frequency_scanner.md): SCAN counts a pass, and ends at its EOS or at the
first byte too many (R150, R151). -/

namespace Sys2Proof.Machine

/-! ## Turns that leave no byte untaken -/

/-- n turns of the core lead from s to t, and no byte is untaken before and after each of them. -/
inductive SilentTurns : Nat → State → State → Prop where
  | refl {s : State} (hout : s.out = []) : SilentTurns 0 s s
  | turn {n : Nat} {s t : State} (hout : s.out = []) (h : SilentTurns n (coreTurn s) t) :
    SilentTurns (n + 1) s t

theorem SilentTurns.trans {m n : Nat} {s t u : State} (h : SilentTurns m s t) (h' : SilentTurns n t u) :
    SilentTurns (m + n) s u := by
  induction h with
  | refl => rwa [Nat.zero_add]
  | turn hout _ ih => rw [Nat.add_right_comm]; exact .turn hout (ih h')

theorem SilentTurns.next {n : Nat} {s t u : State} (h : SilentTurns n s t) (hturn : coreTurn t = u)
    (hout : u.out = []) : SilentTurns (n + 1) s u := by
  induction h with
  | refl hs => exact .turn hs (by rw [hturn]; exact .refl hout)
  | turn hs _ ih => exact .turn hs (ih hturn)

theorem eq_core_or_take {e : Event} {es : List Event} (h : onlyTurns (e :: es) = true) :
    (e = .core ∨ e = .take) ∧ onlyTurns es = true := by
  simpa [onlyTurns] using h

/-- The sink's turns between them find nothing to take, and the turns after them find no command running (R83,
R355). -/
theorem SilentTurns.drive {n : Nat} {s t : State} {turns rest : List Event} (h : SilentTurns n s t)
    (hidle : t.opstate = .idle) (hturns : onlyTurns turns = true) (hrest : hostNext rest = true)
    (hn : n ≤ coreTurns turns) : Machine.drive (turns ++ rest) s = { t with script := rest } := by
  induction turns generalizing n s with
  | nil =>
    cases h with
    | refl => exact drive_hostNext rest t hrest
    | turn => exact absurd hn (Nat.not_succ_le_zero _)
  | cons e es ih =>
    cases h with
    | refl hout => exact drive_idle (e :: es) rest t hturns hrest hidle hout
    | turn hout h =>
      obtain ⟨rfl | rfl, hes⟩ := eq_core_or_take hturns
      · exact ih h hes (by simpa [coreTurns] using hn)
      · have hsink : sinkTurn s = s := by rw [sinkTurn, hout]
        show Machine.drive (es ++ rest) (sinkTurn s) = _
        rw [hsink]
        exact ih (.turn hout h) hes (by simpa [coreTurns] using hn)

theorem coreTurn_of_finishing {s : State} (hruns : s.opstate ≠ .idle) (hpt : s.point = .finishing)
    (hout : s.out = []) : coreTurn s = complete s := by
  unfold coreTurn
  split
  next hidle => exact absurd hidle hruns
  next => rw [hpt, pointTurn, finishTurn, hout]; rfl

theorem coreTurn_of_raising {op : Op} {ph : Nat} {s : State} {c : Cause} {p : Nat}
    (hop : s.opstate = .run op ph) (hpt : s.point = .raising c p) (hout : s.out = []) :
    coreTurn s = enterError c (currentPrim op ph).code p s := by
  rw [coreTurn, hop, hpt]
  simp [pointTurn, raiseTurn, hout]

/-- A run that ends within the given turns of the core is all that the accepted command does, whatever the order of the
core's and the sink's turns (R95, R310). -/
theorem runCommand_of_silentTurns {op : Op} {s t : State} {turns rest : List Event} {n : Nat}
    (hidle : s.opstate = .idle) (herr : s.err = false) (hs : s.script = turns ++ rest)
    (hturns : onlyTurns turns = true) (hrest : hostNext rest = true) (hn : n ≤ coreTurns turns)
    (hrun : SilentTurns n (accept op s) t) (hend : t.opstate = .idle) :
    runCommand op s = { t with script := rest } := by
  rw [runCommand_of_accepting op s ((accepting_iff s).2 ⟨hidle, herr⟩), hs,
    hrun.drive hend hturns hrest hn]

/-! ## SCAN's loop -/

/-- SCAN's loop is about to read, and no byte is untaken. -/
structure Scanning (s : State) : Prop where
  runs : s.opstate ≠ .idle
  place : s.point = .scanRead
  item : s.item = none
  out : s.out = []

theorem coreTurn_of_scanRead {s : State} (hruns : s.opstate ≠ .idle) (hpt : s.point = .scanRead) :
    coreTurn s = awaitItem scanItem s := by
  unfold coreTurn
  split
  next hidle => exact absurd hidle hruns
  next => rw [hpt]; rfl

theorem scanItem_out (it : Item) (ipos : Nat) (s : State) : (scanItem it ipos s).out = s.out := by
  cases it with
  | eos => rcases finish_cases s with ⟨_, e⟩ | ⟨_, _, _, _, e⟩ | ⟨_, _, _, _, e⟩ <;> rw [scanItem, e]
  | byte b => simp only [scanItem]; split <;> rfl

/-- The state after the front item was read, with q behind it (R13, R82). -/
def consumeItem (it : Item) (q : List Item) (s : State) : State :=
  { s with inQ := q, pos := s.pos + 1, inCount := countIn it s.inCount }

/-- One pass of the loop takes two turns: the transfer of the item, and the work on it (R13, R150). -/
theorem Scanning.item_turns {s : State} {it : Item} {q : List Item} (h : Scanning s)
    (hq : s.inQ = it :: q) : SilentTurns 2 s (scanItem it s.pos (consumeItem it q s)) := by
  obtain ⟨hruns, hplace, hitem, hout⟩ := h
  have hreceive := receive_of_cons hq
  have hread : coreTurn s = receive s := by
    rw [coreTurn_of_scanRead hruns hplace, awaitItem_of_none hitem]
  have hout' : (receive s).out = [] := by rw [hreceive]; exact hout
  have hwork : coreTurn (receive s) = scanItem it s.pos (consumeItem it q s) := by
    rw [coreTurn_of_scanRead (by rw [hreceive]; exact hruns) (by rw [hreceive]; exact hplace),
      awaitItem_of_some (it := it) (ipos := s.pos) (by rw [hreceive]), hreceive, ← hitem]
    rfl
  have hturns := SilentTurns.refl hout |>.next hread hout'
  exact hturns.next hwork ((scanItem_out _ _ _).trans hout)

/-- The state after SCAN counted the bytes of a pass, with q behind them (R150). -/
def countPass (pass : List Byte) (q : List Item) (s : State) : State :=
  { s with
    freq := pass.foldl bump s.freq, scanTotal := s.scanTotal + pass.length,
    pos := s.pos + pass.length, inCount := s.inCount + BitVec.ofNat 32 pass.length, inQ := q }

theorem Scanning.countPass {s : State} (h : Scanning s) (pass : List Byte) (q : List Item) :
    Scanning (countPass pass q s) :=
  ⟨h.runs, h.place, h.item, h.out⟩

theorem countPass_cons (b : Byte) (pass : List Byte) (q q' : List Item) (s : State) :
    countPass pass q (countPass [b] q' s) = countPass (b :: pass) q s := by
  simp [Machine.countPass, Nat.add_assoc, Nat.add_comm 1, BitVec.ofNat_add, BitVec.add_assoc,
    BitVec.add_comm 1#32]

/-- A byte that fits is counted (R150). -/
theorem scanItem_byte {b : Byte} {q : List Item} {s : State} (hfit : s.scanTotal ≠ s.params.passLimit) :
    scanItem (.byte b) s.pos (consumeItem (.byte b) q s) = countPass [b] q s :=
  if_neg hfit

/-- The bytes that fit take two turns each. -/
theorem Scanning.pass_turns {pass : List Byte} {q : List Item} {s : State} (h : Scanning s)
    (hq : s.inQ = bytesIn pass ++ q) (hfit : s.scanTotal + pass.length ≤ s.params.passLimit) :
    SilentTurns (2 * pass.length) s (Machine.countPass pass q s) := by
  induction pass generalizing s with
  | nil =>
    have hself : Machine.countPass [] q s = s := by
      simp [Machine.countPass, ← show s.inQ = q from hq]
    rw [hself]
    exact .refl h.out
  | cons b pass ih =>
    have hlt : s.scanTotal + (pass.length + 1) ≤ s.params.passLimit := hfit
    have hfirst := h.item_turns hq
    rw [scanItem_byte (by omega)] at hfirst
    have hnext := ih (h.countPass [b] (bytesIn pass ++ q)) rfl
      (by show s.scanTotal + 1 + pass.length ≤ s.params.passLimit; omega)
    rw [countPass_cons] at hnext
    rw [List.length_cons, Nat.mul_succ, Nat.add_comm]
    exact hfirst.trans hnext

/-- Counting a pass adds its occurrences of each byte (R150). -/
theorem symGet_foldl_bump (pass : List Byte) (freq : Vector Nat 256) (b : Byte) :
    symGet (pass.foldl bump freq) b = symGet freq b + pass.count b := by
  induction pass generalizing freq with
  | nil => rfl
  | cons c pass ih =>
    rw [List.foldl_cons, ih, symGet_bump, List.count_cons, Nat.add_assoc, Nat.add_comm (pass.count b)]
    simp only [beq_iff_eq, eq_comm (a := b)]

/-! ## The whole run -/

/-- The state of SCAN after it counted a whole pass that fits, with q behind it (R150). -/
def scanned (pass : List Byte) (q : List Item) (s : State) : State :=
  { invalidateTree (accept (.prim .scan) s) with
    point := .scanRead, freq := pass.foldl bump (Vector.replicate 256 0), scanTotal := pass.length,
    pos := pass.length, inCount := BitVec.ofNat 32 pass.length, inQ := q }

theorem countPass_scanStart (pass : List Byte) (q : List Item) (s : State) :
    countPass pass q (scanStart (accept (.prim .scan) s)) = scanned pass q s := by
  simp [countPass, scanned, scanStart, invalidateTree_eq, accept, acceptWord]

/-- SCAN of a pass that fits, from its acceptance to the work on the item after the pass (R150). -/
theorem scanned_turns {s : State} {pass : List Byte} {it : Item} {q : List Item} (hw : WorkClean s)
    (hidle : s.opstate = .idle) (hq : s.inQ = bytesIn pass ++ it :: q)
    (hfit : pass.length ≤ s.params.passLimit) :
    SilentTurns (2 * pass.length + 3) (accept (.prim .scan) s)
      (scanItem it pass.length (consumeItem it q (scanned pass (it :: q) s))) := by
  obtain ⟨_, hitem, _, _, _, _, _, hout⟩ := hw.idle hidle
  have hscan : Scanning (scanStart (accept (.prim .scan) s)) := ⟨OpState.noConfusion, rfl, hitem, hout⟩
  have hstart : SilentTurns 1 (accept (.prim .scan) s) (scanStart (accept (.prim .scan) s)) :=
    .turn hout (.refl hout)
  have hpass := hscan.pass_turns hq (by show 0 + pass.length ≤ s.params.passLimit; omega)
  have hend := (hscan.countPass pass (it :: q)).item_turns rfl
  rw [countPass_scanStart] at hpass hend
  have hall := hstart.trans (hpass.trans hend)
  rwa [show 1 + (2 * pass.length + 2) = 2 * pass.length + 3 by omega] at hall

/-- Settles O28: the bytes of the pass take two turns each (`Scanning.pass_turns`), EOS two, and the first line and
the end of the rule one each. -/
theorem scanCountsThePass : Obligations.ScanCountsThePass := by
  intro s pass more turns rest hw hidle herr hq hfit hs hturns hrest hn
  refine ⟨pass.foldl bump (Vector.replicate 256 0), fun b => by simp [symGet_foldl_bump], ?_⟩
  obtain ⟨_, _, _, _, _, _, _, hout⟩ := hw.idle hidle
  have hrun := scanned_turns hw hidle (it := .eos) (by simpa [streamOf] using hq) hfit
  have hend := hrun.next (coreTurn_of_finishing OpState.noConfusion rfl hout) hout
  have hall := runCommand_of_silentTurns hidle herr hs hturns hrest hn hend rfl
  refine congrArg Host.Outcome.next (hall.trans ?_)
  conv_rhs => rw [← settle_of_idle hw hidle]
  rfl

/-- Settles O29: the bytes of the pass take two turns each (`Scanning.pass_turns`), the byte too many two, and the
first line of the rule and the entry of the error state one each. -/
theorem scanOverflowsAtTheFirstByteTooMany : Obligations.ScanOverflowsAtTheFirstByteTooMany := by
  intro s pass b more turns rest hw hidle herr hq hlen hs hturns hrest hn
  refine ⟨pass.foldl bump (Vector.replicate 256 0), fun c => by simp [symGet_foldl_bump], ?_⟩
  obtain ⟨hpt, _, _, _, _, _, _, hout⟩ := hw.idle hidle
  have hpq : (settle s).pq = [] := hw.pq (by rw [hpt]; exact Point.noConfusion)
  have hrun := scanned_turns hw hidle hq hlen.le
  have hfull : scanItem (.byte b) pass.length (consumeItem (.byte b) more
      (scanned pass (.byte b :: more) s)) = raise .lengthOverflow pass.length
        (consumeItem (.byte b) more (scanned pass (.byte b :: more) s)) := if_pos hlen
  rw [hfull] at hrun
  have hend := hrun.next (coreTurn_of_raising rfl rfl hout) hout
  have hall := runCommand_of_silentTurns hidle herr hs hturns hrest hn hend rfl
  refine congrArg Host.Outcome.next (hall.trans ?_)
  rw [← hlen, BitVec.ofNat_add]
  conv_rhs => rw [← settle_of_idle hw hidle, hpq]
  rfl

end Sys2Proof.Machine
end

section
/-! Proofs of the frequency scanner family (40_frequency_scanner.md): the streams that each command leaves alone (R150,
R175, R200, R220, R222, R312). -/

namespace Sys2Proof.Machine

/-! ## The primitives that offer nothing -/

/-- The output's side of the state. -/
def outputSide (s : State) : List Byte × List Byte × Word := (s.out, s.outRec, s.outCount)

/-- Work that no output waits for offers nothing. -/
theorem Blind.outputSide {o r : List Byte} {c : Word} {s t : State} (h : Blind o r c s t t) :
    outputSide t = (o, r, c) :=
  (congrArg Machine.outputSide h.same).trans rfl

theorem outputSide_awaitItem {k : Item → Nat → State → State} {s : State}
    (hk : ∀ o r c t it ipos, Blind o r c t (k it ipos t) (k it ipos (withOutput o r c t))) :
    outputSide (awaitItem k s) = outputSide s := by
  rcases awaitItem_cases k s with ⟨_, _, e⟩ | ⟨it, q, _, _, e⟩ | ⟨it, ipos, _, e⟩ <;> rw [e]
  · rfl
  · exact (hk s.out s.outRec s.outCount { s with item := none } it ipos).outputSide

/-- A primitive whose rule has no `OutWrite`. -/
def Prim.offersNothing : Prim → Bool
  | .nop | .scan | .build | .gencode | .parseHeader => true
  | .emitHeader | .pack | .unpack => false

theorem outputSide_pointTurn {p : Prim} {pt : Point} (hp : p.offersNothing = true)
    (hpt : pt.isIn p = true) (s : State) : outputSide (pointTurn p pt s) = outputSide s := by
  cases pt with
  | atStart => exact (blind_startTurn s.out s.outRec s.outCount s p).outputSide
  | scanRead => exact outputSide_awaitItem blind_scanItem
  | buildMerge => exact (blind_buildMerge s.out s.outRec s.outCount s).outputSide
  | genWalk => exact (blind_genWalk s.out s.outRec s.outCount s).outputSide
  | parseFirst => exact outputSide_awaitItem blind_parseFirst
  | parseMarker nint => exact outputSide_awaitItem fun o r c t => blind_parseMarker o r c t nint
  | parseSymbol nint => exact outputSide_awaitItem fun o r c t => blind_parseSymbol o r c t nint
  | parseSentinel root => exact outputSide_awaitItem fun o r c t => blind_parseSentinel o r c t root
  | parsePad root => exact outputSide_awaitItem fun o r c t => blind_parsePad o r c t root
  | parseDone => exact (blind_finish s.out s.outRec s.outCount { s with hdrParsed := true }).outputSide
  | finishing => rw [pointTurn, finishTurn]; split <;> rfl
  | raising c q => rw [pointTurn, raiseTurn]; split <;> rfl
  | _ => cases p <;> simp [Point.isIn, Prim.offersNothing] at hp hpt

/-! ## The primitives that read nothing -/

theorem ReadsNothing.offer {b : Byte} {k : State → State} {s : State}
    (hk : ReadsNothing s (k { s with out := s.out ++ [b] })) : ReadsNothing s (offer b k s) := by
  rcases offer_cases b k s with ⟨_, e⟩ | ⟨_, e⟩ <;> rw [e]
  · exact .of_eq rfl
  · exact hk

theorem readsNothing_emitNode (s : State) : ReadsNothing s (emitNode s) := by
  unfold emitNode
  split
  next => exact .of_eq rfl
  next i rest _ => unfold serNode; split <;> exact .offer (.of_eq rfl)
  all_goals exact .of_eq rfl

/-- A primitive whose rule has no `InRead`. -/
def Prim.readsNothing : Prim → Bool
  | .nop | .build | .gencode | .emitHeader => true
  | .scan | .pack | .parseHeader | .unpack => false

theorem readsNothing_pointTurn {p : Prim} {pt : Point} (hp : p.readsNothing = true)
    (hpt : pt.isIn p = true) (s : State) : ReadsNothing s (pointTurn p pt s) := by
  cases pt with
  | atStart => exact (blind_startTurn s.out s.outRec s.outCount s p).reads
  | buildMerge => exact (blind_buildMerge s.out s.outRec s.outCount s).reads
  | genWalk => exact (blind_genWalk s.out s.outRec s.outCount s).reads
  | emitNode => exact readsNothing_emitNode s
  | emitSymbol b => rw [pointTurn, emitSymbol]; exact .offer (.of_eq rfl)
  | emitSentinel => rw [pointTurn, emitSentinel]; exact .offer (.of_eq rfl)
  | emitPad => rw [pointTurn, emitPad]; exact .offer ((readsNothing_finish _).rebase rfl rfl)
  | finishing => rw [pointTurn, finishTurn]; split <;> exact .of_eq rfl
  | raising c q => rw [pointTurn, raiseTurn]; split <;> exact .of_eq rfl
  | _ => cases p <;> simp [Point.isIn, Prim.readsNothing] at hp hpt

/-! ## The commands -/

theorem coreTurn_of_run {op : Op} {ph : Nat} {s : State} (hop : s.opstate = .run op ph) :
    coreTurn s = pointTurn (currentPrim op ph) s.point s := by
  rw [coreTurn, hop]

/-- From s on no byte has been offered, and OUT_COUNT is 0 (R43). -/
structure NoOutput (s t : State) : Prop where
  taken : t.outRec = s.outRec
  out : t.out = []
  count : t.outCount = 0

theorem NoOutput.congr {s t u : State} (h : NoOutput s t) (e : outputSide u = outputSide t) :
    NoOutput s u := by
  simp only [outputSide, Prod.mk.injEq] at e
  obtain ⟨hout, htaken, hcount⟩ := e
  exact ⟨htaken.trans h.taken, hout.trans h.out, hcount.trans h.count⟩

theorem noOutput_runCommand {p : Prim} (hp : p.offersNothing = true) {s : State}
    (ha : s.accepting = true) (hout : s.out = []) : NoOutput s (runCommand (.prim p) s) := by
  rw [runCommand_of_accepting _ s ha]
  refine drive_of_runOf (fun u es h => h.congr rfl) (fun u h => ?sink) (fun it u h => h.congr rfl)
    (fun u ph hop hpt h => h.congr ?core) _ _ (runOf_accept _ s) ⟨rfl, hout, rfl⟩
  case sink => rw [sinkTurn, h.out]; exact h
  case core => rw [coreTurn_of_run hop]; exact outputSide_pointTurn hp hpt u

/-- From s on no item was consumed, though more may have been sent; IN_COUNT and pos are 0 (R31, R42). -/
structure NoInput (s t : State) : Prop where
  queue : s.inQ <+: t.inQ
  count : t.inCount = 0
  pos : t.pos = 0

theorem NoInput.trans {s t u : State} (h : NoInput s t) (h' : ReadsNothing t u) : NoInput s u :=
  ⟨by rw [h'.queue]; exact h.queue, h'.count.trans h.count,
    h'.pos.elim (fun hsame => hsame.trans h.pos) fun hzero => hzero.1⟩

theorem noInput_runCommand {p : Prim} (hp : p.readsNothing = true) {s : State}
    (ha : s.accepting = true) : NoInput s (runCommand (.prim p) s) := by
  rw [runCommand_of_accepting _ s ha]
  refine drive_of_runOf (fun u es h => h.trans (.of_eq rfl)) (fun u h => h.trans ?sink)
    (fun it u h => ⟨h.queue.trans (List.prefix_append _ _), h.count, h.pos⟩)
    (fun u ph hop hpt h => h.trans ?core) _ _ (runOf_accept _ s) ⟨List.prefix_rfl, rfl, rfl⟩
  case sink => rcases sinkTurn_cases u with ⟨_, e⟩ | ⟨b, rest, _, e⟩ <;> rw [e] <;> exact .of_eq rfl
  case core => rw [coreTurn_of_run hop]; exact readsNothing_pointTurn hp hpt u

theorem execNop_streams {s t : State} (ha : s.accepting = true) (hout : s.out = [])
    (h : execNop s = .next t) : NoOutput s t ∧ NoInput s t := by
  cases h
  rw [if_pos ha, nop_turns, finishTurn]
  split <;> exact ⟨⟨rfl, hout, rfl⟩, ⟨List.prefix_rfl, rfl, rfl⟩⟩

/-- Settles O51: no place of the rules of these commands offers a byte (`outputSide_pointTurn`) or reads an item
(`readsNothing_pointTurn`). -/
theorem commandsUseOnlyTheirStreams : Obligations.CommandsUseOnlyTheirStreams := by
  intro i s t h hw hidle herr
  have ha : s.accepting = true := (accepting_iff s).2 ⟨hidle, herr⟩
  obtain ⟨_, _, _, _, _, _, _, hout⟩ := hw.idle hidle
  have output : i ∈ [.nop, .scan, .build, .gencode, .parseHeader] → NoOutput s t := fun hi => by
    cases i with
    | nop => exact (execNop_streams ha hout h).1
    | scan => cases h; exact noOutput_runCommand rfl ha hout
    | build => cases h; exact noOutput_runCommand rfl ha hout
    | gencode => cases h; exact noOutput_runCommand rfl ha hout
    | parseHeader => cases h; exact noOutput_runCommand rfl ha hout
    | _ => simp at hi
  have input : i ∈ [.nop, .build, .gencode, .emitHeader] → NoInput s t := fun hi => by
    cases i with
    | nop => exact (execNop_streams ha hout h).2
    | build => cases h; exact noInput_runCommand rfl ha
    | gencode => cases h; exact noInput_runCommand rfl ha
    | emitHeader => cases h; exact noInput_runCommand rfl ha
    | _ => simp at hi
  exact ⟨fun hi => ⟨(output hi).taken, (output hi).out, (output hi).count⟩,
    fun hi => ⟨(input hi).queue, (input hi).count, (input hi).pos⟩⟩

end Sys2Proof.Machine
end

section
/-! Proofs of the frequency scanner family (40_frequency_scanner.md): the counts, and what is computed from them, stay
within their widths (R150, R151; 00_scope.md R8; 42_code_generator.md R203, R205; 10_state.md R55, R56). -/

namespace Sys2Proof.Machine

/-! ## The counts -/

/-- What `CountsBounded` speaks of. -/
def counts (s : State) : Params × Vector Nat 256 × Nat := (s.params, s.freq, s.scanTotal)

theorem CountsBounded.congr {s t : State} (h : CountsBounded s) (e : counts t = counts s) :
    CountsBounded t := by
  simp only [counts, Prod.mk.injEq] at e
  obtain ⟨hparams, hfreq, htotal⟩ := e
  exact ⟨by rw [hfreq, htotal]; exact h.total, by rw [htotal, hparams]; exact h.limit⟩

/-- Of the primitives only SCAN writes the counts (R44, R55). -/
theorem counts_of_beyond {p : Prim} (hp : p ≠ .scan) {s t : State} (h : beyond p t = beyond p s) :
    counts t = counts s := by
  have hkept : ∀ u, counts (beyond p u) = counts u := fun u => by
    cases p with
    | scan => exact absurd rfl hp
    | _ => rfl
  rw [← hkept, h, hkept]

/-- A place in a rule is one of some primitive's rule, and its turn is that primitive's. -/
theorem pointTurn_owner (p : Prim) (pt : Point) :
    ∃ q : Prim, pt.isIn q = true ∧ pointTurn p pt = pointTurn q pt := by
  cases pt with
  | atStart | finishing | raising _ _ => exact ⟨p, rfl, rfl⟩
  | scanRead => exact ⟨.scan, rfl, rfl⟩
  | buildMerge => exact ⟨.build, rfl, rfl⟩
  | genWalk => exact ⟨.gencode, rfl, rfl⟩
  | emitNode | emitSymbol _ | emitSentinel | emitPad => exact ⟨.emitHeader, rfl, rfl⟩
  | parseFirst | parseMarker _ | parseSymbol _ | parseSentinel _ | parsePad _ | parseDone =>
    exact ⟨.parseHeader, rfl, rfl⟩
  | packRead _ _ | packBits _ _ _ _ | packFlush => exact ⟨.pack, rfl, rfl⟩
  | unpackFirst | unpackNext _ | unpackBits _ _ _ _ _ => exact ⟨.unpack, rfl, rfl⟩

theorem Quiet.counts {s t : State} (h : Quiet s t) : counts t = counts s :=
  show Machine.counts (blankFlow t) = Machine.counts (blankFlow s) from congrArg _ h.kept

/-- A byte is counted only while the counts are below their limit (R150). -/
theorem countsBounded_scanItem (it : Item) (ipos : Nat) {s : State} (h : CountsBounded s) :
    CountsBounded (scanItem it ipos s) := by
  cases it with
  | eos => exact h.congr (Quiet.finish (.refl s)).counts
  | byte b =>
    simp only [scanItem]
    split
    next => exact h.congr rfl
    next hlt =>
      refine ⟨?_, Nat.lt_of_le_of_ne h.limit hlt⟩
      rw [bump_sum, h.total]

theorem countsBounded_awaitItem {k : Item → Nat → State → State} {s : State} (h : CountsBounded s)
    (hk : ∀ it ipos t, CountsBounded t → CountsBounded (k it ipos t)) :
    CountsBounded (awaitItem k s) := by
  rcases awaitItem_quiet k s with ⟨hq, _⟩ | ⟨it, ipos, e⟩
  · exact h.congr hq.counts
  · rw [e]; exact hk it ipos _ (h.congr rfl)

theorem sum_zeroCounts : (Vector.replicate 256 0).toList.sum = 0 := by
  rw [Vector.toList_replicate, List.sum_replicate, smul_zero]

theorem countsBounded_scanStart (s : State) : CountsBounded (scanStart s) :=
  ⟨sum_zeroCounts, Nat.zero_le _⟩

/-- SCAN's own places: its first line clears the counts, and its loop counts bytes (R150). -/
theorem countsBounded_scanTurn {pt : Point} (hpt : pt.isIn .scan = true) {s : State}
    (h : CountsBounded s) : CountsBounded (pointTurn .scan pt s) := by
  cases pt with
  | atStart => exact countsBounded_scanStart s
  | scanRead => exact countsBounded_awaitItem h fun it ipos t => countsBounded_scanItem it ipos
  | finishing => exact h.congr (by rw [pointTurn, finishTurn]; split <;> rfl)
  | raising c q => exact h.congr (by rw [pointTurn, raiseTurn]; split <;> rfl)
  | _ => simp [Point.isIn] at hpt

theorem countsBounded_coreTurn {s : State} (h : CountsBounded s) : CountsBounded (coreTurn s) := by
  unfold coreTurn
  split
  · exact h
  next op ph _ =>
    obtain ⟨q, hq, e⟩ := pointTurn_owner (currentPrim op ph) s.point
    rw [e]
    by_cases hscan : q = .scan
    · subst hscan
      exact countsBounded_scanTurn hq h
    · by_cases hraise : ∃ c p, s.point = .raising c p
      · obtain ⟨c, p, hpt⟩ := hraise
        rw [hpt]
        exact h.congr (by rw [pointTurn, raiseTurn]; split <;> rfl)
      · exact h.congr (counts_of_beyond hscan (beyond_pointTurn hq fun c p hpt => hraise ⟨c, p, hpt⟩))

theorem countsBounded_closed : StepClosed CountsBounded where
  script _ _ h := h.congr rfl
  ticks _ _ h := h.congr rfl
  log _ _ h := h.congr rfl
  core _ h := countsBounded_coreTurn h
  sink s h := by
    refine h.congr ?_
    rcases sinkTurn_cases s with ⟨_, e⟩ | ⟨b, rest, _, e⟩ <;> rw [e]
    rfl
  send _ _ h := h.congr rfl
  withdraw _ h := h.congr rfl
  accept _ _ h _ := h.congr rfl
  illegal _ _ h _ := h.congr rfl
  refuse _ h := h.congr rfl
  clear _ _ := ⟨sum_zeroCounts, Nat.zero_le _⟩
  reset _ _ := ⟨sum_zeroCounts, Nat.zero_le _⟩
  write off v s h := by
    obtain ⟨d, i, e, x, w, hw⟩ := regWrite_frame off v s
    rw [hw]
    exact h.congr rfl

/-! ## What is computed from the counts -/

/-- The part of `ValuesBounded` that does not depend on the place in the rule. -/
structure TablesBounded (s : State) : Prop where
  codes : ∀ b, symGet s.len b ≤ 255 ∧ (symGet s.bits b).length ≤ 255
  pbits : s.pbits ≤ s.params.passLimit * 255
  weights : ∀ k < s.nnodes, (nodeGet s.node k).weight ≤ s.params.passLimit

theorem ValuesBounded.tables {s : State} (h : ValuesBounded s) : TablesBounded s :=
  ⟨h.codes, h.pbits, h.weights⟩

/-- The fields that `ValuesBounded` speaks of, but for the place in the rule. -/
def valueView (s : State) : State :=
  { State.reset with
    params := s.params, len := s.len, bits := s.bits, pbits := s.pbits, nnodes := s.nnodes,
    node := s.node, pq := s.pq, stack := s.stack }

/-- The fields that `TablesBounded` speaks of. -/
def tableView (s : State) : State := { valueView s with pq := [], stack := [] }

theorem TablesBounded.congr {s t : State} (h : TablesBounded s) (hv : tableView t = tableView s) :
    TablesBounded t := by
  have hview : ∀ u, TablesBounded u ↔ TablesBounded (tableView u) := fun u =>
    ⟨fun h => ⟨h.codes, h.pbits, h.weights⟩, fun h => ⟨h.codes, h.pbits, h.weights⟩⟩
  rwa [hview, hv, ← hview]

theorem ValuesBounded.congr {s t : State} (h : ValuesBounded s) (hv : valueView t = valueView s)
    (hpt : t.point = s.point) : ValuesBounded t := by
  have hview : ∀ u : State, ValuesBounded u ↔ ValuesBounded { valueView u with point := u.point } :=
    fun u => ⟨fun h => ⟨h.codes, h.pbits, h.weights, h.merging, h.walking⟩,
      fun h => ⟨h.codes, h.pbits, h.weights, h.merging, h.walking⟩⟩
  rwa [hview, hv, hpt, ← hview]

/-- Outside BUILD's merge loop and GENCODE's traversal the tables are all there is to bound. -/
theorem TablesBounded.elsewhere {s t : State} (h : TablesBounded s) (hv : tableView t = tableView s)
    (hmerge : t.point ≠ .buildMerge) (hwalk : t.point ≠ .genWalk) : ValuesBounded t := by
  obtain ⟨hcodes, hpbits, hweights⟩ := h.congr hv
  exact ⟨hcodes, hpbits, hweights, fun hpt => absurd hpt hmerge, fun hpt => absurd hpt hwalk⟩

theorem Quiet.valueView {s t : State} (h : Quiet s t) : valueView t = valueView s :=
  show Machine.valueView (blankFlow t) = Machine.valueView (blankFlow s) from congrArg _ h.kept

theorem Quiet.tableView {s t : State} (h : Quiet s t) : tableView t = tableView s :=
  congrArg (fun v : State => { v with pq := [], stack := [] }) h.valueView

theorem Quiet.values {s t : State} (h : Quiet s t) (hs : ValuesBounded s) : ValuesBounded t := by
  rcases h.place with hrests | hsame
  · refine hs.tables.elsewhere h.tableView ?_ ?_ <;>
      · intro hpt; rw [hpt] at hrests; exact Bool.noConfusion hrests
  · exact hs.congr h.valueView hsame

/-- The end of a rule leads to a place where the tables are all there is to bound (R311). -/
theorem TablesBounded.finish {s t : State} (h : TablesBounded s) (hv : tableView t = tableView s)
    (hr : t.opstate ≠ .idle) : ValuesBounded (finish t) := by
  have hkept := (Quiet.finish (.refl t)).tableView.trans hv
  rcases finish_cases t with ⟨hidle, _⟩ | ⟨op, ph, _, _, e⟩ | ⟨op, ph, _, _, e⟩
  · exact absurd hidle hr
  · exact h.elsewhere hkept (by rw [e]; exact Point.noConfusion) (by rw [e]; exact Point.noConfusion)
  · exact h.elsewhere hkept (by rw [e]; exact Point.noConfusion) (by rw [e]; exact Point.noConfusion)

theorem valuesBounded_awaitItem {k : Item → Nat → State → State} {s : State} (hr : s.opstate ≠ .idle)
    (h : ValuesBounded s)
    (hk : ∀ it ipos t, t.opstate ≠ .idle → t.point = s.point → TablesBounded t →
      ValuesBounded (k it ipos t)) : ValuesBounded (awaitItem k s) := by
  rcases awaitItem_quiet k s with ⟨hq, _⟩ | ⟨it, ipos, e⟩
  · exact hq.values h
  · rw [e]; exact hk it ipos _ hr rfl (h.tables.congr rfl)

/-- Without a tree and codes there are no nodes and no bits to bound (R320). -/
theorem TablesBounded.invalidateTree {s : State} (h : TablesBounded s) :
    TablesBounded (invalidateTree s) :=
  ⟨h.codes, Nat.zero_le _, fun _ hk => absurd hk (Nat.not_lt_zero _)⟩

/-! ## BUILD -/

/-- BUILD's leaves weigh no more than all counts together (R150, R175). -/
theorem leaves_weight_le {s : State} (h : CountsBounded s) :
    ((List.range (leavesOf s.freq).length).map fun i =>
      (nodeGet (writeNodes s.node 0 (leavesOf s.freq)) i).weight).sum ≤ s.params.passLimit := by
  have hread := congrArg (List.map Node.weight) (leaves_read s.freq s.node)
  rw [List.map_map] at hread
  calc _ = ((leavesOf s.freq).map Node.weight).sum := congrArg List.sum hread
    _ ≤ s.freq.toList.sum := leavesOf_weights s.freq
    _ = s.scanTotal := h.total
    _ ≤ s.params.passLimit := h.limit

theorem weight_erase (node : Vector Node 511) {l : List Nat} {i : Nat} (h : i ∈ l) :
    (nodeGet node i).weight + ((l.erase i).map fun j => (nodeGet node j).weight).sum =
      (l.map fun j => (nodeGet node j).weight).sum :=
  sum_erase (fun j => (nodeGet node j).weight) l i h

theorem valuesBounded_buildStart {s : State} (hc : CountsBounded s) (h : TablesBounded s) :
    ValuesBounded (buildStart s) := by
  have hsum := leaves_weight_le hc
  refine ⟨h.codes, Nat.zero_le _, fun k hk => ?_, fun _ => hsum, nofun⟩
  have hone := weight_erase (writeNodes s.node 0 (leavesOf s.freq)) (List.mem_range.2 hk)
  exact (Nat.le_of_add_right_le hone.le).trans hsum

/-- A merge moves the weight of two members of PQ to the new node (R175). -/
theorem valuesBounded_mergeNodes {s : State} {l r : Nat} (h : ValuesBounded s)
    (hpt : s.point = .buildMerge) (hold : ∀ i ∈ s.pq, i < s.nnodes) (hl : l ∈ s.pq)
    (hr : r ∈ s.pq.erase l) :
    ValuesBounded (mergeNodes l r ((s.pq.erase l).erase r) s) := by
  have hsum := h.merging hpt
  have hleft := weight_erase s.node hl
  have hright := weight_erase s.node hr
  let both := (nodeGet s.node l).weight + (nodeGet s.node r).weight
  have hboth : both ≤ s.params.passLimit := by omega
  have hnew : (nodeGet (nodeSet s.node s.nnodes (.internal both l r)) s.nnodes).weight ≤ both :=
    weight_nodeSet_le _ _ _ _ _ le_rfl fun hne => absurd rfl hne
  have hrest : ((s.pq.erase l).erase r).map
      (fun i => (nodeGet (nodeSet s.node s.nnodes (.internal both l r)) i).weight) =
        ((s.pq.erase l).erase r).map fun i => (nodeGet s.node i).weight :=
    List.map_congr_left fun i hi => by
      have hlt := hold i (List.mem_of_mem_erase (List.mem_of_mem_erase hi))
      rw [nodeGet_nodeSet_of_ne _ _ _ _ hlt.ne]
  refine ⟨h.codes, h.pbits, fun k hk => ?weights, fun _ => ?merging, fun hw => ?walking⟩
  case weights =>
    exact weight_nodeSet_le _ _ _ _ _ hboth fun hne =>
      h.weights k (Nat.lt_of_le_of_ne (Nat.le_of_lt_succ hk) hne)
  case merging =>
    show ((((s.pq.erase l).erase r) ++ [s.nnodes]).map fun i =>
      (nodeGet (nodeSet s.node s.nnodes (.internal both l r)) i).weight).sum ≤ s.params.passLimit
    rw [List.map_append, hrest, List.sum_append, List.map_singleton, List.sum_singleton]
    omega
  case walking => exact absurd (hpt.symm.trans hw) nofun

theorem valuesBounded_buildMerge {s : State} (hr : s.opstate ≠ .idle) (hpt : s.point = .buildMerge)
    (ht : mergeProgress s) (h : ValuesBounded s) : ValuesBounded (buildMerge s) := by
  obtain ⟨_, _, _, _, f, hf⟩ := ht
  unfold buildMerge
  split
  next => exact h.tables.finish rfl hr
  next l pq1 hmin =>
    obtain ⟨hl, rfl⟩ := extractMin_some _ _ _ _ hmin
    split
    next => exact h.tables.finish rfl hr
    next r pq2 hmin2 =>
      obtain ⟨hr', rfl⟩ := extractMin_some _ _ _ _ hmin2
      exact valuesBounded_mergeNodes h hpt (fun i hi => root_lt_of_below (hf.roots i hi)) hl hr'

/-! ## GENCODE -/

/-- GENCODE's traversal with a code table that fits and calls that fit. -/
theorem TablesBounded.walking {s : State} (h : TablesBounded s) (hpt : s.point = .genWalk)
    (hst : ∀ e ∈ s.stack, assignFits s.node e) : ValuesBounded s :=
  ⟨h.codes, h.pbits, h.weights, fun hm => absurd (hpt.symm.trans hm) nofun, fun _ => hst⟩

/-- No path of a tree with distinct symbols is longer than 255 bits (R205). -/
theorem depth_le_of_distinct {tr : HuffTree} (h : tr.distinct) : tr.depth ≤ 255 := by
  have hdepth := depth_lt_leaves tr
  have hleaves := leaves_le_of_distinct tr h
  omega

/-- A cleared LEN has no code that is too long (R200, R313). -/
theorem TablesBounded.clearedCodes {s : State} (h : TablesBounded s) (b : Byte) :
    symGet (Vector.replicate 256 0) b ≤ 255 ∧ (symGet s.bits b).length ≤ 255 :=
  ⟨by rw [symGet_replicate]; exact Nat.zero_le _, (h.codes b).2⟩

theorem valuesBounded_genStart {s : State} (hst : s.stack = [])
    (ht : treeAgrees s) (h : TablesBounded s) : ValuesBounded (genStart s) := by
  have hclear := h.clearedCodes
  have hnone : ∀ e ∈ s.stack, assignFits s.node e := by simp [hst]
  obtain ⟨_, hheld, _⟩ := ht
  unfold genStart
  split
  next => exact h.elsewhere rfl nofun nofun
  next => exact TablesBounded.walking ⟨hclear, h.pbits, h.weights⟩ rfl hnone
  next =>
    exact TablesBounded.walking ⟨codes_assign hclear _ [false] (by decide), h.pbits, h.weights⟩ rfl hnone
  next hk =>
    obtain ⟨tr, hheld, _, hd, _⟩ := hheld (.inr hk)
    refine TablesBounded.walking ⟨hclear, h.pbits, h.weights⟩ rfl fun e he => ?_
    rw [List.mem_singleton.1 he]
    exact ⟨tr, hheld.1, by simpa using depth_le_of_distinct hd⟩

/-- The calls for the children of an Internal node fit where the call for the node does (R201, R205). -/
theorem assignFits_children {node : Vector Node 511} {i w l r : Nat} {p : BitString}
    (h : assignFits node (.assign i p)) (hi : nodeGet node i = .internal w l r) :
    assignFits node (.assign l (p ++ [false])) ∧ assignFits node (.assign r (p ++ [true])) := by
  obtain ⟨tr, hrep, hdepth⟩ := h
  cases tr with
  | leaf b => obtain ⟨w', e⟩ := hrep; cases hi.symm.trans e
  | node tl tr =>
    obtain ⟨w', a, b, e, hl, hr⟩ := hrep
    cases hi.symm.trans e
    simp only [HuffTree.depth] at hdepth
    exact ⟨⟨tl, hl, by simp; omega⟩, ⟨tr, hr, by simp; omega⟩⟩

theorem valuesBounded_assignNode {i : Nat} {p : BitString} {rest : List StackEntry} {s : State}
    (hpt : s.point = .genWalk) (h : TablesBounded s) (hfits : assignFits s.node (.assign i p))
    (hrest : ∀ e ∈ rest, assignFits s.node e) : ValuesBounded (assignNode i p rest s) := by
  unfold assignNode
  split
  next b w _ =>
    have hp : p.length ≤ 255 := by obtain ⟨tr, _, hdepth⟩ := hfits; omega
    exact TablesBounded.walking ⟨codes_assign h.codes b p hp, h.pbits, h.weights⟩ hpt hrest
  next w l r hi =>
    obtain ⟨hl, hr⟩ := assignFits_children hfits hi
    refine TablesBounded.walking ⟨h.codes, h.pbits, h.weights⟩ hpt ?_
    simpa using ⟨hl, hr, hrest⟩

theorem valuesBounded_genWalk {s : State} (hr : s.opstate ≠ .idle) (hpt : s.point = .genWalk)
    (hc : CountsBounded s) (h : ValuesBounded s) : ValuesBounded (genWalk s) := by
  have hfits := h.walking hpt
  unfold genWalk
  split
  next =>
    have hpbits : payloadBits s.freq s.len ≤ s.params.passLimit * 255 := calc
      payloadBits s.freq s.len ≤ s.freq.toList.sum * 255 := payloadBits_le _ _ fun b => (h.codes b).1
      _ ≤ s.params.passLimit * 255 := Nat.mul_le_mul_right _ (hc.total ▸ hc.limit)
    have hdone : TablesBounded { s with pbits := payloadBits s.freq s.len } :=
      ⟨h.codes, hpbits, h.weights⟩
    exact hdone.finish rfl hr
  next i p rest hst =>
    rw [hst] at hfits
    exact valuesBounded_assignNode hpt h.tables (hfits _ (.head _)) fun e he => hfits e (.tail _ he)
  all_goals
    next hst =>
      rw [hst] at hfits
      exact TablesBounded.walking (h.tables.congr rfl) hpt fun e he => hfits e (.tail _ he)

/-! ## PARSE_HEADER -/

/-- The nodes that PARSE_HEADER makes weigh nothing (R223). -/
theorem TablesBounded.addNode {s : State} (h : TablesBounded s) (n : Node) (hn : n.weight = 0) :
    TablesBounded { s with node := nodeSet s.node s.nnodes n, nnodes := s.nnodes + 1 } :=
  ⟨h.codes, h.pbits, fun k hk => weight_nodeSet_le _ _ _ _ _ (hn ▸ Nat.zero_le _) fun hne =>
    h.weights k (Nat.lt_of_le_of_ne (Nat.le_of_lt_succ hk) hne)⟩

theorem valuesBounded_parseRaise (c : Cause) (ipos : Nat) {s : State} (h : TablesBounded s) :
    ValuesBounded (parseRaise c ipos s) :=
  TablesBounded.elsewhere (s := { s with nnodes := 0 })
    ⟨h.codes, h.pbits, fun _ hk => absurd hk (Nat.not_lt_zero _)⟩ rfl nofun nofun

theorem valuesBounded_parseMarker (nint : Nat) (it : Item) (ipos : Nat) {s : State}
    (h : TablesBounded s) : ValuesBounded (parseMarker nint it ipos s) := by
  cases it with
  | eos => exact valuesBounded_parseRaise _ _ h
  | byte m =>
    simp only [parseMarker, parseInternal]
    (repeat' split)
    · exact h.elsewhere rfl nofun nofun
    · exact valuesBounded_parseRaise _ _ h
    · exact (h.addNode (.internal 0 0 0) rfl).elsewhere rfl nofun nofun
    · exact valuesBounded_parseRaise _ _ h

theorem valuesBounded_parseFirst (it : Item) (ipos : Nat) {s : State} (h : TablesBounded s) :
    ValuesBounded (parseFirst it ipos s) := by
  cases it with
  | eos => exact h.elsewhere rfl nofun nofun
  | byte m => exact valuesBounded_parseMarker 0 (.byte m) ipos h

/-- The return of a subtree moves no weight (R223). -/
theorem TablesBounded.returnSubtree {s t : State} (h : TablesBounded s) (k : Nat)
    (hv : tableView t = tableView { s with node := (returnSubtree k s.node s.stack).2.2 }) :
    TablesBounded t :=
  TablesBounded.congr (s := { s with node := (Machine.returnSubtree k s.node s.stack).2.2 })
    ⟨h.codes, h.pbits, fun j hj => (returnSubtree_weight _ _ _ _).le.trans (h.weights j hj)⟩ hv

theorem valuesBounded_parseLeaf (nint : Nat) (b : Byte) {s : State} (h : TablesBounded s) :
    ValuesBounded (parseLeaf nint b s) := by
  have hreturn := (h.addNode (.leaf b 0) rfl).returnSubtree s.nnodes rfl
  unfold parseLeaf
  simp only
  split
  next e => rw [e] at hreturn; exact hreturn.elsewhere rfl nofun nofun
  next e => rw [e] at hreturn; exact hreturn.elsewhere rfl nofun nofun

theorem valuesBounded_parseSymbol (nint : Nat) (it : Item) (ipos : Nat) {s : State}
    (h : TablesBounded s) : ValuesBounded (parseSymbol nint it ipos s) := by
  cases it with
  | eos => exact valuesBounded_parseRaise _ _ h
  | byte b =>
    simp only [parseSymbol]
    split
    · exact valuesBounded_parseRaise _ _ h
    · exact valuesBounded_parseLeaf nint b h

theorem valuesBounded_parseSentinel (root : Nat) (it : Item) (ipos : Nat) {s : State}
    (h : TablesBounded s) : ValuesBounded (parseSentinel root it ipos s) := by
  cases it with
  | eos => exact valuesBounded_parseRaise _ _ h
  | byte b =>
    simp only [parseSentinel]
    split
    · exact h.elsewhere rfl nofun nofun
    · exact valuesBounded_parseRaise _ _ h

theorem valuesBounded_parsePad (root : Nat) (it : Item) (ipos : Nat) {s : State}
    (h : TablesBounded s) : ValuesBounded (parsePad root it ipos s) := by
  cases it with
  | eos => exact valuesBounded_parseRaise _ _ h
  | byte b =>
    simp only [parsePad]
    split
    · exact valuesBounded_parseRaise _ _ h
    · exact h.elsewhere rfl nofun nofun

/-! ## The core's turn -/

theorem valuesBounded_startTurn (p : Prim) {s : State} (hr : s.opstate ≠ .idle)
    (hst : s.stack = []) (ht : treeAgrees s) (hc : CountsBounded s)
    (h : ValuesBounded s) : ValuesBounded (startTurn p s) := by
  have htables := h.tables
  cases p with
  | nop => exact htables.finish rfl hr
  | scan => exact htables.invalidateTree.elsewhere rfl nofun nofun
  | build => exact valuesBounded_buildStart hc htables
  | gencode => exact valuesBounded_genStart hst ht htables
  | emitHeader =>
    rcases emitStart_quiet s with hq | e
    · exact hq.values h
    · rw [startTurn, e]
      exact htables.elsewhere rfl nofun nofun
  | pack => exact (packStart_quiet s).values h
  | parseHeader => exact htables.invalidateTree.elsewhere rfl nofun nofun
  | unpack => exact (unpackStart_quiet s).values h

theorem valuesBounded_scanItem (it : Item) (ipos : Nat) {s : State} (hr : s.opstate ≠ .idle)
    (hpt : s.point = .scanRead) (h : TablesBounded s) : ValuesBounded (scanItem it ipos s) := by
  cases it with
  | eos => exact h.finish rfl hr
  | byte b =>
    simp only [scanItem]
    split
    · exact h.elsewhere rfl nofun nofun
    · refine h.elsewhere rfl ?_ ?_ <;>
        exact fun hp => absurd (hpt.symm.trans hp) nofun

/-- The traversal of EMIT_HEADER writes STACK alone (`emitNode_quiet`). -/
theorem valuesBounded_emitNode {s : State} (hpt : s.point = .emitNode) (h : TablesBounded s) :
    ValuesBounded (emitNode s) := by
  obtain ⟨st, hq, _⟩ := emitNode_quiet s hpt
  refine hq.values (h.elsewhere rfl ?_ ?_) <;>
    exact fun hp => absurd (hpt.symm.trans hp) nofun

theorem valuesBounded_finishTurn {s : State} (h : ValuesBounded s) : ValuesBounded (finishTurn s) := by
  unfold finishTurn
  split
  · exact h.tables.elsewhere rfl nofun nofun
  · exact h

theorem valuesBounded_raiseTurn (prim : Prim) (c : Cause) (p : Nat) {s : State} (h : ValuesBounded s) :
    ValuesBounded (raiseTurn prim c p s) := by
  unfold raiseTurn
  split
  · exact h.tables.elsewhere rfl nofun nofun
  · exact h

/-- The core's turn keeps the bounds: most turns write nothing that is bounded, and the others have a lemma of their
own. -/
theorem valuesBounded_coreTurn {s : State} (hw : WorkClean s) (ht : TreeState s) (hc : CountsBounded s)
    (h : ValuesBounded s) : ValuesBounded (coreTurn s) := by
  unfold coreTurn
  split
  · exact h
  next op ph hop =>
    have hr : s.opstate ≠ .idle := by rw [hop]; exact OpState.noConfusion
    have hat : treeAt s.point s := ht.running hr
    have read {k} := valuesBounded_awaitItem (k := k) hr h
    cases hpt : s.point <;> rw [hpt] at hat read
    case atStart => exact valuesBounded_startTurn _ hr (hw.stack (by rw [hpt]; rfl)) hat hc h
    case scanRead => exact read fun it ipos t hrt hptt ht => valuesBounded_scanItem it ipos hrt hptt ht
    case buildMerge => exact valuesBounded_buildMerge hr hpt hat h
    case genWalk => exact valuesBounded_genWalk hr hpt hc h
    case emitNode => exact valuesBounded_emitNode hpt h.tables
    case parseFirst => exact read fun it ipos t _ _ ht => valuesBounded_parseFirst it ipos ht
    case parseMarker => exact read fun it ipos t _ _ ht => valuesBounded_parseMarker _ it ipos ht
    case parseSymbol => exact read fun it ipos t _ _ ht => valuesBounded_parseSymbol _ it ipos ht
    case parseSentinel => exact read fun it ipos t _ _ ht => valuesBounded_parseSentinel _ it ipos ht
    case parsePad => exact read fun it ipos t _ _ ht => valuesBounded_parsePad _ it ipos ht
    case parseDone => exact h.tables.finish rfl hr
    case finishing => exact valuesBounded_finishTurn h
    case raising => exact valuesBounded_raiseTurn _ _ _ h
    all_goals exact (pointTurn_quiet _ s rfl).values h

/-! ## Every step -/

/-- What keeps each of two properties keeps both. -/
theorem StepClosed.and {P Q : State → Prop} (hP : StepClosed P) (hQ : StepClosed Q) :
    StepClosed fun s => P s ∧ Q s where
  script s es h := ⟨hP.script s es h.1, hQ.script s es h.2⟩
  ticks s n h := ⟨hP.ticks s n h.1, hQ.ticks s n h.2⟩
  log s l h := ⟨hP.log s l h.1, hQ.log s l h.2⟩
  core s h := ⟨hP.core s h.1, hQ.core s h.2⟩
  sink s h := ⟨hP.sink s h.1, hQ.sink s h.2⟩
  send it s h := ⟨hP.send it s h.1, hQ.send it s h.2⟩
  withdraw s h := ⟨hP.withdraw s h.1, hQ.withdraw s h.2⟩
  accept op s h ha := ⟨hP.accept op s h.1 ha, hQ.accept op s h.2 ha⟩
  illegal op s h ha := ⟨hP.illegal op s h.1 ha, hQ.illegal op s h.2 ha⟩
  refuse s h := ⟨hP.refuse s h.1, hQ.refuse s h.2⟩
  clear s h := ⟨hP.clear s h.1, hQ.clear s h.2⟩
  reset s h := ⟨hP.reset s h.1, hQ.reset s h.2⟩
  write off v s h := ⟨hP.write off v s h.1, hQ.write off v s h.2⟩

theorem valuesBounded_clearCore {s : State} (h : TablesBounded s) : ValuesBounded (clearCore s) :=
  TablesBounded.elsewhere (s := clearCore s)
    ⟨h.clearedCodes, Nat.zero_le _, fun _ hk => absurd hk (Nat.not_lt_zero _)⟩ rfl nofun nofun

theorem valuesBounded_resetCore (s : State) : ValuesBounded (resetCore s) :=
  TablesBounded.elsewhere (s := resetCore s)
    ⟨fun b => by
        rw [resetCore, State.reset, symGet_replicate, symGet_replicate]
        exact ⟨Nat.zero_le _, Nat.zero_le _⟩,
      Nat.zero_le _, fun _ hk => absurd hk (Nat.not_lt_zero _)⟩ rfl nofun nofun

/-- The invariants that the bounds rest on. -/
theorem boundPremises_closed : StepClosed fun s => (WorkClean s ∧ TreeState s) ∧ CountsBounded s :=
  treeState_closed.and countsBounded_closed

theorem valuesBounded_closed :
    StepClosed fun s => ((WorkClean s ∧ TreeState s) ∧ CountsBounded s) ∧ ValuesBounded s where
  script s es h := ⟨boundPremises_closed.script s es h.1, h.2.congr rfl rfl⟩
  ticks s n h := ⟨boundPremises_closed.ticks s n h.1, h.2.congr rfl rfl⟩
  log s l h := ⟨boundPremises_closed.log s l h.1, h.2.congr rfl rfl⟩
  core s h := by
    obtain ⟨⟨⟨hw, ht⟩, hc⟩, hv⟩ := h
    exact ⟨boundPremises_closed.core s ⟨⟨hw, ht⟩, hc⟩, valuesBounded_coreTurn hw ht hc hv⟩
  sink s h := by
    refine ⟨boundPremises_closed.sink s h.1, ?_⟩
    rcases sinkTurn_cases s with ⟨_, e⟩ | ⟨b, rest, _, e⟩ <;> rw [e]
    · exact h.2
    · exact h.2.congr rfl rfl
  send it s h := ⟨boundPremises_closed.send it s h.1, h.2.congr rfl rfl⟩
  withdraw s h := ⟨boundPremises_closed.withdraw s h.1, h.2.congr rfl rfl⟩
  accept op s h ha := ⟨boundPremises_closed.accept op s h.1 ha, h.2.tables.elsewhere rfl nofun nofun⟩
  illegal op s h ha := ⟨boundPremises_closed.illegal op s h.1 ha, h.2.tables.elsewhere rfl nofun nofun⟩
  refuse s h := ⟨boundPremises_closed.refuse s h.1, h.2.congr rfl rfl⟩
  clear s h := ⟨boundPremises_closed.clear s h.1, valuesBounded_clearCore (h.2.tables.congr rfl)⟩
  reset s h := ⟨boundPremises_closed.reset s h.1, valuesBounded_resetCore s⟩
  write off v s h := by
    refine ⟨boundPremises_closed.write off v s h.1, ?_⟩
    obtain ⟨d, i, e, x, w, hw⟩ := regWrite_frame off v s
    rw [hw]
    exact h.2.congr rfl rfl

/-- PBITS fits the 40 bits of its register for every CNT_W (R45). -/
theorem pbits_lt {s : State} (h : ValuesBounded s) : s.pbits < 2 ^ 40 := by
  have hwidth : s.params.cntW ≤ 32 := s.params.cntWPred.isLt
  have hpow : 2 ^ s.params.cntW ≤ 2 ^ 32 := Nat.pow_le_pow_right (by decide) hwidth
  have hlimit : s.params.passLimit ≤ 2 ^ 32 - 1 := Nat.sub_le_sub_right hpow 1
  calc s.pbits ≤ s.params.passLimit * 255 := h.pbits
    _ ≤ (2 ^ 32 - 1) * 255 := Nat.mul_le_mul_right _ hlimit
    _ < 2 ^ 40 := by decide

/-- Settles O56: every transaction keeps the counts, because SCAN counts a byte only below the limit
(`countsBounded_scanItem`), and with the invariants what is computed from them, the core's turn by the rule at its
place (`valuesBounded_coreTurn`). -/
theorem countsNeverWrap : Obligations.CountsNeverWrap := by
  intro s t hc hstep
  refine ⟨countsBounded_closed.step s t hc hstep, fun hw ht hv => ?_⟩
  obtain ⟨_, hvalues⟩ := valuesBounded_closed.step s t ⟨⟨⟨hw, ht⟩, hc⟩, hv⟩ hstep
  exact ⟨hvalues, pbits_lt hvalues⟩

end Sys2Proof.Machine
end

section
/-! Proofs of the tree builder family (41_tree_builder.md): the priority structure gives up its least member (R170
to R172). -/

namespace Sys2Proof.Machine

/-- The order of the keys: by weight, and by index among equal weights (R170). -/
theorem keyLt_iff (node : Vector Node 511) (i j : Nat) :
    keyLt node i j = true ↔ (nodeGet node i).weight < (nodeGet node j).weight ∨
      (nodeGet node i).weight = (nodeGet node j).weight ∧ i < j := by
  simp [keyLt]

/-- Of the best so far and the next member the lesser is kept, and the other one has a greater key. -/
theorem eq_or_keyLt_lesser (node : Vector Node 511) (m a : Nat) :
    ∀ i ∈ [m, a], i = (if keyLt node a m = true then a else m) ∨
      keyLt node (if keyLt node a m = true then a else m) i = true := by
  split
  next hlt => simp [hlt]
  next hge => simpa using (eq_or_ne a m).imp_right fun hne => (keyLt_total node a m hne).resolve_left hge

/-- What the search of the least key leaves behind has a greater key (R172). -/
theorem keyLt_leastKey (node : Vector Node 511) (m : Nat) (rest : List Nat) :
    ∀ i ∈ m :: rest, i ≠ leastKey node m rest → keyLt node (leastKey node m rest) i = true := by
  induction rest generalizing m with
  | nil => exact fun i hi hne => absurd (List.mem_singleton.1 hi) hne
  | cons a rest ih =>
    intro i hi hne
    have hsearch := ih (if keyLt node a m = true then a else m)
    have hcases : i ∈ [m, a] ∨ i ∈ rest := by simpa [or_assoc] using hi
    rcases hcases with hfirst | hrest
    · rcases eq_or_keyLt_lesser node m a i hfirst with hi | hlt
      · exact hsearch i (by simp [hi]) hne
      · rcases eq_or_ne _ (leastKey node m (a :: rest)) with hb | hb
        · exact hb ▸ hlt
        · exact keyLt_trans node _ _ _ (hsearch _ (List.mem_cons_self ..) hb) hlt
    · exact hsearch i (List.mem_cons_of_mem _ hrest) hne

/-- Every member but the extracted one has a greater key (R172). -/
theorem extractMin_keyLt {node : Vector Node 511} {pq rest : List Nat} {m : Nat}
    (h : extractMin node pq = some (m, rest)) : ∀ i ∈ pq, i ≠ m → keyLt node m i = true := by
  cases pq with
  | nil => exact absurd h nofun
  | cons a l =>
    simp only [extractMin, Option.some.injEq, Prod.mk.injEq] at h
    obtain ⟨rfl, _⟩ := h
    exact keyLt_leastKey node a l

/-- Settles O30: the rest is the members without the extracted one (`extractMin_some`), and the search of the least
key leaves greater keys behind (`keyLt_leastKey`). -/
theorem extractMinTakesTheLeastKey : Obligations.ExtractMinTakesTheLeastKey := by
  intro node pq hnodup
  refine ⟨⟨extractMin_none node pq, fun h => by rw [h]; rfl⟩, fun m rest h => ?_⟩
  obtain ⟨hm, rfl⟩ := extractMin_some node pq m rest h
  exact ⟨hm, fun i => hnodup.mem_erase_iff.trans and_comm,
    fun i hi hne => (keyLt_iff node m i).1 (extractMin_keyLt h i hi hne)⟩

end Sys2Proof.Machine
end

section
/-! Proofs of the tree builder family (41_tree_builder.md): BUILD makes the Huffman tree of the counts (R175 to
R177). -/

namespace Sys2Proof.Machine

/-! ## What a merge makes -/

/-- No node below k has joined node i. -/
def Unjoined (node : Vector Node 511) (k i : Nat) : Prop :=
  ∀ j < k, (nodeGet node j).isLeaf = false → i ∉ [(nodeGet node j).left, (nodeGet node j).right]

/-- Node k joins l and r, which have the two least keys among the nodes below k that no node below k has joined
(R175). -/
structure JoinsLeastTwo (node : Vector Node 511) (k l r : Nat) : Prop where
  entry : nodeGet node k = .internal ((nodeGet node l).weight + (nodeGet node r).weight) l r
  left_lt : l < k
  right_lt : r < k
  ordered : keyLt node l r = true
  left_free : Unjoined node k l
  right_free : Unjoined node k r
  least : ∀ i < k, i ≠ l → i ≠ r → Unjoined node k i → keyLt node r i = true

theorem keyLt_congr {node node' : Vector Node 511} {i j : Nat} (hi : nodeGet node' i = nodeGet node i)
    (hj : nodeGet node' j = nodeGet node j) : keyLt node' i j = keyLt node i j := by
  rw [keyLt, hi, hj, keyLt]

theorem unjoined_congr {node node' : Vector Node 511} {k : Nat}
    (same : ∀ j < k, nodeGet node' j = nodeGet node j) (i : Nat) :
    Unjoined node' k i ↔ Unjoined node k i :=
  forall₂_congr fun j hj => by rw [same j hj]

/-- What node k joins is a matter of the nodes up to k. -/
theorem JoinsLeastTwo.congr {node node' : Vector Node 511} {k l r : Nat} (h : JoinsLeastTwo node k l r)
    (same : ∀ j ≤ k, nodeGet node' j = nodeGet node j) : JoinsLeastTwo node' k l r := by
  obtain ⟨hentry, hl, hr, hlr, hfl, hfr, hleast⟩ := h
  have hfree := unjoined_congr fun j (hj : j < k) => same j hj.le
  refine ⟨?_, hl, hr, ?_, (hfree l).2 hfl, (hfree r).2 hfr, fun i hi hil hir hfi => ?_⟩
  · rw [same k le_rfl, same l hl.le, same r hr.le, hentry]
  · rw [keyLt_congr (same l hl.le) (same r hr.le), hlr]
  · rw [keyLt_congr (same r hr.le) (same i hi.le), hleast i hi hil hir ((hfree i).1 hfi)]

/-! ## The arena while BUILD runs -/

/-- BUILD has written the nodes below k: the leaves of the counted symbols, and the merges after them (R175,
R176). -/
structure BuiltBelow (freq : Vector Nat 256) (old node : Vector Node 511) (k : Nat) : Prop where
  leaves : ∀ i b, (countedSymbols freq)[i]? = some b → nodeGet node i = .leaf b (symGet freq b)
  past : ∀ i, k ≤ i → nodeGet node i = nodeGet old i
  joins : ∀ i, (countedSymbols freq).length ≤ i → i < k → ∃ l r, JoinsLeastTwo node i l r

theorem leavesOf_eq (freq : Vector Nat 256) :
    leavesOf freq = (countedSymbols freq).map fun b => .leaf b (symGet freq b) := rfl

theorem countedSymbols_length (freq : Vector Nat 256) :
    (countedSymbols freq).length = (leavesOf freq).length := by
  rw [leavesOf_eq, List.length_map]

theorem lt_length_of_counted {freq : Vector Nat 256} {i : Nat} {b : Byte}
    (hb : (countedSymbols freq)[i]? = some b) : i < (countedSymbols freq).length := by
  obtain ⟨hi, _⟩ := List.getElem?_eq_some_iff.1 hb
  exact hi

/-- BUILD's first line writes the leaves and no other node (R175). -/
theorem builtBelow_leaves (freq : Vector Nat 256) (old : Vector Node 511) :
    BuiltBelow freq old (writeNodes old 0 (leavesOf freq)) (leavesOf freq).length := by
  have h256 := leavesOf_length freq
  refine ⟨fun i b hb => ?_, fun i hi => ?_, fun i hn hi => ?_⟩
  · have hi := lt_length_of_counted hb
    rw [countedSymbols_length] at hi
    rw [writeNodes_get _ _ _ _ (by omega), if_pos (by omega), Nat.sub_zero, leavesOf_eq, List.getElem?_map, hb]
    rfl
  · rw [writeNodes_get _ _ _ _ (by omega), if_neg (by omega)]
  · rw [countedSymbols_length] at hn
    exact absurd hi (Nat.not_lt.2 hn)

section
variable {freq : Vector Nat 256} {old node : Vector Node 511} {k : Nat}

/-- The children of a node are older than it (R176). -/
theorem BuiltBelow.children_lt (h : BuiltBelow freq old node k) {j : Nat} (hj : j < k)
    (hint : (nodeGet node j).isLeaf = false) : (nodeGet node j).left < j ∧ (nodeGet node j).right < j := by
  by_cases hn : (countedSymbols freq).length ≤ j
  · obtain ⟨l, r, hjoin⟩ := h.joins j hn hj
    rw [hjoin.entry]
    exact ⟨hjoin.left_lt, hjoin.right_lt⟩
  · rw [h.leaves j _ (List.getElem?_eq_getElem (Nat.lt_of_not_le hn))] at hint
    exact absurd hint nofun

/-- No node joins itself or a newer one. -/
theorem BuiltBelow.unjoined (h : BuiltBelow freq old node k) {i : Nat} (hi : k ≤ i + 1) :
    Unjoined node k i := by
  intro j hj hint hmem
  have hlt := h.children_lt hj hint
  rcases List.mem_pair.1 hmem with e | e <;> omega

/-- Writing node k leaves the nodes below it as they are. -/
theorem nodeGet_nodeSet_below (node : Vector Node 511) (n : Node) :
    ∀ j < k, nodeGet (nodeSet node k n) j = nodeGet node j :=
  fun _ hj => nodeGet_nodeSet_of_ne _ _ _ _ hj.ne

/-- A merge of the two least nodes adds node k to what BUILD has written. -/
theorem BuiltBelow.push (h : BuiltBelow freq old node k) (hk : (countedSymbols freq).length ≤ k) {n : Node}
    {l r : Nat} (hjoin : JoinsLeastTwo (nodeSet node k n) k l r) :
    BuiltBelow freq old (nodeSet node k n) (k + 1) := by
  have same := nodeGet_nodeSet_below (k := k) node n
  refine ⟨fun i b hb => ?_, fun i hi => ?_, fun i hn hi => ?_⟩
  · rw [same i ((lt_length_of_counted hb).trans_le hk), h.leaves i b hb]
  · rw [nodeGet_nodeSet_of_ne _ _ _ _ (by omega), h.past i (by omega)]
  · rcases Nat.lt_succ_iff_lt_or_eq.1 hi with hlt | rfl
    · obtain ⟨l', r', hold⟩ := h.joins i hn hlt
      exact ⟨l', r', hold.congr fun j hj => same j (hj.trans_lt hlt)⟩
    · exact ⟨l, r, hjoin⟩

/-- Node k joins l and r and no other node. -/
theorem unjoined_succ (hk : k < 511) (w l r i : Nat) :
    Unjoined (nodeSet node k (.internal w l r)) (k + 1) i ↔ Unjoined node k i ∧ i ≠ l ∧ i ≠ r := by
  rw [← unjoined_congr (nodeGet_nodeSet_below node (.internal w l r))]
  simp only [Unjoined, Nat.forall_lt_succ_right, nodeGet_nodeSet_same node k _ hk]
  simp [Node.isLeaf, Node.left, Node.right]

end

/-! ## The merge loop -/

/-- The leaves weigh what all counts together are: a symbol that is no leaf has no count (R175). -/
theorem leavesOf_weights_eq (freq : Vector Nat 256) :
    ((leavesOf freq).map Node.weight).sum = freq.toList.sum := by
  rw [← allSymbols_get freq, leavesOf]
  induction allSymbols with
  | nil => rfl
  | cons b l ih =>
    rw [List.filter_cons]
    split
    next => simpa [Node.weight] using ih
    next hzero => simpa [show symGet freq b = 0 by simpa using hzero] using ih

/-- BUILD of the counts is at its test of k: PQ is the nodes that no node has joined, and they weigh what all
counts together are (R175, R176). -/
structure Merging (old : Vector Node 511) (s : State) : Prop where
  runs : s.opstate ≠ .idle
  place : s.point = .buildMerge
  out : s.out = []
  progress : mergeProgress s
  count : s.nsym = (countedSymbols s.freq).length
  started : s.nsym ≤ s.nnodes
  built : BuiltBelow s.freq old s.node s.nnodes
  queue : ∀ i, i ∈ s.pq ↔ i < s.nnodes ∧ Unjoined s.node s.nnodes i
  weight : (s.pq.map fun i => (nodeGet s.node i).weight).sum = s.freq.toList.sum

/-- BUILD enters its loop with its leaves in PQ (R175). -/
theorem merging_buildStart {s : State} (hr : s.opstate ≠ .idle) (hout : s.out = []) :
    Merging s.node (buildStart s) where
  runs := hr
  place := rfl
  out := hout
  progress := mergeProgress_buildStart s
  count := (countedSymbols_length s.freq).symm
  started := le_rfl
  built := builtBelow_leaves s.freq s.node
  queue i := by
    have hbuilt := builtBelow_leaves s.freq s.node
    refine List.mem_range.trans ⟨fun hi => ⟨hi, fun j hj hint => ?_⟩, And.left⟩
    have hleaf := hbuilt.leaves j _
      (List.getElem?_eq_getElem (by rw [countedSymbols_length]; exact hj))
    exact absurd (hleaf ▸ hint) nofun
  weight := by
    have hread := congrArg (List.map Node.weight) (leaves_read s.freq s.node)
    rw [List.map_map] at hread
    exact (congrArg List.sum hread).trans (leavesOf_weights_eq s.freq)

section
variable {old : Vector Node 511} {s : State} {l r : Nat} {rest : List Nat}

/-- While PQ has two members the arena has room for their parent (R8, R175). -/
theorem Merging.nnodes_lt (h : Merging old s) (hl : l ∈ s.pq) (hr : r ∈ s.pq.erase l) : s.nnodes < 511 := by
  obtain ⟨_, h256, hlen, _⟩ := h.progress
  have hpos := List.length_pos_of_mem hr
  rw [List.length_erase_of_mem hl] at hpos
  omega

/-- The two least members of PQ are what the next node joins (R172, R175). -/
theorem Merging.joins (h : Merging old s) (hmin : extractMin s.node s.pq = some (l, s.pq.erase l))
    (hmin' : extractMin s.node (s.pq.erase l) = some (r, rest)) :
    JoinsLeastTwo (mergeNodes l r rest s).node s.nnodes l r := by
  obtain ⟨_, _, _, hnodup, _⟩ := h.progress
  obtain ⟨hl, _⟩ := extractMin_some _ _ _ _ hmin
  obtain ⟨hr, _⟩ := extractMin_some _ _ _ _ hmin'
  obtain ⟨hrl, hrpq⟩ := hnodup.mem_erase_iff.1 hr
  obtain ⟨hlk, hlfree⟩ := (h.queue l).1 hl
  obtain ⟨hrk, hrfree⟩ := (h.queue r).1 hrpq
  have same : ∀ j < s.nnodes, nodeGet (mergeNodes l r rest s).node j = nodeGet s.node j :=
    nodeGet_nodeSet_below _ _
  have hfree := unjoined_congr same
  refine ⟨?_, hlk, hrk, ?_, (hfree l).2 hlfree, (hfree r).2 hrfree, fun i hi hil hir hfi => ?_⟩
  · rw [same l hlk, same r hrk]
    exact nodeGet_nodeSet_same _ _ _ (h.nnodes_lt hl hr)
  · rw [keyLt_congr (same l hlk) (same r hrk)]
    exact extractMin_keyLt hmin r hrpq hrl
  · rw [keyLt_congr (same r hrk) (same i hi)]
    have hmem := (h.queue i).2 ⟨hi, (hfree i).1 hfi⟩
    exact extractMin_keyLt hmin' i (hnodup.mem_erase_iff.2 ⟨hil, hmem⟩) hir

/-- After a merge PQ is again the nodes that no node has joined (R175). -/
theorem Merging.queue_mergeNodes (h : Merging old s) (hl : l ∈ s.pq) (hr : r ∈ s.pq.erase l) (i : Nat) :
    i ∈ (s.pq.erase l).erase r ++ [s.nnodes] ↔ i < s.nnodes + 1 ∧
      Unjoined (mergeNodes l r rest s).node (s.nnodes + 1) i := by
  obtain ⟨_, _, _, hnodup, _⟩ := h.progress
  obtain ⟨hlk, _⟩ := (h.queue l).1 hl
  obtain ⟨hrk, _⟩ := (h.queue r).1 (List.mem_of_mem_erase hr)
  have hnew : Unjoined s.node s.nnodes s.nnodes := h.built.unjoined (Nat.le_succ _)
  rw [mergeNodes, unjoined_succ (h.nnodes_lt hl hr), List.mem_append, List.mem_singleton,
    (hnodup.erase l).mem_erase_iff, hnodup.mem_erase_iff, h.queue i, Nat.lt_succ_iff_lt_or_eq]
  rcases eq_or_ne i s.nnodes with rfl | hne
  · simp [hnew, hlk.ne', hrk.ne']
  · simp only [hne, or_false]
    tauto

/-- A merge moves the weight of two members of PQ to their parent (R175). -/
theorem Merging.weight_mergeNodes (h : Merging old s) (hl : l ∈ s.pq) (hr : r ∈ s.pq.erase l) :
    (((s.pq.erase l).erase r ++ [s.nnodes]).map fun i => (nodeGet (mergeNodes l r rest s).node i).weight).sum =
      s.freq.toList.sum := by
  have hrest : ∀ i ∈ (s.pq.erase l).erase r,
      (nodeGet (mergeNodes l r rest s).node i).weight = (nodeGet s.node i).weight := fun i hi => by
    obtain ⟨hlt, _⟩ := (h.queue i).1 (List.mem_of_mem_erase (List.mem_of_mem_erase hi))
    rw [mergeNodes, nodeGet_nodeSet_below _ _ i hlt]
  have hnew : (nodeGet (mergeNodes l r rest s).node s.nnodes).weight =
      (nodeGet s.node l).weight + (nodeGet s.node r).weight := by
    rw [mergeNodes, nodeGet_nodeSet_same _ _ _ (h.nnodes_lt hl hr), Node.weight]
  have hleft := weight_erase s.node hl
  have hright := weight_erase s.node hr
  rw [List.map_append, List.sum_append, List.map_singleton, List.sum_singleton, hnew,
    List.map_congr_left hrest, ← h.weight]
  omega

/-- A merge keeps what BUILD keeps (R175). -/
theorem Merging.mergeNodes (h : Merging old s) (hmin : extractMin s.node s.pq = some (l, s.pq.erase l))
    (hmin' : extractMin s.node (s.pq.erase l) = some (r, rest)) : Merging old (mergeNodes l r rest s) := by
  obtain ⟨hl, _⟩ := extractMin_some _ _ _ _ hmin
  obtain ⟨hr, rfl⟩ := extractMin_some _ _ _ _ hmin'
  exact
    { runs := h.runs
      place := h.place
      out := h.out
      progress := mergeProgress_mergeNodes h.progress hl hr
      count := h.count
      started := Nat.le_succ_of_le h.started
      built := h.built.push (h.count ▸ h.started) (h.joins hmin hmin')
      queue := h.queue_mergeNodes hl hr
      weight := h.weight_mergeNodes hl hr }

end

/-! ## The whole run -/

section
variable {old : Vector Node 511} {s : State}

/-- With one node left in PQ it is the newest one, and there are 2·NSYM − 1 nodes (R175, R177). -/
theorem Merging.root (h : Merging old s) {root : Nat} (hpq : s.pq = [root]) :
    s.nnodes = 2 * s.nsym - 1 ∧ root = 2 * s.nsym - 2 := by
  obtain ⟨_, _, hlen, _⟩ := h.progress
  have hstarted := h.started
  rw [hpq, List.length_singleton] at hlen
  have hnewest : s.nnodes - 1 ∈ s.pq := (h.queue _).2 ⟨by omega, h.built.unjoined (by omega)⟩
  rw [hpq, List.mem_singleton] at hnewest
  omega

theorem Merging.turn (h : Merging old s) : coreTurn s = buildMerge s := by
  unfold coreTurn
  split
  next hidle => exact absurd hidle h.runs
  next => rw [h.place]; rfl

/-- One merge takes one turn (R175). -/
theorem Merging.merge_turn (h : Merging old s) {m : Nat} (hlen : s.pq.length = m + 2) :
    ∃ l r rest, coreTurn s = Machine.mergeNodes l r rest s ∧ rest.length = m ∧
      Merging old (Machine.mergeNodes l r rest s) := by
  rw [h.turn]
  unfold buildMerge
  split
  next hnone => simp [extractMin_none _ _ hnone] at hlen
  next l pq1 hmin =>
    obtain ⟨hl, rfl⟩ := extractMin_some _ _ _ _ hmin
    have hlen1 := List.length_erase_of_mem hl
    split
    next hnone => rw [extractMin_none _ _ hnone, hlen] at hlen1; exact absurd hlen1 nofun
    next r rest hmin' =>
      obtain ⟨hr, hrest⟩ := extractMin_some _ _ _ _ hmin'
      have hlen2 := List.length_erase_of_mem hr
      exact ⟨l, r, rest, rfl, by rw [hrest]; omega, h.mergeNodes hmin hmin'⟩

/-- A state of BUILD's loop, which writes NODE, PQ and NNODES only (R175). -/
def withArena (node : Vector Node 511) (pq : List Nat) (k : Nat) (s : State) : State :=
  { s with node := node, pq := pq, nnodes := k }

/-- The loop merges until one node is left (R175). -/
theorem Merging.loop_turns {m : Nat} (h : Merging old s) (hlen : s.pq.length = m + 1) :
    ∃ node, SilentTurns m s (withArena node [2 * s.nsym - 2] (2 * s.nsym - 1) s) ∧
      Merging old (withArena node [2 * s.nsym - 2] (2 * s.nsym - 1) s) := by
  induction m generalizing s with
  | zero =>
    obtain ⟨root, hpq⟩ := List.length_eq_one_iff.1 hlen
    obtain ⟨hk, rfl⟩ := h.root hpq
    have hself : withArena s.node [2 * s.nsym - 2] (2 * s.nsym - 1) s = s := by rw [← hk, ← hpq]; rfl
    exact ⟨s.node, by rw [hself]; exact .refl h.out, by rwa [hself]⟩
  | succ m ih =>
    obtain ⟨l, r, rest, hturn, hrest, hnext⟩ := h.merge_turn hlen
    obtain ⟨node, hturns, hend⟩ := ih hnext (by simp [Machine.mergeNodes, pqInsert, hrest])
    exact ⟨node, .turn h.out (hturn ▸ hturns), hend⟩

end

/-- BUILD of n leaves before its `finish`: the tree state agrees with the tree in the arena (R175). -/
def builtTree (n : Nat) (node : Vector Node 511) (s : State) : State :=
  { invalidateTree s with
    treeKind := if n = 0 then .emptyTree else if n = 1 then .leaf else .multi, rootValid := decide (0 < n),
    rootIdx := 2 * n - 2, nsym := n, nnodes := 2 * n - 1, node := node, pq := [], point := .buildMerge }

theorem finish_out (s : State) : (finish s).out = s.out := by
  rcases finish_cases s with ⟨_, e⟩ | ⟨_, _, _, _, e⟩ | ⟨_, _, _, _, e⟩ <;> rw [e]

/-- With no counted symbol the tree is EMPTY (R175). -/
theorem buildMerge_of_no_leaf {s : State} (hnone : (leavesOf s.freq).length = 0) :
    buildMerge (buildStart s) = finish (builtTree 0 (buildStart s).node s) := by
  simp [buildMerge, extractMin, builtTree, buildStart, hnone]

/-- The one node left in PQ is the root (R175). -/
theorem buildMerge_of_one_node {s : State} {n : Nat} (node : Vector Node 511)
    (hn : (leavesOf s.freq).length = n) (hpos : 0 < n) :
    buildMerge (withArena node [2 * n - 2] (2 * n - 1) (buildStart s)) = finish (builtTree n node s) := by
  simp [buildMerge, extractMin, leastKey, buildRoot, builtTree, withArena, buildStart, kindOfTree, hn, hpos,
    hpos.ne']

/-- BUILD up to its `finish`, alone or in COMPRESS, takes one turn for its leaves, one for each merge and one for
the root (R175). -/
theorem build_turns {op : Op} {ph n : Nat} {s : State} (hop : s.opstate = .run op ph)
    (hprim : currentPrim op ph = .build) (hpt : s.point = .atStart) (hout : s.out = [])
    (hn : n = (countedSymbols s.freq).length) :
    ∃ m node, m ≤ 257 ∧ SilentTurns m s (finish (builtTree n node s)) ∧
      BuiltBelow s.freq s.node node (2 * n - 1) ∧
      (0 < n → (nodeGet node (2 * n - 2)).weight = s.freq.toList.sum) := by
  have hruns : s.opstate ≠ .idle := by rw [hop]; exact OpState.noConfusion
  have hfirst : coreTurn s = buildStart s := by rw [coreTurn_of_run hop, hprim, hpt]; rfl
  have hstart : SilentTurns 1 s (buildStart s) := (SilentTurns.refl hout).next hfirst hout
  have hmerging := merging_buildStart hruns hout
  have h256 := leavesOf_length s.freq
  rw [countedSymbols_length] at hn
  cases n with
  | zero =>
    have hend := hstart.next (hmerging.turn.trans (buildMerge_of_no_leaf hn.symm)) ((finish_out _).trans hout)
    have hbuilt : BuiltBelow s.freq s.node (buildStart s).node (leavesOf s.freq).length := hmerging.built
    rw [← hn] at hbuilt
    exact ⟨2, _, by omega, hend, hbuilt, nofun⟩
  | succ m =>
    have hlen : (buildStart s).pq.length = m + 1 := (List.length_range).trans hn.symm
    have hsym : (buildStart s).nsym = m + 1 := hn.symm
    obtain ⟨node, hturns, hend⟩ := hmerging.loop_turns hlen
    rw [hsym] at hturns hend
    have hroot := buildMerge_of_one_node node hn.symm (Nat.succ_pos m)
    have hall := (hstart.trans hturns).next (hend.turn.trans hroot) ((finish_out _).trans hout)
    exact ⟨1 + m + 1, node, by omega, hall, hend.built, fun _ => hend.weight⟩

/-- Settles O31: the leaves take one turn, each merge and the root one (`build_turns`), and the end of the rule one;
what the arena holds is what `BuiltBelow` says of it along the loop. -/
theorem buildMakesTheHuffmanTree : Obligations.BuildMakesTheHuffmanTree := by
  intro s n turns rest hw hidle herr hs hturns hrest hn hcount
  obtain ⟨hpt, _, _, _, _, _, _, hout⟩ := hw.idle hidle
  have hpq : (settle s).pq = [] := hw.pq (by rw [hpt]; exact Point.noConfusion)
  obtain ⟨m, node, hm, hrun, hbuilt, hweight⟩ :=
    build_turns (s := accept (.prim .build) s) rfl rfl rfl hout hcount
  have hend := hrun.next (coreTurn_of_finishing OpState.noConfusion rfl hout) hout
  have hall := runCommand_of_silentTurns hidle herr hs hturns hrest (by omega) hend rfl
  refine ⟨node, congrArg Host.Outcome.next (hall.trans ?_), hweight, hbuilt.leaves, hbuilt.past,
    fun k hk hk' => ?_⟩
  · conv_rhs => rw [← settle_of_idle hw hidle, hpq]
    rfl
  · obtain ⟨l, r, hentry, hl, hr, hlr, hfl, hfr, hleast⟩ := hbuilt.joins k (hcount ▸ hk) hk'
    exact ⟨l, r, hentry, hl, hr, hlr, fun j hj hint => ⟨hfl j hj hint, hfr j hj hint⟩, hleast⟩

end Sys2Proof.Machine
end

section
/-! Proofs of the code generator family (42_code_generator.md): a command whose precondition does not hold raises
SEQUENCE (R200, R220, R252, R282). -/

namespace Sys2Proof.Machine

/-- The first turn of an accepted primitive is the first line of its rule (R310). -/
theorem accepted_turn {p : Prim} {s u : State} (hout : s.out = [])
    (hstart : startTurn p (accept (.prim p) s) = u) (hu : u.out = []) : SilentTurns 1 (accept (.prim p) s) u :=
  (SilentTurns.refl (s := accept (.prim p) s) hout).next hstart hu

/-- A rule that raises SEQUENCE in its first line takes one turn for it and one for the entry of the error state
(R342). -/
theorem runCommand_of_sequence {p : Prim} {s : State} {turns rest : List Event} (hw : WorkClean s)
    (hidle : s.opstate = .idle) (herr : s.err = false) (hs : s.script = turns ++ rest)
    (hturns : onlyTurns turns = true) (hrest : hostNext rest = true) (hn : 2 ≤ coreTurns turns)
    (hstart : startTurn p (accept (.prim p) s) = raise .sequence 0 (accept (.prim p) s)) :
    runCommand (.prim p) s =
      { s with
        cmdOp := p.code, done := false, inCount := 0, outCount := 0, pos := 0, err := true,
        cause := .sequence, errOp := p.code, errPos := 0, script := rest } := by
  obtain ⟨hpt, _, _, _, _, _, _, hout⟩ := hw.idle hidle
  have hpq : (settle s).pq = [] := hw.pq (by rw [hpt]; exact Point.noConfusion)
  have hend := (accepted_turn hout hstart hout).next (coreTurn_of_raising rfl rfl hout) hout
  refine (runCommand_of_silentTurns hidle herr hs hturns hrest hn hend rfl).trans ?_
  conv_rhs => rw [← settle_of_idle hw hidle, hpq]
  rfl

theorem genStart_of_noTree {s : State} (h : s.treeKind = .noTree) : genStart s = raise .sequence 0 s := by
  rw [genStart, h]

theorem emitStart_of_no_codes {s : State} (h : s.codesValid = false) :
    emitStart s = raise .sequence 0 s := by
  rw [emitStart, h]; rfl

theorem packStart_of_no_codes {s : State} (h : s.codesValid = false) :
    packStart s = raise .sequence 0 s := by
  rw [packStart, h]; rfl

theorem unpackStart_of_no_header {s : State} (h : s.hdrParsed = false) :
    unpackStart s = raise .sequence 0 s := by
  rw [unpackStart, h]; rfl

/-- Settles O17: each of the four rules tests its precondition in its first line, and acceptance leaves the tree and the
flags that it tests (`runCommand_of_sequence`). -/
theorem unmetPreconditionRaisesSequence : Obligations.UnmetPreconditionRaisesSequence := by
  intro s turns rest hw hidle herr hs hturns hrest hn i op hi
  have hraise (p : Prim) := runCommand_of_sequence (p := p) hw hidle herr hs hturns hrest hn
  rcases hi with ⟨rfl, rfl, hno⟩ | ⟨rfl, rfl, hno⟩ | ⟨rfl, rfl, hno⟩ | ⟨rfl, rfl, hno⟩
  · exact congrArg Host.Outcome.next (hraise .gencode (genStart_of_noTree hno))
  · exact congrArg Host.Outcome.next (hraise .emitHeader (emitStart_of_no_codes hno))
  · exact congrArg Host.Outcome.next (hraise .pack (packStart_of_no_codes hno))
  · exact congrArg Host.Outcome.next (hraise .unpack (unpackStart_of_no_header hno))

end Sys2Proof.Machine
end

section
/-! Proofs of the code generator family (42_code_generator.md): GENCODE gives every leaf its path, and an empty tree no
code (R200 to R203). -/

namespace Sys2Proof.Machine

/-! ## Tables written entry by entry -/

/-- A memory indexed by symbol after the given entries were written to it, in order. -/
def writeEntries {α : Type} (v : Vector α 256) (es : List (Byte × α)) : Vector α 256 :=
  es.foldl (fun w e => symSet w e.1 e.2) v

theorem writeEntries_append {α : Type} (v : Vector α 256) (es es' : List (Byte × α)) :
    writeEntries v (es ++ es') = writeEntries (writeEntries v es) es' :=
  List.foldl_append

theorem symGet_writeEntries_of_notMem {α : Type} {es : List (Byte × α)} {b : Byte} (v : Vector α 256)
    (h : b ∉ es.map (·.1)) : symGet (writeEntries v es) b = symGet v b := by
  induction es generalizing v with
  | nil => rfl
  | cons e es ih =>
    rw [List.map_cons, List.mem_cons, not_or] at h
    exact (ih (symSet v e.1 e.2) h.2).trans (symGet_symSet_of_ne v e.1 b e.2 h.1)

/-- An entry whose symbol is written once is what the memory holds for the symbol. -/
theorem symGet_writeEntries_of_mem {α : Type} {es : List (Byte × α)} {b : Byte} {x : α} (v : Vector α 256)
    (hnodup : (es.map (·.1)).Nodup) (h : (b, x) ∈ es) : symGet (writeEntries v es) b = x := by
  induction es generalizing v with
  | nil => exact absurd h List.not_mem_nil
  | cons e es ih =>
    rw [List.map_cons, List.nodup_cons] at hnodup
    rcases List.mem_cons.1 h with rfl | hes
    · exact (symGet_writeEntries_of_notMem _ hnodup.1).trans (symGet_symSet_same v b x)
    · exact ih _ hnodup.2 hes

/-- The LEN entries of a list of codes. -/
def lengthsOf (cs : List (Byte × BitString)) : List (Byte × Nat) := cs.map fun c => (c.1, c.2.length)

theorem lengthsOf_symbols (cs : List (Byte × BitString)) : (lengthsOf cs).map (·.1) = cs.map (·.1) := by
  rw [lengthsOf, List.map_map]; rfl

/-- LEN with the lengths of the given codes, and 0 for every other symbol (R200, R201). -/
def lenTable (cs : List (Byte × BitString)) : Vector Nat 256 :=
  writeEntries (Vector.replicate 256 0) (lengthsOf cs)

theorem symGet_lenTable_of_mem {cs : List (Byte × BitString)} {b : Byte} {p : BitString}
    (hnodup : (cs.map (·.1)).Nodup) (h : (b, p) ∈ cs) : symGet (lenTable cs) b = p.length :=
  symGet_writeEntries_of_mem _ (lengthsOf_symbols cs ▸ hnodup) (List.mem_map_of_mem h)

theorem symGet_lenTable_of_notMem {cs : List (Byte × BitString)} {b : Byte} (h : b ∉ cs.map (·.1)) :
    symGet (lenTable cs) b = 0 :=
  (symGet_writeEntries_of_notMem _ (lengthsOf_symbols cs ▸ h)).trans (symGet_replicate 0 b)

/-! ## The traversal -/

/-- GENCODE is in its traversal, and no byte is untaken. -/
structure Traversing (s : State) : Prop where
  runs : s.opstate ≠ .idle
  place : s.point = .genWalk
  out : s.out = []

/-- The state after the traversal assigned the given codes, with the given calls still awaited (R201). -/
def withCodes (cs : List (Byte × BitString)) (stack : List StackEntry) (s : State) : State :=
  { s with len := writeEntries s.len (lengthsOf cs), bits := writeEntries s.bits cs, stack := stack }

theorem withCodes_append (cs cs' : List (Byte × BitString)) (stack stack' : List StackEntry) (s : State) :
    withCodes cs' stack' (withCodes cs stack s) = withCodes (cs ++ cs') stack' s := by
  simp [withCodes, lengthsOf, writeEntries_append]

theorem Traversing.withCodes {s : State} (h : Traversing s) (cs : List (Byte × BitString))
    (stack : List StackEntry) : Traversing (withCodes cs stack s) :=
  ⟨h.runs, h.place, h.out⟩

theorem Traversing.turn {s : State} (h : Traversing s) : coreTurn s = genWalk s := by
  unfold coreTurn
  split
  next hidle => exact absurd hidle h.runs
  next => rw [h.place]; rfl

theorem genWalk_of_leaf {s : State} {i w : Nat} {p : BitString} {b : Byte} {rest : List StackEntry}
    (hstack : s.stack = .assign i p :: rest) (hi : nodeGet s.node i = .leaf b w) :
    genWalk s = withCodes [(b, p)] rest s := by
  simp only [genWalk, hstack, assignNode, hi]; rfl

theorem genWalk_of_internal {s : State} {i w l r : Nat} {p : BitString} {rest : List StackEntry}
    (hstack : s.stack = .assign i p :: rest) (hi : nodeGet s.node i = .internal w l r) :
    genWalk s = withCodes [] (.assign l (p ++ [false]) :: .assign r (p ++ [true]) :: rest) s := by
  simp only [genWalk, hstack, assignNode, hi]; rfl

/-- A call `Assign(i, p)` takes one turn for each node of the tree at i, and gives its leaves their paths behind p
(R201). -/
theorem Traversing.assign_turns {tr : HuffTree} {s : State} {i : Nat} {p : BitString}
    {rest : List StackEntry} (h : Traversing s) (hstack : s.stack = .assign i p :: rest)
    (htree : Represents s.node i tr) :
    SilentTurns (2 * tr.leaves - 1) s (Machine.withCodes (tr.paths p) rest s) := by
  induction tr generalizing s i p rest with
  | leaf b =>
    obtain ⟨w, hi⟩ := htree
    exact (SilentTurns.refl h.out).next (h.turn.trans (genWalk_of_leaf hstack hi)) h.out
  | node l r ihl ihr =>
    obtain ⟨w, a, b, hi, hl, hr⟩ := htree
    have hcall := (SilentTurns.refl h.out).next (h.turn.trans (genWalk_of_internal hstack hi)) h.out
    have hcalled := h.withCodes [] (.assign a (p ++ [false]) :: .assign b (p ++ [true]) :: rest)
    have hleft := ihl hcalled rfl hl
    have hright := ihr (hcalled.withCodes (l.paths (p ++ [false])) (.assign b (p ++ [true]) :: rest)) rfl hr
    have hall := hcall.trans (hleft.trans hright)
    have hposl := leaves_pos l
    have hposr := leaves_pos r
    simp only [withCodes_append, List.nil_append] at hall
    rwa [show 0 + 1 + (2 * l.leaves - 1 + (2 * r.leaves - 1)) = 2 * (l.leaves + r.leaves) - 1 by omega]
      at hall

/-! ## The whole rule -/

/-- GENCODE's traversal with no code assigned yet (R200). -/
def clearedTable (s : State) : State := { s with len := Vector.replicate 256 0, point := .genWalk }

theorem traversing_clearedTable {s : State} (hruns : s.opstate ≠ .idle) (hout : s.out = []) :
    Traversing (clearedTable s) :=
  ⟨hruns, rfl, hout⟩

theorem genStart_of_emptyTree {s : State} (hk : s.treeKind = .emptyTree) (hstack : s.stack = []) :
    genStart s = withCodes [] [] (clearedTable s) := by
  simp only [genStart, withCodes, clearedTable, hk, hstack]; rfl

theorem genStart_of_leaf {s : State} {b : Byte} (h : holdsTree s (.leaf b)) (hstack : s.stack = []) :
    genStart s = withCodes (HuffTree.leaf b).codes [] (clearedTable s) := by
  obtain ⟨⟨w, hroot⟩, hk⟩ := h
  simp only [genStart, withCodes, clearedTable, hk, hroot, hstack]; rfl

theorem genStart_of_node {s : State} {l r : HuffTree} (h : holdsTree s (.node l r)) :
    genStart s = withCodes [] [.assign s.rootIdx []] (clearedTable s) := by
  obtain ⟨_, hk⟩ := h
  simp only [genStart, withCodes, clearedTable, hk]; rfl

/-- The paths of a tree of more than one leaf are its codes (R201). -/
theorem codes_node (l r : HuffTree) : (HuffTree.node l r).codes = (HuffTree.node l r).paths [] := rfl

/-- From its first line to the end of its traversal GENCODE gives a tree its codes (R200 to R202). -/
theorem genStart_turns {tr : HuffTree} {s : State} (hruns : s.opstate ≠ .idle) (hout : s.out = [])
    (hstack : s.stack = []) (hheld : holdsTree s tr) :
    ∃ m ≤ 2 * tr.leaves - 1, SilentTurns m (genStart s) (withCodes tr.codes [] (clearedTable s)) := by
  cases tr with
  | leaf b => exact ⟨0, Nat.zero_le _, by rw [genStart_of_leaf hheld hstack]; exact .refl hout⟩
  | node l r =>
    have hwalk := (traversing_clearedTable hruns hout).withCodes [] [.assign s.rootIdx []]
    have hturns := hwalk.assign_turns rfl hheld.1
    rw [withCodes_append, List.nil_append, ← codes_node, ← genStart_of_node hheld] at hturns
    exact ⟨_, le_rfl, hturns⟩

/-- GENCODE before its `finish`, with the table of the given codes (R200, R203). -/
def codedTable (cs : List (Byte × BitString)) (s : State) : State :=
  { withCodes cs [] (clearedTable s) with
    pbits := payloadBits s.freq (lenTable cs), encPad := padOfBits (payloadBits s.freq (lenTable cs)),
    codesValid := true }

/-- GENCODE up to its `finish`, alone or in COMPRESS, takes a turn before and a turn after its traversal (R200). -/
theorem gencode_turns {op : Op} {ph m : Nat} {s : State} {cs : List (Byte × BitString)}
    (hop : s.opstate = .run op ph) (hprim : currentPrim op ph = .gencode) (hpt : s.point = .atStart)
    (hout : s.out = []) (hwalk : SilentTurns m (genStart s) (withCodes cs [] (clearedTable s))) :
    SilentTurns (m + 2) s (finish (codedTable cs s)) := by
  have hruns : s.opstate ≠ .idle := by rw [hop]; exact OpState.noConfusion
  have hfirst : coreTurn s = genStart s := by rw [coreTurn_of_run hop, hprim, hpt]; rfl
  have hend := ((traversing_clearedTable hruns hout).withCodes cs []).turn
  exact SilentTurns.next (.turn hout (hfirst ▸ hwalk)) hend ((finish_out _).trans hout)

/-- What GENCODE leaves, once its traversal has assigned the given codes (R200, R203, R311). -/
theorem exec_gencode_of_walk {s : State} {m : Nat} {turns rest : List Event} {cs : List (Byte × BitString)}
    (hw : WorkClean s) (hidle : s.opstate = .idle) (herr : s.err = false) (hs : s.script = turns ++ rest)
    (hturns : onlyTurns turns = true) (hrest : hostNext rest = true) (hn : m + 3 ≤ coreTurns turns)
    (hwalk : SilentTurns m (genStart (accept (.prim .gencode) s))
      (withCodes cs [] (clearedTable (accept (.prim .gencode) s)))) :
    exec .gencode s = .next
      { s with
        cmdOp := 4, done := true, inCount := 0, outCount := 0, pos := 0,
        len := lenTable cs, bits := writeEntries s.bits cs, pbits := payloadBits s.freq (lenTable cs),
        encPad := padOfBits (payloadBits s.freq (lenTable cs)), codesValid := true, script := rest } := by
  obtain ⟨_, _, _, _, _, _, _, hout⟩ := hw.idle hidle
  have hrun := gencode_turns (s := accept (.prim .gencode) s) rfl rfl rfl hout hwalk
  have hend := hrun.next (coreTurn_of_finishing OpState.noConfusion rfl hout) hout
  have hall := runCommand_of_silentTurns hidle herr hs hturns hrest hn hend rfl
  refine congrArg Host.Outcome.next (hall.trans ?_)
  conv_rhs => rw [← settle_of_idle hw hidle]
  rfl

/-- STACK is empty while no command runs (R61). -/
theorem WorkClean.stack_of_idle {s : State} (hw : WorkClean s) (hidle : s.opstate = .idle) : s.stack = [] :=
  hw.stack (by rw [(hw.idle hidle).1]; rfl)

/-- Settles O32: the traversal takes one turn for each of the 2·N − 1 nodes (`genStart_turns`), and what it writes
for a leaf stays, because no other leaf has its symbol (`symGet_lenTable_of_mem`). -/
theorem gencodeAssignsThePaths : Obligations.GencodeAssignsThePaths := by
  intro s tr turns rest hw hidle herr hheld hd hs hturns hrest hn
  obtain ⟨_, _, _, _, _, _, _, hout⟩ := hw.idle hidle
  obtain ⟨m, hm, hwalk⟩ := genStart_turns (s := accept (.prim .gencode) s) OpState.noConfusion hout
    (hw.stack_of_idle hidle) hheld
  have hpos := leaves_pos tr
  have hsym := codes_symbols tr
  have hnodup : (tr.codes.map (·.1)).Nodup := hsym ▸ hd
  refine ⟨lenTable tr.codes, writeEntries s.bits tr.codes, fun b p hp => ⟨?len, ?bits⟩,
    fun b hb => ⟨?noLen, ?oldBits⟩, exec_gencode_of_walk hw hidle herr hs hturns hrest (by omega) hwalk⟩
  case len => exact symGet_lenTable_of_mem hnodup hp
  case bits => exact symGet_writeEntries_of_mem _ hnodup hp
  case noLen => exact symGet_lenTable_of_notMem (hsym ▸ hb)
  case oldBits => exact symGet_writeEntries_of_notMem _ (hsym ▸ hb)

/-- With no code PBITS is 0 (R203). -/
theorem payloadBits_no_codes (freq : Vector Nat 256) : payloadBits freq (Vector.replicate 256 0) = 0 := by
  simp [payloadBits]

/-- An UNPACK whose tree is EMPTY has nothing to decode (R282). -/
theorem unpackStart_of_emptyTree {s : State} (hh : s.hdrParsed = true) (hk : s.treeKind = .emptyTree) :
    unpackStart s = finish s := by
  rw [unpackStart, hh, hk]; rfl

/-- Settles O33: the traversal of an EMPTY tree is over before it begins (`genStart_of_emptyTree`), and UNPACK of one
finishes in its first turn (`unpackStart_of_emptyTree`). -/
theorem emptyTreeIsNoError : Obligations.EmptyTreeIsNoError := by
  constructor
  · intro s turns rest hw hidle herr hk hs hturns hrest hn
    obtain ⟨_, _, _, _, _, _, _, hout⟩ := hw.idle hidle
    have hwalk := genStart_of_emptyTree (s := accept (.prim .gencode) s) hk (hw.stack_of_idle hidle)
    have hall := exec_gencode_of_walk (m := 0) hw hidle herr hs hturns hrest hn
      (by rw [hwalk]; exact .refl hout)
    have hpbits := payloadBits_no_codes s.freq
    rw [hall, show lenTable [] = Vector.replicate 256 0 from rfl, hpbits]
    rfl
  · intro s turns rest hw hidle herr hh hk hs hturns hrest hn
    obtain ⟨_, _, _, _, _, _, _, hout⟩ := hw.idle hidle
    have hrun := accepted_turn (p := .unpack) hout (unpackStart_of_emptyTree hh hk) hout
    have hend := hrun.next (coreTurn_of_finishing OpState.noConfusion rfl hout) hout
    have hall := runCommand_of_silentTurns hidle herr hs hturns hrest hn hend rfl
    refine congrArg Host.Outcome.next (hall.trans ?_)
    conv_rhs => rw [← settle_of_idle hw hidle]
    rfl

end Sys2Proof.Machine
end

section
/-! Proofs of the code generator family (42_code_generator.md): no code of a tree begins with another, and the codes
are complete (R204). -/

namespace Sys2Proof.Machine

/-! ## The codes of a tree -/

/-- No path begins on the left and on the right of the same node. -/
theorem not_prefix_both_sides {p q : BitString} (hl : p ++ [false] <+: q) : ¬ p ++ [true] <+: q := by
  intro hr
  have heq := (List.prefix_of_prefix_length_le hl hr (by simp)).eq_of_length (by simp)
  exact absurd (List.append_cancel_left heq) (by decide)

/-- A path that another one goes on from is that path: below a leaf there is no node. -/
theorem paths_prefix_free {tr : HuffTree} {p pa pb : BitString} {a b : Byte} (ha : (a, pa) ∈ tr.paths p)
    (hb : (b, pb) ∈ tr.paths p) (hpre : pa <+: pb) : a = b := by
  induction tr generalizing p with
  | leaf c =>
    cases List.mem_singleton.1 ha
    cases List.mem_singleton.1 hb
    rfl
  | node l r ihl ihr =>
    rcases List.mem_append.1 ha with hal | har <;> rcases List.mem_append.1 hb with hbl | hbr
    · exact ihl hal hbl
    · have hside := (paths_extend _ l a pa hal).trans hpre
      exact absurd (paths_extend _ r b pb hbr) (not_prefix_both_sides hside)
    · have hside := (paths_extend _ r a pa har).trans hpre
      exact absurd hside (not_prefix_both_sides (paths_extend _ l b pb hbl))
    · exact ihr har hbr

theorem codes_prefix_free {tr : HuffTree} {pa pb : BitString} {a b : Byte} (ha : (a, pa) ∈ tr.codes)
    (hb : (b, pb) ∈ tr.codes) (hpre : pa <+: pb) : a = b := by
  cases tr with
  | leaf c =>
    cases List.mem_singleton.1 ha
    cases List.mem_singleton.1 hb
    rfl
  | node l r => exact paths_prefix_free (tr := .node l r) (p := []) ha hb hpre

/-- Every code has a bit, that of a lone leaf too (R202). -/
theorem code_length_ne_zero {tr : HuffTree} {b : Byte} {p : BitString} (h : (b, p) ∈ tr.codes) :
    p.length ≠ 0 := by
  have hpos {x : Bool} (hx : [x] <+: p) : p.length ≠ 0 := Nat.pos_iff_ne_zero.1 hx.length_le
  cases tr with
  | leaf c => cases List.mem_singleton.1 h; decide
  | node l r =>
    rcases List.mem_append.1 h with hl | hr
    · exact hpos (paths_extend _ l b p hl)
    · exact hpos (paths_extend _ r b p hr)

theorem exists_code_of_mem_symbols {tr : HuffTree} {b : Byte} (h : b ∈ tr.symbols) :
    ∃ p, (b, p) ∈ tr.codes := by
  rw [← codes_symbols] at h
  obtain ⟨⟨_, p⟩, hp, rfl⟩ := List.mem_map.1 h
  exact ⟨p, hp⟩

/-- The share of all infinite bit strings that go on from a path. -/
def codeShare (c : Byte × BitString) : ℚ := (1 / 2) ^ c.2.length

/-- The subtrees of a node share what the node has. -/
theorem paths_share (tr : HuffTree) (p : BitString) : ((tr.paths p).map codeShare).sum = (1 / 2) ^ p.length := by
  induction tr generalizing p with
  | leaf b => simp [HuffTree.paths, codeShare]
  | node l r ihl ihr =>
    rw [HuffTree.paths, List.map_append, List.sum_append, ihl, ihr, List.length_append, List.length_append,
      List.length_singleton, List.length_singleton]
    ring

/-! ## The table that holds them -/

theorem mem_allSymbols (b : Byte) : b ∈ allSymbols :=
  List.mem_map.2 ⟨b.toNat, List.mem_range.2 b.isLt, (BitVec.ofNat_toNat 8 b).trans (BitVec.setWidth_eq b)⟩

/-- A sum over all symbols of what is 0 for every symbol but the given ones. -/
theorem sum_allSymbols {f : Byte → ℚ} {l : List Byte} (hl : l.Nodup) (hf : ∀ b, b ∉ l → f b = 0) :
    (allSymbols.map f).sum = (l.map f).sum := by
  rw [← List.sum_toFinset f allSymbols_nodup, ← List.sum_toFinset f hl]
  refine (Finset.sum_subset (fun b _ => ?_) fun b _ hb => ?_).symm
  · exact List.mem_toFinset.2 (mem_allSymbols b)
  · exact hf b (by simpa using hb)

theorem map_bitAt_range (p : BitString) : (List.range p.length).map (bitAt p) = p := by
  apply List.ext_getElem
  · simp
  · intro j h1 h2
    simp [bitAt, h2]

/-- LEN and BITS hold the codes of the tree (R58). -/
structure HoldsCodes (tr : HuffTree) (s : State) : Prop where
  coded : ∀ b p, (b, p) ∈ tr.codes → symGet s.len b = p.length ∧ symGet s.bits b = p
  uncoded : ∀ b, b ∉ tr.symbols → symGet s.len b = 0

section
variable {tr : HuffTree} {s : State} {b : Byte}

theorem HoldsCodes.exists_code (h : HoldsCodes tr s) (hb : symGet s.len b ≠ 0) : ∃ p, (b, p) ∈ tr.codes :=
  exists_code_of_mem_symbols (Decidable.by_contra fun hno => hb (h.uncoded b hno))

theorem HoldsCodes.tableCode_eq (h : HoldsCodes tr s) {p : BitString} (hp : (b, p) ∈ tr.codes) :
    tableCode s b = p := by
  obtain ⟨hlen, hbits⟩ := h.coded b p hp
  rw [tableCode, hlen, hbits, map_bitAt_range]

/-- Among the codes that the table shows none goes on from another (R204). -/
theorem HoldsCodes.prefix_free (h : HoldsCodes tr s) {a : Byte} (hab : a ≠ b) (ha : symGet s.len a ≠ 0)
    (hb : symGet s.len b ≠ 0) : ¬ tableCode s a <+: tableCode s b := by
  obtain ⟨pa, hpa⟩ := h.exists_code ha
  obtain ⟨pb, hpb⟩ := h.exists_code hb
  rw [h.tableCode_eq hpa, h.tableCode_eq hpb]
  exact fun hpre => hab (codes_prefix_free hpa hpb hpre)

/-- The sum of 2^(−LEN[b]) over the symbols that have a code, by the codes of the tree. -/
theorem HoldsCodes.kraft_sum (h : HoldsCodes tr s) (hd : tr.distinct) :
    (allSymbols.map fun b => if symGet s.len b = 0 then (0 : ℚ) else (1 / 2) ^ symGet s.len b).sum =
      (tr.codes.map codeShare).sum := by
  rw [sum_allSymbols hd fun b hb => if_pos (h.uncoded b hb), ← codes_symbols, List.map_map]
  refine congrArg List.sum (List.map_congr_left fun ⟨b, p⟩ hp => ?_)
  have hlen := (h.coded b p hp).1
  have hpos := code_length_ne_zero hp
  simp only [Function.comp_apply, hlen, if_neg hpos, codeShare]

end

/-- Settles O34: the table holds the codes of the tree (`gencodeAssignsThePaths`), of which none goes on from another,
and the subtrees of the root share 1 between them (`paths_share`). -/
theorem codesArePrefixFree : Obligations.CodesArePrefixFree := by
  intro s tr turns rest hw hidle herr hheld hd hs hturns hrest hn
  obtain ⟨len, bits, hcoded, huncoded, hexec⟩ :=
    gencodeAssignsThePaths s tr turns rest hw hidle herr hheld hd hs hturns hrest hn
  have hholds : HoldsCodes tr { s with len := len, bits := bits } :=
    ⟨hcoded, fun b hb => (huncoded b hb).1⟩
  refine ⟨_, hexec, rfl, fun a b hab => hholds.prefix_free hab, fun hmulti => ?_⟩
  refine (hholds.kraft_sum hd).trans ?_
  cases tr with
  | leaf b => exact absurd (hheld.2.symm.trans hmulti) TreeKind.noConfusion
  | node l r => rw [codes_node, paths_share, List.length_nil, pow_zero]

end Sys2Proof.Machine
end

section
/-! Proofs of the tree codec family (43_tree_codec.md): each MalformedHeader cause is raised at its item (R222 to
R224). -/

namespace Sys2Proof.Machine

/-! ## Places that read -/

/-- At the place pt a rule waits for an item, and does work with the item it (R13). -/
def Reads (pt : Point) (it : Item) (work : Nat → State → State) : Prop :=
  ∃ k : Item → Nat → State → State, (∀ p, pointTurn p pt = awaitItem k) ∧ k it = work

theorem reads_parseFirst (it : Item) : Reads .parseFirst it (parseFirst it) :=
  ⟨parseFirst, fun _ => rfl, rfl⟩

theorem reads_parseMarker (nint : Nat) (it : Item) : Reads (.parseMarker nint) it (parseMarker nint it) :=
  ⟨parseMarker nint, fun _ => rfl, rfl⟩

theorem reads_parseSymbol (nint : Nat) (it : Item) : Reads (.parseSymbol nint) it (parseSymbol nint it) :=
  ⟨parseSymbol nint, fun _ => rfl, rfl⟩

theorem reads_parseSentinel (root : Nat) (it : Item) :
    Reads (.parseSentinel root) it (parseSentinel root it) :=
  ⟨parseSentinel root, fun _ => rfl, rfl⟩

theorem reads_parsePad (root : Nat) (it : Item) : Reads (.parsePad root) it (parsePad root it) :=
  ⟨parsePad root, fun _ => rfl, rfl⟩

/-- The turn of a running core is that of its place, whatever primitive it stands in. -/
theorem coreTurn_of_place {s : State} {turn : State → State} (hruns : s.opstate ≠ .idle)
    (hplace : ∀ p, pointTurn p s.point = turn) : coreTurn s = turn s := by
  cases hop : s.opstate with
  | idle => exact absurd hop hruns
  | run op ph => rw [coreTurn_of_run hop, hplace]

/-- With the item in hand a rule does its work on it (R13). -/
theorem coreTurn_of_item {s : State} {it : Item} {p : Nat} {work : Nat → State → State}
    (hruns : s.opstate ≠ .idle) (hread : Reads s.point it work) (hitem : s.item = some (it, p)) :
    coreTurn s = work p { s with item := none } := by
  obtain ⟨k, hplace, rfl⟩ := hread
  rw [coreTurn_of_place hruns hplace, awaitItem_of_some hitem]

theorem parseMarker_of_internal (nint p : Nat) (s : State) :
    parseMarker nint (.byte 0x00) p s = parseInternal nint p s := by
  have hm : (0x00 : Byte) = internalMarker := rfl
  rw [parseMarker, if_neg (by decide), if_pos hm]

/-! ## Malformed headers -/

theorem parseMarker_of_bad {nint p : Nat} {m : Byte} (hm : 2 ≤ m.toNat) (s : State) :
    parseMarker nint (.byte m) p s = parseRaise .mhBadMarker p s := by
  have hleaf : m ≠ leafMarker := by rintro rfl; exact absurd hm (by decide)
  have hinternal : m ≠ internalMarker := by rintro rfl; exact absurd hm (by decide)
  rw [parseMarker, if_neg hleaf, if_neg hinternal]

theorem parseMarker_of_limit (p : Nat) (s : State) :
    parseMarker 255 (.byte 0x00) p s = parseRaise .mhNodeLimit p s :=
  (parseMarker_of_internal 255 p s).trans (if_pos rfl)

theorem parseSymbol_of_seen {nint p : Nat} {b : Byte} {s : State} (hb : symGet s.seen b = true) :
    parseSymbol nint (.byte b) p s = parseRaise .mhDupSymbol p s := if_pos hb

theorem parseSentinel_of_other {root p : Nat} {b : Byte} (hb : b.toNat ≠ 255) (s : State) :
    parseSentinel root (.byte b) p s = parseRaise .mhNoSentinel p s :=
  if_neg (by rintro rfl; exact hb rfl)

theorem parsePad_of_large {root p : Nat} {b : Byte} (hb : 8 ≤ b.toNat) (s : State) :
    parsePad root (.byte b) p s = parseRaise .mhBadPad p s := if_pos hb

/-- Settles O39: the core has the item in hand (`coreTurn_of_item`), and the place's work on it is the raise. -/
theorem malformedHeaderCauses : Obligations.MalformedHeaderCauses := by
  intro s op ph p c hop hcause
  have hruns : s.opstate ≠ .idle := by rw [hop]; exact OpState.noConfusion
  have raises {pt : Point} {it : Item} {work : Nat → State → State} (hpt : s.point = pt)
      (hitem : s.item = some (it, p)) (hread : Reads pt it work)
      (hwork : work p { s with item := none } = parseRaise c p { s with item := none }) :
      coreTurn s = { s with point := .raising c p, item := none, nnodes := 0, nsym := 0 } :=
    (coreTurn_of_item hruns (hpt ▸ hread) hitem).trans hwork
  rcases hcause with ⟨nint, m, hpt, hitem, hm, rfl⟩ | ⟨m, hpt, hitem, hm, rfl⟩ | ⟨k, hpt, hitem, rfl⟩ |
    ⟨root, m, hpt, hitem, hm, rfl⟩ | ⟨root, m, hpt, hitem, hm, rfl⟩ | ⟨nint, b, hpt, hitem, hb, rfl⟩ |
    ⟨hpt, hitem, rfl⟩
  · exact raises hpt hitem (reads_parseMarker nint _) (parseMarker_of_bad hm _)
  · exact raises hpt hitem (reads_parseFirst _) (parseMarker_of_bad hm _)
  · rcases hpt with hpt | hpt | hpt | hpt
    · exact raises hpt hitem (reads_parseMarker k _) rfl
    · exact raises hpt hitem (reads_parseSymbol k _) rfl
    · exact raises hpt hitem (reads_parseSentinel k _) rfl
    · exact raises hpt hitem (reads_parsePad k _) rfl
  · exact raises hpt hitem (reads_parseSentinel root _) (parseSentinel_of_other hm _)
  · exact raises hpt hitem (reads_parsePad root _) (parsePad_of_large hm _)
  · exact raises hpt hitem (reads_parseSymbol nint _) (parseSymbol_of_seen hb)
  · exact raises hpt hitem (reads_parseMarker 255 _) (parseMarker_of_limit p _)

end Sys2Proof.Machine
end

section
/-! Proofs of the tree codec family (43_tree_codec.md): PARSE_HEADER rebuilds the tree of a header in pre-order (R222,
R223, R225). -/

namespace Sys2Proof.Machine

/-! ## Reading an item -/

theorem SilentTurns.out {n : Nat} {s t : State} (h : SilentTurns n s t) : t.out = [] := by
  induction h with
  | refl hout => exact hout
  | turn _ _ ih => exact ih

/-- A command runs, with no item in hand and no byte untaken. -/
structure Waiting (s : State) : Prop where
  runs : s.opstate ≠ .idle
  item : s.item = none
  out : s.out = []

theorem waiting_accept {s : State} (hw : WorkClean s) (hidle : s.opstate = .idle) (op : Op) :
    Waiting (accept op s) := by
  obtain ⟨_, hitem, _, _, _, _, _, hout⟩ := hw.idle hidle
  exact ⟨OpState.noConfusion, hitem, hout⟩

theorem Waiting.consumeItem {s : State} (h : Waiting s) (it : Item) (q : List Item) :
    Waiting (consumeItem it q s) := ⟨h.runs, h.item, h.out⟩

/-- Reading an item takes two turns: the transfer of the item, and the rule's work on it (R13). -/
theorem SilentTurns.read {n : Nat} {s t u : State} {it : Item} {work : Nat → State → State} {q : List Item}
    (h : SilentTurns n s t) (hw : Waiting t) (hplace : Reads t.point it work) (hq : t.inQ = it :: q)
    (hwork : work t.pos (consumeItem it q t) = u) (hout : u.out = []) : SilentTurns (n + 2) s u := by
  obtain ⟨hruns, hitem, ht⟩ := hw
  have hread : coreTurn t = receive t := by
    obtain ⟨k, hk, _⟩ := hplace
    rw [coreTurn_of_place hruns hk, awaitItem_of_none hitem]
  rw [receive_of_cons hq] at hread
  have hconsumed : Machine.consumeItem it q t =
      { t with inQ := q, item := none, pos := t.pos + 1, inCount := countIn it t.inCount } := by
    rw [Machine.consumeItem, ← hitem]
  have hturn := coreTurn_of_item (it := it) (p := t.pos)
    (s := { t with inQ := q, item := some (it, t.pos), pos := t.pos + 1, inCount := countIn it t.inCount })
    hruns hplace rfl
  exact (h.next hread ht).next (hturn.trans (hconsumed ▸ hwork)) hout

/-- The state after the given bytes were read, with q behind them (R13, R82). -/
def consumeBytes (bs : List Byte) (q : List Item) (s : State) : State :=
  { s with inQ := q, pos := s.pos + bs.length, inCount := s.inCount + BitVec.ofNat 32 bs.length }

/-! ## One subtree -/

theorem bytes_node_length (l r : HuffTree) :
    (HuffTree.node l r).bytes.length = 1 + l.bytes.length + r.bytes.length := by
  simp only [HuffTree.bytes, List.length_cons, List.length_append]; omega

/-- PARSE_HEADER waits for the marker of a subtree, as it does for the first item of a container (R222, R223). -/
structure AtMarker (nint : Nat) (s : State) : Prop where
  waits : Waiting s
  place : ∀ m, Reads s.point (.byte m) (parseMarker nint (.byte m))

/-- A rule goes on at the place pt. -/
def moveTo (pt : Point) (s : State) : State := { s with point := pt }

theorem Waiting.moveTo {s : State} (h : Waiting s) (pt : Point) : Waiting (moveTo pt s) :=
  ⟨h.runs, h.item, h.out⟩

/-- The subtree at k is complete, and `Parse` returns it to STACK (R223). -/
def resumeParse (nint k : Nat) (s : State) : State :=
  match returnSubtree k s.node s.stack with
  | (some root, stack, node) => { s with stack := stack, node := node, point := .parseSentinel root }
  | (none, stack, node) => { s with stack := stack, node := node, point := .parseMarker nint }

/-- Node k has its left subtree l and waits for its right one, above rest (R223). -/
def awaitRight (nint k l : Nat) (rest : List StackEntry) (s : State) : State :=
  { s with stack := .parseRight k l :: rest, point := .parseMarker nint }

theorem resumeParse_of_left {nint k p : Nat} {rest : List StackEntry} {s : State}
    (hstack : s.stack = .parseLeft p :: rest) : resumeParse nint k s = awaitRight nint p k rest s := by
  rw [resumeParse, hstack]; rfl

/-- Node k gets its children, and STACK is rest again (R223). -/
def joinChildren (k l r : Nat) (rest : List StackEntry) (s : State) : State :=
  { s with stack := rest, node := nodeSet s.node k ((nodeGet s.node k).withChildren l r) }

theorem resumeParse_of_right {nint k p l : Nat} {rest : List StackEntry} {s : State}
    (hstack : s.stack = .parseRight p l :: rest) :
    resumeParse nint k s = resumeParse nint p (joinChildren p l k rest s) := by
  rw [resumeParse, hstack, resumeParse]; rfl

theorem resumeParse_of_empty {nint k : Nat} {s : State} (hstack : s.stack = []) :
    resumeParse nint k s = moveTo (.parseSentinel k) s := by
  have hreturn : returnSubtree k s.node s.stack = (some k, s.stack, s.node) := by rw [hstack]; rfl
  rw [resumeParse, hreturn]; rfl

theorem resumeParse_out (nint k : Nat) (s : State) : (resumeParse nint k s).out = s.out := by
  unfold resumeParse
  split <;> rfl

/-- The state after the subtree t was read, with q behind it, and allocated in the arena node (R223). -/
def readTree (t : HuffTree) (q : List Item) (node : Vector Node 511) (seen : Vector Bool 256) (s : State) :
    State :=
  { consumeBytes t.bytes q s with
    node := node, seen := seen, nnodes := s.nnodes + (2 * t.leaves - 1), nsym := s.nsym + t.leaves }

theorem readTree_leaf (b : Byte) (q : List Item) (node : Vector Node 511) (seen : Vector Bool 256)
    (s : State) :
    readTree (.leaf b) q node seen s =
      { s with
        node := node, seen := seen, nnodes := s.nnodes + 1, nsym := s.nsym + 1, inQ := q, pos := s.pos + 2,
        inCount := s.inCount + 1 + 1 } := by
  rw [BitVec.add_assoc]; rfl

theorem Waiting.readTree {s : State} (h : Waiting s) (t : HuffTree) (q : List Item) (node : Vector Node 511)
    (seen : Vector Bool 256) : Waiting (readTree t q node seen s) := ⟨h.runs, h.item, h.out⟩

/-- From old to node t was allocated at k and on, in pre-order, and the nodes below k are kept (R225). -/
structure Allocates (t : HuffTree) (k : Nat) (old node : Vector Node 511) : Prop where
  tree : PreorderAt node k t
  kept : ∀ j < k, nodeGet node j = nodeGet old j

theorem allocates_leaf {k : Nat} (b : Byte) (old : Vector Node 511) (hk : k < 511) :
    Allocates (.leaf b) k old (nodeSet old k (.leaf b 0)) :=
  ⟨nodeGet_nodeSet_same _ _ _ hk, nodeGet_nodeSet_below _ _⟩

/-- Node k is allocated first, its left subtree next and its right one at c, and k gets its children last (R223). -/
theorem allocates_node {l r : HuffTree} {k c : Nat} {old nl nr : Vector Node 511} (hk : k < 511)
    (hc : c = k + 2 * l.leaves) (hl : Allocates l (k + 1) (nodeSet old k (.internal 0 0 0)) nl)
    (hr : Allocates r c nl nr) :
    Allocates (.node l r) k old (nodeSet nr k ((nodeGet nr k).withChildren (k + 1) c)) := by
  subst hc
  have hpos := leaves_pos l
  have hother {j : Nat} (hj : j ≠ k) :=
    nodeGet_nodeSet_of_ne nr k j ((nodeGet nr k).withChildren (k + 1) (k + 2 * l.leaves)) hj
  have hentry : nodeGet nr k = .internal 0 0 0 := by
    rw [hr.kept k (by omega), hl.kept k (by omega), nodeGet_nodeSet_same _ _ _ hk]
  refine ⟨⟨?entry, ?left, ?right⟩, fun j hj => ?kept⟩
  case entry => rw [nodeGet_nodeSet_same _ _ _ hk, hentry]; rfl
  case left =>
    refine preorderAt_congr (fun j hj hj' => ?_) hl.tree
    rw [hother (by omega), hr.kept j (by omega)]
  case right => exact preorderAt_congr (fun j hj _ => hother (by omega)) hr.tree
  case kept =>
    rw [hother (by omega), hr.kept j (by omega), hl.kept j (by omega), nodeGet_nodeSet_of_ne _ _ _ _ (by omega)]

theorem parseMarker_of_leaf (nint p : Nat) (s : State) :
    parseMarker nint (.byte 0x01) p s = moveTo (.parseSymbol nint) s := by
  have hm : (0x01 : Byte) = leafMarker := rfl
  rw [parseMarker, if_pos hm]; rfl

/-- Node k = NNODES is a leaf with the symbol b (R223). -/
def allocateLeaf (b : Byte) (s : State) : State :=
  { s with
    seen := symSet s.seen b true, nnodes := s.nnodes + 1, nsym := s.nsym + 1,
    node := nodeSet s.node s.nnodes (.leaf b 0) }

/-- A leaf with a new symbol is allocated, and its subtree returns to STACK (R223). -/
theorem parseSymbol_of_new {nint p : Nat} {b : Byte} {s : State} (hb : symGet s.seen b = false) :
    parseSymbol nint (.byte b) p s = resumeParse nint s.nnodes (allocateLeaf b s) := by
  rw [parseSymbol, if_neg (by rw [hb]; exact Bool.false_ne_true)]
  rfl

theorem AtMarker.leaf_turns {nint : Nat} {b : Byte} {q : List Item} {s : State} (h : AtMarker nint s)
    (hq : s.inQ = bytesIn (HuffTree.leaf b).bytes ++ q) (hnew : symGet s.seen b = false) :
    SilentTurns 4 s
      (resumeParse nint s.nnodes
        (readTree (.leaf b) q (nodeSet s.node s.nnodes (.leaf b 0)) (symSet s.seen b true) s)) := by
  obtain ⟨hw, hplace⟩ := h
  have hread := (hw.consumeItem (.byte 0x01) (.byte b :: q)).moveTo (.parseSymbol nint)
  have hmarker := (SilentTurns.refl hw.out).read hw (hplace 0x01) hq (parseMarker_of_leaf nint _ _) hread.out
  rw [readTree_leaf]
  exact hmarker.read hread (reads_parseSymbol nint _) rfl (parseSymbol_of_new hnew)
    ((resumeParse_out _ _ _).trans hw.out)

/-- Node k = NNODES is allocated, and its left subtree is read next (R223). -/
def openNode (nint : Nat) (s : State) : State :=
  { s with
    node := nodeSet s.node s.nnodes (.internal 0 0 0), nnodes := s.nnodes + 1,
    stack := .parseLeft s.nnodes :: s.stack, point := .parseMarker (nint + 1) }

theorem AtMarker.internal_turns {nint : Nat} {q : List Item} {s : State} (h : AtMarker nint s)
    (hq : s.inQ = .byte 0x00 :: q) (hnint : nint ≠ 255) :
    SilentTurns 2 s (openNode nint (consumeItem (.byte 0x00) q s)) :=
  (SilentTurns.refl h.waits.out).read h.waits (h.place 0x00) hq
    ((parseMarker_of_internal _ _ _).trans (if_neg hnint)) h.waits.out

theorem AtMarker.of_turns {nint nint' n : Nat} {s t : State} (h : AtMarker nint s) (hturns : SilentTurns n s t)
    (hop : t.opstate = s.opstate) (hitem : t.item = s.item) (hpt : t.point = .parseMarker nint') :
    AtMarker nint' t :=
  ⟨⟨hop ▸ h.waits.runs, hitem.trans h.waits.item, hturns.out⟩, fun _ => hpt ▸ reads_parseMarker nint' _⟩

theorem resumeParse_moveTo (nint k : Nat) (pt : Point) (s : State) :
    resumeParse nint k (moveTo pt s) = resumeParse nint k s := rfl

/-- A subtree with two children is its marker and the two of them (R113, R223). -/
theorem joinChildren_readTree {l r : HuffTree} {q ql qr : List Item} {nl nr : Vector Node 511}
    {seenl seenr : Vector Bool 256} {nint m c : Nat} {s : State} :
    joinChildren s.nnodes (s.nnodes + 1) c s.stack
        (readTree r q nr seenr
          (awaitRight m s.nnodes (s.nnodes + 1) s.stack
            (readTree l qr nl seenl (openNode nint (consumeItem (.byte 0x00) ql s))))) =
      moveTo (.parseMarker m)
        (readTree (.node l r) q
          (nodeSet nr s.nnodes ((nodeGet nr s.nnodes).withChildren (s.nnodes + 1) c)) seenr s) := by
  have hl := leaves_pos l
  have hr := leaves_pos r
  have hnodes : s.nnodes + (2 * (l.leaves + r.leaves) - 1) =
      s.nnodes + 1 + (2 * l.leaves - 1) + (2 * r.leaves - 1) := by omega
  simp only [joinChildren, readTree, awaitRight, openNode, consumeItem, consumeBytes, moveTo, countIn,
    bytes_node_length, HuffTree.leaves, hnodes, BitVec.ofNat_add, ← Nat.add_assoc, ← BitVec.add_assoc]
  rfl

/-- `Parse` reads a subtree with new and distinct symbols, two turns for each of its bytes (R223). -/
theorem AtMarker.tree_turns {t : HuffTree} {nint : Nat} {q : List Item} {s : State} (h : AtMarker nint s)
    (hq : s.inQ = bytesIn t.bytes ++ q) (hd : t.distinct)
    (hnew : ∀ b ∈ t.symbols, symGet s.seen b = false) (hnint : nint + t.leaves ≤ 256)
    (hroom : s.nnodes + 2 * t.leaves ≤ 512) :
    ∃ node seen, Allocates t s.nnodes s.node node ∧ (∀ b ∉ t.symbols, symGet seen b = symGet s.seen b) ∧
      SilentTurns (2 * t.bytes.length) s
        (resumeParse (nint + t.leaves - 1) s.nnodes (readTree t q node seen s)) := by
  induction t generalizing nint q s with
  | leaf b =>
    refine ⟨_, _, allocates_leaf b s.node (by simp only [HuffTree.leaves] at hroom; omega), fun c hc => ?_,
      h.leaf_turns hq (hnew b List.mem_cons_self)⟩
    exact symGet_symSet_of_ne _ _ _ _ (List.ne_of_not_mem_cons hc)
  | node l r ihl ihr =>
    have hposl := leaves_pos l
    have hposr := leaves_pos r
    simp only [HuffTree.leaves] at hnint hroom
    obtain ⟨hdl, hdr, hdisjoint⟩ := List.nodup_append'.1 hd
    have hq' : s.inQ = .byte 0x00 :: (bytesIn l.bytes ++ (bytesIn r.bytes ++ q)) := by
      simpa [HuffTree.bytes, bytesIn] using hq
    have hopen := h.internal_turns hq' (by omega)
    have hmarkl := h.of_turns hopen rfl rfl rfl
    obtain ⟨nl, seenl, hallocl, hseenl, hleft⟩ := ihl hmarkl rfl hdl
      (fun b hb => hnew b (List.mem_append_left _ hb)) (by omega)
      (by show s.nnodes + 1 + 2 * l.leaves ≤ 512; omega)
    rw [resumeParse_of_left rfl] at hleft
    have hmarkr := hmarkl.of_turns hleft rfl rfl rfl
    obtain ⟨nr, seenr, hallocr, hseenr, hright⟩ := ihr hmarkr rfl hdr
      (fun b hb => (hseenl b fun hbl => hdisjoint hbl hb).trans (hnew b (List.mem_append_right _ hb)))
      (by omega) (by show s.nnodes + 1 + (2 * l.leaves - 1) + 2 * r.leaves ≤ 512; omega)
    rw [resumeParse_of_right rfl] at hright
    refine ⟨nodeSet nr s.nnodes ((nodeGet nr s.nnodes).withChildren (s.nnodes + 1)
      (s.nnodes + 1 + (2 * l.leaves - 1))), seenr, allocates_node (by omega) (by omega) hallocl hallocr,
      fun b hb => ?seen, ?turns⟩
    case seen =>
      rw [HuffTree.symbols, List.mem_append, not_or] at hb
      exact (hseenr b hb.2).trans (hseenl b hb.1)
    case turns =>
      have hall := hopen.trans (hleft.trans hright)
      have hn : nint + 1 + l.leaves - 1 + r.leaves - 1 = nint + (l.leaves + r.leaves) - 1 := by omega
      have hlen : 2 + (2 * l.bytes.length + 2 * r.bytes.length) = 2 * (HuffTree.node l r).bytes.length := by
        rw [bytes_node_length]; omega
      rw [hn, hlen] at hall
      rw [← resumeParse_moveTo _ _ (.parseMarker (nint + 1 + l.leaves - 1)), ← joinChildren_readTree]
      exact hall

/-! ## The whole rule -/

theorem parseSentinel_of_sentinel (root p : Nat) (s : State) :
    parseSentinel root (.byte 0xFF) p s = moveTo (.parsePad root) s := by
  have hb : (0xFF : Byte) = sentinel := rfl
  rw [parseSentinel, if_pos hb]; rfl

/-- The PAD byte makes the tree at root the current one (R222). -/
def setRoot (root : Nat) (pad : BitVec 3) (s : State) : State :=
  { s with
    hdrPad := pad, rootIdx := root, rootValid := true, treeKind := kindOfTree s.nsym, point := .parseDone }

theorem Waiting.setRoot {s : State} (h : Waiting s) (root : Nat) (pad : BitVec 3) :
    Waiting (setRoot root pad s) := ⟨h.runs, h.item, h.out⟩

theorem parsePad_of_pad (root p : Nat) (pad : BitVec 3) (s : State) :
    parsePad root (.byte (pad.setWidth 8)) p s = setRoot root pad s := by
  have hsmall : ¬ 7 < (pad.setWidth 8).toNat := by
    rw [BitVec.toNat_setWidth]
    omega
  have hpad : (pad.setWidth 8).setWidth 3 = pad := BitVec.setWidth_setWidth_of_le _ (by decide)
  rw [parsePad, if_neg hsmall, hpad]; rfl

/-- PARSE_HEADER of the header of the tree tr, with q behind it, before its `finish` (R222). -/
def parsedHeader (tr : HuffTree) (pad : BitVec 3) (q : List Item) (node : Vector Node 511)
    (seen : Vector Bool 256) (s : State) : State :=
  { consumeBytes (headerBytes tr pad) q (invalidateTree s) with
    treeKind := kindOfTree tr.leaves, rootValid := true, nsym := tr.leaves, nnodes := 2 * tr.leaves - 1,
    hdrParsed := true, hdrPad := pad, node := node, seen := seen, point := .parseDone }

/-- HEADER is the tree, the sentinel and the PAD byte (R113, R222). -/
theorem parsedHeader_eq (tr : HuffTree) (pad : BitVec 3) (q q' q'' : List Item) (node : Vector Node 511)
    (seen : Vector Bool 256) (s : State) :
    { setRoot 0 pad
        (consumeItem (.byte (pad.setWidth 8)) q
          (moveTo (.parsePad 0)
            (consumeItem (.byte 0xFF) q'
              (moveTo (.parseSentinel 0) (readTree tr q'' node seen (parseStart s)))))) with
      hdrParsed := true } = parsedHeader tr pad q node seen s := by
  have hlen : (headerBytes tr pad).length = tr.bytes.length + 1 + 1 := by simp [headerBytes]
  simp only [setRoot, consumeItem, moveTo, readTree, parsedHeader, consumeBytes, parseStart, invalidateTree_eq,
    countIn, hlen, BitVec.ofNat_add, Nat.zero_add, ← Nat.add_assoc, ← BitVec.add_assoc]
  rfl

theorem coreTurn_of_parseDone {s : State} (hruns : s.opstate ≠ .idle) (hpt : s.point = .parseDone) :
    coreTurn s = finish { s with hdrParsed := true } :=
  coreTurn_of_place (turn := parseDone) hruns fun _ => by rw [hpt]; rfl

/-- The first line of PARSE_HEADER, alone or in DECOMPRESS. -/
theorem parseStart_turn {op : Op} {ph : Nat} {s : State} (hop : s.opstate = .run op ph)
    (hprim : currentPrim op ph = .parseHeader) (hpt : s.point = .atStart) (hout : s.out = []) :
    SilentTurns 1 s (parseStart s) :=
  (SilentTurns.refl hout).next (by rw [coreTurn_of_run hop, hprim, hpt]; rfl) hout

/-- PARSE_HEADER up to its `finish`, alone or in DECOMPRESS, takes two turns for each byte of the header, and one before
and one after them (R222). -/
theorem parseHeader_turns {op : Op} {ph : Nat} {s : State} {tr : HuffTree} {pad : BitVec 3} {q : List Item}
    (hw : Waiting s) (hop : s.opstate = .run op ph) (hprim : currentPrim op ph = .parseHeader)
    (hpt : s.point = .atStart) (hstack : s.stack = []) (hd : tr.distinct)
    (hq : s.inQ = bytesIn (headerBytes tr pad) ++ q) :
    ∃ node seen, PreorderAt node 0 tr ∧
      SilentTurns (2 * (headerBytes tr pad).length + 2) s (finish (parsedHeader tr pad q node seen s)) := by
  have hstart := parseStart_turn hop hprim hpt hw.out
  have hwait : Waiting (parseStart s) := ⟨hw.runs, hw.item, hw.out⟩
  have hmark : AtMarker 0 (parseStart s) := ⟨hwait, fun m => reads_parseFirst (.byte m)⟩
  have h256 := leaves_le_of_distinct tr hd
  have hbytes : s.inQ = bytesIn tr.bytes ++ .byte 0xFF :: .byte (pad.setWidth 8) :: q := by
    simpa [headerBytes, bytesIn] using hq
  obtain ⟨node, seen, halloc, _, htree⟩ :=
    hmark.tree_turns hbytes hd (fun b _ => symGet_replicate false b) (by omega)
      (by show 0 + 2 * tr.leaves ≤ 512; omega)
  rw [resumeParse_of_empty (s := readTree tr _ node seen (parseStart s)) hstack] at htree
  have hread := (hwait.readTree tr (.byte 0xFF :: .byte (pad.setWidth 8) :: q) node seen).moveTo
    (.parseSentinel 0)
  have hended := (hread.consumeItem (.byte 0xFF) (.byte (pad.setWidth 8) :: q)).moveTo (.parsePad 0)
  have hrooted := (hended.consumeItem (.byte (pad.setWidth 8)) q).setRoot 0 pad
  have hsentinel := htree.read hread (reads_parseSentinel 0 _) rfl (parseSentinel_of_sentinel 0 _ _) hended.out
  have hpad := hsentinel.read hended (reads_parsePad 0 _) rfl (parsePad_of_pad 0 _ pad _) hrooted.out
  have hdone := (hstart.trans hpad).next (coreTurn_of_parseDone hrooted.runs rfl)
    ((finish_out _).trans hrooted.out)
  have hlen : 1 + (2 * tr.bytes.length + 2 + 2) + 1 = 2 * (headerBytes tr pad).length + 2 := by
    simp only [headerBytes, List.length_append, List.length_cons, List.length_nil]; omega
  rw [hlen] at hdone
  refine ⟨node, seen, halloc.tree, ?_⟩
  rw [← parsedHeader_eq]
  exact hdone

/-- The counts of a command start at 0 (R310). -/
theorem consumeBytes_accept (bs : List Byte) (q : List Item) (op : Op) (s : State) :
    consumeBytes bs q (invalidateTree (accept op s)) =
      { invalidateTree (accept op s) with
        inQ := q, pos := bs.length, inCount := BitVec.ofNat 32 bs.length } := by
  simp [consumeBytes, invalidateTree_eq, accept, acceptWord]

/-- Settles O37: the subtrees are read and allocated one after the other (`AtMarker.tree_turns`), two turns for each
item, and the first line, `parseDone` and the end of the rule take one turn each. -/
theorem parseHeaderRebuildsTheTree : Obligations.ParseHeaderRebuildsTheTree := by
  intro s tr pad more turns rest hw hidle herr hd hq hs hturns hrest hn
  have hwait := waiting_accept hw hidle (.prim .parseHeader)
  obtain ⟨node, seen, htree, hrun⟩ := parseHeader_turns hwait rfl rfl rfl (hw.stack_of_idle hidle) hd hq
  have hend := hrun.next (coreTurn_of_finishing OpState.noConfusion rfl hwait.out) hwait.out
  have hall := runCommand_of_silentTurns hidle herr hs hturns hrest hn hend rfl
  refine ⟨node, seen, htree, congrArg Host.Outcome.next (hall.trans ?_)⟩
  rw [parsedHeader, consumeBytes_accept]
  conv_rhs => rw [← settle_of_idle hw hidle]
  rfl

/-- PARSE_HEADER up to its `finish`, alone or in DECOMPRESS, at an EOS as its first item (R222). -/
theorem parseEmpty_turns {op : Op} {ph : Nat} {s : State} {q : List Item} (hw : Waiting s)
    (hop : s.opstate = .run op ph) (hprim : currentPrim op ph = .parseHeader) (hpt : s.point = .atStart)
    (hq : s.inQ = .eos :: q) :
    SilentTurns 4 s
      (finish
        { consumeItem .eos q (parseStart s) with
          treeKind := .emptyTree, hdrParsed := true, point := .parseDone }) := by
  have hwait : Waiting (parseStart s) := ⟨hw.runs, hw.item, hw.out⟩
  have hstart := parseStart_turn hop hprim hpt hw.out
  have hread := hstart.read hwait (reads_parseFirst .eos) hq rfl hw.out
  exact hread.next (coreTurn_of_parseDone hw.runs rfl) ((finish_out _).trans hw.out)

/-- Settles O38: EOS as the first item takes two turns, and the first line, `parseDone` and the end of the rule one
each. -/
theorem parseHeaderOfEmptyContainer : Obligations.ParseHeaderOfEmptyContainer := by
  intro s more turns rest hw hidle herr hq hs hturns hrest hn
  have hwait := waiting_accept hw hidle (.prim .parseHeader)
  have hrun := parseEmpty_turns hwait rfl rfl rfl hq
  have hend := hrun.next (coreTurn_of_finishing OpState.noConfusion rfl hwait.out) hwait.out
  have hall := runCommand_of_silentTurns hidle herr hs hturns hrest hn hend rfl
  refine congrArg Host.Outcome.next (hall.trans ?_)
  conv_rhs => rw [← settle_of_idle hw hidle]
  rfl

end Sys2Proof.Machine
end

section
/-! Proofs of the tree codec family (43_tree_codec.md): EMIT_HEADER offers the header of the current tree (R220, R221;
30_encoding.md R113). -/

namespace Sys2Proof.Machine

/-! ## A sink that takes each byte at once -/

/-- A turn of the core and one of the sink (R121). -/
def beat (s : State) : State := sinkTurn (coreTurn s)

/-- n beats lead from s to t. -/
def BeatsTo (n : Nat) (s t : State) : Prop := beat^[n] s = t

theorem BeatsTo.trans {m n : Nat} {s t u : State} (h : BeatsTo m s t) (h' : BeatsTo n t u) :
    BeatsTo (m + n) s u := by
  rw [BeatsTo, Nat.add_comm, Function.iterate_add_apply, h, h']

theorem BeatsTo.next {n : Nat} {s t u : State} (h : BeatsTo n s t) (hbeat : beat t = u) :
    BeatsTo (n + 1) s u := by
  rw [BeatsTo, Function.iterate_succ_apply', h, hbeat]

/-- The sink finds nothing to take after a turn that leaves no byte untaken (R83). -/
theorem beat_of_silent {s t : State} (hturn : coreTurn s = t) (hout : t.out = []) : beat s = t := by
  rw [beat, hturn, sinkTurn, hout]

theorem drive_beats (n : Nat) (rest : List Event) (s : State) :
    drive (beats n ++ rest) s = drive rest (beat^[n] s) := by
  induction n generalizing s with
  | zero => rfl
  | succ n ih => rw [drive_beats_succ, ih, Function.iterate_succ_apply, beat]

theorem onlyTurns_beats (n : Nat) : onlyTurns (beats n) = true := by
  induction n with
  | zero => rfl
  | succ n ih => simpa [onlyTurns, beats] using ih

/-- A run that ends within the given beats is all that the accepted command does (R121, R310). -/
theorem runCommand_of_beatsTo {op : Op} {s t : State} {m n : Nat} {rest : List Event}
    (hidle : s.opstate = .idle) (herr : s.err = false) (hs : s.script = beats n ++ rest)
    (hrest : hostNext rest = true) (hm : m ≤ n) (hrun : BeatsTo m (accept op s) t) (hend : t.opstate = .idle)
    (hout : t.out = []) : runCommand op s = { t with script := rest } := by
  obtain ⟨k, rfl⟩ := Nat.exists_eq_add_of_le hm
  rw [runCommand_of_accepting op s ((accepting_iff s).2 ⟨hidle, herr⟩), hs, beats_add, List.append_assoc,
    drive_beats, show beat^[m] (accept op s) = t from hrun,
    drive_idle _ rest t (onlyTurns_beats k) hrest hend hout]

/-! ## Bytes handed over -/

/-- The state with the given bytes taken by the sink, and none left untaken (R43, R83). -/
def handOver (bs : List Byte) (s : State) : State :=
  withOutput [] (s.outRec ++ bs) (s.outCount + BitVec.ofNat 32 bs.length) s

theorem handOver_append (bs bs' : List Byte) (s : State) :
    handOver bs' (handOver bs s) = handOver (bs ++ bs') s := by
  simp only [handOver, withOutput, List.append_assoc, List.length_append, BitVec.ofNat_add, BitVec.add_assoc]

/-- A byte that is offered while none is untaken is taken in the same beat, when what follows the offer does not touch
the output. -/
theorem beat_of_offer {s : State} {b : Byte} {k : State → State} (hturn : coreTurn s = offer b k s)
    (hout : s.out = []) (hk : ∀ o r c t, k (withOutput o r c t) = withOutput o r c (k t)) :
    beat s = k (handOver [b] s) := by
  have hoffer : offer b k s = withOutput [b] s.outRec s.outCount (k s) :=
    (offer_of_empty b k s hout).trans (hk [b] s.outRec s.outCount s)
  rw [beat, hturn, hoffer, handOver, hk]
  rfl

/-! ## The traversal -/

/-- EMIT_HEADER is in its traversal, and no byte is untaken. -/
structure Serializing (s : State) : Prop where
  runs : s.opstate ≠ .idle
  place : s.point = .emitNode
  out : s.out = []

/-- The state after the given bytes were handed over, with the given calls still awaited (R220). -/
def emitted (bs : List Byte) (stack : List StackEntry) (s : State) : State :=
  { handOver bs s with stack := stack }

theorem emitted_append (bs bs' : List Byte) (stack stack' : List StackEntry) (s : State) :
    emitted bs' stack' (emitted bs stack s) = emitted (bs ++ bs') stack' s :=
  congrArg (fun t : State => { t with stack := stack' }) (handOver_append bs bs' s)

theorem Serializing.emitted {s : State} (h : Serializing s) (bs : List Byte) (stack : List StackEntry) :
    Serializing (emitted bs stack s) :=
  ⟨h.runs, h.place, rfl⟩

theorem Serializing.turn {s : State} (h : Serializing s) : coreTurn s = emitNode s :=
  coreTurn_of_place (turn := emitNode) h.runs fun _ => by rw [h.place]; rfl

/-- `Ser` of a leaf has offered its marker (R220). -/
def awaitSymbol (b : Byte) (rest : List StackEntry) (s : State) : State :=
  { s with stack := rest, point := .emitSymbol b }

theorem emitNode_of_leaf {s : State} {i w : Nat} {b : Byte} {rest : List StackEntry}
    (hstack : s.stack = .ser i :: rest) (hi : nodeGet s.node i = .leaf b w) :
    emitNode s = offer 0x01 (awaitSymbol b rest) s := by
  simp only [emitNode, hstack, serNode, hi]; rfl

theorem emitNode_of_internal {s : State} {i w l r : Nat} {rest : List StackEntry}
    (hstack : s.stack = .ser i :: rest) (hi : nodeGet s.node i = .internal w l r) :
    emitNode s = offer 0x00 (fun t => { t with stack := .ser l :: .ser r :: rest }) s := by
  simp only [emitNode, hstack, serNode, hi]; rfl

theorem Serializing.leaf_beats {s : State} {i w : Nat} {b : Byte} {rest : List StackEntry} (h : Serializing s)
    (hstack : s.stack = .ser i :: rest) (hi : nodeGet s.node i = .leaf b w) :
    BeatsTo 2 s (Machine.emitted [0x01, b] rest s) := by
  have hmarker : beat s = awaitSymbol b rest (handOver [0x01] s) :=
    beat_of_offer (h.turn.trans (emitNode_of_leaf hstack hi)) h.out fun _ _ _ _ => rfl
  have hsymbol : beat (awaitSymbol b rest (handOver [0x01] s)) =
      moveTo .emitNode (handOver [b] (awaitSymbol b rest (handOver [0x01] s))) :=
    beat_of_offer (coreTurn_of_place (turn := emitSymbol b) h.runs fun _ => rfl) rfl fun _ _ _ _ => rfl
  have hback : moveTo .emitNode (handOver [b] (awaitSymbol b rest (handOver [0x01] s))) =
      Machine.emitted [0x01, b] rest s := by
    rw [← h.place, show [0x01, b] = [0x01] ++ [b] from rfl, ← emitted_append _ _ rest]
    rfl
  exact BeatsTo.next (n := 1) hmarker (hsymbol.trans hback)

/-- A call `Ser(i)` takes one beat for each byte of the tree at i, which is then taken (R220). -/
theorem Serializing.ser_beats {tr : HuffTree} {s : State} {i : Nat} {rest : List StackEntry}
    (h : Serializing s) (hstack : s.stack = .ser i :: rest) (htree : Represents s.node i tr) :
    BeatsTo tr.bytes.length s (Machine.emitted tr.bytes rest s) := by
  induction tr generalizing s i rest with
  | leaf b =>
    obtain ⟨w, hi⟩ := htree
    exact h.leaf_beats hstack hi
  | node l r ihl ihr =>
    obtain ⟨w, a, b, hi, hl, hr⟩ := htree
    have hcall : beat s = Machine.emitted [0x00] (.ser a :: .ser b :: rest) s :=
      beat_of_offer (h.turn.trans (emitNode_of_internal hstack hi)) h.out fun _ _ _ _ => rfl
    have hcalled := h.emitted [0x00] (.ser a :: .ser b :: rest)
    have hleft := ihl hcalled rfl hl
    rw [emitted_append] at hleft
    have hright := ihr (h.emitted ([0x00] ++ l.bytes) (.ser b :: rest)) rfl hr
    rw [emitted_append] at hright
    have hall := BeatsTo.trans (m := 1) hcall (hleft.trans hright)
    rwa [← Nat.add_assoc, ← bytes_node_length] at hall

/-! ## The whole rule -/

/-- The first line of EMIT_HEADER with a tree (R220). -/
def startSer (s : State) : State := { s with stack := [.ser s.rootIdx], point := .emitNode }

theorem emitStart_of_tree {tr : HuffTree} {s : State} (hc : s.codesValid = true) (hheld : holdsTree s tr) :
    emitStart s = startSer s := by
  have hk : s.treeKind ≠ .emptyTree := by
    obtain ⟨_, hk⟩ := hheld
    cases tr <;> rw [hk] <;> exact TreeKind.noConfusion
  rw [emitStart, if_neg (by rw [hc]; decide), if_neg hk]
  rfl

/-- The header of an empty tree has no byte (R221). -/
theorem emitStart_of_emptyTree {s : State} (hc : s.codesValid = true) (hk : s.treeKind = .emptyTree) :
    emitStart s = finish s := by
  rw [emitStart, hc, hk]; rfl

theorem emitNode_of_empty {s : State} (hstack : s.stack = []) : emitNode s = moveTo .emitSentinel s := by
  simp only [emitNode, hstack, moveTo]

/-- EMIT_HEADER of the tree tr before its `finish`, with all of its bytes taken (R220). -/
def emittedHeader (tr : HuffTree) (s : State) : State :=
  moveTo .emitPad (emitted (headerBytes tr s.encPad) [] s)

/-- HEADER is the tree, the sentinel and the PAD byte (R113, R220). -/
theorem emittedHeader_eq (tr : HuffTree) (s : State) :
    handOver [s.encPad.setWidth 8]
      (moveTo .emitPad (handOver [0xFF] (moveTo .emitSentinel (emitted tr.bytes [] (startSer s))))) =
      emittedHeader tr s := by
  have hbytes : headerBytes tr s.encPad = tr.bytes ++ ([0xFF] ++ [s.encPad.setWidth 8]) := rfl
  simp only [emittedHeader, emitted, handOver, withOutput, moveTo, startSer, hbytes, List.append_assoc,
    List.length_append, BitVec.ofNat_add, BitVec.add_assoc]

/-- EMIT_HEADER up to its `finish`, alone or in COMPRESS, takes one beat for each byte of the header, and one before
and one after those of the tree (R220). -/
theorem emitHeader_beats {op : Op} {ph : Nat} {s : State} {tr : HuffTree} (hop : s.opstate = .run op ph)
    (hprim : currentPrim op ph = .emitHeader) (hpt : s.point = .atStart) (hout : s.out = [])
    (hc : s.codesValid = true) (hheld : holdsTree s tr) :
    BeatsTo (tr.bytes.length + 4) s (finish (emittedHeader tr s)) := by
  have hruns : s.opstate ≠ .idle := by rw [hop]; exact OpState.noConfusion
  have hfirst : coreTurn s = startSer s := by
    rw [coreTurn_of_run hop, hprim, hpt]
    exact emitStart_of_tree hc hheld
  have hser : Serializing (startSer s) := ⟨hruns, rfl, hout⟩
  have htree := BeatsTo.trans (m := 1) (beat_of_silent hfirst hout) (hser.ser_beats rfl hheld.1)
  have hend := (hser.emitted tr.bytes []).turn.trans (emitNode_of_empty rfl)
  have hwalk := htree.next (beat_of_silent hend rfl)
  have hsentinel := hwalk.next (beat_of_offer (k := moveTo .emitPad)
    (coreTurn_of_place (turn := emitSentinel) hruns fun _ => rfl) rfl fun _ _ _ _ => rfl)
  have hpad := hsentinel.next (beat_of_offer (b := s.encPad.setWidth 8) (k := finish)
    (coreTurn_of_place (turn := emitPad) hruns fun _ => rfl) rfl fun o r c t => (blind_finish o r c t).same)
  rw [← emittedHeader_eq]
  rwa [Nat.add_comm 1] at hpad

/-- Settles O35: each byte of the header takes one beat (`Serializing.ser_beats`), and the first line, the end of the
traversal and the end of the rule take one each. -/
theorem emitHeaderOffersTheHeader : Obligations.EmitHeaderOffersTheHeader := by
  intro s tr n rest hw hidle herr hc hheld hs hrest hn
  have hout : s.out = [] := (waiting_accept hw hidle (.prim .emitHeader)).out
  have hrun := emitHeader_beats (s := accept (.prim .emitHeader) s) rfl rfl rfl hout hc hheld
  have hend := hrun.next (beat_of_silent (coreTurn_of_finishing OpState.noConfusion rfl rfl) rfl)
  have hall := runCommand_of_beatsTo hidle herr hs hrest hn hend rfl rfl
  refine congrArg Host.Outcome.next (hall.trans ?_)
  have hcount : (0 : Word) + BitVec.ofNat 32 (headerBytes tr s.encPad).length =
      BitVec.ofNat 32 (headerBytes tr s.encPad).length := BitVec.zero_add _
  have hsettle : { settle s with out := [] } = s := by rw [settle_of_idle hw hidle, ← hout]
  conv_rhs => rw [← hcount, ← hsettle]
  rfl

/-- Settles O36: EMIT_HEADER of an empty tree finishes in its first turn, and the end of the rule takes one more. -/
theorem emitHeaderOfEmptyTreeOffersNothing : Obligations.EmitHeaderOfEmptyTreeOffersNothing := by
  intro s turns rest hw hidle herr hc hk hs hturns hrest hn
  have hout : s.out = [] := (waiting_accept hw hidle (.prim .emitHeader)).out
  have hrun := accepted_turn (p := .emitHeader) hout (emitStart_of_emptyTree hc hk) hout
  have hend := hrun.next (coreTurn_of_finishing OpState.noConfusion rfl hout) hout
  have hall := runCommand_of_silentTurns hidle herr hs hturns hrest hn hend rfl
  refine congrArg Host.Outcome.next (hall.trans ?_)
  conv_rhs => rw [← settle_of_idle hw hidle]
  rfl

end Sys2Proof.Machine
end

section
/-! Proofs of the bit packer family (44_bit_packer.md): the tests of PACK's loop (R252). -/

namespace Sys2Proof.Machine

theorem reads_packRead (n nb : Nat) (it : Item) : Reads (.packRead n nb) it (packItem n nb it) :=
  ⟨packItem n nb, fun _ => rfl, rfl⟩

theorem packItem_of_mismatch {n nb p : Nat} {s : State} (h : nb ≠ s.pbits) :
    packItem n nb .eos p s = packRaise .passMismatch p s := if_neg h

theorem packItem_of_overflow {n nb p : Nat} {b : Byte} {s : State} (h : n = s.params.passLimit) :
    packItem n nb (.byte b) p s = packRaise .lengthOverflow p s := if_pos h

theorem packItem_of_no_code {n nb p : Nat} {b : Byte} {s : State} (hn : n ≠ s.params.passLimit)
    (h : symGet s.len b = 0) : packItem n nb (.byte b) p s = packRaise .noCode p s :=
  (if_neg hn).trans (if_pos h)

/-- Settles O41: the core has the item in hand (`coreTurn_of_item`), and the first test that fails raises. -/
theorem packRaisesInTestOrder : Obligations.PackRaisesInTestOrder := by
  intro s op ph n nb p b c hop hpt hcause
  have hruns : s.opstate ≠ .idle := by rw [hop]; exact OpState.noConfusion
  have raises {it : Item} (hitem : s.item = some (it, p))
      (hwork : packItem n nb it p { s with item := none } = packRaise c p { s with item := none }) :
      coreTurn s = { s with point := .raising c p, item := none, acc := 0, nacc := 0 } :=
    (coreTurn_of_item hruns (hpt ▸ reads_packRead n nb it) hitem).trans hwork
  rcases hcause with ⟨hitem, hnb, rfl⟩ | ⟨hitem, hn, rfl⟩ | ⟨hitem, hn, hcode, rfl⟩
  · exact raises hitem (packItem_of_mismatch hnb)
  · exact raises hitem (packItem_of_overflow hn)
  · exact raises hitem (packItem_of_no_code hn hcode)

end Sys2Proof.Machine
end

section
/-! Proofs of the bit packer family (44_bit_packer.md): PACK offers the codes of a pass, MSB-first and padded with zero
bits (R250 to R253; 30_encoding.md R116). -/

namespace Sys2Proof.Machine

/-! ## A bit string in bytes -/

/-- Byte i of a bit string, MSB-first, with zero bits past its end (R11, R116). -/
def byteOf (p : BitString) (i : Nat) : Byte := BitVec.ofFnLE fun k => bitAt p (8 * i + (7 - k))

/-- The bytes that a bit string fills (R250). -/
def wholeBytes (p : BitString) : List Byte := (List.range (p.length / 8)).map (byteOf p)

/-- The payload of a bit string: its bytes with the last one padded (R116). -/
def payload (p : BitString) : List Byte := (List.range ((p.length + 7) / 8)).map (byteOf p)

theorem byteOf_getLsbD (p : BitString) (i : Nat) {k : Nat} (hk : k < 8) :
    (byteOf p i).getLsbD k = bitAt p (8 * i + (7 - k)) := by
  rw [byteOf, BitVec.getLsbD_ofFnLE, dif_pos hk]

theorem payload_length (p : BitString) : (payload p).length = (p.length + 7) / 8 := by
  rw [payload, List.length_map, List.length_range]

/-- The bits stand in the payload as R116 has it. -/
theorem packsTo_payload (p : BitString) : PacksTo p (payload p) := by
  refine ⟨payload_length p, fun k hk => ?_⟩
  rw [payload_length] at hk
  have hbyte : (payload p)[k / 8]? = some (byteOf p (k / 8)) := by
    rw [payload, List.getElem?_map, List.getElem?_range (by omega), Option.map_some]
  have hpos : 8 * (k / 8) + (7 - (7 - k % 8)) = k := by omega
  rw [hbyte, Option.getD_some, byteOf_getLsbD p _ (by omega), hpos]

theorem bitAt_of_le {p : BitString} {j : Nat} (h : p.length ≤ j) : bitAt p j = false := by
  rw [bitAt, List.getElem?_eq_none h, Option.getD_none]

theorem bitAt_append (p : BitString) (x : Bool) (j : Nat) :
    bitAt (p ++ [x]) j = if j = p.length then x else bitAt p j := by
  rcases lt_trichotomy j p.length with h | rfl | h
  · rw [if_neg h.ne, bitAt, bitAt, List.getElem?_append_left h]
  · simp [bitAt]
  · rw [if_neg h.ne', bitAt_of_le h.le, bitAt_of_le (by simpa using h)]

/-- Past its end a bit string has zero bytes (R116). -/
theorem byteOf_of_le {p : BitString} {i : Nat} (h : p.length ≤ 8 * i) : byteOf p i = 0 := by
  apply BitVec.eq_of_getLsbD_eq
  intro k hk
  rw [byteOf_getLsbD p i hk, bitAt_of_le (by omega), BitVec.ofNat_eq_ofNat, BitVec.getLsbD_zero]

/-- One more bit leaves the bytes before its own. -/
theorem byteOf_append_of_lt {p : BitString} {i : Nat} (x : Bool) (h : i < p.length / 8) :
    byteOf (p ++ [x]) i = byteOf p i := by
  apply BitVec.eq_of_getLsbD_eq
  intro k hk
  rw [byteOf_getLsbD _ i hk, byteOf_getLsbD p i hk, bitAt_append, if_neg (by omega)]

/-- One more bit is set in its byte (R250). -/
theorem byteOf_append (p : BitString) (x : Bool) :
    byteOf (p ++ [x]) (p.length / 8) = setMsbBit (byteOf p (p.length / 8)) (p.length % 8) x := by
  apply BitVec.eq_of_getLsbD_eq
  intro k hk
  rw [byteOf_getLsbD _ _ hk, bitAt_append, setMsbBit_getLsbD _ _ _ _ (by omega), byteOf_getLsbD p _ hk]
  exact if_congr (by omega) rfl rfl

/-- The bytes that one more bit fills: the same, or one more when it is the last bit of its byte. -/
theorem wholeBytes_append (p : BitString) (x : Bool) :
    wholeBytes (p ++ [x]) =
      wholeBytes p ++ if p.length % 8 = 7 then [byteOf (p ++ [x]) (p.length / 8)] else [] := by
  have hkept : (List.range (p.length / 8)).map (byteOf (p ++ [x])) = wholeBytes p :=
    List.map_congr_left fun i hi => byteOf_append_of_lt x (List.mem_range.1 hi)
  rw [wholeBytes, List.length_append, List.length_singleton]
  split
  next h =>
    rw [show (p.length + 1) / 8 = p.length / 8 + 1 by omega, List.range_succ, List.map_append, hkept,
      List.map_singleton]
  next h => rw [show (p.length + 1) / 8 = p.length / 8 by omega, hkept, List.append_nil]

/-- The payload is the bytes that the bit string fills, and then the byte that it begins (R251). -/
theorem payload_eq (p : BitString) :
    payload p = wholeBytes p ++ if p.length % 8 = 0 then [] else [byteOf p (p.length / 8)] := by
  rw [payload, wholeBytes]
  split
  next h => rw [show (p.length + 7) / 8 = p.length / 8 by omega, List.append_nil]
  next h =>
    rw [show (p.length + 7) / 8 = p.length / 8 + 1 by omega, List.range_succ, List.map_append,
      List.map_singleton]

/-! ## The bit channel -/

/-- The state after the bits p were put: the bytes that they fill are taken, and the channel holds the rest (R59,
R250). -/
def putBits (p : BitString) (s : State) : State :=
  { handOver (wholeBytes p) s with acc := byteOf p (p.length / 8), nacc := BitVec.ofNat 3 (p.length % 8) }

/-- The state with an empty channel (R251). -/
def emptyChannel (s : State) : State := { s with acc := 0, nacc := 0 }

theorem handOver_nil {s : State} (hout : s.out = []) : handOver [] s = s := by
  have hcount : s.outCount + BitVec.ofNat 32 ([] : List Byte).length = s.outCount := BitVec.add_zero _
  rw [handOver, List.append_nil, hcount, ← hout]
  rfl

theorem putBits_nil {s : State} (hout : s.out = []) : putBits [] s = emptyChannel s := by
  rw [putBits, show wholeBytes [] = [] from rfl, handOver_nil hout, byteOf_of_le (Nat.zero_le _)]
  rfl

theorem nacc_putBits (p : BitString) (s : State) : (putBits p s).nacc.toNat = p.length % 8 :=
  Nat.mod_mod _ 8

theorem nacc_putBits_eq_iff (p : BitString) (s : State) (c : BitVec 3) :
    (putBits p s).nacc = c ↔ p.length % 8 = c.toNat := by
  rw [← nacc_putBits p s, BitVec.toNat_inj]

/-- The last bit of a byte hands the byte over (R250). -/
theorem handOver_putBits_of_last {p : BitString} (x : Bool) (h : p.length % 8 = 7) (s : State) :
    emptyChannel (handOver [setMsbBit (putBits p s).acc 7 x] (putBits p s)) = putBits (p ++ [x]) s := by
  have hbyte : byteOf (p ++ [x]) (p.length / 8) = setMsbBit (byteOf p (p.length / 8)) 7 x := by
    rw [byteOf_append, h]
  have hlen : (p ++ [x]).length = p.length + 1 := by simp
  have hempty : byteOf (p ++ [x]) ((p ++ [x]).length / 8) = 0 := byteOf_of_le (by omega)
  have hwhole : wholeBytes (p ++ [x]) = wholeBytes p ++ [setMsbBit (byteOf p (p.length / 8)) 7 x] := by
    rw [wholeBytes_append, if_pos h, hbyte]
  rw [putBits, putBits, hempty, hwhole, ← handOver_append, hlen, show (p.length + 1) % 8 = 0 by omega]
  rfl

/-- Every other bit goes to the channel (R250). -/
theorem putBits_append_of_room {p : BitString} (x : Bool) (h : p.length % 8 ≠ 7) (s : State) :
    { putBits p s with
      acc := setMsbBit (putBits p s).acc (putBits p s).nacc.toNat x, nacc := (putBits p s).nacc + 1 } =
      putBits (p ++ [x]) s := by
  have hlen : (p ++ [x]).length = p.length + 1 := by simp
  have hbyte : byteOf (p ++ [x]) ((p ++ [x]).length / 8) =
      setMsbBit (byteOf p (p.length / 8)) (p.length % 8) x := by
    rw [hlen, show (p.length + 1) / 8 = p.length / 8 by omega, byteOf_append]
  have hwhole : wholeBytes (p ++ [x]) = wholeBytes p := by
    rw [wholeBytes_append, if_neg h, List.append_nil]
  have hnacc : (p ++ [x]).length % 8 = p.length % 8 + 1 := by omega
  rw [nacc_putBits, putBits, putBits, hbyte, hwhole, hnacc, BitVec.ofNat_add]
  rfl

/-! ## The bits of one byte -/

/-- PACK is at bit j of the code of b (R252). -/
def atBit (b : Byte) (j n nb : Nat) (s : State) : State := moveTo (.packBits b j n nb) s

theorem coreTurn_of_atBit {b : Byte} {j n nb : Nat} {s : State} (hruns : s.opstate ≠ .idle) :
    coreTurn (atBit b j n nb s) = packBits b j n nb (atBit b j n nb s) :=
  coreTurn_of_place (s := atBit b j n nb s) (turn := packBits b j n nb) hruns fun _ => rfl

/-- One bit takes one beat (R250, R252). -/
theorem bit_beat {b : Byte} {j n nb : Nat} {p : BitString} {s : State} (hruns : s.opstate ≠ .idle)
    (hj : j < symGet s.len b) :
    beat (atBit b j n nb (putBits p s)) =
      atBit b (j + 1) n nb (putBits (p ++ [bitAt (symGet s.bits b) j]) s) := by
  have hturn : coreTurn (atBit b j n nb (putBits p s)) =
      putBit (bitAt (symGet s.bits b) j) (atBit b (j + 1) n nb) (atBit b j n nb (putBits p s)) :=
    (coreTurn_of_atBit (s := putBits p s) hruns).trans (if_pos hj)
  by_cases hlast : p.length % 8 = 7
  · rw [← handOver_putBits_of_last _ hlast]
    refine beat_of_offer (k := fun t => atBit b (j + 1) n nb (emptyChannel t)) (hturn.trans ?_) rfl
      fun _ _ _ _ => rfl
    exact if_pos ((nacc_putBits_eq_iff p s 7).2 hlast)
  · rw [← putBits_append_of_room _ hlast]
    refine beat_of_silent (hturn.trans ?_) rfl
    exact if_neg fun h => hlast ((nacc_putBits_eq_iff p s 7).1 h)

/-- The code of a byte takes a beat for each bit (R252). -/
theorem code_beats {b : Byte} {n nb j : Nat} {p : BitString} {s : State} (hruns : s.opstate ≠ .idle)
    (hj : j ≤ symGet s.len b) :
    BeatsTo j (atBit b 0 n nb (putBits p s))
      (atBit b j n nb (putBits (p ++ (List.range j).map (bitAt (symGet s.bits b))) s)) := by
  induction j with
  | zero => rw [List.range_zero, List.map_nil, List.append_nil]; rfl
  | succ j ih =>
    rw [List.range_succ, List.map_append, List.map_singleton, ← List.append_assoc]
    exact (ih (Nat.le_of_succ_le hj)).next (bit_beat hruns hj)

/-! ## The pass -/

theorem SilentTurns.beatsTo {n : Nat} {s t : State} (h : SilentTurns n s t) : BeatsTo n s t := by
  induction h with
  | refl _ => rfl
  | @turn n s t _ hrest ih =>
    have hout : (coreTurn s).out = [] := by cases hrest <;> assumption
    have hbeat : BeatsTo 1 s (coreTurn s) := beat_of_silent rfl hout
    rw [Nat.add_comm]
    exact hbeat.trans ih

/-- PACK's loop after n bytes and the bits p (R252). -/
def packLoop (n : Nat) (p : BitString) (s : State) : State :=
  moveTo (.packRead n p.length) (putBits p s)

theorem Waiting.packLoop {s : State} (h : Waiting s) (n : Nat) (p : BitString) : Waiting (packLoop n p s) :=
  ⟨h.runs, h.item, rfl⟩

theorem packItem_of_code {n nb p : Nat} {b : Byte} {s : State} (hn : n ≠ s.params.passLimit)
    (h : symGet s.len b ≠ 0) : packItem n nb (.byte b) p s = atBit b 0 n nb s :=
  (if_neg hn).trans (if_neg h)

theorem tableCode_length (s : State) (b : Byte) : (tableCode s b).length = symGet s.len b := by
  rw [tableCode, List.length_map, List.length_range]

/-- One byte of the pass takes two turns to read, a beat for each bit, and one to go on (R252). -/
theorem byte_beats {b : Byte} {n : Nat} {p : BitString} {q : List Item} {s : State} (hw : Waiting s)
    (hq : s.inQ = .byte b :: q) (hn : n ≠ s.params.passLimit) (hb : symGet s.len b ≠ 0) :
    BeatsTo (symGet s.len b + 3) (packLoop n p s)
      (packLoop (n + 1) (p ++ tableCode s b) (consumeItem (.byte b) q s)) := by
  have hread : SilentTurns 2 (packLoop n p s)
      (atBit b 0 n p.length (putBits p (consumeItem (.byte b) q s))) :=
    (SilentTurns.refl rfl).read (hw.packLoop n p) (reads_packRead n p.length _) hq (packItem_of_code hn hb) rfl
  have hcode := code_beats (b := b) (n := n) (nb := p.length) (p := p) (s := consumeItem (.byte b) q s)
    hw.runs (le_refl (symGet s.len b))
  have hend : beat (atBit b (symGet s.len b) n p.length
        (putBits (p ++ tableCode s b) (consumeItem (.byte b) q s))) =
      packLoop (n + 1) (p ++ tableCode s b) (consumeItem (.byte b) q s) := by
    refine beat_of_silent ((coreTurn_of_atBit (s := putBits _ (consumeItem (.byte b) q s)) hw.runs).trans ?_) rfl
    rw [packLoop, List.length_append, tableCode_length]
    exact if_neg (Nat.lt_irrefl _)
  have hall := hread.beatsTo.trans (hcode.next hend)
  rwa [show 2 + (symGet s.len b + 1) = symGet s.len b + 3 by omega] at hall

theorem consumeBytes_nil {q : List Item} {s : State} (hq : s.inQ = q) : consumeBytes [] q s = s := by
  subst hq
  exact congrArg (fun c => { s with inCount := c }) (BitVec.add_zero s.inCount)

theorem consumeBytes_cons (b : Byte) (bs : List Byte) (q q' : List Item) (s : State) :
    consumeBytes bs q (consumeItem (.byte b) q' s) = consumeBytes (b :: bs) q s := by
  simp only [consumeBytes, consumeItem, countIn, List.length_cons, BitVec.ofNat_add, BitVec.add_assoc,
    Nat.add_assoc, Nat.add_comm 1, BitVec.add_comm 1]
  rfl

/-- The bytes of a pass that fits and has codes are packed one after the other (R252). -/
theorem pass_beats {pass : List Byte} {n : Nat} {p : BitString} {q : List Item} {s : State}
    (hw : Waiting s) (hq : s.inQ = bytesIn pass ++ q) (hfit : n + pass.length ≤ s.params.passLimit)
    (hcoded : ∀ b ∈ pass, symGet s.len b ≠ 0) :
    BeatsTo ((codeBits (tableCode s) pass).length + 3 * pass.length) (packLoop n p s)
      (packLoop (n + pass.length) (p ++ codeBits (tableCode s) pass) (consumeBytes pass q s)) := by
  induction pass generalizing n p s with
  | nil =>
    rw [consumeBytes_nil (q := q) hq, codeBits, List.flatMap_nil, List.append_nil]
    rfl
  | cons b pass ih =>
    rw [List.length_cons] at hfit
    have hfirst := byte_beats (p := p) hw hq (n := n) (by omega) (hcoded b List.mem_cons_self)
    have hnext := ih (n := n + 1) (p := p ++ tableCode s b)
      (hw.consumeItem (.byte b) (bytesIn pass ++ q)) rfl
      (by show n + 1 + pass.length ≤ s.params.passLimit; omega)
      fun c hc => hcoded c (List.mem_cons_of_mem b hc)
    have hcode : tableCode (consumeItem (.byte b) (bytesIn pass ++ q) s) = tableCode s := rfl
    have hbits : codeBits (tableCode s) (b :: pass) = tableCode s b ++ codeBits (tableCode s) pass :=
      List.flatMap_cons
    have hall := hfirst.trans hnext
    rw [consumeBytes_cons, hcode, List.append_assoc, ← hbits] at hall
    rw [List.length_cons, Nat.add_comm pass.length, ← Nat.add_assoc]
    convert hall using 1
    rw [hbits, List.length_append, tableCode_length]
    omega

/-! ## The whole rule -/

/-- The state after the given pass and its EOS were read, with q behind them (R13, R82). -/
def consumePass (pass : List Byte) (q : List Item) (s : State) : State :=
  consumeItem .eos q (consumeBytes pass (.eos :: q) s)

/-- PACK of the bits p before its `finish`, with all of its bytes taken (R251, R252). -/
def packedPass (p : BitString) (s : State) : State := moveTo .packFlush (emptyChannel (handOver (payload p) s))

/-- `Flush()` offers the byte that the bits have begun, and PACK is done (R251, R252). -/
theorem flush_beat {p : BitString} {s : State} (hruns : s.opstate ≠ .idle) :
    beat (moveTo .packFlush (putBits p s)) = finish (packedPass p s) := by
  have hturn : coreTurn (moveTo .packFlush (putBits p s)) = packFlush (moveTo .packFlush (putBits p s)) :=
    coreTurn_of_place (s := moveTo .packFlush (putBits p s)) (turn := packFlush) hruns fun _ => rfl
  have hnacc : (putBits p s).nacc = 0 ↔ p.length % 8 = 0 := nacc_putBits_eq_iff p s 0
  by_cases hwhole : p.length % 8 = 0
  · have hpayload : payload p = wholeBytes p := by rw [payload_eq, if_pos hwhole, List.append_nil]
    rw [packedPass, hpayload]
    exact beat_of_silent (hturn.trans (if_pos (hnacc.2 hwhole))) (finish_out _)
  · have hpayload : payload p = wholeBytes p ++ [byteOf p (p.length / 8)] := by
      rw [payload_eq, if_neg hwhole]
    rw [packedPass, hpayload, ← handOver_append]
    exact beat_of_offer (hturn.trans (if_neg fun h => hwhole (hnacc.1 h))) rfl
      fun o r c t => (blind_flushed o r c t).same

theorem packStart_of_codes {s : State} (hc : s.codesValid = true) (hout : s.out = []) :
    packStart s = packLoop 0 [] s := by
  rw [packLoop, putBits_nil hout, packStart, if_neg (by rw [hc]; decide)]
  rfl

/-- PACK up to its `finish`, alone or in COMPRESS, takes three beats for each byte and one for each bit of its code, and
four for the first line, EOS and `Flush` (R252). -/
theorem pack_beats {op : Op} {ph : Nat} {s : State} {pass : List Byte} {q : List Item} (hw : Waiting s)
    (hop : s.opstate = .run op ph) (hprim : currentPrim op ph = .pack) (hpt : s.point = .atStart)
    (hc : s.codesValid = true) (hq : s.inQ = streamOf pass ++ q) (hfit : pass.length ≤ s.params.passLimit)
    (hcoded : ∀ b ∈ pass, symGet s.len b ≠ 0) (hbits : (codeBits (tableCode s) pass).length = s.pbits) :
    BeatsTo (s.pbits + 3 * pass.length + 4) s
      (finish (packedPass (codeBits (tableCode s) pass) (consumePass pass q s))) := by
  have hstart : beat s = packLoop 0 [] s := by
    refine beat_of_silent ?_ rfl
    rw [coreTurn_of_run hop, hprim, hpt]
    exact packStart_of_codes hc hw.out
  have hq' : s.inQ = bytesIn pass ++ .eos :: q := by simpa [streamOf] using hq
  have hpass := pass_beats (n := 0) (p := []) hw hq' (by omega) hcoded
  rw [Nat.zero_add, List.nil_append] at hpass
  have hread : Waiting (consumeBytes pass (.eos :: q) s) := ⟨hw.runs, hw.item, hw.out⟩
  have heos : SilentTurns 2 (packLoop pass.length (codeBits (tableCode s) pass) (consumeBytes pass (.eos :: q) s))
      (moveTo .packFlush (putBits (codeBits (tableCode s) pass) (consumePass pass q s))) :=
    (SilentTurns.refl rfl).read (hread.packLoop pass.length _) (reads_packRead pass.length _ .eos) rfl
      (if_pos hbits) rfl
  have hloop := BeatsTo.trans (m := 1) hstart (hpass.trans heos.beatsTo)
  have hall := hloop.next (flush_beat hw.runs)
  rwa [hbits, show 1 + (s.pbits + 3 * pass.length + 2) + 1 = s.pbits + 3 * pass.length + 4 by omega] at hall

/-- The counts of a command start at 0 (R310). -/
theorem consumePass_accept (pass : List Byte) (q : List Item) (op : Op) (s : State) :
    consumePass pass q (accept op s) =
      { accept op s with
        inQ := q, pos := pass.length + 1, inCount := BitVec.ofNat 32 pass.length } := by
  simp [consumePass, consumeItem, consumeBytes, countIn, accept, acceptWord]

/-- Settles O40: each byte of the pass takes three beats and one for each bit of its code (`pass_beats`), and the first
line, EOS, `Flush` and the end of the rule take five. -/
theorem packOffersThePayload : Obligations.PackOffersThePayload := by
  intro s pass more n rest hw hidle herr hc hq hfit hcoded hbits hs hrest hn
  have hwait := waiting_accept hw hidle (.prim .pack)
  have hrun := pack_beats hwait rfl rfl rfl hc hq hfit hcoded hbits
  have hend := hrun.next (beat_of_silent (coreTurn_of_finishing OpState.noConfusion rfl rfl) rfl)
  have hall := runCommand_of_beatsTo hidle herr hs hrest hn hend rfl rfl
  refine ⟨payload (codeBits (tableCode s) pass), packsTo_payload _, congrArg Host.Outcome.next (hall.trans ?_)⟩
  have hcount : (0 : Word) + BitVec.ofNat 32 (payload (codeBits (tableCode s) pass)).length =
      BitVec.ofNat 32 (payload (codeBits (tableCode s) pass)).length := BitVec.zero_add _
  have hsettle : { settle s with out := [] } = s := by rw [settle_of_idle hw hidle, ← hwait.out]; rfl
  rw [consumePass_accept]
  conv_rhs => rw [← hcount, ← hsettle]
  rfl

end Sys2Proof.Machine
end

section
/-! Proofs of the bit packer family (44_bit_packer.md): a pass has one Huffman tree, whatever the arena held before
(R255; 41_tree_builder.md R176). -/

namespace Sys2Proof.Machine

/-! ## The merges are determined -/

/-- l and r have the two least keys among the nodes below k that no node below k has joined (R175). -/
structure LeastTwo (node : Vector Node 511) (k l r : Nat) : Prop where
  left_lt : l < k
  right_lt : r < k
  ordered : keyLt node l r = true
  left_free : Unjoined node k l
  right_free : Unjoined node k r
  least : ∀ i < k, i ≠ l → i ≠ r → Unjoined node k i → keyLt node r i = true

section
variable {node node' : Vector Node 511} {k l r l' r' : Nat}

theorem JoinsLeastTwo.leastTwo (h : JoinsLeastTwo node k l r) : LeastTwo node k l r :=
  ⟨h.left_lt, h.right_lt, h.ordered, h.left_free, h.right_free, h.least⟩

theorem LeastTwo.congr (h : LeastTwo node k l r) (same : ∀ j < k, nodeGet node' j = nodeGet node j) :
    LeastTwo node' k l r := by
  obtain ⟨hl, hr, hlr, hfl, hfr, hleast⟩ := h
  have hfree := unjoined_congr same
  refine ⟨hl, hr, ?_, (hfree l).2 hfl, (hfree r).2 hfr, fun i hi hil hir hfi => ?_⟩
  · rw [keyLt_congr (same l hl) (same r hr), hlr]
  · rw [keyLt_congr (same r hr) (same i hi), hleast i hi hil hir ((hfree i).1 hfi)]

theorem keyLt_irrefl (node : Vector Node 511) (i : Nat) : keyLt node i i ≠ true := fun h =>
  Bool.false_ne_true ((keyLt_asymm node i i h).symm.trans h)

theorem not_keyLt_both (node : Vector Node 511) (i j : Nat) (h : keyLt node i j = true) :
    keyLt node j i ≠ true := by
  rw [keyLt_asymm node i j h]
  exact Bool.false_ne_true

/-- Every other node that is not joined has a greater key than the first of the two. -/
theorem LeastTwo.keyLt_left (h : LeastTwo node k l r) {i : Nat} (hi : i < k) (hfree : Unjoined node k i)
    (hne : i ≠ l) : keyLt node l i = true := by
  by_cases hir : i = r
  · rw [hir]; exact h.ordered
  · exact keyLt_trans node l r i h.ordered (h.least i hi hne hir hfree)

/-- There is one least pair. -/
theorem LeastTwo.unique (h : LeastTwo node k l r) (h' : LeastTwo node k l' r') : l = l' ∧ r = r' := by
  have hl : l = l' := by
    by_contra hne
    have hlt := h.keyLt_left h'.left_lt h'.left_free (Ne.symm hne)
    exact not_keyLt_both node l l' hlt (h'.keyLt_left h.left_lt h.left_free hne)
  subst hl
  refine ⟨rfl, ?_⟩
  by_contra hne
  have hrl : r ≠ l := fun e => keyLt_irrefl node l (e ▸ h.ordered)
  have hrl' : r' ≠ l := fun e => keyLt_irrefl node l (e ▸ h'.ordered)
  have hlt := h.least r' h'.right_lt hrl' (Ne.symm hne) h'.right_free
  exact not_keyLt_both node r r' hlt (h'.least r h.right_lt hrl hne h.right_free)

end

/-- The nodes that BUILD writes are determined by the counts (R175, R176). -/
theorem BuiltBelow.unique {freq : Vector Nat 256} {old old' node node' : Vector Node 511} {k : Nat}
    (h : BuiltBelow freq old node k) (h' : BuiltBelow freq old' node' k) :
    ∀ i < k, nodeGet node' i = nodeGet node i := by
  intro i
  induction i using Nat.strong_induction_on with
  | _ i ih =>
    intro hi
    have same : ∀ j < i, nodeGet node' j = nodeGet node j := fun j hj => ih j hj (hj.trans hi)
    by_cases hn : (countedSymbols freq).length ≤ i
    · obtain ⟨l, r, hjoin⟩ := h.joins i hn hi
      obtain ⟨l', r', hjoin'⟩ := h'.joins i hn hi
      obtain ⟨rfl, rfl⟩ := (hjoin.leastTwo.congr same).unique hjoin'.leastTwo
      rw [hjoin.entry, hjoin'.entry, same l hjoin.left_lt, same r hjoin.right_lt]
    · have hleaf := List.getElem?_eq_getElem (Nat.lt_of_not_le hn)
      rw [h.leaves i _ hleaf, h'.leaves i _ hleaf]

/-- One tree stands at an arena index. -/
theorem represents_unique {node : Vector Node 511} {i : Nat} {t t' : HuffTree} (h : Represents node i t)
    (h' : Represents node i t') : t = t' := by
  induction t generalizing i t' with
  | leaf b =>
    obtain ⟨w, hi⟩ := h
    cases t' with
    | leaf c =>
      obtain ⟨w', hi'⟩ := h'
      obtain ⟨rfl, _⟩ := Node.leaf.inj (hi.symm.trans hi')
      rfl
    | node l r =>
      obtain ⟨w', a, b, hi', _⟩ := h'
      exact Node.noConfusion (hi.symm.trans hi')
  | node l r ihl ihr =>
    obtain ⟨w, a, b, hi, hl, hr⟩ := h
    cases t' with
    | leaf c =>
      obtain ⟨w', hi'⟩ := h'
      exact Node.noConfusion (hi.symm.trans hi')
    | node l' r' =>
      obtain ⟨w', a', b', hi', hl', hr'⟩ := h'
      obtain ⟨_, rfl, rfl⟩ := Node.internal.inj (hi.symm.trans hi')
      rw [ihl hl hl', ihr hr hr']

/-- The symbols of a tree that BUILD made are counted ones (R175). -/
theorem BuiltBelow.counted {freq : Vector Nat 256} {old node : Vector Node 511} {k i : Nat} {t : HuffTree}
    (h : BuiltBelow freq old node k) (ht : RepresentsBelow k node i t) :
    ∀ b ∈ t.symbols, b ∈ countedSymbols freq := by
  induction t generalizing i with
  | leaf c =>
    obtain ⟨hi, w, hleaf⟩ := ht
    intro b hb
    rw [List.mem_singleton.1 hb]
    by_cases hn : (countedSymbols freq).length ≤ i
    · obtain ⟨l, r, hjoin⟩ := h.joins i hn hi
      exact Node.noConfusion (hleaf.symm.trans hjoin.entry)
    · have hget := List.getElem?_eq_getElem (Nat.lt_of_not_le hn)
      obtain ⟨rfl, _⟩ := Node.leaf.inj (hleaf.symm.trans (h.leaves i _ hget))
      exact List.getElem_mem _
  | node l r ihl ihr =>
    obtain ⟨_, w, a, c, _, hl, hr⟩ := ht
    intro b hb
    exact (List.mem_append.1 hb).elim (ihl hl b) (ihr hr b)

/-! ## The tree of the counts -/

/-- BUILD of the counts makes the tree tr, in some arena (R175). -/
structure HuffmanTreeOf (freq : Vector Nat 256) (tr : HuffTree) : Prop where
  arena : ∃ old node, BuiltBelow freq old node (2 * tr.leaves - 1) ∧
    RepresentsBelow (2 * tr.leaves - 1) node (2 * tr.leaves - 2) tr
  distinct : tr.distinct
  leaves : tr.leaves = (countedSymbols freq).length

/-- The counts have one tree. -/
theorem HuffmanTreeOf.unique {freq : Vector Nat 256} {tr tr' : HuffTree} (h : HuffmanTreeOf freq tr)
    (h' : HuffmanTreeOf freq tr') : tr = tr' := by
  obtain ⟨⟨old, node, hbuilt, htree⟩, _, hleaves⟩ := h
  obtain ⟨⟨old', node', hbuilt', htree'⟩, _, hleaves'⟩ := h'
  rw [hleaves', ← hleaves] at hbuilt' htree'
  have hsame := below_congr le_rfl (hbuilt.unique hbuilt') htree
  exact represents_unique (represents_of_below hsame) (represents_of_below htree')

/-- The tree has a leaf for each counted symbol and no other one (R175). -/
theorem HuffmanTreeOf.mem_symbols {freq : Vector Nat 256} {tr : HuffTree} (h : HuffmanTreeOf freq tr)
    (b : Byte) : b ∈ tr.symbols ↔ b ∈ countedSymbols freq := by
  obtain ⟨⟨old, node, hbuilt, htree⟩, hd, hleaves⟩ := h
  have hsub := List.subperm_of_subset hd (hbuilt.counted htree)
  exact (hsub.perm_of_length_le (by rw [symbols_length, hleaves])).mem_iff

/-! ## The counts of a pass -/

/-- The frequency table of a pass (R150). -/
def countTable (pass : List Byte) : Vector Nat 256 := pass.foldl bump (Vector.replicate 256 0)

theorem symGet_countTable (pass : List Byte) (b : Byte) : symGet (countTable pass) b = pass.count b := by
  rw [countTable, symGet_foldl_bump, symGet_replicate, Nat.zero_add]

theorem mem_countedSymbols (pass : List Byte) (b : Byte) :
    b ∈ countedSymbols (countTable pass) ↔ b ∈ pass := by
  rw [countedSymbols, List.mem_filter, decide_eq_true_iff, symGet_countTable, List.count_pos_iff]
  exact and_iff_right (mem_allSymbols b)

theorem countedSymbols_eq_nil (pass : List Byte) : countedSymbols (countTable pass) = [] ↔ pass = [] := by
  simp only [List.eq_nil_iff_forall_not_mem, mem_countedSymbols]

/-- PBITS of the counts of a pass adds up the code lengths of its bytes (R203). -/
theorem payloadBits_countTable (pass : List Byte) (len : Vector Nat 256) :
    payloadBits (countTable pass) len = (pass.map (symGet len)).sum := by
  rw [Finset.sum_list_map_count, payloadBits, ← List.sum_toFinset _ allSymbols_nodup]
  refine (Finset.sum_subset (fun b _ => List.mem_toFinset.2 (mem_allSymbols b)) fun b _ hb => ?_).symm.trans
    (Finset.sum_congr rfl fun b _ => ?_)
  · rw [symGet_countTable, List.count_eq_zero.2 (fun h => hb (List.mem_toFinset.2 h)), Nat.zero_mul]
  · rw [symGet_countTable, smul_eq_mul]

/-! ## The codes of the tree -/

theorem paths_length_le {tr : HuffTree} {p q : BitString} {b : Byte} (h : (b, q) ∈ tr.paths p) :
    q.length ≤ p.length + tr.depth := by
  induction tr generalizing p with
  | leaf c => cases List.mem_singleton.1 h; exact Nat.le_add_right _ _
  | node l r ihl ihr =>
    rw [HuffTree.depth]
    rcases List.mem_append.1 h with hl | hr
    · have hlen := ihl hl
      rw [List.length_append, List.length_singleton] at hlen
      omega
    · have hlen := ihr hr
      rw [List.length_append, List.length_singleton] at hlen
      omega

/-- No code is longer than 255 bits (R205). -/
theorem codes_length_le {tr : HuffTree} {p : BitString} {b : Byte} (hd : tr.distinct) (h : (b, p) ∈ tr.codes) :
    p.length ≤ 255 := by
  cases tr with
  | leaf c => cases List.mem_singleton.1 h; decide
  | node l r =>
    have hlen := paths_length_le (tr := .node l r) (p := []) h
    exact hlen.trans ((Nat.zero_add _).trans_le (depth_le_of_distinct hd))

/-- The code of a symbol is the one that stands in the code table of the tree (R201). -/
theorem code_of_mem {tr : HuffTree} {b : Byte} {p : BitString} (hd : tr.distinct) (h : (b, p) ∈ tr.codes) :
    tr.code b = p := by
  have hnodup : (tr.codes.map (·.1)).Nodup := codes_symbols tr ▸ hd
  obtain ⟨c, hc⟩ := Option.isSome_iff_exists.1
    (List.find?_isSome (p := fun c => c.1 == b) |>.2 ⟨(b, p), h, beq_self_eq_true b⟩)
  have hkey : c.1 = b := by simpa using List.find?_some hc
  have hsame := List.inj_on_of_nodup_map hnodup (List.mem_of_find?_eq_some hc) h hkey
  rw [HuffTree.code, hc, hsame]
  rfl

/-! ## The tree of a pass -/

/-- The tree of a pass: none for the empty one (R117, R175). -/
def TreeOfPass (pass : List Byte) : Option HuffTree → Prop
  | none => pass = []
  | some tr => HuffmanTreeOf (countTable pass) tr

/-- A pass has one tree. -/
theorem TreeOfPass.unique {pass : List Byte} {ot ot' : Option HuffTree} (h : TreeOfPass pass ot)
    (h' : TreeOfPass pass ot') : ot = ot' := by
  have hnone {tr : HuffTree} (htr : HuffmanTreeOf (countTable pass) tr) : pass ≠ [] := fun e => by
    have hpos := leaves_pos tr
    rw [htr.leaves, (countedSymbols_eq_nil pass).2 e, List.length_nil] at hpos
    exact absurd hpos nofun
  cases ot with
  | none => cases ot' with
    | none => rfl
    | some tr' => exact absurd h (hnone h')
  | some tr => cases ot' with
    | none => exact absurd h' (hnone h)
    | some tr' => rw [HuffmanTreeOf.unique h h']

/-- The codes of the tree of a pass (R201). -/
def codesOf : Option HuffTree → List (Byte × BitString)
  | none => []
  | some tr => tr.codes

/-- The code of a symbol in the tree of a pass (R201). -/
def codeOf : Option HuffTree → Byte → BitString
  | none => fun _ => []
  | some tr => tr.code

/-- The header of the tree of a pass; that of the empty pass has no byte (R113, R117). -/
def headerOf : Option HuffTree → BitVec 3 → List Byte
  | none => fun _ => []
  | some tr => headerBytes tr

/-- The machine's current tree is that of a pass (R64). -/
def holdsTreeOf (s : State) : Option HuffTree → Prop
  | none => s.treeKind = .emptyTree
  | some tr => holdsTree s tr

theorem TreeOfPass.exists_code {pass : List Byte} {ot : Option HuffTree} (h : TreeOfPass pass ot) {b : Byte}
    (hb : b ∈ pass) : ∃ p, (b, p) ∈ codesOf ot := by
  cases ot with
  | none => rw [show pass = [] from h] at hb; exact absurd hb List.not_mem_nil
  | some tr => exact exists_code_of_mem_symbols ((h.mem_symbols b).2 ((mem_countedSymbols pass b).2 hb))

theorem TreeOfPass.code_eq {pass : List Byte} {ot : Option HuffTree} (h : TreeOfPass pass ot) {b : Byte}
    {p : BitString} (hp : (b, p) ∈ codesOf ot) : codeOf ot b = p := by
  cases ot with
  | none => exact absurd hp List.not_mem_nil
  | some tr => exact code_of_mem h.distinct hp

/-- The codes of a pass have at most 255 bits for each byte (R205). -/
theorem TreeOfPass.codeBits_length_le {pass : List Byte} {ot : Option HuffTree} (h : TreeOfPass pass ot) :
    (codeBits (codeOf ot) pass).length ≤ 255 * pass.length := by
  have hcode : ∀ b ∈ pass, (codeOf ot b).length ≤ 255 := fun b hb => by
    obtain ⟨p, hp⟩ := h.exists_code hb
    rw [h.code_eq hp]
    cases ot with
    | none => exact absurd hp List.not_mem_nil
    | some tr => exact codes_length_le h.distinct hp
  rw [codeBits, List.length_flatMap, Nat.mul_comm, ← smul_eq_mul, ← List.length_map (as := pass)]
  exact List.sum_le_card_nsmul _ _ fun n hn => by
    obtain ⟨b, hb, rfl⟩ := List.mem_map.1 hn
    exact hcode b hb

end Sys2Proof.Machine
end

section
/-! Proofs of the bit packer family (44_bit_packer.md): the five primitives of COMPRESS, each as a phase that runs alone
or in COMPRESS (R254; 46_control.md R311). -/

namespace Sys2Proof.Machine

/-! ## Phases -/

/-- Command op begins its phase ph, with no item in hand, no byte untaken and no work left over (R310, R311). -/
structure PhaseStart (op : Op) (ph : Nat) (s : State) : Prop where
  runs : s.opstate = .run op ph
  place : s.point = .atStart
  waits : Waiting s
  stowed : Stowed s

/-- Within m beats command op comes from s to the end of its phase ph, in the state y. On the way it has counted k
bytes of input, of which q is left, and its sink has taken the bytes bs. -/
structure Phase (op : Op) (ph m k : Nat) (q : List Item) (bs : List Byte) (s y : State) : Prop where
  run : ∃ j ≤ m, BeatsTo j s (finish y)
  runs : y.opstate = .run op ph
  waits : Waiting y
  stowed : Stowed y
  host : (y.params, y.err, y.cmdOp) = (s.params, s.err, s.cmdOp)
  input : (y.inQ, y.inCount) = (q, s.inCount + BitVec.ofNat 32 k)
  output : (y.outRec, y.outCount) = (s.outRec ++ bs, s.outCount + BitVec.ofNat 32 bs.length)

/-- The next phase of a composite begins (R311). -/
def nextPhase (op : Op) (ph : Nat) (s : State) : State :=
  { s with opstate := .run op ph, pos := 0, point := .atStart }

theorem finish_of_run {op : Op} {ph : Nat} {s : State} (hop : s.opstate = .run op ph)
    (hph : ph < lastPhase op) : finish s = nextPhase op (ph + 1) s := by
  rw [finish, hop]
  exact if_pos hph

theorem finish_of_last {op : Op} {s : State} (hop : s.opstate = .run op (lastPhase op)) :
    finish s = moveTo .finishing s := by
  rcases finish_cases s with ⟨hidle, _⟩ | ⟨op', ph, hop', hlt, _⟩ | ⟨_, _, _, _, e⟩
  · rw [hop] at hidle; exact OpState.noConfusion hidle
  · obtain ⟨rfl, rfl⟩ := OpState.run.inj (hop.symm.trans hop')
    exact absurd hlt (Nat.lt_irrefl _)
  · exact e

/-- A rule ends in the same way wherever it stands (R311). -/
theorem finish_moveTo {pt : Point} {s : State} (hruns : s.opstate ≠ .idle) :
    finish (moveTo pt s) = finish s := by
  cases hop : s.opstate with
  | idle => exact absurd hop hruns
  | run op ph =>
    have hop' : (moveTo pt s).opstate = .run op ph := hop
    rw [finish, finish, hop, hop']
    rfl

section
variable {op : Op} {ph m k : Nat} {q : List Item} {bs : List Byte} {s y : State}

theorem PhaseStart.primTurn (h : PhaseStart op ph s) {p : Prim} (hp : currentPrim op ph = p) :
    coreTurn s = startTurn p s := by
  rw [coreTurn_of_run h.runs, hp, h.place]
  rfl

theorem phaseStart_accept (hw : WorkClean s) (hidle : s.opstate = .idle) (op : Op) :
    PhaseStart op 0 (accept op s) where
  runs := rfl
  place := rfl
  waits := waiting_accept hw hidle op
  stowed := by
    obtain ⟨hpt, _⟩ := hw.idle hidle
    exact ⟨OpState.noConfusion, hw.pq (by rw [hpt]; exact Point.noConfusion), hw.stack_of_idle hidle⟩

theorem Phase.next (h : Phase op ph m k q bs s y) : PhaseStart op (ph + 1) (nextPhase op (ph + 1) y) :=
  ⟨rfl, rfl, ⟨OpState.noConfusion, h.waits.item, h.waits.out⟩,
    ⟨OpState.noConfusion, h.stowed.pq, h.stowed.stack⟩⟩

/-- Two phases, one after the other (R311). -/
theorem Phase.trans {ph' m' k' : Nat} {q' : List Item} {bs' : List Byte} {z : State}
    (h : Phase op ph m k q bs s y) (hph : ph < lastPhase op)
    (h' : Phase op ph' m' k' q' bs' (nextPhase op (ph + 1) y) z) :
    Phase op ph' (m + m') (k + k') q' (bs ++ bs') s z := by
  obtain ⟨⟨j, hj, hbeats⟩, hruns, _, _, hhost, hin, hout⟩ := h
  obtain ⟨⟨j', hj', hbeats'⟩, hruns', hwaits', hstowed', hhost', hin', hout'⟩ := h'
  rw [finish_of_run hruns hph] at hbeats
  simp only [Prod.mk.injEq, nextPhase] at hin hout hin' hout'
  refine ⟨⟨j + j', Nat.add_le_add hj hj', hbeats.trans hbeats'⟩, hruns', hwaits', hstowed', hhost'.trans hhost,
    ?_, ?_⟩
  · rw [hin'.1, hin'.2, hin.2, BitVec.ofNat_add, BitVec.add_assoc]
  · rw [hout'.1, hout'.2, hout.1, hout.2, List.append_assoc, List.length_append, BitVec.ofNat_add,
      BitVec.add_assoc]

/-- What a phase keeps that has no `InRead` and no `OutWrite`. -/
def phaseFrame (s : State) :=
  ((s.opstate, s.item, s.out), (s.params, s.err, s.cmdOp), (s.inQ, s.inCount), (s.outRec, s.outCount))

theorem Phase.of_frame (h : PhaseStart op ph s) (hq : s.inQ = q) {j : Nat}
    (hrun : SilentTurns j s (finish y)) (hj : j ≤ m) (hframe : phaseFrame y = phaseFrame s)
    (hpq : y.pq = []) (hstack : y.stack = []) : Phase op ph m 0 q [] s y := by
  simp only [phaseFrame, Prod.mk.injEq] at hframe
  obtain ⟨⟨hop, hitem, hout⟩, ⟨hparams, herr, hcmd⟩, ⟨hsame, hin⟩, hrec, hcount⟩ := hframe
  have hruns : y.opstate ≠ .idle := hop ▸ h.stowed.runs
  refine ⟨⟨j, hj, hrun.beatsTo⟩, hop.trans h.runs, ⟨hruns, hitem.trans h.waits.item, hout.trans h.waits.out⟩,
    ⟨hruns, hpq, hstack⟩, by rw [hparams, herr, hcmd], ?_, ?_⟩
  · rw [hsame, hin, hq]
    exact congrArg _ (BitVec.add_zero _).symm
  · rw [hrec, hcount, List.append_nil]
    exact congrArg _ (BitVec.add_zero _).symm

theorem Phase.queue (h : Phase op ph m k q bs s y) : y.inQ = q := congrArg Prod.fst h.input

theorem Phase.taken (h : Phase op ph m k q bs s y) : y.outRec = s.outRec ++ bs := congrArg Prod.fst h.output

theorem Phase.params (h : Phase op ph m k q bs s y) : y.params = s.params := congrArg Prod.fst h.host

theorem Phase.err (h : Phase op ph m k q bs s y) : y.err = s.err := congrArg (·.2.1) h.host

theorem Phase.cmdOp (h : Phase op ph m k q bs s y) : y.cmdOp = s.cmdOp := congrArg (·.2.2) h.host

/-- The state after a command that ended in the state y (R311). -/
def ended (rest : List Event) (y : State) : State := { complete y with script := rest }

/-- A command is over with its last phase (R311). -/
theorem runCommand_of_phase (hidle : s.opstate = .idle) (herr : s.err = false) {n : Nat} {rest : List Event}
    (hs : s.script = beats n ++ rest) (hrest : hostNext rest = true) (hm : m + 1 ≤ n)
    (h : Phase op (lastPhase op) m k q bs (accept op s) y) : runCommand op s = ended rest y := by
  obtain ⟨j, hj, hbeats⟩ := h.run
  rw [finish_of_last h.runs] at hbeats
  have hend := hbeats.next (beat_of_silent
    (coreTurn_of_finishing (s := moveTo .finishing y) h.waits.runs rfl h.waits.out) h.waits.out)
  exact runCommand_of_beatsTo hidle herr hs hrest (by omega) hend rfl h.waits.out

end

/-! ## SCAN -/

/-- A pass has been counted, and there is no tree (R150). -/
structure Counted (pass : List Byte) (s : State) : Prop where
  freq : s.freq = countTable pass
  total : s.scanTotal = pass.length
  header : s.hdrParsed = false
  tree : treeAgrees s

/-- SCAN of a pass before its `finish`, with q behind it (R150). -/
def scannedPass (pass : List Byte) (q : List Item) (s : State) : State :=
  consumeItem .eos q (countPass pass (.eos :: q) (scanStart s))

theorem counted_scannedPass (pass : List Byte) (q : List Item) (s : State) :
    Counted pass (scannedPass pass q s) :=
  ⟨rfl, Nat.zero_add _, rfl, treeAgrees_of_noTree ⟨rfl, rfl, rfl, rfl, rfl⟩ rfl rfl⟩

section
variable {op : Op} {ph : Nat} {s : State} {pass : List Byte}

/-- SCAN up to its `finish` takes two turns for each byte, one before and two for EOS (R150). -/
theorem PhaseStart.scan_turns (h : PhaseStart op ph s) (hp : currentPrim op ph = .scan) {q : List Item}
    (hq : s.inQ = streamOf pass ++ q) (hfit : pass.length ≤ s.params.passLimit) :
    SilentTurns (2 * pass.length + 3) s (finish (scannedPass pass q s)) := by
  obtain ⟨hruns, hitem, hout⟩ := h.waits
  have hstart := (SilentTurns.refl hout).next (h.primTurn hp) hout
  have hscan : Scanning (scanStart s) := ⟨hruns, rfl, hitem, hout⟩
  have hq' : (scanStart s).inQ = bytesIn pass ++ .eos :: q := by
    rw [← List.singleton_append, ← List.append_assoc]; exact hq
  have hpass := hscan.pass_turns hq' (by show 0 + pass.length ≤ s.params.passLimit; omega)
  have hall := hstart.trans (hpass.trans ((hscan.countPass pass (.eos :: q)).item_turns rfl))
  rwa [show 0 + 1 + (2 * pass.length + 2) = 2 * pass.length + 3 by omega] at hall

theorem PhaseStart.scan (h : PhaseStart op ph s) (hp : currentPrim op ph = .scan) {q : List Item}
    (hq : s.inQ = streamOf pass ++ q) (hfit : pass.length ≤ s.params.passLimit) :
    Phase op ph (2 * pass.length + 3) pass.length q [] s (scannedPass pass q s) where
  run := ⟨_, le_rfl, (h.scan_turns hp hq hfit).beatsTo⟩
  runs := h.runs
  waits := ⟨h.waits.runs, h.waits.item, h.waits.out⟩
  stowed := ⟨h.stowed.runs, h.stowed.pq, h.stowed.stack⟩
  host := rfl
  input := rfl
  output := by
    rw [List.append_nil]
    exact congrArg _ (BitVec.add_zero _).symm

/-! ## BUILD -/

/-- The current tree is that of a pass, which has been counted (R175). -/
structure Treed (pass : List Byte) (ot : Option HuffTree) (s : State) : Prop where
  freq : s.freq = countTable pass
  total : s.scanTotal = pass.length
  header : s.hdrParsed = false
  tree : TreeOfPass pass ot
  held : holdsTreeOf s ot

theorem workClean_treeState_turns {n : Nat} {s t : State} (h : SilentTurns n s t)
    (hs : WorkClean s ∧ TreeState s) : WorkClean t ∧ TreeState t := by
  induction h with
  | refl _ => exact hs
  | turn _ _ ih => exact ih (treeState_closed.core _ hs)

theorem treeAgrees_of_finish {y : State} (hop : y.opstate = .run op ph) (h : TreeState (finish y)) :
    treeAgrees y := by
  have hkept : treeAgrees (finish y) := by
    rcases finish_cases y with ⟨hidle, _⟩ | ⟨_, _, hop', _, e⟩ | ⟨_, _, hop', _, e⟩
    · rw [hop] at hidle; exact OpState.noConfusion hidle
    · rw [e] at h ⊢; exact h.running OpState.noConfusion
    · rw [e] at h ⊢; exact h.running (by rw [hop']; exact OpState.noConfusion)
  exact treeAt_congr (pt := .atStart) (Quiet.finish (.refl y)).view.symm hkept

/-- The tree that BUILD leaves is that of the pass that was counted (R175 to R177). -/
theorem treed_builtTree {node : Vector Node 511} (hc : Counted pass s) {n : Nat}
    (hn : n = (countedSymbols s.freq).length) (hbuilt : BuiltBelow s.freq s.node node (2 * n - 1))
    (hagrees : treeAgrees (builtTree n node s)) : ∃ ot, Treed pass ot (builtTree n node s) := by
  obtain ⟨hfreq, htotal, _, _⟩ := hc
  obtain ⟨_, hheld, _, _⟩ := hagrees
  rw [hfreq] at hn hbuilt
  rcases Nat.eq_zero_or_pos n with rfl | hpos
  · have hnil := (countedSymbols_eq_nil pass).1 (List.length_eq_zero_iff.1 hn.symm)
    exact ⟨none, hfreq, htotal, rfl, hnil, rfl⟩
  · have hkind : (builtTree n node s).treeKind = if n = 1 then .leaf else .multi := if_neg hpos.ne'
    have htree : (builtTree n node s).treeKind = .leaf ∨ (builtTree n node s).treeKind = .multi := by
      rw [hkind]
      split
      · exact .inl rfl
      · exact .inr rfl
    obtain ⟨tr, hholds, hbelow, hd, rfl⟩ := hheld htree
    exact ⟨some tr, hfreq, htotal, rfl, ⟨⟨s.node, node, hbuilt, hbelow⟩, hd, hn⟩, hholds⟩

theorem PhaseStart.build (h : PhaseStart op ph s) (hp : currentPrim op ph = .build) {q : List Item}
    (hq : s.inQ = q) (hc : Counted pass s) :
    ∃ y ot, Phase op ph 257 0 q [] s y ∧ Treed pass ot y := by
  obtain ⟨j, node, hj, hrun, hbuilt, _⟩ := build_turns h.runs hp h.place h.waits.out rfl
  have hstate : TreeState s := .of_rests (by rw [h.place]; rfl) hc.tree
  obtain ⟨_, hend⟩ := workClean_treeState_turns hrun ⟨h.stowed.workClean, hstate⟩
  obtain ⟨ot, htreed⟩ := treed_builtTree hc rfl hbuilt (treeAgrees_of_finish h.runs hend)
  exact ⟨_, ot, .of_frame h hq hrun hj rfl rfl h.stowed.stack, htreed⟩

/-! ## GENCODE -/

/-- The code table is that of the tree of a pass, and PBITS and ENC_PAD are those of its code bits (R200 to R203). -/
structure Coded (pass : List Byte) (ot : Option HuffTree) (s : State) : Prop where
  treed : Treed pass ot s
  valid : s.codesValid = true
  coded : ∀ b ∈ pass, symGet s.len b ≠ 0
  codes : codeBits (tableCode s) pass = codeBits (codeOf ot) pass
  pbits : s.pbits = (codeBits (codeOf ot) pass).length
  pad : s.encPad = padOfBits (codeBits (codeOf ot) pass).length

/-- GENCODE's first line and traversal, for the tree of a pass (R200 to R202). -/
theorem walk_turns {ot : Option HuffTree} (hruns : s.opstate ≠ .idle) (hout : s.out = [])
    (hstack : s.stack = []) (ht : Treed pass ot s) :
    ∃ j ≤ 511, SilentTurns j (genStart s) (withCodes (codesOf ot) [] (clearedTable s)) := by
  obtain ⟨_, _, _, htree, hheld⟩ := ht
  cases ot with
  | none => exact ⟨0, Nat.zero_le _, by rw [genStart_of_emptyTree hheld hstack]; exact .refl hout⟩
  | some tr =>
    obtain ⟨j, hj, hwalk⟩ := genStart_turns hruns hout hstack hheld
    have h256 := leaves_le_of_distinct tr htree.distinct
    exact ⟨j, by omega, hwalk⟩

/-- GENCODE writes the code of each symbol of the pass (R201). -/
theorem codedTable_of_mem {ot : Option HuffTree} (htree : TreeOfPass pass ot) {b : Byte} {p : BitString}
    (hp : (b, p) ∈ codesOf ot) : symGet (codedTable (codesOf ot) s).len b = p.length ∧
      symGet (codedTable (codesOf ot) s).bits b = p := by
  cases ot with
  | none => exact absurd hp List.not_mem_nil
  | some tr =>
    have hnodup : (tr.codes.map (·.1)).Nodup := codes_symbols tr ▸ htree.distinct
    exact ⟨symGet_lenTable_of_mem hnodup hp, symGet_writeEntries_of_mem _ hnodup hp⟩

theorem coded_codedTable {ot : Option HuffTree} (ht : Treed pass ot s) :
    Coded pass ot (codedTable (codesOf ot) s) := by
  obtain ⟨hfreq, htotal, hheader, htree, hheld⟩ := ht
  have hcode : ∀ b ∈ pass, symGet (codedTable (codesOf ot) s).len b ≠ 0 ∧
      tableCode (codedTable (codesOf ot) s) b = codeOf ot b := fun b hb => by
    obtain ⟨p, hp⟩ := htree.exists_code hb
    obtain ⟨hlen, hbits⟩ := codedTable_of_mem (s := s) htree hp
    rw [tableCode, hlen, hbits, map_bitAt_range, htree.code_eq hp]
    refine ⟨?_, rfl⟩
    cases ot with
    | none => exact absurd hp List.not_mem_nil
    | some tr => exact code_length_ne_zero hp
  have hcodes : codeBits (tableCode (codedTable (codesOf ot) s)) pass = codeBits (codeOf ot) pass :=
    List.flatMap_congr fun b hb => (hcode b hb).2
  have hpbits : payloadBits s.freq (lenTable (codesOf ot)) = (codeBits (codeOf ot) pass).length := by
    rw [hfreq, payloadBits_countTable, ← hcodes, codeBits, List.length_flatMap]
    exact congrArg List.sum (List.map_congr_left fun b _ => (tableCode_length (codedTable (codesOf ot) s) b).symm)
  exact ⟨⟨hfreq, htotal, hheader, htree, hheld⟩, rfl, fun b hb => (hcode b hb).1, hcodes, hpbits,
    congrArg padOfBits hpbits⟩

theorem PhaseStart.gencode (h : PhaseStart op ph s) (hp : currentPrim op ph = .gencode)
    {q : List Item} (hq : s.inQ = q) {ot : Option HuffTree} (ht : Treed pass ot s) :
    ∃ y, Phase op ph 513 0 q [] s y ∧ Coded pass ot y := by
  obtain ⟨j, hj, hwalk⟩ := walk_turns h.waits.runs h.waits.out h.stowed.stack ht
  have hrun := gencode_turns h.runs hp h.place h.waits.out hwalk
  exact ⟨_, .of_frame h hq hrun (by omega) rfl h.stowed.pq rfl, coded_codedTable ht⟩

/-! ## EMIT_HEADER -/

theorem emitted_nil (hout : s.out = []) (hstack : s.stack = []) : emitted [] [] s = s := by
  rw [emitted, handOver_nil hout, ← hstack]

theorem emit_beats {ot : Option HuffTree} (h : PhaseStart op ph s) (hp : currentPrim op ph = .emitHeader)
    (hc : Coded pass ot s) : ∃ j ≤ 771, BeatsTo j s (finish (emitted (headerOf ot s.encPad) [] s)) := by
  obtain ⟨_, _, _, htree, hheld⟩ := hc.treed
  cases ot with
  | none =>
    have hturn := (h.primTurn hp).trans (emitStart_of_emptyTree hc.valid hheld)
    refine ⟨1, by decide, ?_⟩
    rw [headerOf, emitted_nil h.waits.out h.stowed.stack]
    exact beat_of_silent hturn ((finish_out s).trans h.waits.out)
  | some tr =>
    have hbeats := emitHeader_beats h.runs hp h.place h.waits.out hc.valid hheld
    have h256 := leaves_le_of_distinct tr htree.distinct
    have hlen := bytes_length tr
    rw [emittedHeader, finish_moveTo (s := emitted _ [] s) h.waits.runs] at hbeats
    exact ⟨_, by omega, hbeats⟩

theorem PhaseStart.emitHeader {ot : Option HuffTree} (h : PhaseStart op ph s)
    (hp : currentPrim op ph = .emitHeader) {q : List Item} (hq : s.inQ = q) (hc : Coded pass ot s) :
    ∃ y, Phase op ph 771 0 q (headerOf ot (padOfBits (codeBits (codeOf ot) pass).length)) s y ∧
      Coded pass ot y := by
  have hbeats := emit_beats h hp hc
  obtain ⟨⟨hfreq, htotal, hheader, htree, hheld⟩, hvalid, hcoded, hcodes, hpbits, hpad⟩ := hc
  subst hq
  rw [hpad] at hbeats
  refine ⟨emitted (headerOf ot (padOfBits (codeBits (codeOf ot) pass).length)) [] s,
    ⟨hbeats, h.runs, ⟨h.waits.runs, h.waits.item, rfl⟩, ⟨h.stowed.runs, h.stowed.pq, rfl⟩, rfl, ?_, rfl⟩,
    ⟨hfreq, htotal, hheader, htree, hheld⟩, hvalid, hcoded, hcodes, hpbits, hpad⟩
  exact congrArg _ (BitVec.add_zero _).symm

/-! ## PACK -/

theorem PhaseStart.pack {ot : Option HuffTree} {q : List Item} (h : PhaseStart op ph s)
    (hp : currentPrim op ph = .pack) (hc : Coded pass ot s) (hq : s.inQ = streamOf pass ++ q)
    (hfit : pass.length ≤ s.params.passLimit) :
    ∃ y, Phase op ph (258 * pass.length + 4) pass.length q (payload (codeBits (codeOf ot) pass)) s y ∧
      Coded pass ot y := by
  obtain ⟨⟨hfreq, htotal, hheader, htree, hheld⟩, hvalid, hcoded, hcodes, hpbits, hpad⟩ := hc
  have hbeats := pack_beats h.waits h.runs hp h.place hvalid hq hfit hcoded (by rw [hcodes, hpbits])
  have hlen := htree.codeBits_length_le
  rw [hcodes] at hbeats
  exact ⟨packedPass (codeBits (codeOf ot) pass) (consumePass pass q s),
    ⟨⟨_, by omega, hbeats⟩, h.runs, ⟨h.waits.runs, h.waits.item, rfl⟩,
      ⟨h.stowed.runs, h.stowed.pq, h.stowed.stack⟩, rfl, rfl, rfl⟩,
    ⟨hfreq, htotal, hheader, htree, hheld⟩, hvalid, hcoded, hcodes, hpbits, hpad⟩

end

end Sys2Proof.Machine
end

section
/-! Proofs of the bit packer family (44_bit_packer.md): COMPRESS offers the container of a pass, and so do its five
primitives one after the other (R254, R255; 70_reset_and_hazards.md R384). -/

namespace Sys2Proof.Machine

/-- The container of a pass with the tree ot (R113, R116, R117). -/
def containerOf (ot : Option HuffTree) (pass : List Byte) : List Byte :=
  headerOf ot (padOfBits (codeBits (codeOf ot) pass).length) ++ payload (codeBits (codeOf ot) pass)

/-! ## What one rule leaves for the next -/

section
variable {y : State} {pass : List Byte} {ot : Option HuffTree}

theorem Counted.next (h : Counted pass y) (op : Op) (ph : Nat) : Counted pass (nextPhase op ph y) :=
  ⟨h.freq, h.total, h.header, h.tree⟩

theorem Treed.next (h : Treed pass ot y) (op : Op) (ph : Nat) : Treed pass ot (nextPhase op ph y) :=
  ⟨h.freq, h.total, h.header, h.tree, h.held⟩

theorem Coded.next (h : Coded pass ot y) (op : Op) (ph : Nat) : Coded pass ot (nextPhase op ph y) :=
  ⟨h.treed.next op ph, h.valid, h.coded, h.codes, h.pbits, h.pad⟩

/-- The acceptance of a command that is written with n beats after it, once the last one ended in y (R310). -/
def acceptAfter (op : Op) (n : Nat) (y : State) : State := accept op { ended [] y with script := beats n }

theorem Counted.accepted (h : Counted pass y) (op : Op) (n : Nat) : Counted pass (acceptAfter op n y) :=
  ⟨h.freq, h.total, h.header, h.tree⟩

theorem Treed.accepted (h : Treed pass ot y) (op : Op) (n : Nat) : Treed pass ot (acceptAfter op n y) :=
  ⟨h.freq, h.total, h.header, h.tree, h.held⟩

theorem Coded.accepted (h : Coded pass ot y) (op : Op) (n : Nat) : Coded pass ot (acceptAfter op n y) :=
  ⟨h.treed.accepted op n, h.valid, h.coded, h.codes, h.pbits, h.pad⟩

/-! ## COMPRESS -/

/-- COMPRESS of a pass that is given twice, up to its last `finish` (R254). -/
theorem compress_phase {s : State} {more : List Item} (hw : WorkClean s) (hidle : s.opstate = .idle)
    (hfit : pass.length ≤ s.params.passLimit) (hq : s.inQ = streamOf pass ++ streamOf pass ++ more) :
    ∃ ot y, Phase .compress 4 (260 * pass.length + 1548) (2 * pass.length) more (containerOf ot pass)
      (accept .compress s) y ∧ Coded pass ot y := by
  have hscan := (phaseStart_accept hw hidle .compress).scan rfl (hq.trans (List.append_assoc ..)) hfit
  obtain ⟨y1, ot, hbuild, htreed⟩ :=
    hscan.next.build rfl hscan.queue ((counted_scannedPass pass _ _).next .compress 1)
  obtain ⟨y2, hgen, hcoded⟩ := hbuild.next.gencode rfl hbuild.queue (htreed.next .compress 2)
  obtain ⟨y3, hemit, hcoded3⟩ := hgen.next.emitHeader rfl hgen.queue (hcoded.next .compress 3)
  have hfour := ((hscan.trans (by decide) hbuild).trans (by decide) hgen).trans (by decide) hemit
  have hfit3 : pass.length ≤ y3.params.passLimit := by rw [hfour.params]; exact hfit
  obtain ⟨y4, hpack, hcoded4⟩ := hemit.next.pack rfl (hcoded3.next .compress 4) hfour.queue hfit3
  have hall := hfour.trans (by decide) hpack
  rw [show 2 * pass.length + 3 + 257 + 513 + 771 + (258 * pass.length + 4) = 260 * pass.length + 1548 by omega,
    show pass.length + 0 + 0 + 0 + pass.length = 2 * pass.length by omega] at hall
  exact ⟨ot, y4, hall, hcoded4⟩

end

/-! ## Commands one after the other -/

/-- No command runs, no error is pending, and no work is left over. -/
structure AtRest (s : State) : Prop where
  work : WorkClean s
  idle : s.opstate = .idle
  err : s.err = false

theorem AtRest.setScript {s : State} (h : AtRest s) (es : List Event) : AtRest { s with script := es } :=
  ⟨workClean_closed.script s es h.work, h.idle, h.err⟩

/-- A command whose phases fit in the beats completes, and the next one can be written (R310, R311). -/
theorem completes_of_phase {i : Instr} {op : Op} {m k n : Nat} {q : List Item} {bs : List Byte} {s y : State}
    (hexec : ∀ v, exec i v = .next (runCommand op v)) (hs : AtRest s) (hm : m + 1 ≤ n)
    (h : Phase op (lastPhase op) m k q bs (accept op { s with script := beats n }) y) :
    completes i n s (ended [] y) ∧ AtRest (ended [] y) := by
  have hrun : exec i { s with script := beats n } = .next (ended [] y) := by
    rw [hexec]
    exact congrArg _ (runCommand_of_phase (s := { s with script := beats n }) hs.idle hs.err
      (List.append_nil _).symm rfl hm h)
  have herr : y.err = false := h.err.trans hs.err
  exact ⟨⟨hrun, rfl, herr⟩, workClean_closed.exec i _ _ (hs.setScript _).work hrun, rfl, herr⟩

theorem AtRest.phaseStart {s : State} (h : AtRest s) (op : Op) (n : Nat) :
    PhaseStart op 0 (accept op { s with script := beats n }) :=
  phaseStart_accept (h.setScript (beats n)).work h.idle op

/-- The five primitives of COMPRESS, run one after the other on a pass that is given twice (R384). -/
theorem primitives_complete {u : State} {pass : List Byte} {more : List Item} {n : Nat} (hu : AtRest u)
    (hfit : pass.length ≤ u.params.passLimit) (hq : u.inQ = streamOf pass ++ streamOf pass ++ more)
    (hn : 300 * pass.length + 5000 ≤ n) :
    ∃ ot u1 u2 u3 u4 u5, TreeOfPass pass ot ∧ holdsTreeOf u2 ot ∧ completes .scan n u u1 ∧
      completes .build n u1 u2 ∧ completes .gencode n u2 u3 ∧ completes .emitHeader n u3 u4 ∧
      completes .pack n u4 u5 ∧ u5.outRec = u.outRec ++ containerOf ot pass ∧ u5.inQ = more := by
  have hscan := (hu.phaseStart (.prim .scan) n).scan rfl (hq.trans (List.append_assoc ..)) hfit
  obtain ⟨hc1, hu1⟩ := completes_of_phase (i := .scan) (fun _ => rfl) hu (by omega) hscan
  obtain ⟨y2, ot, hbuild, htreed⟩ := (hu1.phaseStart (.prim .build) n).build rfl hscan.queue
    ((counted_scannedPass pass _ _).accepted (.prim .build) n)
  obtain ⟨hc2, hu2⟩ := completes_of_phase (i := .build) (fun _ => rfl) hu1 (by omega) hbuild
  obtain ⟨y3, hgen, hcoded3⟩ := (hu2.phaseStart (.prim .gencode) n).gencode rfl hbuild.queue
    (htreed.accepted (.prim .gencode) n)
  obtain ⟨hc3, hu3⟩ := completes_of_phase (i := .gencode) (fun _ => rfl) hu2 (by omega) hgen
  obtain ⟨y4, hemit, hcoded4⟩ := (hu3.phaseStart (.prim .emitHeader) n).emitHeader rfl hgen.queue
    (hcoded3.accepted (.prim .emitHeader) n)
  obtain ⟨hc4, hu4⟩ := completes_of_phase (i := .emitHeader) (fun _ => rfl) hu3 (by omega) hemit
  have hparams : y4.params = u.params :=
    hemit.params.trans (hgen.params.trans (hbuild.params.trans hscan.params))
  obtain ⟨y5, hpack, _⟩ := (hu4.phaseStart (.prim .pack) n).pack rfl (hcoded4.accepted (.prim .pack) n)
    hemit.queue (by show pass.length ≤ y4.params.passLimit; rw [hparams]; exact hfit)
  obtain ⟨hc5, _⟩ := completes_of_phase (i := .pack) (fun _ => rfl) hu4 (by omega) hpack
  have hrec3 : y3.outRec = u.outRec := by
    have hrec2 : y2.outRec = u.outRec ++ [] := hbuild.taken
    rw [← List.append_nil u.outRec, ← hrec2, ← List.append_nil y2.outRec]
    exact hgen.taken
  have hrec5 : y5.outRec = y4.outRec ++ payload (codeBits (codeOf ot) pass) := hpack.taken
  have hrec4 : y4.outRec = y3.outRec ++ headerOf ot (padOfBits (codeBits (codeOf ot) pass).length) :=
    hemit.taken
  refine ⟨ot, _, ended [] y2, ended [] y3, ended [] y4, ended [] y5, htreed.tree, htreed.held, hc1, hc2, hc3,
    hc4, hc5, ?_, hpack.queue⟩
  show y5.outRec = _
  rw [hrec5, hrec4, hrec3, containerOf, List.append_assoc]

theorem containerOf_nil {ot : Option HuffTree} (h : TreeOfPass [] ot) : ot = none ∧ containerOf ot [] = [] := by
  have hnone : TreeOfPass [] none := rfl
  rw [h.unique hnone]
  exact ⟨rfl, rfl⟩

/-- Settles O44: COMPRESS and its five primitives run the same phases (`compress_phase`, `primitives_complete`), and the
tree that they find is that of the pass alone (`TreeOfPass.unique`). -/
theorem compressOffersTheContainer : Obligations.CompressOffersTheContainer := by
  intro s u pass more more' n rest hw hidle herr hfit hq hs hrest hn hwu hidleu herru hfitu hqu
  have hu : AtRest u := ⟨hwu, hidleu, herru⟩
  obtain ⟨ot, y, hphase, hcoded⟩ := compress_phase hw hidle hfit hq
  obtain ⟨ot', y', hphase', hcoded'⟩ := compress_phase (hu.setScript (beats n)).work hidleu hfitu hqu
  obtain ⟨ot'', u1, u2, u3, u4, u5, htree, hheld, hc1, hc2, hc3, hc4, hc5, hrec5, hq5⟩ :=
    primitives_complete hu hfitu hqu hn
  obtain rfl := hcoded.treed.tree.unique hcoded'.treed.tree
  obtain rfl := hcoded.treed.tree.unique htree
  obtain ⟨hcv, _⟩ := completes_of_phase (i := .compress) (fun _ => rfl) hu (by omega) hphase'
  have hexec : exec .compress s = .next (ended rest y) :=
    congrArg _ (runCommand_of_phase hidle herr hs hrest (by omega) hphase)
  have hin : y.inCount = 0 + BitVec.ofNat 32 (2 * pass.length) := congrArg Prod.snd hphase.input
  have hout : y.outCount = 0 + BitVec.ofNat 32 (containerOf ot pass).length := congrArg Prod.snd hphase.output
  refine ⟨ended rest y, containerOf ot pass, ended [] y', u1, u2, u3, u4, u5, hexec, rfl, rfl,
    hphase.err.trans herr, hphase.queue, rfl, hin.trans (BitVec.zero_add _), hout.trans (BitVec.zero_add _),
    hphase.taken, hcoded.treed.total, hphase.cmdOp, hcoded.valid, hcoded.treed.header, hcv, hphase'.taken,
    hc1, hc2, hc3, hc4, hc5, hrec5, hq5, fun hnil => ?empty, fun hne => ?nonempty⟩
  case empty =>
    subst hnil
    obtain ⟨rfl, hcontainer⟩ := containerOf_nil htree
    exact ⟨hcontainer, hcoded.treed.held⟩
  case nonempty =>
    cases ot with
    | none => exact absurd htree hne
    | some tr =>
      exact ⟨tr, payload (codeBits tr.code pass), htree.distinct,
        fun b => (htree.mem_symbols b).trans (mem_countedSymbols pass b), hheld, hcoded.treed.held,
        packsTo_payload _, rfl⟩

end Sys2Proof.Machine
end

section
/-! Proofs of the bit unpacker family (45_bit_unpacker.md): UNPACK's framing errors, in the order of its tests (R281 to
R284). -/

namespace Sys2Proof.Machine

theorem reads_unpackFirst (it : Item) : Reads .unpackFirst it (unpackFirst it) :=
  ⟨unpackFirst, fun _ => rfl, rfl⟩

theorem reads_unpackNext (lpos : Nat) (it : Item) : Reads (.unpackNext lpos) it (unpackNext lpos it) :=
  ⟨unpackNext lpos, fun _ => rfl, rfl⟩

/-- The padding is 0 exactly when each of its bits is (R280). -/
theorem padBits_eq_zero_iff (c : Byte) (pad : BitVec 3) :
    padBits c pad = 0 ↔ ∀ k < pad.toNat, c.getLsbD k = false := by
  simp only [padBits, Nat.eq_iff_testBit_eq, Nat.testBit_mod_two_pow, Nat.zero_testBit,
    Bool.and_eq_false_iff, decide_eq_false_iff_not, Classical.or_iff_not_imp_left, not_not]
  rfl

section
variable {c : Byte} {cpos lpos j : Nat} {last : Bool} {s : State}

theorem coreTurn_of_unpackBits (hruns : s.opstate ≠ .idle) (hpt : s.point = .unpackBits c cpos last lpos j) :
    coreTurn s = unpackBits c cpos last lpos j s :=
  coreTurn_of_place (turn := unpackBits c cpos last lpos j) hruns fun _ => by rw [hpt]; rfl

theorem unpackBits_of_valid (hj : j < validBits last s.hdrPad) :
    unpackBits c cpos last lpos j s =
      walkBit (msbBit c j) cpos (moveTo (.unpackBits c cpos last lpos (j + 1))) s := if_pos hj

/-- After the last valid bit come the end checks (R282). -/
theorem unpackBits_of_last (hj : 8 - s.hdrPad.toNat ≤ j) :
    unpackBits c cpos true lpos j s = unpackEnd c cpos { s with look := none } := if_neg (Nat.not_lt.2 hj)

theorem unpackEnd_of_descending (h : s.wstate = .descending) :
    unpackEnd c cpos s = raise .truncatedStream cpos s := if_pos h

theorem unpackEnd_of_atRoot (h : s.wstate = .atRoot) :
    unpackEnd c cpos s =
      if padBits c s.hdrPad ≠ 0 then raise .padNonzero cpos s else finish { s with cur := 0 } := by
  rw [unpackEnd, h]
  rfl

/-- The bit 1 is no code of a one-leaf tree (R283). -/
theorem walkBit_of_bad_code {p : Nat} {k : State → State} (hkind : s.treeKind = .leaf) :
    walkBit true p k s = raise .badCode p s := if_pos hkind

end

/-- Settles O43: at a bit the walk tells a BAD_CODE first (`walkBit_of_bad_code`); after the last valid bit the end
checks ask for the walk before the padding (`unpackEnd_of_descending`, `unpackEnd_of_atRoot`). -/
theorem unpackFramingErrors : Obligations.UnpackFramingErrors := by
  intro s op ph hop
  have hruns : s.opstate ≠ .idle := by rw [hop]; exact OpState.noConfusion
  refine ⟨?badCode, ?truncated, ?padNonzero, ?emptyPayload⟩
  case badCode =>
    intro b cpos last lpos j hpt hkind hj hbit
    rw [coreTurn_of_unpackBits hruns hpt, unpackBits_of_valid hj, show msbBit b j = true from hbit,
      walkBit_of_bad_code hkind]
    rfl
  case truncated =>
    intro b cpos lpos j hpt hj hwalk
    rw [coreTurn_of_unpackBits hruns hpt, unpackBits_of_last hj]
    exact unpackEnd_of_descending (s := { s with look := none }) hwalk
  case padNonzero =>
    intro b cpos lpos j hpt hj hwalk ⟨k, hk, hbit⟩
    have hpad : padBits b s.hdrPad ≠ 0 := fun h =>
      Bool.false_ne_true (((padBits_eq_zero_iff b s.hdrPad).1 h k hk).symm.trans hbit)
    rw [coreTurn_of_unpackBits hruns hpt, unpackBits_of_last hj]
    exact (unpackEnd_of_atRoot (s := { s with look := none }) hwalk).trans (if_pos hpad)
  case emptyPayload =>
    intro p hpt hitem
    rw [coreTurn_of_item hruns (hpt ▸ reads_unpackFirst .eos) hitem]
    rfl

end Sys2Proof.Machine
end

section
/-! Proofs of the bit unpacker family (45_bit_unpacker.md): the decode walk, which turns the code bits of symbols
back into the symbols (R281, R283). -/

namespace Sys2Proof.Machine

/-! ## The walk by itself -/

/-- How far the decode walk has come, and the bytes that it has offered (R60, R281). -/
structure Walk where
  cur : Nat
  wstate : WState
  offered : List Byte

/-- The walk of s is at the root and has offered the bytes xs. -/
def walkAtRoot (s : State) (xs : List Byte) : Walk := ⟨s.rootIdx, .atRoot, xs⟩

/-- One valid bit takes the walk on in the tree of s (R281); a one-leaf tree offers its symbol at each bit (R283). -/
def Walk.step (s : State) (w : Walk) (x : Bool) : Walk :=
  if s.treeKind = .leaf then { w with offered := w.offered ++ [(nodeGet s.node s.rootIdx).sym] }
  else
    match nodeGet s.node (childOf s.node w.cur x) with
    | .leaf b _ => walkAtRoot s (w.offered ++ [b])
    | .internal _ _ _ => { w with cur := childOf s.node w.cur x, wstate := .descending }

/-- The walk after the given bits. -/
def Walk.feed (s : State) (w : Walk) (p : BitString) : Walk := p.foldl (Walk.step s) w

theorem Walk.feed_append (s : State) (w : Walk) (p q : BitString) :
    w.feed s (p ++ q) = (w.feed s p).feed s q := List.foldl_append

section
variable {s : State} {w : Walk} {x : Bool} {b : Byte}

theorem Walk.step_of_lone (hkind : s.treeKind = .leaf) :
    w.step s x = { w with offered := w.offered ++ [(nodeGet s.node s.rootIdx).sym] } := if_pos hkind

theorem Walk.step_of_leaf {k : Nat} (hkind : s.treeKind ≠ .leaf)
    (hchild : nodeGet s.node (childOf s.node w.cur x) = .leaf b k) :
    w.step s x = walkAtRoot s (w.offered ++ [b]) := by
  rw [Walk.step, if_neg hkind, hchild]

theorem Walk.step_of_internal {k l r : Nat} (hkind : s.treeKind ≠ .leaf)
    (hchild : nodeGet s.node (childOf s.node w.cur x) = .internal k l r) :
    w.step s x = { w with cur := childOf s.node w.cur x, wstate := .descending } := by
  rw [Walk.step, if_neg hkind, hchild]

end

/-! ## The bits of a code -/

/-- A path below a node begins with the bit of one of its children. -/
theorem paths_node_cases {l r : HuffTree} {p q : BitString} {b : Byte}
    (h : (b, p ++ q) ∈ (HuffTree.node l r).paths p) :
    ∃ x q', q = x :: q' ∧ (b, p ++ [x] ++ q') ∈ (if x then r else l).paths (p ++ [x]) := by
  have onSide {x : Bool} {t : HuffTree} (ht : (b, p ++ q) ∈ t.paths (p ++ [x])) :
      ∃ q', q = x :: q' ∧ (b, p ++ [x] ++ q') ∈ t.paths (p ++ [x]) := by
    obtain ⟨q', hq'⟩ := paths_extend _ t b _ ht
    rw [List.append_assoc] at hq'
    exact ⟨q', (List.append_cancel_left hq').symm, by rwa [List.append_assoc, hq']⟩
  rcases List.mem_append.1 h with hl | hr
  · exact ⟨false, onSide hl⟩
  · exact ⟨true, onSide hr⟩

/-- In the arena the two children of a node are where `childOf` finds them (R281). -/
theorem represents_childOf {node : Vector Node 511} {i : Nat} {l r : HuffTree}
    (h : Represents node i (.node l r)) (x : Bool) : Represents node (childOf node i x) (if x then r else l) := by
  obtain ⟨w, a, c, hi, hl, hr⟩ := h
  cases x with
  | false => rw [childOf, hi]; exact hl
  | true => rw [childOf, hi]; exact hr

/-- The path from a node to a leaf makes the walk offer the leaf's symbol and go back to the root (R281). -/
theorem Walk.feed_path {s : State} {w : Walk} {t : HuffTree} {x : Bool} {p q : BitString} {b : Byte}
    (hkind : s.treeKind ≠ .leaf) (ht : Represents s.node (childOf s.node w.cur x) t)
    (hb : (b, p ++ q) ∈ t.paths p) : w.feed s (x :: q) = walkAtRoot s (w.offered ++ [b]) := by
  induction t generalizing w x p q with
  | leaf c =>
    obtain ⟨k, hchild⟩ := ht
    obtain ⟨rfl, hq⟩ := Prod.mk.inj (List.mem_singleton.1 hb)
    rw [List.append_right_eq_self.1 hq]
    exact Walk.step_of_leaf hkind hchild
  | node l r ihl ihr =>
    obtain ⟨y, q', rfl, hb'⟩ := paths_node_cases hb
    have hchild := represents_childOf ht y
    obtain ⟨k, a, c, hentry, _⟩ := ht
    have hstep : w.feed s (x :: y :: q') =
        Walk.feed s { w with cur := childOf s.node w.cur x, wstate := .descending } (y :: q') :=
      congrArg (Walk.feed s · (y :: q')) (Walk.step_of_internal hkind hentry)
    rw [hstep]
    cases y with
    | false => exact ihl hchild hb'
    | true => exact ihr hchild hb'

theorem code_mem_codes {tr : HuffTree} {b : Byte} (hd : tr.distinct) (hb : b ∈ tr.symbols) :
    (b, tr.code b) ∈ tr.codes := by
  obtain ⟨p, hp⟩ := exists_code_of_mem_symbols hb
  rwa [code_of_mem hd hp]

/-- The code of a symbol takes the walk from the root to the symbol and back (R201, R281, R283). -/
theorem walkAtRoot_feed_code {s : State} {tr : HuffTree} {b : Byte} (hheld : holdsTree s tr) (hd : tr.distinct)
    (hb : b ∈ tr.symbols) (xs : List Byte) :
    (walkAtRoot s xs).feed s (tr.code b) = walkAtRoot s (xs ++ [b]) := by
  have hcode := code_mem_codes hd hb
  obtain ⟨htree, hkind⟩ := hheld
  cases tr with
  | leaf c =>
    obtain ⟨k, hroot⟩ := htree
    obtain ⟨rfl, hbits⟩ := Prod.mk.inj (List.mem_singleton.1 hcode)
    rw [hbits]
    refine (Walk.step_of_lone hkind).trans ?_
    rw [hroot]
    rfl
  | node l r =>
    obtain ⟨x, q, hq, hpath⟩ := paths_node_cases (p := []) (q := (HuffTree.node l r).code b) hcode
    rw [hq]
    exact Walk.feed_path (w := walkAtRoot s xs) (by rw [hkind]; exact TreeKind.noConfusion)
      (represents_childOf htree x) hpath

/-- The codes of symbols make the walk offer the symbols (R287). -/
theorem walkAtRoot_feed_codeBits {s : State} {tr : HuffTree} {xs : List Byte} (hheld : holdsTree s tr)
    (hd : tr.distinct) (hxs : ∀ x ∈ xs, x ∈ tr.symbols) (ys : List Byte) :
    (walkAtRoot s ys).feed s (codeBits tr.code xs) = walkAtRoot s (ys ++ xs) := by
  induction xs generalizing ys with
  | nil => rw [List.append_nil]; rfl
  | cons x xs ih =>
    obtain ⟨hx, hrest⟩ := List.forall_mem_cons.1 hxs
    rw [codeBits, List.flatMap_cons, Walk.feed_append, walkAtRoot_feed_code hheld hd hx, List.append_cons ys x xs]
    exact ih hrest (ys ++ [x])

/-! ## Bits that a one-leaf tree takes -/

/-- No bit of p is a BAD_CODE in the tree of s (R283). -/
def NoBadCode (s : State) (p : BitString) : Prop := s.treeKind = .leaf → ∀ x ∈ p, x = false

theorem noBadCode_codeBits {s : State} {tr : HuffTree} {xs : List Byte} (hheld : holdsTree s tr)
    (hd : tr.distinct) (hxs : ∀ x ∈ xs, x ∈ tr.symbols) : NoBadCode s (codeBits tr.code xs) := by
  intro hkind x hx
  obtain ⟨_, htree⟩ := hheld
  cases tr with
  | leaf c =>
    obtain ⟨b, hb, hx⟩ := List.mem_flatMap.1 hx
    obtain ⟨_, hcode⟩ := Prod.mk.inj (List.mem_singleton.1 (code_mem_codes hd (hxs b hb)))
    exact List.mem_singleton.1 (hcode ▸ hx)
  | node l r => exact TreeKind.noConfusion (htree.symm.trans hkind)

end Sys2Proof.Machine
end

section
/-! Proofs of the bit unpacker family (45_bit_unpacker.md): UNPACK offers the symbols whose codes the payload holds
(R280 to R285; 30_encoding.md R116). -/

namespace Sys2Proof.Machine

/-! ## The bits of the payload -/

/-- The first n bits of a byte, MSB-first (R11, R280). -/
def firstBits (c : Byte) (n : Nat) : BitString := (List.range n).map (msbBit c)

theorem firstBits_succ (c : Byte) (n : Nat) : firstBits c (n + 1) = firstBits c n ++ [msbBit c n] := by
  rw [firstBits, List.range_succ, List.map_append]
  rfl

section
variable {c : Byte} {bs : List Byte} {p : BitString}

/-- The first byte of a payload holds the first eight bits. -/
theorem PacksTo.msbBit_head (h : PacksTo p (c :: bs)) {k : Nat} (hk : k < 8) : msbBit c k = bitAt p k := by
  have hbit := h.2 k (by rw [List.length_cons]; omega)
  rwa [Nat.div_eq_of_lt hk, Nat.mod_eq_of_lt hk] at hbit

theorem PacksTo.firstBits_head (h : PacksTo p (c :: bs)) {n : Nat} (hn : n ≤ 8) (hp : n ≤ p.length) :
    firstBits c n = p.take n := by
  apply List.ext_getElem
  · simp [firstBits, hp]
  · intro k hk hk'
    simp only [firstBits, List.length_map, List.length_range] at hk
    have hkp : k < p.length := by omega
    simp [firstBits, h.msbBit_head (show k < 8 by omega), bitAt, hkp]

/-- The bytes behind the first hold the bits behind the first eight. -/
theorem PacksTo.tail (h : PacksTo p (c :: bs)) : PacksTo (p.drop 8) bs := by
  obtain ⟨hlen, hbits⟩ := h
  rw [List.length_cons] at hlen hbits
  refine ⟨by rw [List.length_drop]; omega, fun k hk => ?_⟩
  have hbit := hbits (k + 8) (by omega)
  rw [show (k + 8) / 8 = k / 8 + 1 by omega, Nat.add_mod_right, List.getElem?_cons_succ] at hbit
  rw [hbit, bitAt, bitAt, List.getElem?_drop, Nat.add_comm]

/-- The bits behind the end of the bit string are zero padding (R116). -/
theorem PacksTo.padBits_last {pad : BitVec 3} (h : PacksTo p [c]) (hp : p.length + pad.toNat = 8) :
    padBits c pad = 0 := by
  refine (padBits_eq_zero_iff c pad).2 fun k hk => ?_
  have hbit := h.msbBit_head (k := 7 - k) (by omega)
  rw [bitAt_of_le (by omega), msbBit, show 7 - (7 - k) = k by omega] at hbit
  exact hbit

end

/-! ## The bits of one byte -/

/-- CUR and WSTATE are those of the walk w (R60). -/
def placeWalk (w : Walk) (s : State) : State := { s with cur := w.cur, wstate := w.wstate }

/-- UNPACK with its walk at w, the offered bytes taken by the sink (R281). -/
def unpacking (w : Walk) (s : State) : State := placeWalk w (handOver w.offered s)

/-- UNPACK is at bit j of the byte c (R282). -/
def atUnpackBit (c : Byte) (cpos : Nat) (last : Bool) (lpos j : Nat) (w : Walk) (s : State) : State :=
  moveTo (.unpackBits c cpos last lpos j) (unpacking w s)

/-- A byte that the walk offers is taken. -/
theorem unpacking_offer {w w' : Walk} {b : Byte} (h : w'.offered = w.offered ++ [b]) (s : State) :
    placeWalk w' (handOver [b] (unpacking w s)) = unpacking w' s := by
  show placeWalk w' (handOver [b] (handOver w.offered s)) = _
  rw [handOver_append, ← h]
  rfl

theorem walkBit_of_lone {p : Nat} {k : State → State} {s : State} (hkind : s.treeKind = .leaf) :
    walkBit false p k s = offer (nodeGet s.node s.rootIdx).sym k s := if_pos hkind

section
variable {c : Byte} {cpos lpos j : Nat} {last : Bool} {w : Walk} {s : State}

theorem coreTurn_of_atUnpackBit (hruns : s.opstate ≠ .idle) :
    coreTurn (atUnpackBit c cpos last lpos j w s) =
      unpackBits c cpos last lpos j (atUnpackBit c cpos last lpos j w s) :=
  coreTurn_of_unpackBits (s := atUnpackBit c cpos last lpos j w s) hruns rfl

/-- One valid bit takes one beat (R281, R282). -/
theorem unpackBit_beat (hruns : s.opstate ≠ .idle) (hj : j < validBits last s.hdrPad)
    (hgood : NoBadCode s [msbBit c j]) :
    beat (atUnpackBit c cpos last lpos j w s) =
      atUnpackBit c cpos last lpos (j + 1) (w.step s (msbBit c j)) s := by
  have hturn : coreTurn (atUnpackBit c cpos last lpos j w s) =
      walkBit (msbBit c j) cpos (moveTo (.unpackBits c cpos last lpos (j + 1)))
        (atUnpackBit c cpos last lpos j w s) :=
    (coreTurn_of_atUnpackBit hruns).trans (unpackBits_of_valid hj)
  have htaken (w' : Walk) (b : Byte) (h : w'.offered = w.offered ++ [b]) :=
    congrArg (moveTo (.unpackBits c cpos last lpos (j + 1))) (unpacking_offer h s)
  by_cases hkind : s.treeKind = .leaf
  · rw [hgood hkind _ List.mem_cons_self] at hturn ⊢
    rw [Walk.step_of_lone hkind]
    have hoffer := hturn.trans (walkBit_of_lone hkind)
    exact (beat_of_offer hoffer rfl fun _ _ _ _ => rfl).trans (htaken { w with offered := _ } _ rfl)
  · cases hchild : nodeGet s.node (childOf s.node w.cur (msbBit c j)) with
    | leaf b k =>
      rw [Walk.step_of_leaf hkind hchild]
      have hoffer := hturn.trans (walkBit_of_leaf hkind hchild)
      exact (beat_of_offer hoffer rfl fun _ _ _ _ => rfl).trans (htaken (walkAtRoot s _) b rfl)
    | internal k l r =>
      rw [Walk.step_of_internal hkind hchild]
      exact beat_of_silent (hturn.trans (walkBit_of_internal hkind hchild)) rfl

/-- The valid bits of a byte take a beat each (R282). -/
theorem unpackBits_beats (hruns : s.opstate ≠ .idle) (hj : j ≤ validBits last s.hdrPad)
    (hgood : NoBadCode s (firstBits c j)) :
    BeatsTo j (atUnpackBit c cpos last lpos 0 w s)
      (atUnpackBit c cpos last lpos j (w.feed s (firstBits c j)) s) := by
  induction j with
  | zero => rfl
  | succ j ih =>
    rw [firstBits_succ] at hgood ⊢
    rw [Walk.feed_append]
    have hbefore := ih (Nat.le_of_succ_le hj) fun hkind x hx => hgood hkind x (List.mem_append_left _ hx)
    exact hbefore.next (unpackBit_beat hruns hj fun hkind x hx => hgood hkind x (List.mem_append_right _ hx))

end

/-! ## The bytes of the payload -/

/-- UNPACK reads the item behind the byte c, which it holds in LOOK (R63, R285). -/
def lookingAt (c : Byte) (lpos : Nat) (s : State) : State := { s with look := some c, point := .unpackNext lpos }

/-- UNPACK before its `finish`, with the bytes xs taken (R282). -/
def unpacked (xs : List Byte) (s : State) : State :=
  { handOver xs s with cur := 0, wstate := .atRoot, look := none }

section
variable {c : Byte} {lpos : Nat} {w : Walk} {s : State}

theorem Waiting.lookingAt (h : Waiting s) (c : Byte) (lpos : Nat) (w : Walk) :
    Waiting (unpacking w (lookingAt c lpos s)) := ⟨h.runs, h.item, rfl⟩

/-- A byte that another one follows takes two turns to read that one, a beat for each of its eight bits, and one to go
on (R282, R285). -/
theorem byte_unpack_beats {b : Byte} {q : List Item} (hw : Waiting s) (hq : s.inQ = .byte b :: q)
    (hgood : NoBadCode s (firstBits c 8)) :
    BeatsTo 11 (unpacking w (lookingAt c lpos s))
      (unpacking (w.feed s (firstBits c 8)) (lookingAt b s.pos (consumeItem (.byte b) q s))) := by
  have hread : SilentTurns 2 (unpacking w (lookingAt c lpos s))
      (atUnpackBit c lpos false s.pos 0 w (lookingAt b s.pos (consumeItem (.byte b) q s))) :=
    (SilentTurns.refl rfl).read (hw.lookingAt c lpos w) (reads_unpackNext lpos _) hq rfl rfl
  have hbits := unpackBits_beats (last := false) (cpos := lpos) (lpos := s.pos) (w := w) (j := 8)
    (s := lookingAt b s.pos (consumeItem (.byte b) q s)) hw.runs le_rfl hgood
  have hturn := coreTurn_of_atUnpackBit (c := c) (cpos := lpos) (last := false) (lpos := s.pos) (j := 8)
    (w := w.feed s (firstBits c 8)) (s := lookingAt b s.pos (consumeItem (.byte b) q s)) hw.runs
  exact (hread.beatsTo.trans hbits).next (beat_of_silent hturn rfl)

/-- The last byte takes two turns to read EOS, a beat for each of its valid bits, and one for the end checks (R282,
R284). -/
theorem last_unpack_beats {p : BitString} {xs : List Byte} {q : List Item} (hw : Waiting s)
    (hq : s.inQ = .eos :: q) (hpacks : PacksTo p [c]) (hlen : p.length + s.hdrPad.toNat = 8)
    (hgood : NoBadCode s p) (hwalk : w.feed s p = walkAtRoot s xs) :
    BeatsTo (p.length + 3) (unpacking w (lookingAt c lpos s)) (finish (unpacked xs (consumeItem .eos q s))) := by
  have hp : firstBits c p.length = p := by rw [hpacks.firstBits_head (by omega) le_rfl, List.take_length]
  have hruns : (lookingAt c lpos (consumeItem .eos q s)).opstate ≠ .idle := hw.runs
  have hread : SilentTurns 2 (unpacking w (lookingAt c lpos s))
      (atUnpackBit c lpos true lpos 0 w (lookingAt c lpos (consumeItem .eos q s))) :=
    (SilentTurns.refl rfl).read (hw.lookingAt c lpos w) (reads_unpackNext lpos _) hq rfl rfl
  have hbits := unpackBits_beats (c := c) (last := true) (cpos := lpos) (lpos := lpos) (w := w) (j := p.length)
    hruns (by show p.length ≤ 8 - s.hdrPad.toNat; omega) (hp.symm ▸ hgood)
  rw [hp, show w.feed (lookingAt c lpos (consumeItem .eos q s)) p = walkAtRoot s xs from hwalk] at hbits
  have hend : coreTurn (atUnpackBit c lpos true lpos p.length (walkAtRoot s xs)
        (lookingAt c lpos (consumeItem .eos q s))) = finish (unpacked xs (consumeItem .eos q s)) := by
    rw [coreTurn_of_atUnpackBit hruns, unpackBits_of_last (by show 8 - s.hdrPad.toNat ≤ p.length; omega),
      unpackEnd_of_atRoot rfl]
    refine (if_neg (not_not.2 (hpacks.padBits_last hlen))).trans ?_
    exact finish_moveTo (pt := .unpackBits c lpos true lpos p.length) (s := unpacked xs (consumeItem .eos q s)) hw.runs
  have hall := (hread.beatsTo.trans hbits).next (beat_of_silent hend ((finish_out _).trans rfl))
  rwa [show 2 + p.length + 1 = p.length + 3 by omega] at hall

/-- The bytes of a payload take at most eleven beats each (R280 to R285). -/
theorem payload_unpack_beats {bs : List Byte} {p : BitString} {xs : List Byte} {q : List Item} (hw : Waiting s)
    (hq : s.inQ = streamOf bs ++ q) (hpacks : PacksTo p (c :: bs))
    (hlen : p.length + s.hdrPad.toNat = 8 * (bs.length + 1)) (hgood : NoBadCode s p)
    (hwalk : w.feed s p = walkAtRoot s xs) :
    ∃ j ≤ 11 * (bs.length + 1),
      BeatsTo j (unpacking w (lookingAt c lpos s)) (finish (unpacked xs (consumePass bs q s))) := by
  induction bs generalizing c lpos w s p with
  | nil =>
    have hpass : consumePass [] q s = consumeItem .eos q s := by
      rw [consumePass, consumeBytes_nil (q := .eos :: q) hq]
    rw [hpass]
    exact ⟨_, by omega, last_unpack_beats hw hq hpacks hlen hgood hwalk⟩
  | cons b bs ih =>
    have hpad : s.hdrPad.toNat < 8 := s.hdrPad.isLt
    rw [List.length_cons] at hlen ⊢
    have hbyte : firstBits c 8 = p.take 8 := hpacks.firstBits_head le_rfl (by omega)
    rw [← List.take_append_drop 8 p, Walk.feed_append, ← hbyte] at hwalk
    have hfirst := byte_unpack_beats (c := c) (lpos := lpos) (w := w) hw (q := streamOf bs ++ q) hq
      fun hkind x hx => hgood hkind x (List.mem_of_mem_take (hbyte ▸ hx))
    obtain ⟨j, hj, hrest⟩ := ih (lpos := s.pos) (hw.consumeItem (.byte b) (streamOf bs ++ q)) rfl hpacks.tail
      (by rw [List.length_drop]; show _ + s.hdrPad.toNat = _; omega)
      (fun hkind x hx => hgood hkind x (List.mem_of_mem_drop hx)) hwalk
    rw [consumePass, consumeBytes_cons, ← consumePass] at hrest
    exact ⟨11 + j, by omega, hfirst.trans hrest⟩

end

/-! ## The whole rule -/

theorem unpackStart_of_tree {tr : HuffTree} {s : State} (hh : s.hdrParsed = true) (hheld : holdsTree s tr)
    (hout : s.out = []) : unpackStart s = unpacking (walkAtRoot s []) (moveTo .unpackFirst s) := by
  have hk : s.treeKind ≠ .emptyTree := by
    obtain ⟨_, hk⟩ := hheld
    cases tr <;> rw [hk] <;> exact TreeKind.noConfusion
  have hnone : handOver [] (moveTo .unpackFirst s) = moveTo .unpackFirst s := handOver_nil hout
  rw [unpackStart, if_neg (by rw [hh]; decide), if_neg hk, unpacking, walkAtRoot, hnone]
  rfl

section
variable {op : Op} {ph : Nat} {s : State} {tr : HuffTree} {xs bs : List Byte} {q : List Item}

/-- UNPACK up to its `finish`, alone or in DECOMPRESS, takes at most eleven beats for each byte of the payload, one
before and two for the first item (R282). -/
theorem PhaseStart.unpack_beats (h : PhaseStart op ph s) (hp : currentPrim op ph = .unpack)
    (hh : s.hdrParsed = true) (hheld : holdsTree s tr) (hd : tr.distinct) (hxs : ∀ x ∈ xs, x ∈ tr.symbols)
    (hne : bs ≠ []) (hlen : (codeBits tr.code xs).length + s.hdrPad.toNat = 8 * bs.length)
    (hpacks : PacksTo (codeBits tr.code xs) bs) (hq : s.inQ = streamOf bs ++ q) :
    ∃ j ≤ 11 * bs.length + 3, BeatsTo j s (finish (unpacked xs (consumePass bs q s))) := by
  obtain ⟨c, bs, rfl⟩ := List.exists_cons_of_ne_nil hne
  have hstart := beat_of_silent ((h.primTurn hp).trans (unpackStart_of_tree hh hheld h.waits.out)) rfl
  have hwait : Waiting (unpacking (walkAtRoot s []) (moveTo .unpackFirst s)) := ⟨h.waits.runs, h.waits.item, rfl⟩
  have hfirst : SilentTurns 2 (unpacking (walkAtRoot s []) (moveTo .unpackFirst s))
      (unpacking (walkAtRoot s []) (lookingAt c s.pos (consumeItem (.byte c) (streamOf bs ++ q) s))) :=
    (SilentTurns.refl rfl).read hwait (reads_unpackFirst _) hq rfl rfl
  obtain ⟨j, hj, hrest⟩ := payload_unpack_beats (w := walkAtRoot s []) (c := c) (lpos := s.pos)
    (h.waits.consumeItem (.byte c) (streamOf bs ++ q)) rfl hpacks hlen (noBadCode_codeBits hheld hd hxs)
    (walkAtRoot_feed_codeBits hheld hd hxs [])
  rw [consumePass, consumeBytes_cons, ← consumePass] at hrest
  rw [List.length_cons]
  exact ⟨1 + (2 + j), by omega, BeatsTo.trans (m := 1) hstart (hfirst.beatsTo.trans hrest)⟩

theorem PhaseStart.unpack (h : PhaseStart op ph s) (hp : currentPrim op ph = .unpack)
    (hh : s.hdrParsed = true) (hheld : holdsTree s tr) (hd : tr.distinct) (hxs : ∀ x ∈ xs, x ∈ tr.symbols)
    (hne : bs ≠ []) (hlen : (codeBits tr.code xs).length + s.hdrPad.toNat = 8 * bs.length)
    (hpacks : PacksTo (codeBits tr.code xs) bs) (hq : s.inQ = streamOf bs ++ q) :
    Phase op ph (11 * bs.length + 3) bs.length q xs s (unpacked xs (consumePass bs q s)) where
  run := h.unpack_beats hp hh hheld hd hxs hne hlen hpacks hq
  runs := h.runs
  waits := ⟨h.waits.runs, h.waits.item, rfl⟩
  stowed := ⟨h.stowed.runs, h.stowed.pq, h.stowed.stack⟩
  host := rfl
  input := rfl
  output := rfl

end

/-- Settles O42: each byte of the payload takes at most eleven beats (`payload_unpack_beats`), in which the walk turns the
codes back into their symbols (`walkAtRoot_feed_codeBits`). -/
theorem unpackOffersTheSymbols : Obligations.UnpackOffersTheSymbols := by
  intro s tr xs bs more n rest hw hidle herr hh hheld hd hxs hne hlen hpacks hq hs hrest hn
  have hphase := (phaseStart_accept hw hidle (.prim .unpack)).unpack rfl hh hheld hd hxs hne hlen hpacks hq
  have hall := runCommand_of_phase hidle herr hs hrest (by omega) hphase
  refine congrArg Host.Outcome.next (hall.trans ?_)
  have hcount : (0 : Word) + BitVec.ofNat 32 xs.length = BitVec.ofNat 32 xs.length := BitVec.zero_add _
  have hsettle : { settle s with out := [] } = s := by
    rw [settle_of_idle hw hidle, ← (waiting_accept hw hidle (.prim .unpack)).out]; rfl
  rw [consumePass_accept]
  conv_rhs => rw [← hcount, ← hsettle]
  rfl

end Sys2Proof.Machine
end

section
/-! Proofs of the bit unpacker family (45_bit_unpacker.md): DECOMPRESS turns a container back into the symbols it holds
(R286), so that it inverts COMPRESS (R287). -/

namespace Sys2Proof.Machine

/-! ## The two phases -/

/-- A phase that offers no byte leaves the host's record and its count (R43). -/
theorem no_output (s : State) :
    (s.outRec, s.outCount) = (s.outRec ++ [], s.outCount + BitVec.ofNat 32 ([] : List Byte).length) := by
  rw [List.append_nil]
  exact congrArg _ (BitVec.add_zero _).symm

section
variable {op : Op} {ph : Nat} {s : State} {q : List Item}

theorem PhaseStart.parseHeader {tr : HuffTree} {pad : BitVec 3} (h : PhaseStart op ph s)
    (hp : currentPrim op ph = .parseHeader) (hd : tr.distinct) (hq : s.inQ = bytesIn (headerBytes tr pad) ++ q) :
    ∃ node seen, PreorderAt node 0 tr ∧
      Phase op ph (2 * (headerBytes tr pad).length + 2) (headerBytes tr pad).length q [] s
        (parsedHeader tr pad q node seen s) := by
  obtain ⟨node, seen, htree, hrun⟩ := parseHeader_turns h.waits h.runs hp h.place h.stowed.stack hd hq
  exact ⟨node, seen, htree, ⟨⟨_, le_rfl, hrun.beatsTo⟩, h.runs, ⟨h.waits.runs, h.waits.item, h.waits.out⟩,
    ⟨h.stowed.runs, h.stowed.pq, h.stowed.stack⟩, rfl, rfl, no_output s⟩⟩

/-- PARSE_HEADER of the empty container, with q behind it, before its `finish` (R222). -/
def parsedEmpty (q : List Item) (s : State) : State :=
  { consumeItem .eos q (parseStart s) with treeKind := .emptyTree, hdrParsed := true, point := .parseDone }

theorem PhaseStart.parseEmpty (h : PhaseStart op ph s) (hp : currentPrim op ph = .parseHeader)
    (hq : s.inQ = .eos :: q) : Phase op ph 4 0 q [] s (parsedEmpty q s) where
  run := ⟨_, le_rfl, (parseEmpty_turns h.waits h.runs hp h.place hq).beatsTo⟩
  runs := h.runs
  waits := ⟨h.waits.runs, h.waits.item, h.waits.out⟩
  stowed := ⟨h.stowed.runs, h.stowed.pq, h.stowed.stack⟩
  host := rfl
  input := congrArg (q, ·) (BitVec.add_zero _).symm
  output := no_output s

/-- UNPACK of an empty tree is over in its first turn (R282). -/
theorem PhaseStart.unpackEmpty (h : PhaseStart op ph s) (hp : currentPrim op ph = .unpack)
    (hh : s.hdrParsed = true) (hk : s.treeKind = .emptyTree) (hq : s.inQ = q) : Phase op ph 1 0 q [] s s :=
  have hturn := (h.primTurn hp).trans (unpackStart_of_emptyTree hh hk)
  .of_frame h hq ((SilentTurns.refl h.waits.out).next hturn ((finish_out s).trans h.waits.out)) le_rfl rfl
    h.stowed.pq h.stowed.stack

end

/-! ## DECOMPRESS -/

/-- DECOMPRESS of the empty container, up to its last `finish` (R286). -/
theorem decompress_empty_phase {s : State} {more : List Item} (hw : WorkClean s) (hidle : s.opstate = .idle)
    (hq : s.inQ = .eos :: more) :
    Phase .decompress 1 5 0 more [] (accept .decompress s)
      (nextPhase .decompress 1 (parsedEmpty more (accept .decompress s))) := by
  have hparse := (phaseStart_accept hw hidle .decompress).parseEmpty rfl hq
  exact hparse.trans (by decide) (hparse.next.unpackEmpty rfl rfl rfl rfl)

/-- The bits of a payload and the padding that the header names fill its bytes (R116, R280). -/
theorem PacksTo.length_add_pad {p : BitString} {bs : List Byte} (h : PacksTo p bs) :
    p.length + (padOfBits p.length).toNat = 8 * bs.length := by
  have hlen := h.1
  have hpad : (padOfBits p.length).toNat = (8 - p.length % 8) % 8 := Nat.mod_mod _ 8
  omega

/-- The codes of one or more symbols have a bit (R202). -/
theorem codeBits_length_pos {tr : HuffTree} {xs : List Byte} (hd : tr.distinct) (hne : xs ≠ [])
    (hxs : ∀ x ∈ xs, x ∈ tr.symbols) : 0 < (codeBits tr.code xs).length := by
  obtain ⟨x, xs, rfl⟩ := List.exists_cons_of_ne_nil hne
  have hcode := code_length_ne_zero (code_mem_codes hd (hxs x List.mem_cons_self))
  rw [codeBits, List.flatMap_cons, List.length_append]
  omega

/-- DECOMPRESS of a container of the symbols xs, with q behind it, before its last `finish` (R286). -/
def decompressed (tr : HuffTree) (xs bs : List Byte) (q : List Item) (node : Vector Node 511)
    (seen : Vector Bool 256) (s : State) : State :=
  unpacked xs (consumePass bs q (nextPhase .decompress 1
    (parsedHeader tr (padOfBits (codeBits tr.code xs).length) (streamOf bs ++ q) node seen s)))

/-- DECOMPRESS of a container, up to its last `finish` (R286). -/
theorem decompress_phase {s : State} {tr : HuffTree} {xs bs : List Byte} {more : List Item} (hw : WorkClean s)
    (hidle : s.opstate = .idle) (hd : tr.distinct) (hne : xs ≠ []) (hxs : ∀ x ∈ xs, x ∈ tr.symbols)
    (hpacks : PacksTo (codeBits tr.code xs) bs)
    (hq : s.inQ = streamOf (headerBytes tr (padOfBits (codeBits tr.code xs).length) ++ bs) ++ more) :
    ∃ node seen, holdsTree (decompressed tr xs bs more node seen (accept .decompress s)) tr ∧
      Phase .decompress 1 (11 * bs.length + 1543) ((headerBytes tr 0).length + bs.length) more xs
        (accept .decompress s) (decompressed tr xs bs more node seen (accept .decompress s)) := by
  have hpos := codeBits_length_pos hd hne hxs
  have hfill := hpacks.length_add_pad
  have hbs : bs ≠ [] := by
    rintro rfl
    rw [List.length_nil] at hfill
    omega
  have hq' : s.inQ = bytesIn (headerBytes tr (padOfBits (codeBits tr.code xs).length)) ++ (streamOf bs ++ more) := by
    rw [hq, streamOf, streamOf, bytesIn, List.map_append, List.append_assoc, List.append_assoc, List.append_assoc]
    rfl
  obtain ⟨node, seen, htree, hparse⟩ := (phaseStart_accept hw hidle .decompress).parseHeader rfl hd hq'
  have hheld : holdsTree (nextPhase .decompress 1 (parsedHeader tr (padOfBits (codeBits tr.code xs).length)
      (streamOf bs ++ more) node seen (accept .decompress s))) tr :=
    holdsTree_of_kind (represents_of_below (below_of_preorderAt (Nat.le_succ _) htree)) rfl
  have hunpack := hparse.next.unpack rfl rfl hheld hd hxs hbs hfill hpacks rfl
  have hall := hparse.trans (by decide) hunpack
  have h256 := leaves_le_of_distinct tr hd
  rw [headerBytes_length, ← headerBytes_length tr 0] at hall
  refine ⟨node, seen, hheld, { hall with run := ?_ }⟩
  obtain ⟨j, hj, hbeats⟩ := hall.run
  rw [headerBytes_length] at hj
  exact ⟨j, by omega, hbeats⟩

/-- Settles O45: the phases of DECOMPRESS are those of its two primitives (`decompress_empty_phase`,
`decompress_phase`), and the second one finds the tree and the padding that the first one read. -/
theorem decompressOffersTheSymbols : Obligations.DecompressOffersTheSymbols := by
  intro s more n rest hw hidle herr hs hrest
  constructor
  · intro hq hn
    have hphase := decompress_empty_phase hw hidle hq
    have hrun := runCommand_of_phase hidle herr hs hrest (by omega) hphase
    exact ⟨_, congrArg Host.Outcome.next hrun, rfl, rfl, hphase.err.trans herr, hphase.queue, rfl,
      hphase.taken.trans (List.append_nil _), rfl, rfl, rfl, rfl, rfl, rfl, rfl, rfl, rfl, rfl, rfl⟩
  · intro tr xs bs hd hne hxs hpacks hq hn
    obtain ⟨node, seen, hheld, hphase⟩ := decompress_phase hw hidle hd hne hxs hpacks hq
    have hrun := runCommand_of_phase hidle herr hs hrest (by omega) hphase
    have hin := congrArg Prod.snd hphase.input
    have hout := congrArg Prod.snd hphase.output
    exact ⟨_, congrArg Host.Outcome.next hrun, rfl, rfl, hphase.err.trans herr, hphase.queue, rfl, hphase.taken, rfl,
      hin.trans (BitVec.zero_add _), hout.trans (BitVec.zero_add _), hheld, rfl, rfl, rfl, rfl, rfl, rfl, rfl⟩

/-! ## The round trip -/

/-- Settles O46: what COMPRESS offers is the container of the tree of the pass (`compress_phase`), which DECOMPRESS turns
back into the pass (`decompressOffersTheSymbols`). -/
theorem decompressInvertsCompress : Obligations.DecompressInvertsCompress := by
  intro s u pass more more' n m rest rest' hw hidle herr hfit hq hs hrest hn
  obtain ⟨ot, y, hphase, hcoded⟩ := compress_phase hw hidle hfit hq
  have hrun := runCommand_of_phase hidle herr hs hrest (by omega) hphase
  have htree := hcoded.treed.tree
  refine ⟨_, containerOf ot pass, congrArg Host.Outcome.next hrun, rfl, hphase.taken, ?empty, ?inverts⟩
  case empty =>
    rintro rfl
    exact (containerOf_nil htree).2
  case inverts =>
    intro hwu hidleu herru hqu hsu hrestu hm
    obtain ⟨hempty, hsymbols⟩ := decompressOffersTheSymbols u more' m rest' hwu hidleu herru hsu hrestu
    cases ot with
    | none =>
      subst htree
      obtain ⟨v, hv, _, hdone, _, _, _, hrec, _⟩ := hempty hqu (by omega)
      exact ⟨v, hv, hdone, hrec.trans (List.append_nil _).symm⟩
    | some tr =>
      have hmem (x : Byte) (hx : x ∈ pass) : x ∈ tr.symbols :=
        (htree.mem_symbols x).2 ((mem_countedSymbols pass x).2 hx)
      have hne : pass ≠ [] := by
        rintro rfl
        exact nomatch (containerOf_nil htree).1
      rw [containerOf, List.length_append] at hm
      obtain ⟨v, hv, _, hdone, _, _, _, hrec, _⟩ :=
        hsymbols tr pass (payload (codeBits (codeOf (some tr)) pass)) htree.distinct hne hmem (packsTo_payload _)
          hqu (by omega)
      exact ⟨v, hv, hdone, hrec⟩

end Sys2Proof.Machine
end

section
/-! Proofs of the control family (46_control.md): CLEAR, NOP and the end of a command, the host's register accesses, and
what no command reaches (R311 to R319). -/

namespace Sys2Proof.Machine

/-! ## The end of a command, CLEAR and NOP -/

theorem coreTurn_of_finishing_untaken {s : State} (hpt : s.point = .finishing) (hout : s.out ≠ []) :
    coreTurn s = s := by
  unfold coreTurn
  split
  next => rfl
  next => rw [hpt, pointTurn, finishTurn, if_neg (by simpa using hout)]

/-- Settles O15: the two turns of the finishing place. -/
theorem finishWaitsForTheOutput : Obligations.FinishWaitsForTheOutput := by
  intro s op ph hop hpt
  have hruns : s.opstate ≠ .idle := by rw [hop]; exact OpState.noConfusion
  exact ⟨coreTurn_of_finishing_untaken hpt, coreTurn_of_finishing hruns hpt⟩

/-- Settles O11: `Clear()` is the update written out, and it keeps SEEN. -/
theorem clearAbortsAndClears : Obligations.ClearAbortsAndClears :=
  fun s => ⟨clearCore { s with cmdOp := 1 }, s.seen, rfl, rfl, rfl⟩

/-- Settles O12: `finish` of an accepted NOP finds no byte untaken and no work to clear (`settle_of_idle`). -/
theorem nopOnlySetsDone : Obligations.NopOnlySetsDone := by
  intro s hw hidle herr
  have ha : s.accepting = true := (accepting_iff s).2 ⟨hidle, herr⟩
  obtain ⟨_, _, _, _, _, _, _, hout⟩ := hw.idle hidle
  have hturns : coreTurn (coreTurn (accept (.prim .nop) s)) = complete (acceptWord 0 s) := by
    rw [nop_turns, finishTurn, if_pos (by simp [hout])]
    rfl
  have hsettle : settle (acceptWord 0 s) = acceptWord 0 s := congrArg (acceptWord 0) (settle_of_idle hw hidle)
  have hexec : execNop s = .next (complete (acceptWord 0 s)) := by rw [execNop, if_pos ha, hturns]
  rw [complete, hsettle] at hexec
  exact hexec

/-! ## The host's accesses -/

/-- A register stands at its own offset and at no other (R89). -/
theorem regAt_eq_some_iff {off : Offset} {r : Reg} : regAt off = some r ↔ r.offset = off := by
  constructor
  · intro h
    exact eq_of_beq (List.find?_some (p := fun q : Reg => q.offset == off) h)
  · rintro rfl
    cases r <;> rfl

/-- What a register shows does not rest on the script. -/
theorem regRead_script (off : Offset) (es : List Event) (s : State) :
    regRead off { s with script := es } = regRead off s := rfl

/-- The step of a legal read puts what it shows into the host's record (R319). -/
theorem step_read {s : State} {off : Offset} {rest : List Event} (halign : off.toNat % 4 = 0)
    (hs : s.script = .read 32 off :: rest) :
    step s = .next { s with script := rest, readLog := s.readLog ++ [(off, regRead off s)] } := by
  rw [step_of_script hs, eventTurn, readStep_legal ((accessFault_eq_none_iff 32 off).2 ⟨halign, rfl⟩), readTurn,
    regRead_script]

/-- The control and counter registers show their fields while a command runs (R319). -/
theorem not_hiddenWhileBusy_of_mem : ∀ r ∈ [Reg.id, .cmd, .status, .err, .errPos, .irqEn, .sel, .codeWsel, .inCount,
    .outCount], r.hiddenWhileBusy = false := by
  decide

/-- Settles O19: the step is `step_read`, and a register that is not hidden shows its field (`regRead_exact`). -/
theorem readsAreExactAndChangeNothing : Obligations.ReadsAreExactAndChangeNothing := by
  intro s off rest halign hs
  refine ⟨step_read halign hs, ?_⟩
  rintro r rfl hshown
  exact regRead_exact (regAt_eq_some_iff.2 rfl) (hshown.imp_right (not_hiddenWhileBusy_of_mem r))

/-- The step of a legal write other than to CMD is the write of the register (R314 to R318). -/
theorem step_regWrite {s : State} {off : Offset} {v : Word} {rest : List Event} (halign : off.toNat % 4 = 0)
    (hcmd : off ≠ cmdOffset) (hs : s.script = .write 32 off v :: rest) :
    step s = .next (regWrite off v { s with script := rest, ticks := s.ticks + 1 }) := by
  rw [step_of_script hs, eventTurn, writeTurn_legal ((accessFault_eq_none_iff 32 off).2 ⟨halign, rfl⟩),
    if_neg hcmd]
  rfl

theorem writeStatus_eq (v : Word) (s : State) :
    writeStatus v s = if v.getLsbD 1 then { s with done := false } else s := by
  rw [writeStatus]
  cases v.getLsbD 1 <;> simp

/-- The registers that are read-only and the reserved offsets ignore a write (R318, R90). -/
theorem regWrite_ignored {off : Offset} (h : off ∉ [0x08#8, 0x14#8, 0x3C#8, 0x48#8]) (v : Word) (s : State) :
    regWrite off v s = s := by
  have hother {r : Reg} (hreg : regAt off = some r) : r.offset ∉ [0x08#8, 0x14#8, 0x3C#8, 0x48#8] := by
    rwa [regAt_eq_some_iff.1 hreg]
  rw [regWrite]
  split
  any_goals rfl
  all_goals next hreg => exact (hother hreg (by decide)).elim

/-- Settles O21: the step is the register's own write (`step_regWrite`), which the other offsets ignore
(`regWrite_ignored`). -/
theorem registerWritesReachOnlyTheirFields : Obligations.RegisterWritesReachOnlyTheirFields := by
  rintro s u off v rest hs rfl
  refine ⟨?status, ?irqEn, ?sel, ?codeWsel, ?others⟩
  case status =>
    rintro rfl
    rw [step_regWrite (by decide) (by decide) hs, ← writeStatus_eq]
    rfl
  case irqEn =>
    rintro rfl
    exact ⟨_, step_regWrite (by decide) (by decide) hs, rfl, rfl⟩
  case sel =>
    rintro rfl
    exact step_regWrite (by decide) (by decide) hs
  case codeWsel =>
    rintro rfl
    exact step_regWrite (by decide) (by decide) hs
  case others =>
    intro halign hother
    obtain ⟨hcmd, hignored⟩ := not_or.1 (List.mem_cons.not.1 hother)
    rw [step_regWrite halign hcmd hs, regWrite_ignored hignored]

/-! ## What no command reaches -/

/-- The interrupt enables, the selections, the build's parameters, the host's read record and the step counter. -/
def hostSide (s : State) : Bool × Bool × BitVec 9 × BitVec 3 × Params × List (Offset × Word) × Nat :=
  (s.doneIe, s.errIe, s.sel, s.codeWsel, s.params, s.readLog, s.ticks)

theorem hostSide_beyond (p : Prim) (s : State) : hostSide (beyond p s) = hostSide s := by
  cases p <;> rfl

theorem hostSide_coreTurn {op : Op} {ph : Nat} {s : State} (hop : s.opstate = .run op ph)
    (hp : s.point.isIn (currentPrim op ph) = true) : hostSide (coreTurn s) = hostSide s := by
  rcases coreTurn_cases hop hp with e | ⟨c, q, e⟩
  · rw [← hostSide_beyond, e, hostSide_beyond]
  · rw [e]; rfl

theorem hostSide_sinkTurn (s : State) : hostSide (sinkTurn s) = hostSide s := by
  rcases sinkTurn_cases s with ⟨_, e⟩ | ⟨_, _, _, e⟩ <;> rw [e]
  rfl

theorem hostSide_runCommand (op : Op) (s : State) : hostSide (runCommand op s) = hostSide s :=
  runCommand_of_runOf (P := fun u => hostSide u = hostSide s) s rfl (fun _ => rfl) (fun _ _ h => h)
    (fun u h => (hostSide_sinkTurn u).trans h) (fun _ _ h => h)
    fun _ _ hop hp h => (hostSide_coreTurn hop hp).trans h

theorem hostSide_illegalCommand (op : BitVec 4) (s : State) : hostSide (illegalCommand op s) = hostSide s := by
  unfold illegalCommand
  split <;> rfl

theorem hostSide_execNop {s t : State} (h : execNop s = .next t) : hostSide t = hostSide s := by
  cases h
  split
  · rw [nop_turns, finishTurn]; split <;> rfl
  · rfl

theorem hostSide_exec {i : Instr} {s t : State} (h : exec i s = .next t) : hostSide t = hostSide s := by
  cases i with
  | nop => exact hostSide_execNop h
  | clear => cases h; rfl
  | illegalOpB rsv => cases h; exact hostSide_illegalCommand _ s
  | illegalOpCtoF lo rsv => cases h; exact hostSide_illegalCommand _ s
  | illegalReserved op rsv => cases h; exact hostSide_illegalCommand _ s
  | _ => cases h; exact hostSide_runCommand _ s

/-- Settles O47: no rule's turn reaches the host's side (`hostSide_coreTurn`), and neither does CLEAR, a refusal or an
illegal word. -/
theorem commandsKeepTheHostsSelections : Obligations.CommandsKeepTheHostsSelections := by
  intro i s t h
  have hsame := hostSide_exec h
  simp only [hostSide, Prod.mk.injEq] at hsame
  exact hsame

end Sys2Proof.Machine
end

section
/-! Proofs of the exceptions family (60_exceptions.md): what one step can be, and what it leaves of REJECT, ERR and the
host's selections (R342, R346, R355, R356, R381). -/

namespace Sys2Proof.Machine

/-! ## What a step is -/

/-- The forms of a step from s: the write of a command word, the write of a register, reset, a turn of the core or the
sink, and a transaction that touches the host's side only (R6). -/
inductive StepForm (s : State) : State → Prop where
  | command {v : Word} {rest : List Event} {u : State} (hs : s.script = .write 32 0x04 v :: rest)
      (hexec : exec (decode v) (side [] (s.ticks + 1) s) = .next u) : StepForm s { u with script := rest }
  | write {off : Offset} {v : Word} {rest : List Event} (hs : s.script = .write 32 off v :: rest) :
      StepForm s (regWrite off v (side rest (s.ticks + 1) s))
  | reset {rest : List Event} (hs : s.script = .reset :: rest) :
      StepForm s (resetCore (side rest (s.ticks + 1) s))
  | core (es : List Event) : StepForm s (coreTurn (side es (s.ticks + 1) s))
  | sink (es : List Event) : StepForm s (sinkTurn (side es (s.ticks + 1) s))
  | host (es : List Event) (n : Nat) (l : List (Offset × Word)) (q : List Item) :
      StepForm s { s with script := es, ticks := n, readLog := l, inQ := q }

theorem stepForm_of_write {s t : State} {w : Nat} {off : Offset} {v : Word} {rest : List Event}
    (hs : s.script = .write w off v :: rest) (h : writeTurn w off v (side rest (s.ticks + 1) s) = .next t) :
    StepForm s t := by
  cases hf : accessFault w off with
  | some f => rw [writeTurn, hf] at h; cases h
  | none =>
    obtain ⟨_, rfl⟩ := (accessFault_eq_none_iff w off).1 hf
    rw [writeTurn_legal hf] at h
    split at h
    next hoff =>
      subst hoff
      obtain ⟨u, hu, hturn⟩ := commandTurn_next v (side rest (s.ticks + 1) s)
      cases hturn.symm.trans h
      exact .command hs hu
    next => cases h; exact .write hs

theorem stepForm_of_step {s t : State} (h : step s = .next t) : StepForm s t := by
  cases hs : s.script with
  | nil =>
    rw [step, stepScript, hs] at h
    cases h
    exact .core s.script
  | cons e rest =>
    rw [step_of_script hs] at h
    cases e with
    | write w off v => exact stepForm_of_write hs h
    | read w off => rw [readStep_cases h]; exact .host rest s.ticks _ s.inQ
    | send it => cases h; exact .host rest _ s.readLog _
    | withdraw => cases h; exact .host rest _ s.readLog _
    | take => cases h; exact .sink rest
    | core => cases h; exact .core rest
    | reset => cases h; exact .reset hs
    | poll c =>
      cases h
      obtain ⟨es, l, e⟩ := pollTurn_frame c { s with script := rest }
      rw [e]
      exact .host es s.ticks l s.inQ

/-! ## What a turn of the core leaves -/

/-- Settles O9: a turn without a command is none. -/
theorem idleCoreTakesNoStep : Obligations.IdleCoreTakesNoStep := by
  intro s hidle
  rw [coreTurn, hidle]

/-- A turn of the core stays within the reach of some primitive's rule, or enters the error state with the cause that
is being raised (R342). -/
theorem coreTurn_reach (s : State) : (∃ p, beyond p (coreTurn s) = beyond p s) ∨
    ∃ c q op, s.point = .raising c q ∧ coreTurn s = enterError c op q s := by
  unfold coreTurn
  split
  · exact .inl ⟨.nop, rfl⟩
  next op ph _ =>
    by_cases hraise : ∃ c q, s.point = .raising c q
    · obtain ⟨c, q, hpt⟩ := hraise
      rw [hpt, pointTurn, raiseTurn]
      split
      · exact .inr ⟨c, q, _, rfl, rfl⟩
      · exact .inl ⟨.nop, rfl⟩
    · obtain ⟨p, hp, e⟩ := pointTurn_owner (currentPrim op ph) s.point
      rw [e]
      exact .inl ⟨p, beyond_pointTurn hp fun c q hpt => hraise ⟨c, q, hpt⟩⟩

/-- A turn of the core leaves REJECT and the error registers, or enters the error state (R342). -/
theorem errorRegs_coreTurn (s : State) : errorRegs (coreTurn s) = errorRegs s ∨
    ∃ c q op, s.point = .raising c q ∧ coreTurn s = enterError c op q s := by
  refine (coreTurn_reach s).imp_left fun ⟨p, e⟩ => ?_
  rw [← errorRegs_beyond p, e, errorRegs_beyond]

/-- No turn of the core reaches the host's side, whatever place it starts from. -/
theorem hostSide_anyCoreTurn (s : State) : hostSide (coreTurn s) = hostSide s := by
  rcases coreTurn_reach s with ⟨p, e⟩ | ⟨c, q, op, _, e⟩
  · rw [← hostSide_beyond p, e, hostSide_beyond]
  · rw [e]; rfl

/-! ## The entry of the error state -/

theorem coreTurn_of_raising_untaken {s : State} {c : Cause} {p : Nat} (hpt : s.point = .raising c p)
    (hout : s.out ≠ []) : coreTurn s = s := by
  unfold coreTurn
  split
  next => rfl
  next => rw [hpt, pointTurn, raiseTurn, if_neg (by simpa using hout)]

/-- Settles O16: the two turns of the raising place, with the opcode of each phase's primitive. -/
theorem raiseEntersTheErrorState : Obligations.RaiseEntersTheErrorState := by
  intro s op ph c p hop hpt
  refine ⟨coreTurn_of_raising_untaken hpt, fun hout => ?_⟩
  rw [coreTurn_of_raising hop hpt hout]
  cases op with
  | prim q => cases q <;> rfl
  | compress =>
    match ph with
    | 0 | 1 | 2 | 3 | _ + 4 => rfl
  | decompress => cases ph <;> rfl

/-! ## REJECT and ERR stay until CLEAR or reset -/

/-- REJECT and ERR, where they are set, stay set. -/
structure KeepsFlags (s t : State) : Prop where
  reject : s.reject = true → t.reject = true
  err : s.err = true → t.err = true

theorem KeepsFlags.of_errorRegs {s t : State} (h : errorRegs t = errorRegs s) : KeepsFlags s t := by
  simp only [errorRegs, Prod.mk.injEq] at h
  obtain ⟨hreject, herr, _⟩ := h
  exact ⟨hreject.trans, herr.trans⟩

theorem keepsFlags_coreTurn (s : State) : KeepsFlags s (coreTurn s) := by
  rcases errorRegs_coreTurn s with e | ⟨c, q, op, _, e⟩
  · exact .of_errorRegs e
  · rw [e]
    exact ⟨id, fun _ => rfl⟩

theorem errorRegs_sinkTurn (s : State) : errorRegs (sinkTurn s) = errorRegs s := by
  rcases sinkTurn_cases s with ⟨_, e⟩ | ⟨_, _, _, e⟩ <;> rw [e]
  rfl

theorem errorRegs_regWrite (off : Offset) (v : Word) (s : State) : errorRegs (regWrite off v s) = errorRegs s := by
  obtain ⟨d, i, e, x, w, hw⟩ := regWrite_frame off v s
  rw [hw]
  rfl

theorem not_accepting_of_pending {s : State} (h : s.opstate ≠ .idle ∨ s.err = true) : ¬ s.accepting = true := by
  rw [accepting_iff, not_and_or, Bool.not_eq_false]
  exact h

/-- A command word other than CLEAR keeps REJECT, and it is refused while an error is pending (R310, R356). -/
theorem keepsFlags_exec {i : Instr} {s t : State} (hclear : i ≠ .clear) (h : exec i s = .next t) :
    KeepsFlags s t where
  reject hr := by
    obtain ⟨_, hreject⟩ := commandsKeepTheErrorRegistersUnlessTheyRaise i s t h hclear
    simp [hreject, hr]
  err he := by
    cases (exec_of_not_accepting hclear (not_accepting_of_pending (.inr he))).symm.trans h
    exact he

/-- The next event is one of the two that clear the flags: CLEAR's write and reset (R346, R356). -/
def ClearsNext (s : State) : Prop :=
  ∃ rest, s.script = .write 32 0x04 0x00000001 :: rest ∨ s.script = .reset :: rest

theorem keepsFlags_step {s t : State} (h : step s = .next t) (hno : ¬ ClearsNext s) : KeepsFlags s t := by
  cases stepForm_of_step h with
  | @command v rest u hs hexec =>
    have hclear : decode v ≠ .clear := fun hd => hno ⟨rest, .inl (eq_one_of_decode_clear hd ▸ hs)⟩
    obtain ⟨hreject, herr⟩ := keepsFlags_exec hclear hexec
    exact ⟨hreject, herr⟩
  | write hs => exact .of_errorRegs (errorRegs_regWrite _ _ _)
  | reset hs => exact absurd ⟨_, .inr hs⟩ hno
  | core es =>
    obtain ⟨hreject, herr⟩ := keepsFlags_coreTurn (side es (s.ticks + 1) s)
    exact ⟨hreject, herr⟩
  | sink es => exact .of_errorRegs (errorRegs_sinkTurn _)
  | host es n l q => exact .of_errorRegs rfl

/-- Settles O10: a refusal sets REJECT alone (`exec_of_not_accepting`), and no other step takes a flag back
(`keepsFlags_step`). -/
theorem refusedCommandSetsOnlyReject : Obligations.RefusedCommandSetsOnlyReject := by
  refine ⟨fun i s hclear hpending => ?refused, fun s t h hset hfallen => ?falls⟩
  case refused => exact ⟨exec_of_not_accepting hclear (not_accepting_of_pending hpending), rfl⟩
  case falls =>
    by_contra hno
    exact Bool.false_ne_true (hfallen.symm.trans ((keepsFlags_step h hno).reject hset))

/-- Settles O14: no other step leaves the error state (`keepsFlags_step`), and CLEAR and reset do in every state. -/
theorem onlyClearOrResetLeavesTheErrorState : Obligations.OnlyClearOrResetLeavesTheErrorState := by
  refine ⟨fun s t h hset hfallen => ?only, fun s rest hs => ?leads⟩
  case only =>
    by_contra hno
    exact Bool.false_ne_true (hfallen.symm.trans ((keepsFlags_step h hno).err hset))
  case leads =>
    rcases hs with hs | hs
    · have hclear : decode 0x00000001 = .clear := decode_encode_of_mem_commands .clear (by decide)
      exact ⟨_, step_commandWrite hs (by rw [hclear]; rfl), rfl, rfl⟩
    · exact ⟨_, step_of_script hs, rfl, rfl⟩

end Sys2Proof.Machine
end

section
/-! Proofs of the exceptions family (60_exceptions.md): ERR and BUSY never hold together, and no rule raises an error
without a cause (R36, R347). -/

namespace Sys2Proof.Machine

/-! ## Every rule names the cause that it raises -/

/-- A place at which no error without a cause is being raised. -/
def Point.hasCause : Point → Bool
  | .raising c _ => c != .noCause
  | _ => true

theorem hasCause_iff (pt : Point) : pt.hasCause = true ↔ ∀ p, pt ≠ .raising .noCause p := by
  cases pt <;> simp [Point.hasCause]

/-- No error without a cause is being raised in the state. -/
def Caused (s : State) : Prop := s.point.hasCause = true

theorem Caused.finish {s : State} (h : Caused s) : Caused (finish s) := by
  rcases finish_cases s with ⟨_, e⟩ | ⟨_, _, _, _, e⟩ | ⟨_, _, _, _, e⟩ <;> rw [e]
  · exact h
  · rfl
  · rfl

theorem Caused.offer {b : Byte} {k : State → State} {s : State} (h : Caused s)
    (hk : ∀ t, Caused t → Caused (k t)) : Caused (offer b k s) := by
  rcases offer_cases b k s with ⟨_, e⟩ | ⟨_, e⟩ <;> rw [e]
  · exact h
  · exact hk _ h

theorem Caused.awaitItem {k : Item → Nat → State → State} {s : State} (h : Caused s)
    (hk : ∀ it ipos t, Caused t → Caused (k it ipos t)) : Caused (awaitItem k s) := by
  rcases awaitItem_cases k s with ⟨_, _, e⟩ | ⟨_, _, _, _, e⟩ | ⟨_, _, _, e⟩ <;> rw [e]
  · exact h
  · exact h
  · exact hk _ _ _ h

theorem caused_startTurn (p : Prim) {s : State} (h : Caused s) : Caused (startTurn p s) := by
  cases p with
  | nop => exact h.finish
  | scan => rfl
  | build => rfl
  | gencode => simp only [startTurn, genStart]; split <;> rfl
  | emitHeader =>
    simp only [startTurn, emitStart]
    (repeat' split)
    · rfl
    · exact h.finish
    · rfl
  | pack => simp only [startTurn, packStart]; split <;> rfl
  | parseHeader => rfl
  | unpack =>
    simp only [startTurn, unpackStart]
    (repeat' split)
    · rfl
    · exact h.finish
    · rfl

theorem caused_scanItem (it : Item) (ipos : Nat) {s : State} (h : Caused s) : Caused (scanItem it ipos s) := by
  cases it with
  | eos => exact h.finish
  | byte b =>
    simp only [scanItem]
    split
    · rfl
    · exact h

theorem caused_buildMerge {s : State} (h : Caused s) : Caused (buildMerge s) := by
  unfold buildMerge
  split
  · exact Caused.finish h
  · split
    · exact Caused.finish h
    · exact h

theorem caused_genWalk {s : State} (h : Caused s) : Caused (genWalk s) := by
  unfold genWalk
  split
  next => exact Caused.finish h
  next => unfold assignNode; split <;> exact h
  all_goals exact h

theorem caused_emitNode {s : State} (h : Caused s) : Caused (emitNode s) := by
  unfold emitNode
  split
  next => rfl
  next =>
    unfold serNode
    split
    · exact h.offer fun _ _ => rfl
    · exact h.offer fun _ ht => ht
  all_goals exact h

theorem caused_parseMarker (nint : Nat) (it : Item) (ipos : Nat) (s : State) :
    Caused (parseMarker nint it ipos s) := by
  cases it <;> simp only [parseMarker, parseInternal] <;> (repeat' split) <;> rfl

theorem caused_parseFirst (it : Item) (ipos : Nat) (s : State) : Caused (parseFirst it ipos s) := by
  cases it with
  | eos => rfl
  | byte m => exact caused_parseMarker 0 (.byte m) ipos s

theorem caused_parseSymbol (nint : Nat) (it : Item) (ipos : Nat) (s : State) :
    Caused (parseSymbol nint it ipos s) := by
  cases it <;> simp only [parseSymbol, parseLeaf] <;> (repeat' split) <;> rfl

theorem caused_parseSentinel (root : Nat) (it : Item) (ipos : Nat) (s : State) :
    Caused (parseSentinel root it ipos s) := by
  cases it <;> simp only [parseSentinel] <;> (repeat' split) <;> rfl

theorem caused_parsePad (root : Nat) (it : Item) (ipos : Nat) (s : State) : Caused (parsePad root it ipos s) := by
  cases it <;> simp only [parsePad] <;> (repeat' split) <;> rfl

theorem caused_packItem (n nb : Nat) (it : Item) (ipos : Nat) (s : State) : Caused (packItem n nb it ipos s) := by
  cases it <;> simp only [packItem] <;> (repeat' split) <;> rfl

theorem caused_packBits (b : Byte) (j n nb : Nat) {s : State} (h : Caused s) : Caused (packBits b j n nb s) := by
  simp only [packBits, putBit]
  (repeat' split)
  · exact h.offer fun _ _ => rfl
  · rfl
  · rfl

theorem caused_packFlush {s : State} (h : Caused s) : Caused (packFlush s) := by
  have hflush (t : State) (ht : Caused t) : Caused (flushed t) := Caused.finish ht
  unfold packFlush
  split
  · exact hflush s h
  · exact h.offer hflush

theorem caused_unpackFirst (it : Item) (ipos : Nat) (s : State) : Caused (unpackFirst it ipos s) := by
  cases it <;> rfl

theorem caused_unpackNext (lpos : Nat) (it : Item) (ipos : Nat) (s : State) :
    Caused (unpackNext lpos it ipos s) := by
  cases it <;> rfl

theorem caused_walkBit (x : Bool) (p : Nat) {k : State → State} {s : State} (h : Caused s)
    (hk : ∀ t, Caused (k t)) : Caused (walkBit x p k s) := by
  unfold walkBit
  (repeat' split)
  · rfl
  · exact h.offer fun t _ => hk t
  · exact h.offer fun _ _ => hk _
  · exact hk _

theorem caused_unpackEnd (c : Byte) (cpos : Nat) {s : State} (h : Caused s) : Caused (unpackEnd c cpos s) := by
  unfold unpackEnd
  (repeat' split)
  · rfl
  · rfl
  · exact Caused.finish h

theorem caused_unpackBits (c : Byte) (cpos : Nat) (last : Bool) (lpos j : Nat) {s : State} (h : Caused s) :
    Caused (unpackBits c cpos last lpos j s) := by
  unfold unpackBits
  (repeat' split)
  · exact caused_walkBit _ _ h fun _ => rfl
  · exact caused_unpackEnd c cpos h
  · rfl

/-- The turn at every place raises a cause of R341 or nothing. -/
theorem caused_pointTurn (p : Prim) (pt : Point) {s : State} (h : Caused s) : Caused (pointTurn p pt s) := by
  cases pt with
  | atStart => exact caused_startTurn p h
  | scanRead => exact h.awaitItem fun it ipos _ => caused_scanItem it ipos
  | buildMerge => exact caused_buildMerge h
  | genWalk => exact caused_genWalk h
  | emitNode => exact caused_emitNode h
  | emitSymbol b => exact h.offer fun _ _ => rfl
  | emitSentinel => exact h.offer fun _ _ => rfl
  | emitPad => exact h.offer fun _ => Caused.finish
  | parseFirst => exact h.awaitItem fun it ipos t _ => caused_parseFirst it ipos t
  | parseMarker nint => exact h.awaitItem fun it ipos t _ => caused_parseMarker nint it ipos t
  | parseSymbol nint => exact h.awaitItem fun it ipos t _ => caused_parseSymbol nint it ipos t
  | parseSentinel root => exact h.awaitItem fun it ipos t _ => caused_parseSentinel root it ipos t
  | parsePad root => exact h.awaitItem fun it ipos t _ => caused_parsePad root it ipos t
  | parseDone => exact Caused.finish h
  | packRead n nb => exact h.awaitItem fun it ipos t _ => caused_packItem n nb it ipos t
  | packBits b j n nb => exact caused_packBits b j n nb h
  | packFlush => exact caused_packFlush h
  | unpackFirst => exact h.awaitItem fun it ipos t _ => caused_unpackFirst it ipos t
  | unpackNext lpos => exact h.awaitItem fun it ipos t _ => caused_unpackNext lpos it ipos t
  | unpackBits c cpos last lpos j => exact caused_unpackBits c cpos last lpos j h
  | finishing =>
    rw [pointTurn, finishTurn]
    split
    · rfl
    · exact h
  | raising c q =>
    rw [pointTurn, raiseTurn]
    split
    · rfl
    · exact h

theorem caused_coreTurn {s : State} (h : Caused s) : Caused (coreTurn s) := by
  unfold coreTurn
  split
  · exact h
  · exact caused_pointTurn _ _ h

/-! ## ERR, BUSY and the cause -/

theorem ErrorState.caused {s : State} (h : ErrorState s) : Caused s := (hasCause_iff s.point).2 h.raising

/-- The same error, and no command that did not run before. -/
theorem ErrorState.congr {s t : State} (h : ErrorState s) (herr : t.err = s.err) (hcause : t.cause = s.cause)
    (hidle : s.opstate = .idle → t.opstate = .idle) (hcaused : Caused t) : ErrorState t :=
  ⟨fun he => hidle (h.idle (herr ▸ he)), by rw [herr, hcause]; exact h.cause, (hasCause_iff t.point).1 hcaused⟩

/-- The entry of the error state goes to IDLE with its cause (R342). -/
theorem errorState_enterError {c : Cause} (hc : c ≠ .noCause) (op : BitVec 4) (p : Nat) (s : State) :
    ErrorState (enterError c op p s) :=
  ⟨fun _ => rfl, iff_of_false Bool.noConfusion hc, fun _ => Point.noConfusion⟩

/-- The state with no error and no command. -/
theorem errorState_of_clean {s : State} (hidle : s.opstate = .idle) (hpt : s.point = .atStart) (herr : s.err = false)
    (hcause : s.cause = .noCause) : ErrorState s :=
  ⟨fun _ => hidle, iff_of_true herr hcause, by rw [hpt]; exact fun _ => Point.noConfusion⟩

theorem errorState_coreTurn {s : State} (h : ErrorState s) : ErrorState (coreTurn s) := by
  rcases errorRegs_coreTurn s with e | ⟨c, q, op, hpt, e⟩
  · simp only [errorRegs, Prod.mk.injEq] at e
    obtain ⟨_, herr, hcause, _⟩ := e
    exact h.congr herr hcause (fun hidle => (idleCoreTakesNoStep s hidle).symm ▸ hidle) (caused_coreTurn h.caused)
  · rw [e]
    refine errorState_enterError ?_ op q s
    rintro rfl
    exact h.raising q hpt

theorem errorState_closed : StepClosed ErrorState where
  script _ _ h := h.congr rfl rfl id h.caused
  ticks _ _ h := h.congr rfl rfl id h.caused
  log _ _ h := h.congr rfl rfl id h.caused
  core _ h := errorState_coreTurn h
  sink s h := by
    rcases sinkTurn_cases s with ⟨_, e⟩ | ⟨_, _, _, e⟩ <;> rw [e]
    · exact h
    · exact h.congr rfl rfl id h.caused
  send _ _ h := h.congr rfl rfl id h.caused
  withdraw _ h := h.congr rfl rfl id h.caused
  accept _ s h ha := by
    obtain ⟨_, herr⟩ := (accepting_iff s).1 ha
    exact ⟨fun he => absurd (herr.symm.trans he) Bool.false_ne_true, h.cause, fun _ => Point.noConfusion⟩
  illegal _ _ _ _ := errorState_enterError Cause.noConfusion _ _ _
  refuse _ h := h.congr rfl rfl id h.caused
  clear _ _ := errorState_of_clean rfl rfl rfl rfl
  reset _ _ := errorState_of_clean rfl rfl rfl rfl
  write off v s h := by
    obtain ⟨d, i, e, x, w, hw⟩ := regWrite_frame off v s
    rw [hw]
    exact h.congr rfl rfl id h.caused

/-- Settles O57: every transaction keeps the agreement, the core's turn because a running command has no error pending
and every rule names the cause that it raises (`caused_coreTurn`). -/
theorem errorAndBusyNeverHoldTogether : Obligations.ErrorAndBusyNeverHoldTogether :=
  fun s t => errorState_closed.step s t

end Sys2Proof.Machine
end

section
/-! Proofs of the reset family (70_reset_and_hazards.md): the state after reset, and what else changes the host's
selections (R380, R381). -/

namespace Sys2Proof.Machine

/-! ## The host's selections -/

/-- IRQ_EN, SEL and CODE_WSEL change only where their own offset is written (R315 to R317). -/
theorem regWrite_selections (off : Offset) (v : Word) (s : State) :
    (off ≠ 0x14 → (regWrite off v s).doneIe = s.doneIe ∧ (regWrite off v s).errIe = s.errIe) ∧
    (off ≠ 0x3C → (regWrite off v s).sel = s.sel) ∧ (off ≠ 0x48 → (regWrite off v s).codeWsel = s.codeWsel) := by
  by_cases hwritten : off ∈ [0x08#8, 0x14#8, 0x3C#8, 0x48#8]
  · simp only [List.mem_cons, List.not_mem_nil, or_false] at hwritten
    rcases hwritten with rfl | rfl | rfl | rfl
    · exact ⟨fun _ => ⟨rfl, rfl⟩, fun _ => rfl, fun _ => rfl⟩
    · exact ⟨fun hne => absurd rfl hne, fun _ => rfl, fun _ => rfl⟩
    · exact ⟨fun _ => ⟨rfl, rfl⟩, fun hne => absurd rfl hne, fun _ => rfl⟩
    · exact ⟨fun _ => ⟨rfl, rfl⟩, fun _ => rfl, fun hne => absurd rfl hne⟩
  · rw [regWrite_ignored hwritten]
    exact ⟨fun _ => ⟨rfl, rfl⟩, fun _ => rfl, fun _ => rfl⟩

/-- The interrupt enables and the two selections. -/
def selections (s : State) : Bool × Bool × BitVec 9 × BitVec 3 := (s.doneIe, s.errIe, s.sel, s.codeWsel)

theorem selections_of_hostSide {s t : State} (h : hostSide t = hostSide s) : selections t = selections s := by
  simp only [hostSide, Prod.mk.injEq] at h
  obtain ⟨hdone, herr, hsel, hwsel, _⟩ := h
  simp only [selections, hdone, herr, hsel, hwsel]

/-- A step leaves the selections, but for reset and the write of a register other than CMD. -/
theorem selections_step {s t : State} (h : step s = .next t) (hreset : ∀ rest, s.script ≠ .reset :: rest) :
    selections t = selections s ∨
      ∃ off v rest n, s.script = .write 32 off v :: rest ∧ t = regWrite off v (side rest n s) := by
  cases stepForm_of_step h with
  | command hs hexec =>
    have e := selections_of_hostSide (hostSide_exec hexec)
    exact .inl e
  | write hs => exact .inr ⟨_, _, _, _, hs, rfl⟩
  | reset hs => exact absurd hs (hreset _)
  | core es =>
    have e := selections_of_hostSide (hostSide_anyCoreTurn (side es (s.ticks + 1) s))
    exact .inl e
  | sink es =>
    have e := selections_of_hostSide (hostSide_sinkTurn (side es (s.ticks + 1) s))
    exact .inl e
  | host es n l q => exact .inl rfl

/-- Settles O26: the only steps left are the writes of the registers (`selections_step`), and each selection changes at
its own offset alone (`regWrite_selections`). -/
theorem onlyItsOwnWriteOrResetChangesASelection : Obligations.OnlyItsOwnWriteOrResetChangesASelection := by
  intro s t h hreset
  rcases selections_step h hreset with e | ⟨off, v, rest, n, hs, rfl⟩
  · simp only [selections, Prod.mk.injEq] at e
    obtain ⟨hdone, herr, hsel, hwsel⟩ := e
    exact ⟨fun _ => ⟨hdone, herr⟩, fun _ => hsel, fun _ => hwsel⟩
  · obtain ⟨hirq, hsel, hwsel⟩ := regWrite_selections off v (side rest n s)
    exact ⟨fun hno => hirq fun e => hno v rest (e ▸ hs), fun hno => hsel fun e => hno v rest (e ▸ hs),
      fun hno => hwsel fun e => hno v rest (e ▸ hs)⟩

/-! ## The state after reset -/

/-- What a register shows after reset does not rest on the host's side or the build's parameters. -/
theorem exactRead_resetCore (r : Reg) (s : State) : exactRead r (resetCore s) = exactRead r State.reset := by
  cases r <;> rfl

/-- Every register but ID shows 0 in the reset state (R380). -/
theorem exactRead_reset (r : Reg) : exactRead r State.reset = if r = .id then 0x48554646#32 else 0 := by
  cases r <;> decide

theorem offset_eq_zero_iff (r : Reg) : r.offset = 0x00 ↔ r = .id := by
  cases r <;> decide

/-- Settles O18: no command runs after reset, so that a register shows its field (`exactRead_reset`); ID alone stands at
0x00. -/
theorem everyRegisterReadsItsResetValue : Obligations.EveryRegisterReadsItsResetValue := by
  intro s off
  cases hreg : regAt off with
  | none =>
    have hid : off ≠ 0x00 := by rintro rfl; cases hreg
    rw [regRead, hreg, if_neg hid]
  | some r =>
    obtain rfl := regAt_eq_some_iff.1 hreg
    rw [regRead_exact hreg (.inl rfl), exactRead_resetCore, exactRead_reset]
    simp only [offset_eq_zero_iff]

/-- Settles O27: reset and `Clear()` write the same values, and the hidden memories are left open. -/
theorem resetIsClearWithZeroSelections : Obligations.ResetIsClearWithZeroSelections := fun s =>
  ⟨clearCore { s with cmdOp := 1 }, (resetCore s).node, (resetCore s).bits, (resetCore s).seen, rfl, rfl⟩

/-- Settles O60: each invariant by its own lemma about an empty state. -/
theorem resetIsSound : Obligations.ResetIsSound := fun s =>
  { work := ⟨fun _ => rfl, fun _ => rfl, fun _ => ⟨rfl, rfl, rfl, rfl, rfl, rfl, rfl, rfl⟩⟩
    error := errorState_of_clean rfl rfl rfl rfl
    tree := .of_rests rfl (treeAgrees_of_noTree ⟨rfl, rfl, rfl, rfl, rfl⟩ rfl rfl)
    counts := ⟨sum_zeroCounts, Nat.zero_le _⟩
    values := valuesBounded_resetCore s
    output := Nat.zero_le _ }

end Sys2Proof.Machine
end
